-- ==== Sys2Proof/Word.lean ====
section
/-! DEFINITION. The words and the plainest shapes of the D860: bytes, ports, streams, the numbers of
lanes, pipes and slots, and a value per port or per stream. -/

namespace Sys2Proof

/-- Eight bits, the unit of every window, slot and store of the part. -/
abbrev Byte := BitVec 8

/-- The three PCIe endpoint ports (00_scope section 1). -/
inductive Port where
  | p0
  | p1
  | p2
  deriving DecidableEq, Repr

/-- The three streams of a lecture (00_scope section 1). -/
inductive Stream where
  | cam
  | slide
  | audio
  deriving DecidableEq, Repr

/-- A slot of the Programme Table, 0 to 31 (R1). -/
abbrev SlotId := Fin 32
/-- An ingest lane, L0 to L7 (R41). -/
abbrev LaneId := Fin 8
/-- An encode pipe, E0 to E3 (R117). -/
abbrev PipeId := Fin 4

/-- One value for each port. -/
structure PerPort (α : Type) where
  p0 : α
  p1 : α
  p2 : α
  deriving DecidableEq, Repr

/-- One value for each stream. -/
structure PerStream (α : Type) where
  cam   : α
  slide : α
  audio : α
  deriving DecidableEq, Repr

def PerPort.get {α : Type} (v : PerPort α) : Port → α
  | .p0 => v.p0
  | .p1 => v.p1
  | .p2 => v.p2

def PerPort.set {α : Type} (v : PerPort α) (p : Port) (a : α) : PerPort α :=
  match p with
  | .p0 => { v with p0 := a }
  | .p1 => { v with p1 := a }
  | .p2 => { v with p2 := a }

def PerPort.const {α : Type} (a : α) : PerPort α := ⟨a, a, a⟩

def PerPort.map {α β : Type} (f : α → β) (v : PerPort α) : PerPort β := ⟨f v.p0, f v.p1, f v.p2⟩

def PerStream.get {α : Type} (v : PerStream α) : Stream → α
  | .cam => v.cam
  | .slide => v.slide
  | .audio => v.audio

def PerStream.set {α : Type} (v : PerStream α) (st : Stream) (a : α) : PerStream α :=
  match st with
  | .cam => { v with cam := a }
  | .slide => { v with slide := a }
  | .audio => { v with audio := a }

def PerStream.const {α : Type} (a : α) : PerStream α := ⟨a, a, a⟩

def PerStream.map {α β : Type} (f : α → β) (v : PerStream α) : PerStream β :=
  ⟨f v.cam, f v.slide, f v.audio⟩

/-- The ports in number order. -/
def Port.all : List Port := [.p0, .p1, .p2]

/-- The streams in the order CAM, SLIDE, AUDIO (R133). -/
def Stream.all : List Stream := [.cam, .slide, .audio]

/-- A set of ports, without duplicates by its form (R1). -/
abbrev PortSet := PerPort Bool

end Sys2Proof
end

