-- ==== Sys2Proof/Syntax.lean ====
section
/-! DEFINITION. The commands of the part: one constructor of `Instr` for each row of the opcode table, with the
operands as they reach the part (the raw fields of R180 for the thirty port commands; an event of the data path
names the lane, pipe or item it concerns). -/

namespace Sys2Proof

/-- A programme handle as a command record carries it: a slot byte and a generation (R2, R180). -/
structure RawHandle where
  slot : Byte
  gen  : Byte
  deriving DecidableEq, Repr

/-- A handle that names a slot of the table: the slot and a generation (R2). -/
structure Handle where
  slot : SlotId
  gen  : Byte
  deriving DecidableEq, Repr

/-- One field value of Stage Settings as the record carries it: code, selector, signed value (R180). -/
structure RawField where
  code     : BitVec 16
  selector : BitVec 16
  value    : BitVec 32
  deriving DecidableEq, Repr

/-- One rendition of Open Programme as the record carries it: stream code and bitrate in kbit/s (R180). -/
structure RawRendition where
  stream  : Byte
  bitrate : BitVec 16
  deriving DecidableEq, Repr

/-- An entry of the Accept Queue as it is named from outside: handle, stream and sequence number (R109). -/
structure ItemName where
  handle : Handle
  stream : Stream
  seq    : BitVec 24
  deriving DecidableEq, Repr

/-- One encoding of an item by a pipe: the item's name and, the MODEL's own, the number of the dispatch that began it, which tells
it from the encoding of an earlier item of the same name (R122, log 36). -/
structure Encoding where
  name : ItemName
  run  : Nat
  deriving DecidableEq, Repr

/-- What a pipe returns for one rendition: a byte count and the bytes (R118). The bytes stand as (offset, byte)
pairs at strictly rising offsets; an offset not listed holds 0. -/
structure EncodedOutput where
  count : Nat
  bytes : List Host.Cell
  deriving DecidableEq, Repr

/-- The thirty commands of the command set (section 10.4, R180), with their operands as raw fields. -/
inductive PortCommand where
  | openProgramme (frame : BitVec 16) (streamSet : Byte) (renditions : List RawRendition)
  | startIngest (h : RawHandle)
  | resumeIngest (h : RawHandle)
  | closeIngest (h : RawHandle)
  | retireProgramme (h : RawHandle)
  | abortProgramme (h : RawHandle)
  | watchProgramme (h : RawHandle)
  | leaveProgramme (h : RawHandle)
  | stageSettings (h : RawHandle) (renew : Byte) (fields : List RawField)
  | readStaging
  | commitSettings (h : RawHandle) (revision : BitVec 32)
  | attachLane (h : RawHandle) (stream : Byte)
  | detachLane (lane : Byte)
  | postChunk (lane : Byte) (count : BitVec 16)
  | laneStatus (lane : Byte)
  | insertChapter (h : RawHandle) (time : BitVec 32)
  | readChapters (h : RawHandle) (start : BitVec 16)
  | listSegments (h : RawHandle) (rendition : Byte) (fromIndex : BitVec 32)
  | fetchSegment (h : RawHandle) (rendition : Byte) (index offset length : BitVec 32)
  | releaseSegment (h : RawHandle) (rendition : Byte) (index : BitVec 32)
  | programmeStatus (h : RawHandle)
  | readError (h : RawHandle)
  | clearError (h : RawHandle)
  | nextAttention (start : Byte) (kinds : Byte)
  | clearAttention (h : Option RawHandle) (kinds : Byte) (laneSlot : Byte)
  | setAttentionMask (kinds : Byte)
  | setHold
  | clearHold
  | deviceStatus
  | resetPort
  deriving DecidableEq, Repr

/-- The commands of the block, one for each row of the opcode table. `p` is the port that sends a command and `tag`
the tag of its record (R169). A completion names the encoding that ends. -/
inductive Instr where
  | openProgramme (p : Port) (tag : BitVec 16) (frame : BitVec 16) (streamSet : Byte) (renditions : List RawRendition)
  | startIngest (p : Port) (tag : BitVec 16) (h : RawHandle)
  | resumeIngest (p : Port) (tag : BitVec 16) (h : RawHandle)
  | closeIngest (p : Port) (tag : BitVec 16) (h : RawHandle)
  | retireProgramme (p : Port) (tag : BitVec 16) (h : RawHandle)
  | abortProgramme (p : Port) (tag : BitVec 16) (h : RawHandle)
  | watchProgramme (p : Port) (tag : BitVec 16) (h : RawHandle)
  | leaveProgramme (p : Port) (tag : BitVec 16) (h : RawHandle)
  | stageSettings (p : Port) (tag : BitVec 16) (h : RawHandle) (renew : Byte) (fields : List RawField)
  | readStaging (p : Port) (tag : BitVec 16)
  | commitSettings (p : Port) (tag : BitVec 16) (h : RawHandle) (revision : BitVec 32)
  | attachLane (p : Port) (tag : BitVec 16) (h : RawHandle) (stream : Byte)
  | detachLane (p : Port) (tag : BitVec 16) (lane : Byte)
  | postChunk (p : Port) (tag : BitVec 16) (lane : Byte) (count : BitVec 16)
  | laneStatus (p : Port) (tag : BitVec 16) (lane : Byte)
  | insertChapter (p : Port) (tag : BitVec 16) (h : RawHandle) (time : BitVec 32)
  | readChapters (p : Port) (tag : BitVec 16) (h : RawHandle) (start : BitVec 16)
  | listSegments (p : Port) (tag : BitVec 16) (h : RawHandle) (rendition : Byte) (fromIndex : BitVec 32)
  | fetchSegment (p : Port) (tag : BitVec 16) (h : RawHandle) (rendition : Byte) (index offset length : BitVec 32)
  | releaseSegment (p : Port) (tag : BitVec 16) (h : RawHandle) (rendition : Byte) (index : BitVec 32)
  | programmeStatus (p : Port) (tag : BitVec 16) (h : RawHandle)
  | readError (p : Port) (tag : BitVec 16) (h : RawHandle)
  | clearError (p : Port) (tag : BitVec 16) (h : RawHandle)
  | nextAttention (p : Port) (tag : BitVec 16) (start : Byte) (kinds : Byte)
  | clearAttention (p : Port) (tag : BitVec 16) (h : Option RawHandle) (kinds : Byte) (laneSlot : Byte)
  | setAttentionMask (p : Port) (tag : BitVec 16) (kinds : Byte)
  | setHold (p : Port) (tag : BitVec 16)
  | clearHold (p : Port) (tag : BitVec 16)
  | deviceStatus (p : Port) (tag : BitVec 16)
  | resetPort (p : Port) (tag : BitVec 16)
  | submitWord (p : Port) (value : BitVec 32)
  | takeWord (p : Port) (value : BitVec 32)
  | fillWindowWrite (p : Port) (lane : LaneId) (offset : Nat) (bytes : List Byte)
  | bulkWindowWrite (p : Port) (offset : Nat) (bytes : List Byte)
  | linkReset (p : Port)
  | deviceReset
  | headerParse
  | malformedHeader (lane : LaneId)
  | unitComplete (lane : LaneId)
  | slotFree (lane : LaneId)
  | flushBoundary (lane : LaneId)
  | endOfStream (lane : LaneId)
  | pipeCompletion (pipe : PipeId) (item : Encoding) (outputs : List EncodedOutput)
  | watchdogExpiry (pipe : PipeId)
  | storageGrant
  | tableGrant
  deriving DecidableEq, Repr

/-- The port, tag and command that a command row stands for; none for a row that is no port command. -/
def Instr.command : Instr → Option (Port × BitVec 16 × PortCommand)
  | .openProgramme p t f ss rl => some (p, t, .openProgramme f ss rl)
  | .startIngest p t h => some (p, t, .startIngest h)
  | .resumeIngest p t h => some (p, t, .resumeIngest h)
  | .closeIngest p t h => some (p, t, .closeIngest h)
  | .retireProgramme p t h => some (p, t, .retireProgramme h)
  | .abortProgramme p t h => some (p, t, .abortProgramme h)
  | .watchProgramme p t h => some (p, t, .watchProgramme h)
  | .leaveProgramme p t h => some (p, t, .leaveProgramme h)
  | .stageSettings p t h r fs => some (p, t, .stageSettings h r fs)
  | .readStaging p t => some (p, t, .readStaging)
  | .commitSettings p t h r => some (p, t, .commitSettings h r)
  | .attachLane p t h st => some (p, t, .attachLane h st)
  | .detachLane p t l => some (p, t, .detachLane l)
  | .postChunk p t l c => some (p, t, .postChunk l c)
  | .laneStatus p t l => some (p, t, .laneStatus l)
  | .insertChapter p t h tm => some (p, t, .insertChapter h tm)
  | .readChapters p t h i => some (p, t, .readChapters h i)
  | .listSegments p t h r i => some (p, t, .listSegments h r i)
  | .fetchSegment p t h r i o n => some (p, t, .fetchSegment h r i o n)
  | .releaseSegment p t h r i => some (p, t, .releaseSegment h r i)
  | .programmeStatus p t h => some (p, t, .programmeStatus h)
  | .readError p t h => some (p, t, .readError h)
  | .clearError p t h => some (p, t, .clearError h)
  | .nextAttention p t s k => some (p, t, .nextAttention s k)
  | .clearAttention p t h k l => some (p, t, .clearAttention h k l)
  | .setAttentionMask p t k => some (p, t, .setAttentionMask k)
  | .setHold p t => some (p, t, .setHold)
  | .clearHold p t => some (p, t, .clearHold)
  | .deviceStatus p t => some (p, t, .deviceStatus)
  | .resetPort p t => some (p, t, .resetPort)
  | .submitWord _ _ => none
  | .takeWord _ _ => none
  | .fillWindowWrite _ _ _ _ => none
  | .bulkWindowWrite _ _ _ => none
  | .linkReset _ => none
  | .deviceReset => none
  | .headerParse => none
  | .malformedHeader _ => none
  | .unitComplete _ => none
  | .slotFree _ => none
  | .flushBoundary _ => none
  | .endOfStream _ => none
  | .pipeCompletion _ _ _ => none
  | .watchdogExpiry _ => none
  | .storageGrant => none
  | .tableGrant => none

end Sys2Proof
end

