-- ==== Sys2Proof/WellFormed.lean ====
section
/-! DEFINITION. Which terms of `Instr` a server or a block of the part can really send: list lengths that fit the
count bytes of the records, window writes that stay inside their window, and completion reports whose bytes are
written in the one canonical form. -/

namespace Sys2Proof

/-- A list of cells in canonical form: offsets strictly rising, no cell 0, every offset below `n`. -/
def cellsCanonicalFrom (lo n : Nat) : List Host.Cell → Bool
  | [] => true
  | (a, b) :: rest => decide (lo ≤ a) && decide (a < n) && decide (b ≠ 0) && cellsCanonicalFrom (a + 1) n rest

/-- The report of one rendition: bytes at offsets below the count only (R118). -/
def EncodedOutput.wf (o : EncodedOutput) : Bool := cellsCanonicalFrom 0 o.count o.bytes

/-- An offset of the bulk window whose writes have a row of their own: the submit word, the take word and the
eight lane fill windows (R168). -/
def bulkOffsetHasOwnRow (a : Nat) : Bool :=
  (decide (4088 ≤ a) && decide (a < 4092)) || (decide (8188 ≤ a) && decide (a < 8192)) ||
    (decide (65536 ≤ a) && decide (a < 327680))

/-- No offset from `a` on, for `n` bytes, has a row of its own. -/
def bulkRangeFree (a : Nat) : Nat → Bool
  | 0 => true
  | n + 1 => !bulkOffsetHasOwnRow a && bulkRangeFree (a + 1) n

/-- A write through a fill window lies within its 32 768 bytes (R43, R168). -/
def fillWriteWf (offset : Nat) (bytes : List Byte) : Bool := decide (offset + bytes.length ≤ 32768)

/-- A write of the BULK_WINDOW_WRITE row lies within the 384 KiB of the bulk window and touches no region that
has a row of its own (R168). -/
def bulkWriteWf (offset : Nat) (bytes : List Byte) : Bool :=
  decide (offset + bytes.length ≤ 393216) && bulkRangeFree offset bytes.length

/-- A completion reports one to three outputs (R118: one for each rendition of a stream). -/
def reportWf (outputs : List EncodedOutput) : Bool :=
  decide (1 ≤ outputs.length) && decide (outputs.length ≤ 3) && outputs.all EncodedOutput.wf

/-- The count byte of a record holds at most 255 (R180). -/
def countFits {α : Type} (l : List α) : Bool := decide (l.length < 256)

/-- A port command whose lists fit the count bytes of its record. -/
def PortCommand.wf : PortCommand → Bool
  | .openProgramme _ _ rl => countFits rl
  | .stageSettings _ _ fs => countFits fs
  | .startIngest _ | .resumeIngest _ | .closeIngest _ | .retireProgramme _ | .abortProgramme _
  | .watchProgramme _ | .leaveProgramme _ | .readStaging | .commitSettings _ _ | .attachLane _ _
  | .detachLane _ | .postChunk _ _ | .laneStatus _ | .insertChapter _ _ | .readChapters _ _
  | .listSegments _ _ _ | .fetchSegment _ _ _ _ _ | .releaseSegment _ _ _ | .programmeStatus _
  | .readError _ | .clearError _ | .nextAttention _ _ | .clearAttention _ _ _ | .setAttentionMask _
  | .setHold | .clearHold | .deviceStatus | .resetPort => true

def Instr.wf : Instr → Bool
  | .openProgramme _ _ _ _ rl => countFits rl
  | .stageSettings _ _ _ _ fs => countFits fs
  | .fillWindowWrite _ _ a bs => fillWriteWf a bs
  | .bulkWindowWrite _ a bs => bulkWriteWf a bs
  | .pipeCompletion _ _ outs => reportWf outs
  | .startIngest _ _ _ | .resumeIngest _ _ _ | .closeIngest _ _ _ | .retireProgramme _ _ _
  | .abortProgramme _ _ _ | .watchProgramme _ _ _ | .leaveProgramme _ _ _ | .readStaging _ _
  | .commitSettings _ _ _ _ | .attachLane _ _ _ _ | .detachLane _ _ _ | .postChunk _ _ _ _
  | .laneStatus _ _ _ | .insertChapter _ _ _ _ | .readChapters _ _ _ _ | .listSegments _ _ _ _ _
  | .fetchSegment _ _ _ _ _ _ _ | .releaseSegment _ _ _ _ _ | .programmeStatus _ _ _ | .readError _ _ _
  | .clearError _ _ _ | .nextAttention _ _ _ _ | .clearAttention _ _ _ _ _ | .setAttentionMask _ _ _
  | .setHold _ _ | .clearHold _ _ | .deviceStatus _ _ | .resetPort _ _ | .submitWord _ _ | .takeWord _ _
  | .linkReset _ | .deviceReset | .headerParse | .malformedHeader _ | .unitComplete _ | .slotFree _
  | .flushBoundary _ | .endOfStream _ | .watchdogExpiry _ | .storageGrant | .tableGrant => true

end Sys2Proof
end

