-- ==== Sys2Proof/Decode.lean ====
section
/-! DEFINITION. Reading and writing the records that cross the ports (chapter 11): the command record of R180, the
unit header of R182, and `decodeTableWord`, which answers none because no row of the opcode table gives bits. -/

namespace Sys2Proof

/-! ### Byte order (R179: little-endian) -/

/-- The 16-bit field whose byte at the lower offset is `b0`. -/
def word16 (b0 b1 : Byte) : BitVec 16 := b1 ++ b0

/-- The 32-bit field whose bytes, from the lowest offset up, are `b0` to `b3`. -/
def word32 (b0 b1 b2 b3 : Byte) : BitVec 32 := b3 ++ b2 ++ b1 ++ b0

def bytes16 (w : BitVec 16) : List Byte := [w.extractLsb' 0 8, w.extractLsb' 8 8]

def bytes32 (w : BitVec 32) : List Byte :=
  [w.extractLsb' 0 8, w.extractLsb' 8 8, w.extractLsb' 16 8, w.extractLsb' 24 8]

def bytes64 (w : BitVec 64) : List Byte :=
  [w.extractLsb' 0 8, w.extractLsb' 8 8, w.extractLsb' 16 8, w.extractLsb' 24 8,
   w.extractLsb' 32 8, w.extractLsb' 40 8, w.extractLsb' 48 8, w.extractLsb' 56 8]

/-! ### Command codes (R180) -/

def PortCommand.code : PortCommand → BitVec 16
  | .openProgramme _ _ _ => 0x01
  | .startIngest _ => 0x02
  | .resumeIngest _ => 0x03
  | .closeIngest _ => 0x04
  | .abortProgramme _ => 0x05
  | .retireProgramme _ => 0x06
  | .watchProgramme _ => 0x10
  | .leaveProgramme _ => 0x11
  | .stageSettings _ _ _ => 0x20
  | .readStaging => 0x21
  | .commitSettings _ _ => 0x22
  | .attachLane _ _ => 0x30
  | .detachLane _ => 0x31
  | .postChunk _ _ => 0x32
  | .laneStatus _ => 0x33
  | .insertChapter _ _ => 0x40
  | .readChapters _ _ => 0x41
  | .listSegments _ _ _ => 0x50
  | .fetchSegment _ _ _ _ _ => 0x51
  | .releaseSegment _ _ _ => 0x52
  | .programmeStatus _ => 0x60
  | .readError _ => 0x61
  | .clearError _ => 0x62
  | .nextAttention _ _ => 0x70
  | .clearAttention _ _ _ => 0x71
  | .setAttentionMask _ => 0x72
  | .setHold => 0x80
  | .clearHold => 0x81
  | .deviceStatus => 0x90
  | .resetPort => 0x91

/-- The handle that a command's header carries, where it carries one (R180). -/
def PortCommand.handle : PortCommand → Option RawHandle
  | .startIngest h | .resumeIngest h | .closeIngest h | .retireProgramme h | .abortProgramme h
  | .watchProgramme h | .leaveProgramme h | .stageSettings h _ _ | .commitSettings h _ | .attachLane h _
  | .insertChapter h _ | .readChapters h _ | .listSegments h _ _ | .fetchSegment h _ _ _ _
  | .releaseSegment h _ _ | .programmeStatus h | .readError h | .clearError h => some h
  | .clearAttention h _ _ => h
  | .openProgramme _ _ _ | .readStaging | .detachLane _ | .postChunk _ _ | .laneStatus _ | .nextAttention _ _
  | .setAttentionMask _ | .setHold | .clearHold | .deviceStatus | .resetPort => none

/-! ### Writing a command record (R180) -/

def encodeRendition (r : RawRendition) : List Byte := r.stream :: 0 :: bytes16 r.bitrate

def encodeField (f : RawField) : List Byte := bytes16 f.code ++ (bytes16 f.selector ++ bytes32 f.value)

/-- The operand bytes, from offset 16. -/
def encodeOperands : PortCommand → List Byte
  | .openProgramme f ss rl => bytes16 f ++ (ss :: BitVec.ofNat 8 rl.length :: rl.flatMap encodeRendition)
  | .stageSettings _ r fs => r :: BitVec.ofNat 8 fs.length :: 0 :: 0 :: fs.flatMap encodeField
  | .commitSettings _ r => bytes32 r
  | .attachLane _ st => [st, 0, 0, 0]
  | .detachLane l => [l, 0, 0, 0]
  | .laneStatus l => [l, 0, 0, 0]
  | .postChunk l c => l :: 0 :: bytes16 c
  | .insertChapter _ t => bytes32 t
  | .readChapters _ i => bytes16 i ++ [0, 0]
  | .listSegments _ r i => r :: 0 :: 0 :: 0 :: bytes32 i
  | .fetchSegment _ r i o n => r :: 0 :: 0 :: 0 :: (bytes32 i ++ (bytes32 o ++ bytes32 n))
  | .releaseSegment _ r i => r :: 0 :: 0 :: 0 :: bytes32 i
  | .nextAttention s k => [s, k, 0, 0]
  | .clearAttention _ k l => [k, l, 0, 0]
  | .setAttentionMask k => [k, 0, 0, 0]
  | .startIngest _ | .resumeIngest _ | .closeIngest _ | .retireProgramme _ | .abortProgramme _
  | .watchProgramme _ | .leaveProgramme _ | .readStaging | .programmeStatus _ | .readError _
  | .clearError _ | .setHold | .clearHold | .deviceStatus | .resetPort => []

/-- Handle flag, slot and generation bytes (R180). -/
def encodeHandle : Option RawHandle → List Byte
  | some h => [1, h.slot, h.gen]
  | none => [0, 0, 0]

/-- The command record of a command: header and operands (R180). -/
def encodeRecord (tag : BitVec 16) (c : PortCommand) : List Byte :=
  bytes16 (BitVec.ofNat 16 (16 + (encodeOperands c).length)) ++ (bytes16 c.code ++ (bytes16 tag ++
    (encodeHandle c.handle ++ ([0, 0, 0, 0, 0, 0, 0] ++ encodeOperands c))))

/-! ### Reading a command record (R180) -/

/-- `n` rendition records of four bytes, the second of each zero. -/
def decodeRenditions : Nat → List Byte → Option (List RawRendition)
  | 0, [] => some []
  | n + 1, s :: z :: b0 :: b1 :: rest =>
      if z = 0 then (decodeRenditions n rest).map (⟨s, word16 b0 b1⟩ :: ·) else none
  | _, _ => none

/-- `n` field records of eight bytes. -/
def decodeFields : Nat → List Byte → Option (List RawField)
  | 0, [] => some []
  | n + 1, c0 :: c1 :: s0 :: s1 :: v0 :: v1 :: v2 :: v3 :: rest =>
      (decodeFields n rest).map (⟨word16 c0 c1, word16 s0 s1, word32 v0 v1 v2 v3⟩ :: ·)
  | _, _ => none

/-- A command that takes a handle and no operand. -/
def handleOnly (mk : RawHandle → PortCommand) (h : Option RawHandle) (ops : List Byte) : Option PortCommand :=
  match h, ops with
  | some h, [] => some (mk h)
  | _, _ => none

/-- A command with neither handle nor operand. -/
def plain (c : PortCommand) (h : Option RawHandle) (ops : List Byte) : Option PortCommand :=
  match h, ops with
  | none, [] => some c
  | _, _ => none

/-- A command without a handle whose operands are one byte and three zero bytes. -/
def byteOnly (mk : Byte → PortCommand) (h : Option RawHandle) (ops : List Byte) : Option PortCommand :=
  match h, ops with
  | none, [b, z1, z2, z3] => if z1 = 0 ∧ z2 = 0 ∧ z3 = 0 then some (mk b) else none
  | _, _ => none

def decodeOpen (h : Option RawHandle) (ops : List Byte) : Option PortCommand :=
  match h, ops with
  | none, f0 :: f1 :: ss :: n :: rest => (decodeRenditions n.toNat rest).map (.openProgramme (word16 f0 f1) ss ·)
  | _, _ => none

def decodeStage (h : Option RawHandle) (ops : List Byte) : Option PortCommand :=
  match h, ops with
  | some h, r :: n :: z1 :: z2 :: rest =>
      if z1 = 0 ∧ z2 = 0 then (decodeFields n.toNat rest).map (.stageSettings h r ·) else none
  | _, _ => none

def decodeCommit (h : Option RawHandle) (ops : List Byte) : Option PortCommand :=
  match h, ops with
  | some h, [a, b, c, d] => some (.commitSettings h (word32 a b c d))
  | _, _ => none

def decodeAttach (h : Option RawHandle) (ops : List Byte) : Option PortCommand :=
  match h, ops with
  | some h, [st, z1, z2, z3] => if z1 = 0 ∧ z2 = 0 ∧ z3 = 0 then some (.attachLane h st) else none
  | _, _ => none

def decodePost (h : Option RawHandle) (ops : List Byte) : Option PortCommand :=
  match h, ops with
  | none, [l, z, c0, c1] => if z = 0 then some (.postChunk l (word16 c0 c1)) else none
  | _, _ => none

def decodeInsert (h : Option RawHandle) (ops : List Byte) : Option PortCommand :=
  match h, ops with
  | some h, [a, b, c, d] => some (.insertChapter h (word32 a b c d))
  | _, _ => none

def decodeReadChapters (h : Option RawHandle) (ops : List Byte) : Option PortCommand :=
  match h, ops with
  | some h, [a, b, z1, z2] => if z1 = 0 ∧ z2 = 0 then some (.readChapters h (word16 a b)) else none
  | _, _ => none

/-- Rendition byte, three zero bytes and one 32-bit operand: List Segments and Release Segment. -/
def decodeRenditionWord (mk : RawHandle → Byte → BitVec 32 → PortCommand) (h : Option RawHandle) (ops : List Byte) :
    Option PortCommand :=
  match h, ops with
  | some h, [r, z1, z2, z3, a, b, c, d] =>
      if z1 = 0 ∧ z2 = 0 ∧ z3 = 0 then some (mk h r (word32 a b c d)) else none
  | _, _ => none

def decodeFetch (h : Option RawHandle) (ops : List Byte) : Option PortCommand :=
  match h, ops with
  | some h, [r, z1, z2, z3, a, b, c, d, e, f, g, i, j, k, l, m] =>
      if z1 = 0 ∧ z2 = 0 ∧ z3 = 0 then
        some (.fetchSegment h r (word32 a b c d) (word32 e f g i) (word32 j k l m))
      else none
  | _, _ => none

def decodeNextAttention (h : Option RawHandle) (ops : List Byte) : Option PortCommand :=
  match h, ops with
  | none, [s, k, z1, z2] => if z1 = 0 ∧ z2 = 0 then some (.nextAttention s k) else none
  | _, _ => none

/-- Clear Attention accepts either value of the handle flag. -/
def decodeClearAttention (h : Option RawHandle) (ops : List Byte) : Option PortCommand :=
  match ops with
  | [k, l, z1, z2] => if z1 = 0 ∧ z2 = 0 then some (.clearAttention h k l) else none
  | _ => none

/-- The operands of the command with this code (the table of R180); none for a code not in the table, for a wrong
handle flag, a wrong length or a zero byte that is not 0. -/
def decodeOperands (code : BitVec 16) (h : Option RawHandle) (ops : List Byte) : Option PortCommand :=
  if code = 0x01 then decodeOpen h ops
  else if code = 0x02 then handleOnly .startIngest h ops
  else if code = 0x03 then handleOnly .resumeIngest h ops
  else if code = 0x04 then handleOnly .closeIngest h ops
  else if code = 0x05 then handleOnly .abortProgramme h ops
  else if code = 0x06 then handleOnly .retireProgramme h ops
  else if code = 0x10 then handleOnly .watchProgramme h ops
  else if code = 0x11 then handleOnly .leaveProgramme h ops
  else if code = 0x20 then decodeStage h ops
  else if code = 0x21 then plain .readStaging h ops
  else if code = 0x22 then decodeCommit h ops
  else if code = 0x30 then decodeAttach h ops
  else if code = 0x31 then byteOnly .detachLane h ops
  else if code = 0x32 then decodePost h ops
  else if code = 0x33 then byteOnly .laneStatus h ops
  else if code = 0x40 then decodeInsert h ops
  else if code = 0x41 then decodeReadChapters h ops
  else if code = 0x50 then decodeRenditionWord .listSegments h ops
  else if code = 0x51 then decodeFetch h ops
  else if code = 0x52 then decodeRenditionWord .releaseSegment h ops
  else if code = 0x60 then handleOnly .programmeStatus h ops
  else if code = 0x61 then handleOnly .readError h ops
  else if code = 0x62 then handleOnly .clearError h ops
  else if code = 0x70 then decodeNextAttention h ops
  else if code = 0x71 then decodeClearAttention h ops
  else if code = 0x72 then byteOnly .setAttentionMask h ops
  else if code = 0x80 then plain .setHold h ops
  else if code = 0x81 then plain .clearHold h ops
  else if code = 0x90 then plain .deviceStatus h ops
  else if code = 0x91 then plain .resetPort h ops
  else none

/-- The handle of the header: flag 1 with slot and generation, or flag 0 with both bytes 0 (R180). -/
def decodeHandle (flag slot gen : Byte) : Option (Option RawHandle) :=
  if flag = 1 then some (some ⟨slot, gen⟩)
  else if flag = 0 ∧ slot = 0 ∧ gen = 0 then some none
  else none

/-- Reads a command record of the submitted length from its bytes (R169, R180): the tag and the command, or none
where the form of the record is malformed. -/
def decodeRecord (submitted : Nat) (bytes : List Byte) : Option (BitVec 16 × PortCommand) :=
  if submitted < 16 ∨ 4088 < submitted then none else
  match bytes with
  | l0 :: l1 :: c0 :: c1 :: t0 :: t1 :: hf :: hs :: hg :: z1 :: z2 :: z3 :: z4 :: z5 :: z6 :: z7 :: ops =>
      if (word16 l0 l1).toNat = submitted ∧ bytes.length = submitted ∧
          z1 = 0 ∧ z2 = 0 ∧ z3 = 0 ∧ z4 = 0 ∧ z5 = 0 ∧ z6 = 0 ∧ z7 = 0 then
        match decodeHandle hf hs hg with
        | some h => (decodeOperands (word16 c0 c1) h ops).map (word16 t0 t1, ·)
        | none => none
      else none
  | _ => none

/-- The command code and tag that a malformed record's response carries: 0 for either where the record is too
short to hold it (R180). -/
def recordCodeTag : List Byte → BitVec 16 × BitVec 16
  | _ :: _ :: c0 :: c1 :: t0 :: t1 :: _ => (word16 c0 c1, word16 t0 t1)
  | _ :: _ :: c0 :: c1 :: _ => (word16 c0 c1, 0)
  | _ => (0, 0)

/-! ### The unit header (R182) -/

/-- The fields of a unit header (R49, R182); absent where its presence flag is clear. -/
structure UnitHeader where
  marker    : BitVec 16
  stream    : Byte
  timestamp : Option Nat
  key       : Bool
  slideIndex : Option (BitVec 16)
  piece     : Nat
  length    : Nat
  duration  : Nat
  deriving DecidableEq, Repr

/-- The header in sixteen bytes; none for any other number of bytes. -/
def readUnitHeader : List Byte → Option UnitHeader
  | [m0, m1, st, fl, pt, n0, n1, n2, t0, t1, t2, t3, d0, d1, s0, s1] =>
      some
        { marker := word16 m0 m1
          stream := st
          timestamp :=
            if fl.getLsbD 0 then
              some ((if pt.getLsbD 4 then 4294967296 else 0) + (word32 t0 t1 t2 t3).toNat)
            else none
          key := fl.getLsbD 1
          slideIndex := if fl.getLsbD 2 then some (word16 s0 s1) else none
          piece := (pt.extractLsb' 0 4).toNat
          length := (word32 n0 n1 n2 0).toNat
          duration := (word16 d0 d1).toNat }
  | _ => none

/-- Stream codes (R179): CAM 1, SLIDE 2, AUDIO 3. -/
def Stream.code : Stream → Byte
  | .cam => 1
  | .slide => 2
  | .audio => 3

def Stream.ofCode (b : Byte) : Option Stream :=
  if b = 1 then some .cam else if b = 2 then some .slide else if b = 3 then some .audio else none

/-- A header is malformed by its marker, by a stream that is not the lane's, or by its length (R49, R182). -/
def UnitHeader.malformed (h : UnitHeader) (st : Stream) : Bool :=
  decide (h.marker ≠ 0xB6E1) || decide (h.stream ≠ st.code) || decide (h.length = 0) || decide (1048576 < h.length)

/-! ### The table's words -/

/-- No row of spec/opcode_table.json gives bits, so no word spells a command. -/
def decodeTableWord (_nbits _w : Nat) : Option Instr := none

end Sys2Proof
end

