-- ==== Sys2Proof/Machine/State.lean ====
section
/-! DEFINITION. The state of the D860 as plain data, its reset value, and the reasons a step can stop. Where the manual
names a figure that is fixed by other state (the segment counter k, the throttle, an occupancy, the notice condition)
it is a function of that state and stands in Machine/Ops.lean or Machine/Flags.lean, not here. -/

namespace Sys2Proof.Machine

/-! ### Why a step stops -/

/-- The D860 has no fault: every step the manual lists ends in a state. No constructor; safe. -/
inductive Fault where
  deriving DecidableEq, Repr

/-- A command whose meaning the model does not give. Raised by an arm of `exec` that is not modelled; no arm is; safe. -/
inductive Refusal where
  | notModelled (mnemonic : String)
  deriving DecidableEq, Repr

/-! ### Memories and buffers -/

/-- Bytes by address in canonical form: addresses strictly rising, no listed byte 0; an address not listed reads 0
(R41, R150 and R168 give 0 for slots, fetch windows and staging areas after reset; DESIGN CHOICE for the stacked
DRAM, log 4). -/
abbrev Mem := List Host.Cell

/-! ### Programme settings (chapter 2) -/

/-- The programme states of R1; FREE is a slot without a record. -/
inductive ProgState where
  | opened
  | ingesting
  | halted
  | draining
  | complete
  deriving DecidableEq, Repr

inductive Policy where
  | defer
  | drop
  deriving DecidableEq, Repr

inductive Rounding where
  | nearest
  | chop
  deriving DecidableEq, Repr

/-- The four error classes that have a report enable (section 1.5.1). -/
inductive ReportClass where
  | timeRange
  | timestampMissing
  | discontinuity
  | pieceLimit
  deriving DecidableEq, Repr

/-- The 22 changeable fields of section 2.1. -/
inductive Field where
  | segLength
  | snapWindow
  | minLength
  | dwell
  | policy
  | bitrate (rendition : Fin 5)
  | rate (stream : Stream)
  | jump
  | gap
  | rounding
  | report (c : ReportClass)
  | itemLimit
  | heldLimit
  deriving DecidableEq, Repr

/-- Fields with values, in the order of field code, no field twice (R27). -/
abbrev FieldSet := List (Field × Int)

/-- The active settings of a programme (section 2.1). Lengths are in frames, rates in ppm, limits in ms and entries. -/
structure Settings where
  segLength  : Nat
  snapWindow : Nat
  minLength  : Nat
  dwell      : Nat
  policy     : Policy
  bitrates   : List Nat
  rates      : PerStream Int
  jump       : Nat
  gap        : Nat
  rounding   : Rounding
  repTimeRange        : Bool
  repTimestampMissing : Bool
  repDiscontinuity    : Bool
  repPieceLimit       : Bool
  itemLimit  : Nat
  heldLimit  : Nat
  deriving DecidableEq, Repr

/-- The pending cut-bound set with the revision that labels it (R32 step 3). -/
structure PendingCut where
  label  : Nat
  fields : FieldSet
  deriving DecidableEq, Repr

/-- A record of the revision list (R37). -/
structure RevRecord where
  revision     : Nat
  firstSegment : Nat
  bitrates     : List Nat
  deriving DecidableEq, Repr

/-- A staging record that is not empty (R27). -/
structure StagingRecord where
  target : Handle
  base   : Nat
  fields : FieldSet
  deriving DecidableEq, Repr

/-! ### Errors, latches and statistics (chapter 1) -/

inductive ErrorClass where
  | timeRange
  | timestampMissing
  | discontinuity
  | pieceLimit
  | malformedUnit
  | itemTimeout
  | itemOversize
  deriving DecidableEq, Repr

/-- The error record of R20. -/
structure ErrorRecord where
  code   : ErrorClass
  stream : Option Stream
  piece  : Option Nat
  seq    : Option (BitVec 24)
  time   : Option Int
  deriving DecidableEq, Repr

/-- The seven latch kinds (section 1.4.2). -/
inductive LatchKind where
  | segment
  | chapter
  | error
  | state
  | settings
  | forced
  | limit
  deriving DecidableEq, Repr

/-- A set of latch kinds as R179 codes it: bit 0 SEGMENT to bit 6 LIMIT. -/
abbrev KindSet := BitVec 7

/-- The counters of R22, each of 32 bits, wrapping. -/
structure Stats where
  mapped           : PerStream (BitVec 32)
  early            : BitVec 32
  late             : BitVec 32
  timeRange        : BitVec 32
  timestampMissing : BitVec 32
  discontinuity    : BitVec 32
  pieceLimit       : BitVec 32
  malformedUnit    : BitVec 32
  itemTimeout      : BitVec 32
  itemOversize     : BitVec 32
  chapters         : BitVec 32
  segmentsClosed   : BitVec 32
  deriving DecidableEq, Repr

/-! ### Mapper and cutter state (chapters 4 and 5) -/

/-- The piece-bound values that time a piece (R62). -/
structure PieceValues where
  rates    : PerStream Int
  jump     : Nat
  gap      : Nat
  rounding : Rounding
  deriving DecidableEq, Repr

/-- A piece record (R62). Its number is its place in the list; it is OPEN when it is the last and CLOSED otherwise. -/
structure PieceRecord where
  label      : Nat
  offset     : Nat
  origin     : Option Int
  runningEnd : Nat
  values     : PieceValues
  deriving DecidableEq, Repr

inductive ChapterSource where
  | auto
  | manual
  deriving DecidableEq, Repr

inductive Disposition where
  | pending
  | cut
  | deferred
  | merged
  | inside
  | late
  deriving DecidableEq, Repr

/-- An entry of the chapter list (R92). -/
structure Chapter where
  time       : Nat
  source     : ChapterSource
  slideIndex : Option (BitVec 16)
  disp       : Disposition
  effective  : Option Nat
  segment    : Option Nat
  deriving DecidableEq, Repr

/-- A cut record (R86). Its index is its place in the cut list. -/
structure CutRecord where
  start        : Nat
  chapterStart : Bool
  deriving DecidableEq, Repr

/-- The chapter horizon: −∞, a programme time, or +∞ (R96). -/
inductive Horizon where
  | negInf
  | at (t : Int)
  | posInf
  deriving DecidableEq, Repr

/-- The candidate of the slide detector (R85). -/
structure Candidate where
  index : BitVec 16
  start : Nat
  deriving DecidableEq, Repr

/-- The cutter's state (R85). The last decided cut p is the start of the last cut record and the segment counter k its
index. -/
structure Cutter where
  confirmed : Option (BitVec 16)
  candidate : Option Candidate
  chapters  : List Chapter
  horizon   : Horizon
  forced    : Option Nat
  reach     : Nat
  cuts      : List CutRecord
  deferred  : Bool
  previous  : Option Nat
  progEnd   : Option Nat
  deriving DecidableEq, Repr

inductive Phase where
  | waitingOpen
  | assembling
  | finished
  deriving DecidableEq, Repr

/-- The assembly record of a stream with renditions (R131). -/
structure AssemblyRecord where
  current : Option Nat
  phase   : Phase
  deriving DecidableEq, Repr

/-- All that a programme holds for one stream of its set: the lane and ended flag (R1), the parser's counter and last
header duration (R50, R52), the mapper's stream state (R61), the started segment (R85), the force-key mark (R124)
and, for a stream with renditions, the assembly record (R131). -/
structure StreamRecord where
  lane        : Option LaneId
  ended       : Bool
  nextSeq     : BitVec 24
  lastHeaderDuration : Option Nat
  piece       : Option Nat
  uPrev       : Option Int
  durPrev     : Option Nat
  anchor      : Int
  position    : Option Nat
  started     : Option Nat
  forceKeyMark : Option Nat
  assembly    : Option AssemblyRecord
  deriving DecidableEq, Repr

/-- A programme record (R1). A stream is in the stream set exactly when it has a stream record. -/
structure Programme where
  state      : ProgState
  frame      : Nat
  streams    : PerStream (Option StreamRecord)
  renditions : List Stream
  active     : Settings
  revision   : Nat
  cutRevision : Nat
  pendingCut : Option PendingCut
  pendingPiece : Option FieldSet
  revisions  : List RevRecord
  watch      : PortSet
  latches    : PerPort KindSet
  error      : Option ErrorRecord
  pieces     : List PieceRecord
  cutter     : Cutter
  stats      : Stats
  deriving DecidableEq, Repr

/-- A slot of the Programme Table: its generation and, unless FREE, the record (R1). -/
structure ProgSlot where
  gen  : Byte
  prog : Option Programme
  deriving DecidableEq, Repr

/-! ### Lanes (chapter 3) -/

inductive LaneState where
  | free
  | attached
  | running
  | resync
  | ending
  deriving DecidableEq, Repr

/-- A chunk slot: its 32 768 bytes, and its count while it is full (R41). -/
structure ChunkSlot where
  count : Option Nat
  bytes : Mem
  deriving DecidableEq, Repr

/-- AT_HEADER, or IN_PAYLOAD with the unit's entry (by its sequence) and the payload bytes still to copy (R41). -/
inductive ParserPos where
  | atHeader
  | inPayload (seq : BitVec 24) (remaining : Nat)
  deriving DecidableEq, Repr

/-- The number of a chunk slot of a lane: `false` for slot 0, `true` for slot 1. -/
abbrev SlotNo := Bool

/-- A lane record (R41). -/
structure LaneRecord where
  state      : LaneState
  owner      : Option Port
  target     : Option (Handle × Stream)
  slot0      : ChunkSlot
  slot1      : ChunkSlot
  fill       : Option SlotNo
  order      : List SlotNo
  readPos    : Nat
  pos        : ParserPos
  discarding : Bool
  endPosted  : Bool
  consumed   : BitVec 48
  begun      : BitVec 32
  deriving DecidableEq, Repr

/-! ### The Accept Queue and the pipes (chapter 6) -/

inductive EntryState where
  | filling
  | held
  | ready
  | inPipe
  | done
  | lost
  deriving DecidableEq, Repr

/-- Bytes placed in granules: the byte count and the granules that hold them, in order (R110, R136). -/
structure Extent where
  count    : Nat
  granules : List Nat
  deriving DecidableEq, Repr

/-- The time a kept entry carries: t, dm and the stream position x (R78). -/
structure Timing where
  t  : Nat
  dm : Nat
  x  : Nat
  deriving DecidableEq, Repr

/-- An Accept Queue entry (R110). -/
structure Entry where
  name       : ItemName
  piece      : Nat
  timestamp  : Option Nat
  duration   : Nat
  slideIndex : Option (BitVec 16)
  length     : Nat
  granules   : List Nat
  timing     : Option Timing
  key        : Bool
  state      : EntryState
  segment    : Option Nat
  segStart   : Bool
  forceKey   : Bool
  revision   : Option Nat
  output     : Option (List Extent)
  deriving DecidableEq, Repr

/-- The item descriptor that a dispatch builds (R115). `run` is the MODEL's own field: the number of the dispatch, which tells
the item from an earlier one of the same name (R122, log 36). -/
structure ItemDescriptor where
  run        : Nat
  item       : ItemName
  granules   : List Nat
  length     : Nat
  timing     : Option Timing
  key        : Bool
  segStart   : Bool
  forceKey   : Bool
  renditions : List Nat
  bitrates   : List Nat
  deriving DecidableEq, Repr

/-- A pipe record (R117): the deadline runs in ENCODING, the held output stands in STORING. -/
inductive Pipe where
  | idle
  | encoding (d : ItemDescriptor) (deadline : Nat)
  | storing (d : ItemDescriptor) (held : List EncodedOutput)
  deriving DecidableEq, Repr

/-! ### Segments (chapter 7) -/

structure SegFlags where
  chapterStart : Bool
  gap          : Bool
  keyLate      : Bool
  empty        : Bool
  short        : Bool
  deriving DecidableEq, Repr

/-- OPEN, or CLOSED with the end, the pending set and the UNCLAIMED mark that a close gives (R130, R139). -/
inductive SegStatus where
  | opened
  | closed (endTime : Nat) (pending : PortSet) (unclaimed : Bool)
  deriving DecidableEq, Repr

/-- A segment record (R130). `parts` are the outputs of the joined entries in retire order: the granule list, the
granule count and the byte count are read from them (R136). -/
structure Segment where
  handle    : Handle
  rendition : Nat
  index     : Nat
  start     : Nat
  parts     : List Extent
  revision  : Option Nat
  joined    : Nat
  flags     : SegFlags
  firstChapter : Option Nat
  status    : SegStatus
  deriving DecidableEq, Repr

/-! ### Responses (chapters 10 and 11) -/

/-- The outcome codes of R173. -/
inductive OutcomeCode where
  | ok
  | clamped
  | noSlot
  | notFound
  | notWatching
  | badState
  | noLane
  | laneFull
  | laneEnded
  | stale
  | pending
  | streamBusy
  | tooLate
  | duplicate
  | listFull
  | notReady
  | gone
  | malformed
  deriving DecidableEq, Repr

/-- Wait reasons of Lane Status (R60). -/
inductive WaitReason where
  | none
  | noData
  | programmeState
  | throttle
  | noEntry
  | noGranules
  deriving DecidableEq, Repr

/-- Response data of Stage Settings (R29). `rated` is the stream set: the active settings have a rate correction for its streams
alone (section 2.1). -/
structure StageView where
  clamped      : List Field
  emptied      : Bool
  target       : Handle
  base         : Nat
  revision     : Nat
  cutRevision  : Nat
  active       : Settings
  rated        : PerStream Bool
  pendingCut   : Option FieldSet
  pendingPiece : Option FieldSet
  deriving DecidableEq, Repr

/-- Response data of Commit Settings (R32); `rated` as for Stage Settings. -/
structure CommitView where
  revision     : Nat
  active       : Settings
  rated        : PerStream Bool
  pendingCut   : Option FieldSet
  pendingPiece : Option FieldSet
  clamped      : List Field
  deriving DecidableEq, Repr

/-- Response data of Lane Status (R60). -/
structure LaneView where
  state     : LaneState
  owner     : Option Port
  target    : Option (Handle × Stream)
  count0    : Option Nat
  count1    : Option Nat
  fill      : Option SlotNo
  order     : List SlotNo
  readPos   : Nat
  unread    : Nat
  pos       : ParserPos
  discarding : Bool
  endPosted : Bool
  wait      : WaitReason
  consumed  : BitVec 48
  begun     : BitVec 32
  deriving DecidableEq, Repr

/-- Response data of Read Chapters (R95). -/
structure ChaptersView where
  count   : Nat
  horizon : Horizon
  lastCut : Nat
  counter : Nat
  forced  : Option Nat
  progEnd : Option Nat
  entries : List (Nat × Chapter)
  deriving DecidableEq, Repr

/-- One record of List Segments (R149, R183). -/
structure SegmentView where
  index     : Nat
  start     : Nat
  endTime   : Nat
  byteCount : Nat
  granuleCount : Nat
  revision  : Option Nat
  flags     : SegFlags
  firstChapter : Option Nat
  pending   : PortSet
  unclaimed : Bool
  deriving DecidableEq, Repr

/-- Response data of List Segments (R149). -/
structure ListingView where
  records : List SegmentView
  more    : Bool
  current : Option Nat
  phase   : Phase
  deriving DecidableEq, Repr

/-- What Programme Status reports of one stream (R23). -/
structure StreamView where
  lane     : Option LaneId
  ended    : Bool
  nextSeq  : BitVec 24
  position : Option Nat
  deriving DecidableEq, Repr

/-- Response data of Programme Status (R23). -/
structure StatusView where
  handle     : Handle
  state      : ProgState
  frame      : Nat
  streams    : PerStream (Option StreamView)
  renditions : List (Stream × Nat)
  revision   : Nat
  cutPending : Bool
  piecePending : Bool
  watch      : PortSet
  latches    : KindSet
  errorFlag  : Bool
  currentPiece : Nat
  pieceCount : Nat
  lastCut    : Nat
  counter    : Nat
  forced     : Option Nat
  filling    : Nat
  held       : Nat
  ready      : Nat
  inPipe     : Nat
  done       : Nat
  lost       : Nat
  stats      : Stats
  deriving DecidableEq, Repr

/-- What Device Status reports of one pipe (R166): its state code and the item it holds. -/
structure PipeView where
  code : Nat
  item : Option ItemName
  deriving DecidableEq, Repr

/-- What Device Status reports of one port (R175). -/
structure PortView where
  commands  : Nat
  responses : Nat
  overflow  : Bool
  notice    : Bool
  hold      : Bool
  lanes     : List LaneId
  stagingEmpty : Bool
  segmentsHeld : Nat
  deriving DecidableEq, Repr

/-- Response data of Device Status (R166, R175). -/
structure DeviceView where
  accept    : Bool
  payload   : Bool
  store     : Bool
  table     : Bool
  hold      : Bool
  throttle  : Bool
  acceptCount  : Nat
  payloadCount : Nat
  storeCount   : Nat
  tableCount   : Nat
  storeQueueLength : Nat
  storeQueueNeed   : Nat
  tableQueueLength : Nat
  tableQueueNeed   : Nat
  pipes     : List PipeView
  ports     : PerPort PortView
  unclaimed : Nat
  freeSlots : Nat
  freeLanes : Nat
  deriving DecidableEq, Repr

/-- The data of a response, by the contents its command's rule lists. -/
inductive RespData where
  | empty
  | opened (h : Handle) (clamped : List Nat)
  | watched (state : ProgState)
  | left (changed freed : Nat)
  | staged (v : StageView)
  | staging (target : Option Handle) (unknown : Bool) (base : Option Nat) (fields : FieldSet)
  | committed (v : CommitView)
  | attached (lane : LaneId)
  | detached (h : Handle) (st : Stream)
  | posted (freeSlots : Nat)
  | laneStatus (v : LaneView)
  | inserted (time index : Nat) (disp : Disposition) (effective : Option Nat)
  | chapters (v : ChaptersView)
  | listing (v : ListingView)
  | fetched (count total : Nat) (atEnd : Bool)
  | released (wasPending : Bool) (pending : Option PortSet) (freed : Bool)
  | status (v : StatusView)
  | error (r : Option ErrorRecord)
  | attention (found : Option (Handle × KindSet × ProgState))
  | latches (kinds : Option KindSet) (laneSlot : Bool)
  | holds (flags : PortSet)
  | device (v : DeviceView)
  deriving DecidableEq, Repr

/-- What a command's own rule gives: the outcome code and the data (R173). -/
structure Reply where
  code : OutcomeCode
  data : RespData
  deriving DecidableEq, Repr

/-- A response record (R173, R181): the command code and tag carried back, the outcome and the data. -/
structure Response where
  command : BitVec 16
  tag     : BitVec 16
  reply   : Reply
  deriving DecidableEq, Repr

/-- A command record of the command queue: the length written to the submit word and the bytes (R169). -/
structure CommandRecord where
  submitted : Nat
  bytes     : List Byte
  deriving DecidableEq, Repr

/-! ### Ports (chapter 10) -/

/-- The state of one port (R168). `noticesSent` is the MODEL's own field: how many notices the port has sent. -/
structure PortState where
  commands  : List CommandRecord
  responses : List Response
  area      : Mem
  overflow  : Bool
  staging   : Option StagingRecord
  hold      : Bool
  mask      : KindSet
  laneSlot  : Bool
  window    : Mem
  noticesSent : Nat
  deriving DecidableEq, Repr

/-! ### The machine -/

/-- On or off for the four sources that follow an occupancy (R159). HOLD follows the hold flags of the ports. -/
structure Sources where
  accept  : Bool
  payload : Bool
  store   : Bool
  table   : Bool
  deriving DecidableEq, Repr

/-- The state of the part. `pending` is the queue of commands waiting to be stepped (the host's), `now` is the
MODEL's own clock in ms, against which the watchdog deadlines of R115 are set, and `dispatches` the MODEL's own count of the
dispatches made (log 36). -/
structure State where
  slots        : Vector ProgSlot 32
  lanes        : Vector LaneRecord 8
  ports        : PerPort PortState
  entries      : List Entry
  pipes        : Vector Pipe 4
  storeQueue   : List PipeId
  tableQueue   : List (SlotId × Stream)
  segments     : List Segment
  sources      : Sources
  parsePtr     : LaneId
  dispatchPtr  : PerStream SlotId
  payloadArea  : Mem
  outputStore  : Mem
  now          : Nat
  dispatches   : Nat
  pending      : List Instr
  deriving DecidableEq, Repr

/-- A FREE lane whose slots hold the given bytes (R41). -/
def LaneRecord.freeWith (bytes0 bytes1 : Mem) : LaneRecord :=
  { state := .free, owner := none, target := none, slot0 := ⟨none, bytes0⟩, slot1 := ⟨none, bytes1⟩,
    fill := none, order := [], readPos := 0, pos := .atHeader, discarding := false, endPosted := false,
    consumed := 0, begun := 0 }

/-- Every port after device reset (R168). -/
def PortState.reset : PortState :=
  { commands := [], responses := [], area := [], overflow := false, staging := none, hold := false, mask := 0,
    laneSlot := false, window := [], noticesSent := 0 }

/-- The machine right after device reset (R24, R41, R127, R146, R159, R168, R178); its queue is empty. -/
def State.reset : State :=
  { slots := Vector.replicate 32 ⟨0, none⟩
    lanes := Vector.replicate 8 (LaneRecord.freeWith [] [])
    ports := PerPort.const PortState.reset
    entries := []
    pipes := Vector.replicate 4 .idle
    storeQueue := []
    tableQueue := []
    segments := []
    sources := ⟨false, false, false, false⟩
    parsePtr := 0
    dispatchPtr := PerStream.const 0
    payloadArea := []
    outputStore := []
    now := 0
    dispatches := 0
    pending := [] }

end Sys2Proof.Machine
end

