-- ==== Sys2Proof/Machine/Params.lean ====
section
/-! DEFINITION. The fixed figures of the part, each with the rule that states it. -/

namespace Sys2Proof.Machine

/-- Places of the Accept Queue (R109). -/
def acceptPlaces : Nat := 512
/-- Granules of the Payload Area (R141). -/
def payloadGranules : Nat := 524288
/-- Granules of the Output Store (R141). -/
def outputGranules : Nat := 1048576
/-- Entries of the Segment Table (R129). -/
def tableEntries : Nat := 2048
/-- Bytes of a granule (section 5.1). -/
def granuleBytes : Nat := 512
/-- The largest byte count of one rendition that is not an ITEM_OVERSIZE (R118). -/
def maxOutputBytes : Nat := 1048576
/-- The largest accepted programme time (section 5.4). -/
def tMax : Nat := 4294967295
/-- Bytes of a chunk slot (R41). -/
def slotBytes : Nat := 32768
/-- Bytes of a fetch window (R150). -/
def windowBytes : Nat := 65536
/-- Bytes of the command staging area (R168). -/
def areaBytes : Nat := 4088
/-- Records of a command queue and of a response queue (R168). -/
def queueRecords : Nat := 16
/-- Entries of the chapter list (R90). -/
def chapterEntries : Nat := 128
/-- Records of the piece list (R62). -/
def pieceRecords : Nat := 16
/-- Bytes of a unit header (R182). -/
def headerBytes : Nat := 16

/-- High and low marks of the sources (R160). -/
def acceptHigh : Nat := 448
def acceptLow : Nat := 384
def payloadHigh : Nat := 458752
def payloadLow : Nat := 393216
def storeHigh : Nat := 917504
def storeLow : Nat := 786432
def tableHigh : Nat := 1920
def tableLow : Nat := 1792

/-- Granules that hold `n` bytes (R50, R118). -/
def granulesFor (n : Nat) : Nat := (n + 511) / 512

/-- ceil(a / b) for b above 0. -/
def ceilDiv (a b : Nat) : Nat := (a + (b - 1)) / b

end Sys2Proof.Machine
end

