-- ==== Sys2Proof/Machine/Memory.lean ====
section
/-! DEFINITION. Reading and writing bytes of the part's buffers and stores, in the canonical form of `Mem`. -/

namespace Sys2Proof.Machine

/-- The byte at an address; 0 where the address is not listed. -/
def Mem.read : Mem → Nat → Byte
  | [], _ => 0
  | (k, v) :: m, a => if a = k then v else Mem.read m a

/-- Writes one byte and keeps the canonical form: writing 0 removes the cell. -/
def Mem.write : Mem → Nat → Byte → Mem
  | [], a, b => if b = 0 then [] else [(a, b)]
  | (k, v) :: m, a, b =>
      if a < k then (if b = 0 then (k, v) :: m else (a, b) :: (k, v) :: m)
      else if a = k then (if b = 0 then m else (a, b) :: m)
      else (k, v) :: Mem.write m a b

/-- Writes bytes at consecutive addresses from `a`. -/
def Mem.writeBytes : Mem → Nat → List Byte → Mem
  | m, _, [] => m
  | m, a, b :: bs => Mem.writeBytes (Mem.write m a b) (a + 1) bs

/-- The `n` bytes from address `a`. -/
def Mem.readBytes (m : Mem) (a : Nat) : Nat → List Byte
  | 0 => []
  | n + 1 => Mem.read m a :: Mem.readBytes m (a + 1) n

/-- The canonical cells of the bytes `f a`, `f (a + 1)`, … , `n` of them. -/
def Mem.cellsFrom (f : Nat → Byte) (a : Nat) : Nat → Mem
  | 0 => []
  | n + 1 => if f a = 0 then Mem.cellsFrom f (a + 1) n else (a, f a) :: Mem.cellsFrom f (a + 1) n

/-- A buffer that holds `f i` at each offset `i` below `n` and 0 elsewhere. -/
def Mem.ofBytes (f : Nat → Byte) (n : Nat) : Mem := Mem.cellsFrom f 0 n

/-- The canonical form, from address `lo` up: addresses strictly rising, no listed byte 0. -/
def Mem.wfFrom (lo : Nat) : Mem → Bool
  | [] => true
  | (a, b) :: m => decide (lo ≤ a) && decide (b ≠ 0) && Mem.wfFrom (a + 1) m

/-- The canonical form of a memory. -/
def Mem.wf (m : Mem) : Bool := Mem.wfFrom 0 m

/-! ### Granules -/

/-- The stacked-DRAM address of byte `i` of what a granule list holds: granules in order, 512 bytes each (R53, R136). -/
def granuleAddr (gs : List Nat) (i : Nat) : Nat := gs.getD (i / granuleBytes) 0 * granuleBytes + i % granuleBytes

/-- Writes `bytes` at byte offsets `i`, `i + 1`, … of the granule list. -/
def writeGranules (m : Mem) (gs : List Nat) (i : Nat) : List Byte → Mem
  | [] => m
  | b :: bs => writeGranules (Mem.write m (granuleAddr gs i) b) gs (i + 1) bs

/-- Writes bytes `i` to `i + n - 1` of an encoded output into the granules that will hold it (R120). -/
def placeOutput (m : Mem) (gs : List Nat) (out : Mem) (i : Nat) : Nat → Mem
  | 0 => m
  | n + 1 => placeOutput (Mem.write m (granuleAddr gs i) (Mem.read out i)) gs out (i + 1) n

/-- The lowest-numbered `n` granules from `cand` up that are not in `used`; `fuel` candidates are examined.
DESIGN CHOICE (log 5): R141 says that which free granules an allocation takes is not seen from outside. -/
def lowestFree (used : List Nat) : (fuel cand n : Nat) → List Nat
  | 0, _, _ => []
  | _ + 1, _, 0 => []
  | fuel + 1, cand, n + 1 =>
      if used.contains cand then lowestFree used fuel (cand + 1) (n + 1)
      else cand :: lowestFree used fuel (cand + 1) n

/-- `n` free granules, none of them in `used`. Enough candidates are examined for any list of that length. -/
def allocate (used : List Nat) (n : Nat) : List Nat := lowestFree used (used.length + n) 0 n

/-- Cuts a granule list into the ordered lists of several outputs (R120 step 1). -/
def splitExtents : List Nat → List EncodedOutput → List Extent
  | _, [] => []
  | gs, o :: os =>
      ⟨o.count, gs.take (granulesFor o.count)⟩ :: splitExtents (gs.drop (granulesFor o.count)) os

/-- Places every held output in its extent's granules (R120 step 1). -/
def placeExtents : Mem → List Extent → List EncodedOutput → Mem
  | m, x :: xs, o :: os => placeExtents (placeOutput m x.granules o.bytes 0 x.count) xs os
  | m, _, _ => m

end Sys2Proof.Machine
end

