-- ==== Sys2Proof/Machine/Ops.lean ====
section
/-! DEFINITION. Named access to the state: programmes, lanes, ports, pipes and entries; the figures that other
state fixes (counts, the last cut, the current piece); removing entries and allocating from the pools. -/

namespace Sys2Proof.Machine

/-! ### Access -/

def State.prog (s : State) (i : SlotId) : Option Programme := (s.slots[i]).prog

def State.gen (s : State) (i : SlotId) : Byte := (s.slots[i]).gen

/-- Writes the record of a slot and keeps its generation. -/
def State.setProg (s : State) (i : SlotId) (pr : Programme) : State :=
  { s with slots := s.slots.set i ⟨s.gen i, some pr⟩ }

/-- Changes the record of a slot; a FREE slot stays FREE. -/
def State.modProg (s : State) (i : SlotId) (f : Programme → Programme) : State :=
  match s.prog i with
  | some pr => s.setProg i (f pr)
  | none => s

/-- Makes a slot FREE and keeps its generation (R1, R3). -/
def State.freeSlot (s : State) (i : SlotId) : State :=
  { s with slots := s.slots.set i ⟨s.gen i, none⟩ }

def State.lane (s : State) (l : LaneId) : LaneRecord := s.lanes[l]

def State.setLane (s : State) (l : LaneId) (ln : LaneRecord) : State := { s with lanes := s.lanes.set l ln }

def State.port (s : State) (p : Port) : PortState := s.ports.get p

def State.setPort (s : State) (p : Port) (pt : PortState) : State := { s with ports := s.ports.set p pt }

def State.pipe (s : State) (e : PipeId) : Pipe := s.pipes[e]

def State.setPipe (s : State) (e : PipeId) (x : Pipe) : State := { s with pipes := s.pipes.set e x }

def State.setEntries (s : State) (es : List Entry) : State := { s with entries := es }

def State.setSegments (s : State) (gs : List Segment) : State := { s with segments := gs }

/-- The slots in increasing order. -/
def allSlots : List SlotId := List.finRange 32

def allLanes : List LaneId := List.finRange 8

def allPipes : List PipeId := List.finRange 4

/-- The handle of the programme in a slot: the slot and its current generation (R2). -/
def State.handleOf (s : State) (i : SlotId) : Handle := ⟨i, s.gen i⟩

/-! ### Programme figures -/

def Programme.stream (pr : Programme) (st : Stream) : Option StreamRecord := pr.streams.get st

def Programme.setStream (pr : Programme) (st : Stream) (r : StreamRecord) : Programme :=
  { pr with streams := pr.streams.set st (some r) }

/-- Changes the record of a stream; a stream outside the set stays outside it. -/
def Programme.modStream (pr : Programme) (st : Stream) (f : StreamRecord → StreamRecord) : Programme :=
  match pr.stream st with
  | some r => pr.setStream st (f r)
  | none => pr

/-- The numbers of the renditions of a stream, counted on from `n`, in increasing order. -/
def renditionNumbersFrom (st : Stream) (n : Nat) : List Stream → List Nat
  | [] => []
  | x :: xs => if x = st then n :: renditionNumbersFrom st (n + 1) xs else renditionNumbersFrom st (n + 1) xs

/-- The numbers of the renditions of a stream, in rendition-number order (R115). -/
def Programme.renditionsOf (pr : Programme) (st : Stream) : List Nat := renditionNumbersFrom st 0 pr.renditions

/-- The segment counter k: the index of the last cut record (R85). -/
def Cutter.counter (c : Cutter) : Nat := c.cuts.length - 1

/-- The last decided cut p: the start of the last cut record (R85). -/
def Cutter.lastCut (c : Cutter) : Nat := ((c.cuts.getLast?).map CutRecord.start).getD 0

/-- The segment containing a time: the record with the greatest start at or below it (R86). -/
def Cutter.segmentAt (c : Cutter) (x : Nat) : Nat := (c.cuts.filter (fun r => decide (r.start ≤ x))).length - 1

/-- The current piece c: the number of the last record opened (R62). -/
def Programme.currentPiece (pr : Programme) : Nat := pr.pieces.length - 1

/-- The settings revision in force for a segment: the cut revision of the last record whose first segment index is at
or below it (R37). None where no record of the list reaches down to the segment (log 12). -/
def Programme.revisionFor (pr : Programme) (i : Nat) : Option Nat :=
  ((pr.revisions.filter (fun r => decide (r.firstSegment ≤ i))).getLast?).map RevRecord.revision

/-- The bitrates of the record with a given cut revision (R115). -/
def Programme.bitratesOf (pr : Programme) (rev : Option Nat) : List Nat :=
  match rev with
  | none => []
  | some v => ((pr.revisions.find? (fun r => decide (r.revision = v))).map RevRecord.bitrates).getD []

/-! ### Entries -/

/-- The entry belongs to the programme in slot `i`. -/
def Entry.inSlot (e : Entry) (i : SlotId) : Bool := decide (e.name.handle.slot = i)

/-- The entry belongs to stream `st` of the programme in slot `i`. -/
def Entry.inStream (e : Entry) (i : SlotId) (st : Stream) : Bool :=
  decide (e.name.handle.slot = i) && decide (e.name.stream = st)

/-- The entries of a programme in one state (R109). -/
def State.countIn (s : State) (i : SlotId) (x : EntryState) : Nat :=
  (s.entries.filter (fun e => e.inSlot i && decide (e.state = x))).length

/-- The programme's HELD count (R97). -/
def State.heldCount (s : State) (i : SlotId) : Nat := s.countIn i .held

/-- The head of a stream: its earliest entry present. The queue keeps the entries in the order in which their headers
were taken, which is the sequence order of R112. -/
def State.head (s : State) (i : SlotId) (st : Stream) : Option Entry := s.entries.find? (fun e => e.inStream i st)

def State.entry (s : State) (n : ItemName) : Option Entry := s.entries.find? (fun e => decide (e.name = n))

/-- Changes the entry of a name. -/
def State.modEntry (s : State) (n : ItemName) (f : Entry → Entry) : State :=
  s.setEntries (s.entries.map (fun e => if e.name = n then f e else e))

/-- Removes an entry; its place and the granules that it holds are free from then on, because the pools' in-use sets are
read from the entries and segments present (R112, R141). -/
def State.removeEntry (s : State) (n : ItemName) : State :=
  s.setEntries (s.entries.filter (fun e => decide (e.name ≠ n)))

/-! ### Segments -/

def Segment.granuleList (g : Segment) : List Nat := g.parts.flatMap Extent.granules

def Segment.byteCount (g : Segment) : Nat := (g.parts.map Extent.count).sum

def Segment.granuleCount (g : Segment) : Nat := g.granuleList.length

def Segment.isOpen (g : Segment) : Bool := decide (g.status = .opened)

/-- The segment belongs to the programme in slot `i`. -/
def Segment.inSlot (g : Segment) (i : SlotId) : Bool := decide (g.handle.slot = i)

/-- The segment of a slot, rendition and index (R129). -/
def Segment.isAt (g : Segment) (i : SlotId) (r idx : Nat) : Bool :=
  g.inSlot i && decide (g.rendition = r) && decide (g.index = idx)

/-- Byte `i` of what joined outputs hold: each output's bytes begin in its own first granule (R136). -/
def readParts (m : Mem) : List Extent → Nat → Byte
  | [], _ => 0
  | x :: xs, i => if i < x.count then Mem.read m (granuleAddr x.granules i) else readParts m xs (i - x.count)

/-! ### Occupancies and pools (R109, R129, R141) -/

/-- Payload granules in use: each belongs to an entry. -/
def State.payloadUsed (s : State) : List Nat := s.entries.flatMap Entry.granules

def Entry.outputGranules (e : Entry) : List Nat := (e.output.getD []).flatMap Extent.granules

/-- Output granules in use: each belongs to an entry's output or to a segment. -/
def State.outputUsed (s : State) : List Nat :=
  s.entries.flatMap Entry.outputGranules ++ s.segments.flatMap Segment.granuleList

def State.acceptCount (s : State) : Nat := s.entries.length

def State.payloadCount (s : State) : Nat := s.payloadUsed.length

def State.storeCount (s : State) : Nat := s.outputUsed.length

def State.tableCount (s : State) : Nat := s.segments.length

/-- The Output granules that held outputs need (R118). -/
def outputNeed (held : List EncodedOutput) : Nat := (held.map (fun o => granulesFor o.count)).sum

/-! ### Port sets -/

def PortSet.isEmpty (w : PortSet) : Bool := !(w.p0 || w.p1 || w.p2)

/-- The set without a port. -/
def PortSet.without (w : PortSet) (p : Port) : PortSet := PerPort.set w p false

end Sys2Proof.Machine
end

