-- ==== Sys2Proof/Machine/Flags.lean ====
section
/-! DEFINITION. Attention latches, error reports and statistics of a programme; the LANE_SLOT latch and the notice
condition of a port; the flow-control sources and the throttle. -/

namespace Sys2Proof.Machine

/-! ### Attention latches (R15) -/

/-- The bit of a kind in a kind set (R179). -/
def LatchKind.bit : LatchKind → KindSet
  | .segment => 0b0000001
  | .chapter => 0b0000010
  | .error => 0b0000100
  | .state => 0b0001000
  | .settings => 0b0010000
  | .forced => 0b0100000
  | .limit => 0b1000000

/-- An event sets a latch kind for each port in the watch set at that moment; a latch already set stays set (R15). -/
def Programme.latch (k : LatchKind) (pr : Programme) : Programme :=
  { pr with latches :=
      { p0 := if pr.watch.p0 then pr.latches.p0 ||| k.bit else pr.latches.p0
        p1 := if pr.watch.p1 then pr.latches.p1 ||| k.bit else pr.latches.p1
        p2 := if pr.watch.p2 then pr.latches.p2 ||| k.bit else pr.latches.p2 } }

/-! ### Errors (R19, R20, R22) -/

/-- The statistic of a class advances by one, wrapping at 32 bits (R22). -/
def Stats.countError (c : ErrorClass) (x : Stats) : Stats :=
  match c with
  | .timeRange => { x with timeRange := x.timeRange + 1 }
  | .timestampMissing => { x with timestampMissing := x.timestampMissing + 1 }
  | .discontinuity => { x with discontinuity := x.discontinuity + 1 }
  | .pieceLimit => { x with pieceLimit := x.pieceLimit + 1 }
  | .malformedUnit => { x with malformedUnit := x.malformedUnit + 1 }
  | .itemTimeout => { x with itemTimeout := x.itemTimeout + 1 }
  | .itemOversize => { x with itemOversize := x.itemOversize + 1 }

def Programme.countError (c : ErrorClass) (pr : Programme) : Programme := { pr with stats := pr.stats.countError c }

/-- Whether an error of a class is reported now (R19). -/
def Settings.reports (a : Settings) : ErrorClass → Bool
  | .timeRange => a.repTimeRange
  | .timestampMissing => a.repTimestampMissing
  | .discontinuity => a.repDiscontinuity
  | .pieceLimit => a.repPieceLimit
  | .malformedUnit => true
  | .itemTimeout => true
  | .itemOversize => true

/-- The programme time of an error record: a value beyond −2^47 or 2^47 − 1 is stored as that end (R20). -/
def errorTime (t : Int) : Int := max (-140737488355328) (min 140737488355327 t)

/-- A reported error sets the flag with the record, whole, and the ERROR latch for the watching ports (R20). The flag
is set exactly while the record is present. -/
def Programme.report (r : ErrorRecord) (pr : Programme) : Programme :=
  Programme.latch .error { pr with error := some { r with time := r.time.map errorTime } }

/-- A reported TIME_RANGE halts an INGESTING programme and sets STATE; a HALTED one is left as it is (R7). -/
def Programme.halt (pr : Programme) : Programme :=
  if pr.state = .ingesting then Programme.latch .state { pr with state := .halted } else pr

/-- Reports an error when its class is reported now; a reported TIME_RANGE then halts the programme (R7, R19, R20). -/
def Programme.reportIfEnabled (r : ErrorRecord) (pr : Programme) : Programme :=
  if pr.active.reports r.code then
    (if r.code = .timeRange then Programme.halt (pr.report r) else pr.report r)
  else pr

/-! ### The ports (R46, R174) -/

/-- Sets the LANE_SLOT latch of the port that owns a lane (R46). -/
def State.setLaneSlot (s : State) : Option Port → State
  | some p => s.setPort p { s.port p with laneSlot := true }
  | none => s

/-- A lane with a free slot (R46). -/
def LaneRecord.hasFreeSlot (ln : LaneRecord) : Bool := ln.slot0.count.isNone || ln.slot1.count.isNone

/-- Some lane owned by the port has a free slot (R16, R46). -/
def State.ownsFreeSlot (s : State) (p : Port) : Bool :=
  s.lanes.toList.any (fun ln => decide (ln.owner = some p) && ln.hasFreeSlot)

/-- The latches of a port on a programme that are set and not masked (R17). -/
def unmasked (latches mask : KindSet) : KindSet := latches &&& ~~~mask

/-- Some programme holds a latch of the port that is set and not masked. -/
def State.attentionDue (s : State) (p : Port) : Bool :=
  s.slots.toList.any (fun sl =>
    match sl.prog with
    | some pr => decide (unmasked (pr.latches.get p) (s.port p).mask ≠ 0)
    | none => false)

/-- The notice condition of a port (R174). -/
def State.noticeCondition (s : State) (p : Port) : Bool :=
  !(s.port p).responses.isEmpty || s.attentionDue p || (s.port p).laneSlot

/-- One port's notice: sent at a step that turns its condition from false to true (R174). -/
def notify (before : State) (p : Port) (s : State) : State :=
  if before.noticeCondition p = false ∧ s.noticeCondition p = true then
    s.setPort p { s.port p with noticesSent := (s.port p).noticesSent + 1 }
  else s

/-- The notices of a step that led from `before` to `s`. -/
def notices (before s : State) : State := notify before .p2 (notify before .p1 (notify before .p0 s))

/-! ### Flow-control sources (R160 to R162) -/

/-- One source after a step that changed its count (R160). -/
def sourceAfter (high low : Nat) (on : Bool) (count : Nat) : Bool :=
  if on then decide (low < count) else decide (high ≤ count)

/-- A source is evaluated at every event whose step changes its count; otherwise it keeps its state (R160). -/
def evaluateSource (high low : Nat) (on : Bool) (before after : Nat) : Bool :=
  if before = after then on else sourceAfter high low on after

/-- The four occupancy sources after a step that led from `before` to `s` (R160). -/
def evaluateSources (before s : State) : State :=
  { s with sources :=
      { accept := evaluateSource acceptHigh acceptLow s.sources.accept before.acceptCount s.acceptCount
        payload := evaluateSource payloadHigh payloadLow s.sources.payload before.payloadCount s.payloadCount
        store := evaluateSource storeHigh storeLow s.sources.store before.storeCount s.storeCount
        table := evaluateSource tableHigh tableLow s.sources.table before.tableCount s.tableCount } }

/-- The hold flags of the three ports. -/
def State.holdFlags (s : State) : PortSet := s.ports.map PortState.hold

/-- HOLD is on while one or more hold flags are set (R161). -/
def State.holdOn (s : State) : Bool := (s.port .p0).hold || (s.port .p1).hold || (s.port .p2).hold

/-- The throttle is on while one or more of the five sources is on (R162). -/
def State.throttle (s : State) : Bool :=
  s.sources.accept || s.sources.payload || s.sources.store || s.sources.table || s.holdOn

end Sys2Proof.Machine
end

