-- ==== Sys2Proof/Machine/Assembler.lean ====
section
/-! DEFINITION. The Segment Assembler: opening and closing segments, retiring entries, the table queue, the drain and
the entry into COMPLETE (R10, R37, R131 to R140). -/

namespace Sys2Proof.Machine

/-! ### Opening and closing segments -/

/-- The cut record of an index (R86). -/
def Cutter.cutRecord (c : Cutter) (i : Nat) : CutRecord := (c.cuts[i]?).getD ⟨0, false⟩

/-- The chapter index of the earliest chapter whose effective cut time is the given start (R139 step 2). -/
def Cutter.firstChapterAt (c : Cutter) (start : Nat) : Option Nat :=
  c.chapters.findIdx? (fun ch => decide (ch.effective = some start))

/-- A segment of index `i` as it is opened for a rendition (R138). -/
def newSegment (h : Handle) (pr : Programme) (i r : Nat) : Segment :=
  { handle := h, rendition := r, index := i
    start := (pr.cutter.cutRecord i).start
    parts := []
    revision := pr.revisionFor i
    joined := 0
    flags := ⟨(pr.cutter.cutRecord i).chapterStart, false, false, false, false⟩
    firstChapter := none
    status := .opened }

/-- A segment as its close leaves it (R139 steps 1 to 6): `final` is the close of the final segment. -/
def closedSegment (pr : Programme) (final : Bool) (endTime : Nat) (g : Segment) : Segment :=
  let chapterStart := g.flags.chapterStart || (pr.cutter.cutRecord g.index).chapterStart
  { g with
    flags :=
      { g.flags with
        chapterStart := chapterStart
        empty := decide (g.joined = 0)
        short := final && decide (endTime - g.start < pr.active.minLength * pr.frame) }
    firstChapter := if chapterStart then pr.cutter.firstChapterAt g.start else none
    status := .closed endTime pr.watch (PortSet.isEmpty pr.watch) }

/-- The open segments of a stream's renditions at the current index. -/
def Segment.isCurrent (g : Segment) (i : SlotId) (rs : List Nat) (cur : Nat) : Bool :=
  g.inSlot i && rs.contains g.rendition && g.isOpen && decide (g.index = cur)

/-- Closes the open segment of every rendition of a stream: each takes its end, its flags and the watch set, the SEGMENT
latch is set and the statistic counts each (R139). -/
def closeCurrent (i : SlotId) (pr : Programme) (st : Stream) (cur : Nat) (final : Bool) (endTime : Nat) (s : State) : State :=
  let rs := pr.renditionsOf st
  let n := (s.segments.filter (fun g => g.isCurrent i rs cur)).length
  let s := s.setSegments (s.segments.map (fun g => if g.isCurrent i rs cur then closedSegment pr final endTime g else g))
  s.modProg i (fun pr =>
    Programme.latch .segment
      { pr with stats := { pr.stats with segmentsClosed := pr.stats.segmentsClosed + BitVec.ofNat 32 n } })

/-- Opens a segment of index `idx` for every rendition of a stream (R138). -/
def openAt (i : SlotId) (pr : Programme) (st : Stream) (idx : Nat) (s : State) : State :=
  s.setSegments (s.segments ++ (pr.renditionsOf st).map (newSegment (s.handleOf i) pr idx))

def setAssembly (i : SlotId) (st : Stream) (a : AssemblyRecord) (s : State) : State :=
  s.modProg i (fun pr => pr.modStream st (fun r => { r with assembly := some a }))

/-! ### What a stream waits for -/

/-- The assembly record of a stream of the programme in a slot. -/
def State.assembly (s : State) (i : SlotId) (st : Stream) : Option AssemblyRecord :=
  match s.prog i with
  | some pr => (pr.stream st).bind StreamRecord.assembly
  | none => none

/-- The stream's head is DONE or LOST (R134). -/
def Entry.finished (e : Entry) : Bool := decide (e.state = .done) || decide (e.state = .lost)

/-- The stream must advance: its finished head lies in a later segment (R135), or it drains below the final index
(R140). -/
def needsAdvance (s : State) (i : SlotId) (st : Stream) : Bool :=
  match s.prog i, s.assembly i st with
  | some pr, some ⟨some cur, .assembling⟩ =>
      match s.head i st with
      | some e => e.finished && (match e.segment with | some x => decide (cur < x) | none => false)
      | none => decide (pr.state = .draining) && decide (cur < pr.cutter.counter)
  | _, _ => false

/-- A request joins the end of the table queue; each stream has at most one (R132). -/
def requestTable (i : SlotId) (st : Stream) (s : State) : State :=
  if (i, st) ∈ s.tableQueue then s else { s with tableQueue := s.tableQueue ++ [(i, st)] }

/-! ### Retiring (R134, R136, R137) -/

/-- The extent that an entry's output holds for a rendition: outputs stand in rendition-number order (R110). -/
def extentFor : List Nat → List Extent → Nat → Option Extent
  | r :: rs, x :: xs, n => if r = n then some x else extentFor rs xs n
  | _, _, _ => none

/-- An entry's part joins a segment: a DONE entry brings its granules and bytes (R136), a LOST one GAP and, when it
carried a key, KEY_LATE (R137). -/
def joinEntry (rs : List Nat) (e : Entry) (g : Segment) : Segment :=
  if e.state = .lost then
    { g with joined := g.joined + 1
             flags := { g.flags with gap := true, keyLate := g.flags.keyLate || e.segStart || e.forceKey } }
  else
    { g with joined := g.joined + 1
             parts := g.parts ++ (extentFor rs (e.output.getD []) g.rendition).toList }

/-- The retire of a head entry into the open segments of its stream's renditions (R134). -/
def retire (i : SlotId) (rs : List Nat) (cur : Nat) (e : Entry) (s : State) : State :=
  State.removeEntry
    (s.setSegments (s.segments.map (fun g => if g.isCurrent i rs cur then joinEntry rs e g else g))) e.name

/-! ### One stream's assembly -/

/-- The assembler's work on one stream until its head is not finished, or it waits in the table queue, or it is done:
retires (R134), the request for an advance (R135, R140) and the close of the final segment (R140). -/
def assembleStream (i : SlotId) (st : Stream) : Nat → State → State
  | 0, s => s
  | fuel + 1, s =>
    match s.prog i with
    | none => s
    | some pr =>
      match pr.stream st with
      | none => s
      | some r =>
        match s.head i st, r.assembly with
        | some e, none =>
            if e.finished then assembleStream i st fuel (s.removeEntry e.name) else s
        | some e, some ⟨some cur, .assembling⟩ =>
            if e.finished then
              if e.segment = some cur then assembleStream i st fuel (retire i (pr.renditionsOf st) cur e s)
              else if needsAdvance s i st then requestTable i st s
              else s
            else s
        | none, some ⟨some cur, .assembling⟩ =>
            if pr.state = .draining then
              if cur < pr.cutter.counter then requestTable i st s
              else
                setAssembly i st ⟨some cur, .finished⟩
                  (closeCurrent i pr st cur true (pr.cutter.progEnd.getD 0) s)
            else s
        | _, _ => s

/-- Every stream with renditions has closed its final segment (R10, R140). -/
def Programme.allFinished (pr : Programme) : Bool :=
  Stream.all.all (fun st =>
    match pr.stream st with
    | some r => (match r.assembly with | some a => decide (a.phase = .finished) | none => true)
    | none => true)

/-- DRAINING becomes COMPLETE once no entry remains and every stream is FINISHED, with the STATE latch (R10). -/
def completeDrain (i : SlotId) (s : State) : State :=
  match s.prog i with
  | none => s
  | some pr =>
      if pr.state = .draining ∧ (s.entries.filter (fun e => e.inSlot i)).isEmpty ∧ pr.allFinished then
        s.setProg i (Programme.latch .state { pr with state := .complete })
      else s

/-- Every rendition has closed its segments with indices below `idx` (R37). -/
def Programme.closedBelow (pr : Programme) (idx : Nat) : Bool :=
  Stream.all.all (fun st =>
    match pr.stream st with
    | some r =>
        (match r.assembly with
         | some ⟨some cur, ph⟩ => decide (idx ≤ cur) || decide (ph = .finished)
         | some ⟨none, _⟩ => decide (idx = 0)
         | none => true)
    | none => true)

/-- The revision list without the records, other than the last, that no open segment and no entry still needs (R37). -/
def pruneRecords (closedBelow : Nat → Bool) (carried : Nat → Bool) : List RevRecord → List RevRecord
  | a :: b :: rest =>
      if closedBelow b.firstSegment && !carried a.revision then pruneRecords closedBelow carried (b :: rest)
      else a :: pruneRecords closedBelow carried (b :: rest)
  | rest => rest

/-- Removes the revision records of a programme that are no longer needed (R37). -/
def pruneRevisions (i : SlotId) (s : State) : State :=
  let carried (v : Nat) : Bool := s.entries.any (fun e => e.inSlot i && decide (e.revision = some v))
  s.modProg i (fun pr => { pr with revisions := pruneRecords pr.closedBelow carried pr.revisions })

/-- The assembler's work on one stream at an event, with what follows for the programme. -/
def progressStream (i : SlotId) (st : Stream) (s : State) : State :=
  completeDrain i (pruneRevisions i (assembleStream i st (s.entries.length + 1) s))

/-! ### The table queue (R132) -/

/-- What a grant carries out for a stream: the opening of segment 0 (R133) or one advance (R135). -/
def tableGrantOne (i : SlotId) (pr : Programme) (st : Stream) (s : State) : State :=
  match s.assembly i st with
  | some ⟨none, _⟩ => setAssembly i st ⟨some 0, .assembling⟩ (openAt i pr st 0 s)
  | some ⟨some cur, ph⟩ =>
      setAssembly i st ⟨some (cur + 1), ph⟩
        (openAt i pr st (cur + 1)
          (closeCurrent i pr st cur false (pr.cutter.cutRecord (cur + 1)).start s))
  | none => s

/-- Examines the head of the table queue and grants while the free table entries number at least its need. The request
stays at the head while its stream needs a further advance, and leaves the queue otherwise (R132). -/
def tableGrants : Nat → State → State
  | 0, s => s
  | fuel + 1, s =>
    match s.tableQueue with
    | [] => s
    | (i, st) :: rest =>
      match s.prog i with
      | none => tableGrants fuel { s with tableQueue := rest }
      | some pr =>
        if s.tableCount + (pr.renditionsOf st).length ≤ tableEntries then
          let s := pruneRevisions i (tableGrantOne i pr st s)
          if needsAdvance s i st then tableGrants fuel s
          else tableGrants fuel (progressStream i st { s with tableQueue := rest })
        else s

/-- Every grant takes a table entry, and every other turn drops a request, so this many turns empty the queue or
leave a head that must wait. -/
def State.tableFuel (s : State) : Nat := tableEntries + s.tableQueue.length + 1

/-- Examines the head of the table queue (R132, R143). -/
def examineTable (s : State) : State := tableGrants s.tableFuel s

/-- An event on one stream's entries: the assembler works on it, and a request that joined an empty table queue is
examined in the same step (R132, R134). -/
def assemble (i : SlotId) (st : Stream) (s : State) : State :=
  let s1 := progressStream i st s
  if s.tableQueue.isEmpty then examineTable s1 else s1

end Sys2Proof.Machine
end

