-- ==== Sys2Proof/Machine/Dispatcher.lean ====
section
/-! DEFINITION. The dispatcher, the store queue and the loss of entries (R114, R115, R119, R120, R123, R124). -/

namespace Sys2Proof.Machine

/-! ### Dispatch (R114, R115) -/

/-- The stream has at least one rendition in the programme of the slot. -/
def State.hasRendition (s : State) (i : SlotId) (st : Stream) : Bool :=
  match s.prog i with
  | some pr => !(pr.renditionsOf st).isEmpty
  | none => false

/-- A candidate for dispatch: a READY entry whose stream has a rendition (R114). -/
def State.isCandidate (s : State) (e : Entry) : Bool :=
  decide (e.state = .ready) && s.hasRendition e.name.handle.slot e.name.stream

/-- The class of the next dispatch: AUDIO before SLIDE before CAM (R114 step 1). -/
def dispatchClass (s : State) : Option Stream :=
  [Stream.audio, Stream.slide, Stream.cam].find? (fun st =>
    s.entries.any (fun e => s.isCandidate e && decide (e.name.stream = st)))

/-- The slots in increasing order from a pointer, wrapping from 31 to 0 (R114 step 2). -/
def slotsFrom (ptr : SlotId) : List SlotId := allSlots.map (fun j => ptr + j)

/-- The entry that the next dispatch takes (R114 steps 1 to 3). -/
def chooseEntry (s : State) : Option Entry :=
  match dispatchClass s with
  | none => none
  | some st =>
      (slotsFrom (s.dispatchPtr.get st)).findSome? (fun i =>
        s.entries.find? (fun e => e.inStream i st && s.isCandidate e))

/-- The lowest-numbered IDLE pipe (R114). -/
def idlePipe (s : State) : Option PipeId := allPipes.find? (fun e => decide (s.pipe e = .idle))

/-- The item descriptor of an entry (R115), for the dispatch of number `run`. -/
def descriptorOf (run : Nat) (pr : Programme) (e : Entry) : ItemDescriptor :=
  { run := run, item := e.name, granules := e.granules, length := e.length, timing := e.timing, key := e.key
    segStart := e.segStart, forceKey := e.forceKey
    renditions := pr.renditionsOf e.name.stream
    bitrates := (pr.renditionsOf e.name.stream).map (fun r => (pr.bitratesOf e.revision).getD r 0) }

/-- One dispatch: the entry becomes IN_PIPE, the pipe ENCODING with its descriptor and a deadline of now plus the item
limit, and the class's pointer moves to the slot after the one served (R114, R115). -/
def dispatchTo (pipe : PipeId) (pr : Programme) (e : Entry) (s : State) : State :=
  let s := s.modEntry e.name (fun x => { x with state := .inPipe })
  let s := s.setPipe pipe (.encoding (descriptorOf s.dispatches pr e) (s.now + pr.active.itemLimit))
  { s with dispatchPtr := s.dispatchPtr.set e.name.stream (e.name.handle.slot + 1), dispatches := s.dispatches + 1 }

/-- Dispatches one after another, at most `fuel`, while an IDLE pipe and a candidate both remain (R114). -/
def dispatchLoop : Nat → State → State
  | 0, s => s
  | fuel + 1, s =>
    match idlePipe s, chooseEntry s with
    | some pipe, some e =>
        match s.prog e.name.handle.slot with
        | some pr => dispatchLoop fuel (dispatchTo pipe pr e s)
        | none => s
    | _, _ => s

/-- The dispatches of an event: each uses one of the four pipes (R114). -/
def dispatchAll (s : State) : State := dispatchLoop 4 s

/-! ### Storage grants (R119, R120) -/

/-- A storage grant to the head of the store queue (R120): granules and bytes for each rendition, the Payload granules
freed, the entry DONE, the pipe IDLE and out of the queue. -/
def storageGrantOne (pipe : PipeId) (rest : List PipeId) (d : ItemDescriptor) (held : List EncodedOutput) (s : State) : State :=
  let extents := splitExtents (allocate s.outputUsed (outputNeed held)) held
  let s := { s with outputStore := placeExtents s.outputStore extents held, storeQueue := rest }
  let s := s.modEntry d.item (fun e => { e with output := some extents, granules := [], state := .done })
  s.setPipe pipe .idle

/-- Examines the head of the store queue, and after each grant the new head, while the free Output granules number at
least the head's need (R119). A DONE entry may retire at once (R120). -/
def storeGrants : Nat → State → State
  | 0, s => s
  | fuel + 1, s =>
    match s.storeQueue with
    | [] => s
    | pipe :: rest =>
      match s.pipe pipe with
      | .storing d held =>
          if s.storeCount + outputNeed held ≤ outputGranules then
            storeGrants fuel
              (assemble d.item.handle.slot d.item.stream (storageGrantOne pipe rest d held s))
          else s
      | _ => s

/-- Examines the head of the store queue (R119). -/
def examineStore (s : State) : State := storeGrants (s.storeQueue.length + 1) s

/-- After a freeing of segments or Output granules: the store queue and the table queue each examine their heads (R143),
and pipes made IDLE are given candidates (R114). -/
def afterFreeing (s : State) : State := dispatchAll (examineTable (examineStore s))

/-! ### Lost entries (R123, R124) -/

/-- The earliest READY entry of a stream in a segment (R124). -/
def State.keyHeir (s : State) (i : SlotId) (st : Stream) (seg : Option Nat) : Option Entry :=
  s.entries.find? (fun e => e.inStream i st && decide (e.state = .ready) && decide (e.segment = seg))

/-- The key that a lost entry owed passes to the earliest READY entry of its segment, or becomes the stream's force-key
mark (R124). -/
def passKey (e : Entry) (s : State) : State :=
  let i := e.name.handle.slot
  match s.keyHeir i e.name.stream e.segment with
  | some h => s.modEntry h.name (fun x => { x with forceKey := true })
  | none => s.modProg i (fun pr => pr.modStream e.name.stream (fun r => { r with forceKeyMark := e.segment }))

/-- The error record of a lost entry (R20, R123). -/
def lossRecord (c : ErrorClass) (e : Entry) : ErrorRecord :=
  { code := c, stream := some e.name.stream, piece := some e.piece, seq := some e.name.seq
    time := e.timing.map (fun x => (x.t : Int)) }

/-- An entry becomes LOST: its Payload granules are freed, the error is counted and reported, the key passes on, and the
entry may retire (R123, R124, R134). -/
def loseEntry (c : ErrorClass) (n : ItemName) (s : State) : State :=
  match s.entry n with
  | none => s
  | some e =>
      let s := s.modEntry n (fun x => { x with state := .lost, granules := [] })
      let s := s.modProg n.handle.slot (fun pr => (pr.countError c).reportIfEnabled (lossRecord c e))
      let s := if e.segStart || e.forceKey then passKey e s else s
      assemble n.handle.slot n.stream s

end Sys2Proof.Machine
end

