-- ==== Sys2Proof/Machine/SettingsOps.lean ====
section
/-! DEFINITION. Fields, their groups, ranges and values; staging and merging; the activation of pending sets
(sections 2.1 to 2.4, R26, R32, R36 to R38). -/

namespace Sys2Proof.Machine

inductive FieldGroup where
  | cutBound
  | pieceBound
  | immediate
  deriving DecidableEq, Repr

/-- The group of a field (section 2.1). -/
def Field.group : Field → FieldGroup
  | .segLength | .snapWindow | .minLength | .dwell | .policy | .bitrate _ => .cutBound
  | .rate _ | .jump | .gap | .rounding => .pieceBound
  | .report _ | .itemLimit | .heldLimit => .immediate

/-- Field code and selector of R180, as one number: the order of field code in which a record is read back (R30). -/
def Field.rank : Field → Nat
  | .segLength => 0x100
  | .snapWindow => 0x110
  | .minLength => 0x120
  | .dwell => 0x130
  | .policy => 0x140
  | .bitrate r => 0x150 + r.val
  | .rate .cam => 0x201
  | .rate .slide => 0x202
  | .rate .audio => 0x203
  | .jump => 0x210
  | .gap => 0x220
  | .rounding => 0x230
  | .report .timeRange => 0x300
  | .report .timestampMissing => 0x310
  | .report .discontinuity => 0x320
  | .report .pieceLimit => 0x330
  | .itemLimit => 0x340
  | .heldLimit => 0x350

/-- The value a set holds for a field. -/
def FieldSet.get (fs : FieldSet) (f : Field) : Option Int := (fs.find? (fun x => decide (x.1 = f))).map Prod.snd

/-- Places a value in a set, in field-code order, in place of an earlier value of the field (R27, R28). -/
def FieldSet.put : FieldSet → Field → Int → FieldSet
  | [], f, v => [(f, v)]
  | (g, w) :: fs, f, v =>
      if g = f then (f, v) :: fs
      else if f.rank < g.rank then (f, v) :: (g, w) :: fs
      else (g, w) :: FieldSet.put fs f v

/-- The fields of one group. -/
def FieldSet.ofGroup (fs : FieldSet) (g : FieldGroup) : FieldSet := fs.filter (fun x => decide (x.1.group = g))

/-- A value brought into a range (R26). -/
def clampTo (lo hi v : Int) : Int := if v < lo then lo else if hi < v then hi else v

/-- The range of a field, with the D that the ranges of W and M depend on (section 2.1, R26). -/
def Field.range (d : Nat) : Field → Int × Int
  | .segLength => (50, 600)
  | .snapWindow => (0, (d / 4 : Nat))
  | .minLength => (25, d)
  | .dwell => (25, 750)
  | .policy => (0, 1)
  | .bitrate _ => (64, 20000)
  | .rate _ => (-500, 500)
  | .jump => (1, 250)
  | .gap => (0, 125)
  | .rounding => (0, 1)
  | .report _ => (0, 1)
  | .itemLimit => (20, 2000)
  | .heldLimit => (16, 128)

def clampField (d : Nat) (f : Field) (v : Int) : Int := clampTo (f.range d).1 (f.range d).2 v

/-- The settings at Open (section 2.1, R5): defaults, with the bitrates given. -/
def Settings.atOpen (bitrates : List Nat) : Settings :=
  { segLength := 150, snapWindow := 25, minLength := 50, dwell := 75, policy := .defer, bitrates := bitrates
    rates := PerStream.const 0, jump := 50, gap := 0, rounding := .nearest
    repTimeRange := false, repTimestampMissing := false, repDiscontinuity := false, repPieceLimit := false
    itemLimit := 250, heldLimit := 64 }

/-- One value replaces its active value. Codes: DROP 1, CHOP 1, on 1 (R179). -/
def Settings.applyOne (a : Settings) (x : Field × Int) : Settings :=
  match x.1 with
  | .segLength => { a with segLength := x.2.toNat }
  | .snapWindow => { a with snapWindow := x.2.toNat }
  | .minLength => { a with minLength := x.2.toNat }
  | .dwell => { a with dwell := x.2.toNat }
  | .policy => { a with policy := if x.2 = 1 then .drop else .defer }
  | .bitrate r => { a with bitrates := a.bitrates.set r.val x.2.toNat }
  | .rate st => { a with rates := a.rates.set st x.2 }
  | .jump => { a with jump := x.2.toNat }
  | .gap => { a with gap := x.2.toNat }
  | .rounding => { a with rounding := if x.2 = 1 then .chop else .nearest }
  | .report .timeRange => { a with repTimeRange := decide (x.2 = 1) }
  | .report .timestampMissing => { a with repTimestampMissing := decide (x.2 = 1) }
  | .report .discontinuity => { a with repDiscontinuity := decide (x.2 = 1) }
  | .report .pieceLimit => { a with repPieceLimit := decide (x.2 = 1) }
  | .itemLimit => { a with itemLimit := x.2.toNat }
  | .heldLimit => { a with heldLimit := x.2.toNat }

/-- Every value of a set replaces its active value. -/
def Settings.applyAll (a : Settings) (fs : FieldSet) : Settings := fs.foldl Settings.applyOne a

/-- The piece-bound values in force (R62). -/
def Settings.pieceValues (a : Settings) : PieceValues := ⟨a.rates, a.jump, a.gap, a.rounding⟩

/-! ### Reading the fields of a Stage Settings record (R28, R180) -/

/-- The field that a code and selector name; none for a code not in the table, for one fixed at Open, and for a
selector that names nothing (R28 check 1). -/
def fieldNamed (x : RawField) : Option Field :=
  if x.code = 0x15 then
    (if h : x.selector.toNat < 5 then some (.bitrate ⟨x.selector.toNat, h⟩) else none)
  else if x.code = 0x20 then
    (if x.selector = 1 then some (.rate .cam) else if x.selector = 2 then some (.rate .slide)
     else if x.selector = 3 then some (.rate .audio) else none)
  else if x.selector ≠ 0 then none
  else if x.code = 0x10 then some .segLength
  else if x.code = 0x11 then some .snapWindow
  else if x.code = 0x12 then some .minLength
  else if x.code = 0x13 then some .dwell
  else if x.code = 0x14 then some .policy
  else if x.code = 0x21 then some .jump
  else if x.code = 0x22 then some .gap
  else if x.code = 0x23 then some .rounding
  else if x.code = 0x30 then some (.report .timeRange)
  else if x.code = 0x31 then some (.report .timestampMissing)
  else if x.code = 0x32 then some (.report .discontinuity)
  else if x.code = 0x33 then some (.report .pieceLimit)
  else if x.code = 0x34 then some .itemLimit
  else if x.code = 0x35 then some .heldLimit
  else none

/-- A field whose value is a code, 0 or 1, and not a number (R26, R28). -/
def Field.coded : Field → Bool
  | .policy | .rounding | .report _ => true
  | _ => false

/-- The field and value of a raw field; none where the record is malformed (R28 check 1). -/
def parseField (x : RawField) : Option (Field × Int) :=
  match fieldNamed x with
  | none => none
  | some f =>
      if f.coded = true ∧ ¬(x.value = 0 ∨ x.value = 1) then none else some (f, x.value.toInt)

/-- All the fields of a record, in the order of the command. -/
def parseFields : List RawField → Option (List (Field × Int))
  | [] => some []
  | x :: xs =>
      match parseField x, parseFields xs with
      | some y, some ys => some (y :: ys)
      | _, _ => none

/-- The programme has the rendition or stream that a field names (R28 check 4). -/
def Programme.hasField (pr : Programme) : Field → Bool
  | .bitrate r => decide (r.val < pr.renditions.length)
  | .rate st => (pr.stream st).isSome
  | _ => true

/-! ### Merging staged values (R26, R28) -/

/-- The D that the ranges of W and M use: the staged D when there is one, the active D otherwise (R26). -/
def stagedLength (active : Nat) (fs : FieldSet) : Nat := ((fs.get .segLength).map Int.toNat).getD active

/-- A staged W or M is clamped again, against the D now staged (R26). -/
def reclamp (d : Nat) (f : Field) (fs : FieldSet) : FieldSet :=
  match fs.get f with
  | some v => fs.put f (clampField d f v)
  | none => fs

/-- One value is merged: clamped and placed; a D also clamps the W and M of the record again (R26, R28). -/
def mergeField (active : Nat) (fs : FieldSet) (x : Field × Int) : FieldSet :=
  let v := clampField (stagedLength active fs) x.1 x.2
  let fs := fs.put x.1 v
  if x.1 = .segLength then reclamp v.toNat .minLength (reclamp v.toNat .snapWindow fs) else fs

/-- The values of a command merged in the order of the command (R28). -/
def mergeAll (active : Nat) (fs : FieldSet) (xs : List (Field × Int)) : FieldSet := xs.foldl (mergeField active) fs

/-- The value a command gives for a field: the last, where a field is given twice (R28). -/
def givenValue (xs : List (Field × Int)) (f : Field) : Option Int :=
  (xs.reverse.find? (fun x => decide (x.1 = f))).map Prod.snd

/-- The fields named as clamped: those whose staged value differs from the value given, and a W or M already held whose
value the command changed (R26). -/
def clampedFields (before after : FieldSet) (xs : List (Field × Int)) : List Field :=
  (after.filter (fun x =>
    match givenValue xs x.1 with
    | some v => decide (x.2 ≠ v)
    | none =>
        (decide (x.1 = .snapWindow) || decide (x.1 = .minLength)) && decide (before.get x.1 ≠ some x.2))).map Prod.fst

/-! ### Completing a cut-bound set (R32 step 3, R33) -/

/-- The value of a staged field, or the active one. -/
def orActive (fs : FieldSet) (f : Field) (a : Nat) : Nat := ((fs.get f).map Int.toNat).getD a

/-- W is added with floor(D/4) when it would exceed it, with the D that will be in force (R32 step 3). -/
def needsW (a : Settings) (fs : FieldSet) : Bool :=
  decide (orActive fs .segLength a.segLength / 4 < orActive fs .snapWindow a.snapWindow)

/-- M is added with D when it would exceed it (R32 step 3). -/
def needsM (a : Settings) (fs : FieldSet) : Bool :=
  decide (orActive fs .segLength a.segLength < orActive fs .minLength a.minLength)

/-- The set completed against the active values (R32 step 3). -/
def completeCut (a : Settings) (fs : FieldSet) : FieldSet :=
  let d := orActive fs .segLength a.segLength
  let fs1 := if needsW a fs then fs.put .snapWindow ((d / 4 : Nat) : Int) else fs
  if needsM a fs then fs1.put .minLength (d : Int) else fs1

/-- The fields that the completion added (R32). -/
def completedFields (a : Settings) (fs : FieldSet) : List Field :=
  (if needsW a fs then [.snapWindow] else []) ++ (if needsM a fs then [.minLength] else [])

/-- Newer values merged over a pending piece-bound set (R32 step 4). -/
def mergePending (old : Option FieldSet) (fs : FieldSet) : FieldSet :=
  fs.foldl (fun acc x => acc.put x.1 x.2) (old.getD [])

/-! ### Activation -/

/-- A pending piece-bound set becomes active when a piece opens, with the SETTINGS latch (R38). -/
def Programme.activatePiece (pr : Programme) : Programme :=
  match pr.pendingPiece with
  | none => pr
  | some fs => Programme.latch .settings { pr with active := pr.active.applyAll fs, pendingPiece := none }

/-- A pending cut-bound set becomes active at a decided cut that starts segment `k`: the values, the cut revision, the
revision list's new record and the SETTINGS latch (R36, R37). -/
def Programme.activateCut (k : Nat) (pr : Programme) : Programme :=
  match pr.pendingCut with
  | none => pr
  | some pc =>
      let active := pr.active.applyAll pc.fields
      Programme.latch .settings
        { pr with active := active, cutRevision := pc.label, pendingCut := none
                  revisions := pr.revisions ++ [⟨pc.label, k, active.bitrates⟩] }

end Sys2Proof.Machine
end

