-- ==== Sys2Proof/Machine/Cutter.lean ====
section
/-! DEFINITION. The Chapter and Cut Unit: the slide detector, the chapter list, the horizons, the decision pass, the
release pass and the programme end (chapter 5). -/

namespace Sys2Proof.Machine

/-! ### Horizons (R96) -/

/-- The greater of two horizons. -/
def Horizon.max : Horizon → Horizon → Horizon
  | .negInf, b => b
  | a, .negInf => a
  | .posInf, _ => .posInf
  | _, .posInf => .posInf
  | .at a, .at b => .at (Max.max a b)

/-- H is at or beyond a time. -/
def Horizon.reaches (h : Horizon) (t : Int) : Bool :=
  match h with
  | .negInf => false
  | .at a => decide (t ≤ a)
  | .posInf => true

/-- The slide term of the horizon (R96). -/
def Programme.slideTerm (pr : Programme) : Horizon :=
  match pr.stream .slide with
  | none => .posInf
  | some r =>
      if r.ended then .posInf
      else match r.position with
        | none => .negInf
        | some x => .at ((x : Int) - (pr.active.dwell * pr.frame : Nat))

def forcedTerm (forced : Option Nat) : Horizon :=
  match forced with
  | some g => .at g
  | none => .negInf

/-- H becomes the greatest of its value, the forced horizon and the slide term (R96). -/
def Programme.raiseHorizon (pr : Programme) : Programme :=
  { pr with cutter := { pr.cutter with
      horizon := (pr.cutter.horizon.max (forcedTerm pr.cutter.forced)).max pr.slideTerm } }

/-! ### Recording chapters (R90, R91) -/

/-- Some chapter has the time as its effective cut time. -/
def Cutter.hasEffective (c : Cutter) (t : Nat) : Bool := c.chapters.any (fun ch => decide (ch.effective = some t))

/-- What R91 gives an AUTO chapter at a time: disposition, effective time and segment index. -/
def Cutter.autoDisposition (c : Cutter) (t : Nat) : Disposition × Option Nat × Option Nat :=
  let p := c.lastCut
  let within : Option Nat := if t < p then some (c.segmentAt t) else none
  if (match c.forced with | some g => decide (t ≤ g) | none => false) then (.late, none, within)
  else if t = p then
    (if c.hasEffective p then (.merged, some p, some c.counter) else (.cut, some p, some c.counter))
  else if t < p ∧ (match c.previous with | some q => decide (q < t) | none => false) = true ∧ c.deferred then
    (.merged, some p, some c.counter)
  else if t < p then (.late, none, within)
  else (.pending, none, none)

/-- Places an entry in time order (R90, R92). -/
def insertChapter (ch : Chapter) : List Chapter → List Chapter
  | [] => [ch]
  | x :: xs => if ch.time < x.time then ch :: x :: xs else x :: insertChapter ch xs

/-- The chapter-start mark of the last cut record becomes yes (R91). -/
def markLast : List CutRecord → List CutRecord
  | [] => []
  | [r] => [{ r with chapterStart := true }]
  | r :: rs => r :: markLast rs

/-- A new entry joins the list: the statistic and the CHAPTER latch, and LIMIT at the 128th (R90). -/
def Programme.addChapter (ch : Chapter) (pr : Programme) : Programme :=
  let n := pr.cutter.chapters.length
  let pr := { pr with
    cutter := { pr.cutter with chapters := insertChapter ch pr.cutter.chapters }
    stats := { pr.stats with chapters := pr.stats.chapters + 1 } }
  let pr := if n + 1 = chapterEntries then Programme.latch .limit pr else pr
  Programme.latch .chapter pr

/-- A confirmation is recorded at a time: merged into an entry there, added, or, with the list full, not recorded
(R90, R91). -/
def Programme.recordAuto (t : Nat) (idx : BitVec 16) (pr : Programme) : Programme :=
  let c := pr.cutter
  if c.chapters.any (fun ch => decide (ch.time = t)) then
    let chapters := c.chapters.map (fun ch => if ch.time = t then { ch with slideIndex := some idx } else ch)
    Programme.latch .chapter { pr with cutter := { c with chapters := chapters } }
  else if c.chapters.length < chapterEntries then
    let (d, eff, seg) := c.autoDisposition t
    let pr := pr.addChapter ⟨t, .auto, some idx, d, eff, seg⟩
    if d = .cut then { pr with cutter := { pr.cutter with cuts := markLast pr.cutter.cuts } } else pr
  else Programme.latch .limit pr

/-- A confirmation at a time is recorded: an entry there takes it, or the list has room for a new one (R90). -/
def Cutter.records (c : Cutter) (t : Nat) : Bool :=
  c.chapters.any (fun ch => decide (ch.time = t)) || decide (c.chapters.length < chapterEntries)

/-! ### The slide detector (R88, R89) -/

/-- The confirmation test against slide position `x`: on success the chapter is recorded at the candidate start, the
confirmed index becomes the candidate's and the candidate is cleared (R88). The answer says whether it succeeded. -/
def Programme.confirm (x : Nat) (pr : Programme) : Bool × Programme :=
  match pr.cutter.candidate with
  | none => (false, pr)
  | some cand =>
      if cand.start + pr.active.dwell * pr.frame ≤ x then
        let pr := pr.recordAuto cand.start cand.index
        (true, { pr with cutter := { pr.cutter with confirmed := some cand.index, candidate := none } })
      else (false, pr)

/-- The detector's work on a kept SLIDE unit with its slide index and position (R88). -/
def Programme.detect (idx : Option (BitVec 16)) (x : Nat) (pr : Programme) : Bool × Programme :=
  match idx with
  | none => pr.confirm x
  | some i =>
      if pr.cutter.confirmed = some i then (false, { pr with cutter := { pr.cutter with candidate := none } })
      else
        match pr.cutter.candidate with
        | some cand =>
            if cand.index = i then pr.confirm x
            else (false, { pr with cutter := { pr.cutter with candidate := some ⟨i, x / pr.frame * pr.frame⟩ } })
        | none => (false, { pr with cutter := { pr.cutter with candidate := some ⟨i, x / pr.frame * pr.frame⟩ } })

/-! ### Deciding cuts (R99 to R104) -/

/-- The case that yields a next cut. -/
inductive CutCase where
  | early (q : Nat)
  | inRange (q : Nat)
  | nominal (q : Nat)
  deriving DecidableEq, Repr

def CutCase.time : CutCase → Nat
  | .early q => q
  | .inRange q => q
  | .nominal q => q

/-- The PENDING chapters of the list. -/
def Cutter.pendingChapters (c : Cutter) : List Chapter := c.chapters.filter (fun ch => decide (ch.disp = .pending))

/-- A PENDING chapter lies in (p, p + M·F). -/
def Cutter.hasEarly (c : Cutter) (m : Nat) : Bool :=
  c.pendingChapters.any (fun ch => decide (c.lastCut < ch.time) && decide (ch.time < c.lastCut + m))

/-- The earliest PENDING chapter in [p + M·F, p + (D + W)·F]; the list is in time order (R102). -/
def Cutter.inRangeChapter (c : Cutter) (m dw : Nat) : Option Chapter :=
  c.pendingChapters.find? (fun ch => decide (c.lastCut + m ≤ ch.time) && decide (ch.time ≤ c.lastCut + dw))

/-- R101: under DROP, with H at or beyond p + M·F, the PENDING chapters in (p, p + M·F) become INSIDE in segment k. -/
def Programme.disposeEarly (pr : Programme) : Programme :=
  let c := pr.cutter
  let m := pr.active.minLength * pr.frame
  if pr.active.policy = .drop ∧ c.horizon.reaches ((c.lastCut + m : Nat) : Int) = true then
    let chapters := c.chapters.map (fun ch =>
      if ch.disp = .pending ∧ c.lastCut < ch.time ∧ ch.time < c.lastCut + m then
        { ch with disp := .inside, segment := some c.counter }
      else ch)
    { pr with cutter := { c with chapters := chapters } }
  else pr

/-- The case of R100, R102 or R103 that yields the next cut, if any; the disposal of R101 has been made. DESIGN CHOICE
(log 39): a PENDING chapter in range at or below H yields its cut by R102 also where it lies at or beyond Z (the SLIDE
stream has ended) and the forced horizon is at or beyond p + D·F. That cut fails the reach gate, and R99 and R102 leave no
forced nominal cut beside it, though R97, R106 and R164 have the passes after a forcing release every HELD entry. -/
def Programme.nextCut (pr : Programme) : Option CutCase :=
  let c := pr.cutter
  let p := c.lastCut
  let m := pr.active.minLength * pr.frame
  let d := pr.active.segLength * pr.frame
  let dw := (pr.active.segLength + pr.active.snapWindow) * pr.frame
  let forcedNominal : Option CutCase :=
    match c.forced with
    | some g => if p + d ≤ g then some (.nominal (p + d)) else none
    | none => none
  if c.hasEarly m then
    (match pr.active.policy with
     | .defer => some (.early (p + m))
     | .drop => none)
  else
    match c.inRangeChapter m dw with
    | some ch => if c.horizon.reaches (ch.time : Int) then some (.inRange ch.time) else forcedNominal
    | none => if c.horizon.reaches ((p + dw : Nat) : Int) then some (.nominal (p + d)) else forcedNominal

/-- The reach gate: below Z, or below E once E is known (R99). -/
def Cutter.gate (c : Cutter) (q : Nat) : Bool :=
  match c.progEnd with
  | some e => decide (q < e)
  | none => decide (q < c.reach)

/-- The earliest PENDING chapter after p: the one R100 makes DEFERRED. -/
def Cutter.firstEarly (c : Cutter) : Option Nat :=
  (c.pendingChapters.find? (fun ch => decide (c.lastCut < ch.time))).map Chapter.time

/-- What a decided cut makes of one chapter (R104 steps 1 and 4): `k` is the segment that ends at the cut. -/
def disposeAt (cs : CutCase) (p k : Nat) (first : Option Nat) (ch : Chapter) : Chapter :=
  let q := cs.time
  match ch.disp with
  | .pending =>
      (match cs with
       | .early _ =>
           if p < ch.time ∧ ch.time ≤ q then
             { ch with disp := if first = some ch.time then .deferred else .merged
                       effective := some q, segment := some (k + 1) }
           else ch
       | .inRange _ =>
           if ch.time = q then { ch with disp := .cut, effective := some q, segment := some (k + 1) }
           else if p < ch.time ∧ ch.time < q then { ch with disp := .inside, segment := some k }
           else ch
       | .nominal _ =>
           if p < ch.time ∧ ch.time < q then { ch with disp := .inside, segment := some k } else ch)
  | .late => if p ≤ ch.time ∧ ch.time < q ∧ ch.segment = none then { ch with segment := some k } else ch
  | _ => ch

/-- Whether a case begins a segment at a chapter (R104 step 3). -/
def CutCase.atChapter : CutCase → Bool
  | .early _ => true
  | .inRange _ => true
  | .nominal _ => false

/-- A pending cut-bound set that changes the dwell (R89). -/
def Programme.dwellChange (pr : Programme) : Bool :=
  match pr.pendingCut with
  | some pc => (match FieldSet.get pc.fields .dwell with
                | some v => decide (v.toNat ≠ pr.active.dwell)
                | none => false)
  | none => false

/-- After an activation that changed the dwell: the confirmation test with the new dwell, then the rise of H (R89,
R96). -/
def Programme.dwellEffect (pr : Programme) : Programme :=
  let pr := match (pr.stream .slide).bind StreamRecord.position with
    | some x => (pr.confirm x).2
    | none => pr
  pr.raiseHorizon

/-- A decided cut takes effect (R104). -/
def Programme.decideCut (cs : CutCase) (pr : Programme) : Programme :=
  let c := pr.cutter
  let k := c.counter
  let chapters := c.chapters.map (disposeAt cs c.lastCut k c.firstEarly)
  let deferred := match cs with | .early _ => true | _ => false
  let changes := pr.dwellChange
  let pr := { pr with cutter := { c with
    chapters := chapters, previous := some c.lastCut, deferred := deferred
    cuts := c.cuts ++ [CutRecord.mk cs.time cs.atChapter] } }
  let pr := pr.activateCut (k + 1)
  if changes then pr.dwellEffect else pr

/-- A decision pass: cuts are decided one after another while a case yields one that passes the gate (R99). DESIGN CHOICE
(log 39): a failed gate ends the pass after a forcing too, so that behind a chapter at or beyond Z the HELD entries at or
beyond p + D·F stay HELD, where R97 and R164 have every HELD entry released. -/
def decisionLoop : Nat → Programme → Programme
  | 0, pr => pr
  | fuel + 1, pr =>
      let pr := pr.disposeEarly
      match pr.nextCut with
      | none => pr
      | some cs => if pr.cutter.gate cs.time then decisionLoop fuel (pr.decideCut cs) else pr

/-- Each decided cut lies at least one frame above the one before it and below Z or E, so this many turns suffice. -/
def Programme.passFuel (pr : Programme) : Nat :=
  (pr.cutter.progEnd.getD pr.cutter.reach) / pr.frame + 2

def Programme.decisionPass (pr : Programme) : Programme := decisionLoop pr.passFuel pr

/-! ### Releasing entries (R106, R107, R113, R125) -/

/-- The segment index at which an entry at position `x` is released now, if it is (R106). -/
def Programme.releaseIndex (pr : Programme) (x : Nat) : Option Nat :=
  let c := pr.cutter
  let p := c.lastCut
  if x < p then some (c.segmentAt x)
  else if x < p + pr.active.minLength * pr.frame then some c.counter
  else if c.horizon.reaches (x : Int) = true ∧ x < p + pr.active.segLength * pr.frame then some c.counter
  else if c.progEnd.isSome then some c.counter
  else none

/-- The entry as its release into segment `k` leaves it (R107, R113, R125). -/
def releasedEntry (pr : Programme) (r : StreamRecord) (k : Nat) (e : Entry) : Entry :=
  let e := { e with
    segment := some k
    segStart := (match r.started with | some j => decide (j < k) | none => true)
    revision := pr.revisionFor k
    forceKey := e.forceKey || decide (r.forceKeyMark = some k) }
  if (pr.renditionsOf e.name.stream).isEmpty then { e with state := .done, granules := [], output := some [] }
  else { e with state := .ready }

/-- The stream record after the release of an entry into segment `k` (R107, R125). -/
def releasedStream (k : Nat) (r : StreamRecord) : StreamRecord :=
  { r with
    started := (match r.started with | some j => some (Max.max j k) | none => some k)
    forceKeyMark := (match r.forceKeyMark with | some i => if i ≤ k then none else some i | none => none) }

/-- The release pass over one stream's entries, in sequence order, until the first that cannot be released (R106). The
answer holds the stream record and the entries afterwards. -/
def releaseEntries (i : SlotId) (st : Stream) (pr : Programme) : StreamRecord → List Entry → StreamRecord × List Entry
  | r, [] => (r, [])
  | r, e :: es =>
      if e.inStream i st = true ∧ e.state = .held then
        match e.timing.bind (fun x => pr.releaseIndex x.x) with
        | none => (r, e :: es)
        | some k =>
            let (r', es') := releaseEntries i st pr (releasedStream k r) es
            (r', releasedEntry pr r k e :: es')
      else
        let (r', es') := releaseEntries i st pr r es
        (r', e :: es')

/-- One stream's part of the release pass; the entries of a stream with no rendition are DONE and may retire at once
(R106, R113, R134). -/
def releaseStream (i : SlotId) (st : Stream) (s : State) : State :=
  match s.prog i with
  | none => s
  | some pr =>
    match pr.stream st with
    | none => s
    | some r =>
        let (r', es) := releaseEntries i st pr r s.entries
        let s := (s.setEntries es).setProg i (pr.setStream st r')
        if (pr.renditionsOf st).isEmpty then assemble i st s else s

/-- The release pass of a programme, stream by stream (R106). -/
def releasePass (i : SlotId) (s : State) : State :=
  releaseStream i .audio (releaseStream i .slide (releaseStream i .cam s))

/-- A decision pass and the release pass that follows it (R99, R106). -/
def passes (i : SlotId) (s : State) : State := releasePass i (s.modProg i Programme.decisionPass)

/-! ### Forcing (R97) -/

/-- The greatest stream position among the programme's HELD entries; none without a HELD entry (R97). -/
def State.greatestHeld (s : State) (i : SlotId) : Option Nat :=
  ((s.entries.filter (fun e => e.inSlot i && decide (e.state = .held))).filterMap
    (fun e => e.timing.map Timing.x)).max?

/-- Forces the horizon of a programme that holds HELD entries: the forced horizon, the FORCED latch, the rise of H and
the passes (R97). The passes release every HELD entry but in the case of log 39 (DESIGN CHOICE at `decisionLoop`). -/
def forceHorizon (i : SlotId) (s : State) : State :=
  match s.prog i, s.greatestHeld i with
  | some pr, some g =>
      if (match pr.cutter.forced with | some f => decide (f < g) | none => true) then
        let pr := { pr with cutter := { pr.cutter with forced := some g } }
        passes i (s.setProg i (Programme.raiseHorizon (Programme.latch .forced pr)))
      else s
  | _, _ => s

/-- Forces every programme that holds HELD entries, in slot order (R164). -/
def forceAll (s : State) : State := allSlots.foldl (fun s i => forceHorizon i s) s

/-- The HELD count compared with the held limit: equal forces the horizon (R35, R97). -/
def compareHeld (i : SlotId) (s : State) : State :=
  match s.prog i with
  | some pr => if s.heldCount i = pr.active.heldLimit then forceHorizon i s else s
  | none => s

/-! ### The cutter's step for a kept unit (R87) -/

/-- The rise of H at an event, with the passes that follow a rise (R96). -/
def raiseAndPass (i : SlotId) (s : State) : State :=
  match s.prog i with
  | none => s
  | some pr =>
      if pr.raiseHorizon.cutter.horizon = pr.cutter.horizon then s
      else passes i (s.setProg i pr.raiseHorizon)

/-- Stages 2 and 3 of R87 for a SLIDE unit at slide position `x`: the detector, the passes after a recorded chapter, and
the rise of H. A confirmation that a full list does not record makes no passes (R90, R99). -/
def slideStages (i : SlotId) (idx : Option (BitVec 16)) (x : Nat) (s : State) : State :=
  match s.prog i with
  | none => s
  | some pr =>
      let (confirmed, after) := pr.detect idx x
      let recorded := confirmed && pr.cutter.candidate.any (fun cand => pr.cutter.records cand.start)
      let s := s.setProg i after
      raiseAndPass i (if recorded then passes i s else s)

/-- The entry of a kept unit becomes HELD (R78 step 2). -/
def holdEntry (n : ItemName) (s : State) : State := s.modEntry n (fun e => { e with state := .held })

/-- The cutter's step for a kept unit: stages 1 to 5 of R87, in order. The new entry stands among the HELD entries from stage 4
on: it counts there, and it is released by the passes of that stage or the last, not by those that follow a chapter or a
rise of H in stages 2 and 3 (R87, log 13). -/
def cutterStep (n : ItemName) (idx : Option (BitVec 16)) (t dm x : Nat) (s : State) : State :=
  let i := n.handle.slot
  let s := s.modProg i (fun pr =>
    { pr with cutter := { pr.cutter with reach := Max.max pr.cutter.reach (t + dm) } })
  let s := if n.stream = .slide then slideStages i idx x s else s
  passes i (compareHeld i (holdEntry n s))

/-! ### The end of a stream and of the programme (R89, R105, R108) -/

/-- At the end of the SLIDE stream the candidate is dropped and H becomes +∞, with the passes (R56, R89, R96). The
stream's ended flag is set. -/
def endSlide (i : SlotId) (s : State) : State :=
  raiseAndPass i (s.modProg i (fun pr => { pr with cutter := { pr.cutter with candidate := none } }))

/-- Every chapter still PENDING becomes INSIDE in the final segment, and every LATE chapter without a segment index
receives it (R105 step 4). -/
def disposeFinal (k : Nat) (ch : Chapter) : Chapter :=
  match ch.disp with
  | .pending => { ch with disp := .inside, segment := some k }
  | .late => if ch.segment = none then { ch with segment := some k } else ch
  | _ => ch

/-- The cutter at Close Ingest, steps 1 to 4 of R105. -/
def Programme.endProgramme (pr : Programme) : Programme :=
  let pr := { pr with cutter := { pr.cutter with candidate := none } }
  let pr := pr.raiseHorizon
  let pr := { pr with cutter := { pr.cutter with progEnd := some (ceilDiv pr.cutter.reach pr.frame * pr.frame) } }
  let pr := pr.decisionPass
  { pr with cutter := { pr.cutter with chapters := pr.cutter.chapters.map (disposeFinal pr.cutter.counter) } }

end Sys2Proof.Machine
end

