-- ==== Sys2Proof/Machine/Mapper.lean ====
section
/-! DEFINITION. The Timeline Mapper: piece selection and opening, unwrap, rebase and rate correction, the limits and
keeping (chapter 4). All arithmetic is exact, on signed quantities without limit (R68, R71). -/

namespace Sys2Proof.Machine

/-! ### Pieces (R64 to R66) -/

/-- The piece record of a number. -/
def Programme.pieceAt (pr : Programme) (k : Nat) : Option PieceRecord := pr.pieces[k]?

/-- The label and running end of the current piece. -/
def Programme.currentLabel (pr : Programme) : Nat := ((pr.pieces.getLast?).map PieceRecord.label).getD 0

def Programme.currentEnd (pr : Programme) : Nat := ((pr.pieces.getLast?).map PieceRecord.runningEnd).getD 0

/-- A new piece is opened with label `n` (R65): the pending piece-bound set becomes active, the record takes its offset
from the running end of the piece it closes, and LIMIT is set for skipped numbers and for a full list. -/
def Programme.openPiece (n : Nat) (pr : Programme) : Programme :=
  let last := pr.currentLabel
  let endc := pr.currentEnd
  let pr := pr.activatePiece
  let offset := ceilDiv endc pr.frame * pr.frame + pr.active.gap * pr.frame
  let pr := { pr with pieces := pr.pieces ++ [PieceRecord.mk n offset none offset pr.active.pieceValues] }
  let pr := if last + 1 < n then Programme.latch .limit pr else pr
  if pr.pieces.length = pieceRecords then Programme.latch .limit pr else pr

/-- The piece in which a unit naming header piece `n` is mapped, whether it raises PIECE_LIMIT, and the programme after
any opening (R64, R66). -/
def Programme.selectPiece (n : Nat) (pr : Programme) : Nat × Bool × Programme :=
  match pr.pieces.findIdx? (fun x => decide (x.label = n)) with
  | some k => (k, false, pr)
  | none =>
      if pr.currentLabel < n then
        if pr.pieces.length < pieceRecords then
          ((pr.openPiece n).currentPiece, false, pr.openPiece n)
        else (pr.currentPiece, true, pr)
      else (pr.currentPiece, false, pr)

/-! ### Unwrap (R67 to R70) -/

/-- 2^33, at which a source timestamp wraps (section 5.4). -/
def wrapTicks : Int := 8589934592

/-- The step from a previous reading to timestamp `p`, the smallest in either direction (R68). -/
def unwrapStep (p prev : Int) : Int :=
  let d := (p - prev % wrapTicks) % wrapTicks
  if 4294967296 ≤ d then d - wrapTicks else d

/-- What the unwrap gives a unit: TIMESTAMP_MISSING, or the adjusted unwrapped timestamp, the unit's anchor adjustment,
whether it is a DISCONTINUITY, and the origin S0 it sets for its piece. -/
inductive Unwrapped where
  | missing
  | at (u anchor : Int) (discontinuity : Bool) (setsOrigin : Option Int)
  deriving DecidableEq, Repr

/-- The unwrap of a unit mapped in piece `k` (R67 to R70). -/
def unwrap (frame : Nat) (k : Nat) (piece : PieceRecord) (r : StreamRecord) (timestamp : Option Nat) : Unwrapped :=
  match r.uPrev, decide (r.piece = some k), timestamp with
  | some u, true, some p =>
      let d := unwrapStep p (u - r.anchor)
      if (piece.values.jump * frame : Nat) < d.natAbs then
        let target := u + (r.durPrev.getD 0 : Nat)
        .at target (r.anchor + (target - (u + d))) true none
      else .at (u + d) r.anchor false none
  | some u, true, none => .at (u + (r.durPrev.getD 0 : Nat)) r.anchor false none
  | _, _, some p =>
      (match piece.origin with
       | none => .at p 0 false (some p)
       | some s0 => .at (s0 + unwrapStep p s0) 0 false none)
  | _, _, none => .missing

/-! ### Rebase and rate correction (R71 to R73) -/

/-- a / 1 000 000 rounded in the mode given (R71). -/
def roundMillion (mode : Rounding) (a : Int) : Int :=
  match mode with
  | .chop => a.tdiv 1000000
  | .nearest => a.sign * ((2 * a.natAbs + 1000000) / 2000000 : Nat)

/-- The programme time of an unwrapped timestamp in a piece (R72). -/
def programmeTime (piece : PieceRecord) (st : Stream) (u : Int) : Int :=
  let e := u - piece.origin.getD u
  piece.offset + e + roundMillion piece.values.rounding (e * piece.values.rates.get st)

/-- The mapped duration (R73). -/
def mappedDuration (piece : PieceRecord) (st : Stream) (dur : Nat) : Nat :=
  ((dur : Int) + roundMillion piece.values.rounding ((dur : Int) * piece.values.rates.get st)).toNat

/-! ### Limits and the outcome (R74 to R76) -/

/-- A unit that has a programme time: its piece, unwrapped timestamp, anchor adjustment, t and dm. -/
structure MappedUnit where
  piece  : Nat
  u      : Int
  anchor : Int
  t      : Int
  dm     : Nat
  deriving DecidableEq, Repr

/-- The limit that discards a unit, tested in the order early, late, TIME_RANGE (R76). -/
inductive Limit where
  | kept
  | early
  | late
  | timeRange
  deriving DecidableEq, Repr

def Programme.limitOf (pr : Programme) (k : Nat) (t : Int) : Limit :=
  if t < 0 then .early
  else if k < pr.currentPiece ∧
      (match pr.pieceAt (k + 1) with | some nx => decide ((nx.offset : Int) ≤ t) | none => false) = true then .late
  else if (tMax : Int) < t then .timeRange
  else .kept

/-- The origin S0 of piece `k` is set (R67). -/
def Programme.setOrigin (k : Nat) (o : Option Int) (pr : Programme) : Programme :=
  match o with
  | none => pr
  | some v =>
      { pr with pieces := pr.pieces.modify k (fun x => { x with origin := some v }) }

/-- What the mapping stages 1 to 4 of R63 make of a unit: the errors raised, in the order of the stages, the time, and
the limit met. `limit` is none for a TIMESTAMP_MISSING. -/
structure Mapping where
  prog   : Programme
  piece  : Nat
  raised : List ErrorClass
  unit   : Option MappedUnit
  limit  : Limit
  deriving DecidableEq, Repr

/-- Stages 1 to 4 of the mapping step (R63). -/
def Programme.mapUnit (pr : Programme) (r : StreamRecord) (e : Entry) : Mapping :=
  let sel := pr.selectPiece e.piece
  let k := sel.1
  let pl : List ErrorClass := if sel.2.1 then [.pieceLimit] else []
  let pr1 := sel.2.2
  match pr1.pieceAt k with
  | none => ⟨pr1, k, pl, none, .kept⟩
  | some piece =>
    match unwrap pr1.frame k piece r e.timestamp with
    | .missing => ⟨pr1, k, pl ++ [.timestampMissing], none, .kept⟩
    | .at u anchor disc o =>
        let pr2 := pr1.setOrigin k o
        let piece := { piece with origin := piece.origin.or o }
        let t := programmeTime piece e.name.stream u
        let m : MappedUnit := ⟨k, u, anchor, t, mappedDuration piece e.name.stream e.duration⟩
        let lim := pr2.limitOf k t
        ⟨pr2, k, pl ++ (if disc then [.discontinuity] else []) ++ (if lim = .timeRange then [.timeRange] else []),
          some m, lim⟩

/-- The early and late discard statistics (R74, R75). -/
def countLimit (l : Limit) (pr : Programme) : Programme :=
  match l with
  | .early => { pr with stats := { pr.stats with early := pr.stats.early + 1 } }
  | .late => { pr with stats := { pr.stats with late := pr.stats.late + 1 } }
  | .kept => pr
  | .timeRange => pr

/-- The error record of a class raised in a mapping step (R80). -/
def mappingRecord (e : Entry) (m : Mapping) (c : ErrorClass) : ErrorRecord :=
  { code := c, stream := some e.name.stream
    piece := some (if c = .pieceLimit then e.piece else m.piece)
    seq := some e.name.seq
    time := m.unit.map MappedUnit.t }

/-- The reported errors of one unit, recorded at the end of its step in the order raised (R80). -/
def reportRaised (e : Entry) (m : Mapping) (pr : Programme) : Programme :=
  m.raised.foldl (fun pr c => pr.reportIfEnabled (mappingRecord e m c)) pr

/-- The stream record after keeping a unit (R78 steps 1 and 3). -/
def keptStream (r : StreamRecord) (u : MappedUnit) (dur : Nat) : StreamRecord :=
  { r with
    position := some (match r.position with | some x => Max.max x u.t.toNat | none => u.t.toNat)
    uPrev := some u.u, durPrev := some dur, anchor := u.anchor, piece := some u.piece }

/-- The programme after keeping a unit (R78 steps 1, 3, 4 and 5). -/
def Programme.keep (st : Stream) (r : StreamRecord) (u : MappedUnit) (dur : Nat) (pr : Programme) : Programme :=
  let pieces := if u.piece = pr.currentPiece then
      pr.pieces.modify u.piece (fun x => { x with runningEnd := Max.max x.runningEnd (u.t.toNat + u.dm) })
    else pr.pieces
  let mapped := pr.stats.mapped.set st (pr.stats.mapped.get st + 1)
  { pr.setStream st (keptStream r u dur) with
    pieces := pieces, stats := { pr.stats with mapped := mapped } }

/-- The entry with the time and piece that keeping gives it (R78 step 2). It joins the HELD entries in the cutter's step, of
which it may be released by the last stage alone (R87, log 13). -/
def keptEntry (u : MappedUnit) (x : Nat) (e : Entry) : Entry :=
  { e with timing := some ⟨u.t.toNat, u.dm, x⟩, piece := u.piece }

/-- The mapping step of a completed unit (R63): it is kept and handed to the cutter (R78, R79), or discarded (R77); its
errors are recorded at the end of the step (R80). -/
def mapStep (n : ItemName) (s : State) : State :=
  let i := n.handle.slot
  match s.entry n, s.prog i with
  | some e, some pr =>
    match pr.stream n.stream with
    | none => s
    | some r =>
      let m := pr.mapUnit r e
      let counted := m.raised.foldl (fun pr c => pr.countError c) m.prog
      let s :=
        match m.unit, m.limit with
        | some u, .kept =>
            let x := ((keptStream r u e.duration).position).getD 0
            let s := s.setProg i (counted.keep n.stream r u e.duration)
            let s := s.modEntry n (keptEntry u x)
            cutterStep n e.slideIndex u.t.toNat u.dm x s
        | some _, l => (s.setProg i (countLimit l counted)).removeEntry n
        | none, _ => (s.setProg i counted).removeEntry n
      s.modProg i (reportRaised e m)
  | _, _ => s

end Sys2Proof.Machine
end

