-- ==== Sys2Proof/Machine/LaneOps.lean ====
section
/-! DEFINITION. Chunk slots and the byte stream of a lane, the fill slot, freeing slots, MALFORMED_UNIT, and removing
lanes (chapter 3). -/

namespace Sys2Proof.Machine

/-! ### Slots -/

def LaneRecord.slot (ln : LaneRecord) (b : SlotNo) : ChunkSlot := if b then ln.slot1 else ln.slot0

def LaneRecord.setSlot (ln : LaneRecord) (b : SlotNo) (c : ChunkSlot) : LaneRecord :=
  if b then { ln with slot1 := c } else { ln with slot0 := c }

/-- The count of a slot, 0 where it is free. -/
def LaneRecord.countOf (ln : LaneRecord) (b : SlotNo) : Nat := (ln.slot b).count.getD 0

/-- The free slot with the lower number (R43). -/
def LaneRecord.lowestFreeSlot (ln : LaneRecord) : Option SlotNo :=
  if ln.slot0.count.isNone then some false else if ln.slot1.count.isNone then some true else none

/-- The fill slot is chosen where the lane has none and a slot is free (R43). -/
def LaneRecord.chooseFill (ln : LaneRecord) : LaneRecord :=
  match ln.fill with
  | some _ => ln
  | none => { ln with fill := ln.lowestFreeSlot }

/-- The number of free slots, 0 to 2. -/
def LaneRecord.freeSlots (ln : LaneRecord) : Nat :=
  (if ln.slot0.count.isNone then 1 else 0) + (if ln.slot1.count.isNone then 1 else 0)

/-- A slot frees: it becomes free and, if the lane has no fill slot, the fill slot (R45). -/
def LaneRecord.freeSlotNo (ln : LaneRecord) (b : SlotNo) : LaneRecord :=
  (ln.setSlot b { ln.slot b with count := none }).chooseFill

/-! ### The byte stream up to the next boundary (R44, R45) -/

/-- What ends the unread bytes of the full slots: nothing yet, a flush boundary, or the end of stream. -/
inductive Boundary where
  | none
  | flush
  | eos
  deriving DecidableEq, Repr

/-- How many bytes are unread up to the first boundary. -/
def LaneRecord.availableFrom (ln : LaneRecord) : List SlotNo → Nat → Nat
  | [], _ => 0
  | b :: rest, rp =>
      let n := ln.countOf b
      if n = slotBytes then (n - rp) + ln.availableFrom rest 0 else n - rp

def LaneRecord.available (ln : LaneRecord) : Nat := ln.availableFrom ln.order ln.readPos

/-- The bytes not yet consumed in all full slots (R60). -/
def LaneRecord.unread (ln : LaneRecord) : Nat := (ln.order.map ln.countOf).sum - ln.readPos

/-- The first boundary of the full slots in post order. -/
def LaneRecord.boundaryIn (ln : LaneRecord) : List SlotNo → Boundary
  | [] => .none
  | b :: rest =>
      if ln.countOf b = 0 then .eos
      else if ln.countOf b = slotBytes then ln.boundaryIn rest
      else .flush

def LaneRecord.boundary (ln : LaneRecord) : Boundary := ln.boundaryIn ln.order

/-- Byte `i` of the unread bytes. -/
def LaneRecord.byteFrom (ln : LaneRecord) : List SlotNo → Nat → Nat → Byte
  | [], _, _ => 0
  | b :: rest, rp, i =>
      if i < ln.countOf b - rp then Mem.read (ln.slot b).bytes (rp + i)
      else ln.byteFrom rest 0 (i - (ln.countOf b - rp))

/-- The first `n` unread bytes, counted on from byte `i`. -/
def LaneRecord.takeFrom (ln : LaneRecord) (i : Nat) : Nat → List Byte
  | 0 => []
  | n + 1 => ln.byteFrom ln.order ln.readPos i :: ln.takeFrom (i + 1) n

/-- The first `n` unread bytes. -/
def LaneRecord.peek (ln : LaneRecord) (n : Nat) : List Byte := ln.takeFrom 0 n

/-! ### Consuming bytes (R45) -/

/-- Consumes `n` bytes from the slots of the order, starting at `rp`: a slot of 32 768 bytes frees when its last byte is
consumed; a slot that ends in a boundary stays until the boundary is acted on. The answer is the lane, the post order
and the read position. -/
def consumeFrom : LaneRecord → List SlotNo → Nat → Nat → LaneRecord × List SlotNo × Nat
  | ln, [], _, _ => (ln, [], 0)
  | ln, b :: rest, rp, n =>
      let left := ln.countOf b - rp
      if n < left then (ln, b :: rest, rp + n)
      else if ln.countOf b = slotBytes then consumeFrom (ln.freeSlotNo b) rest 0 (n - left)
      else (ln, b :: rest, ln.countOf b)

/-- The last full slot of a RUNNING lane has freed: it is ATTACHED again (R47). -/
def LaneRecord.settleState (ln : LaneRecord) : LaneRecord :=
  if ln.state = .running ∧ ln.order = [] then { ln with state := .attached } else ln

/-- Consumes `n` bytes of the lane's stream. -/
def LaneRecord.consume (n : Nat) (ln : LaneRecord) : LaneRecord :=
  let r := consumeFrom ln ln.order ln.readPos n
  { r.1 with order := r.2.1, readPos := r.2.2, consumed := ln.consumed + BitVec.ofNat 48 n }.settleState

/-- Frees the slots of the order up to and including the first that ends in a boundary (R45, R54). -/
def dropThrough : LaneRecord → List SlotNo → LaneRecord × List SlotNo
  | ln, [] => (ln, [])
  | ln, b :: rest =>
      if ln.countOf b = slotBytes then dropThrough (ln.freeSlotNo b) rest
      else (ln.freeSlotNo b, rest)

/-- Consumes every byte up to the first boundary and the boundary with it: its slot frees (R45, R54). -/
def LaneRecord.passBoundary (ln : LaneRecord) : LaneRecord :=
  let n := ln.available
  let r := dropThrough ln ln.order
  { r.1 with order := r.2, readPos := 0, consumed := ln.consumed + BitVec.ofNat 48 n }.settleState

/-- Writes a lane that an event has moved on, and sets its owner's LANE_SLOT latch where it gained a free slot (R46). -/
def State.advanceLane (s : State) (l : LaneId) (before after : LaneRecord) : State :=
  let s := s.setLane l after
  if before.freeSlots < after.freeSlots then s.setLaneSlot after.owner else s

/-! ### Where the parser stands -/

/-- The programme and stream that a lane serves. -/
def State.laneProg (s : State) (l : LaneId) : Option (SlotId × Stream × Programme) :=
  match (s.lane l).target with
  | some (h, st) => (s.prog h.slot).map (fun pr => (h.slot, st, pr))
  | none => none

/-- The programme state of a lane's programme. -/
def State.laneState (s : State) (l : LaneId) : Option ProgState := (s.laneProg l).map (fun x => x.2.2.state)

/-- The parser copies payload, discards and acts on boundaries in INGESTING and HALTED, throttle or not (R48, R53 to
R56). -/
def State.parserWorks (s : State) (l : LaneId) : Bool :=
  decide (s.laneState l = some .ingesting) || decide (s.laneState l = some .halted)

/-- The first slot of the post order ends in a boundary: it is full and does not hold 32 768 bytes (R44, R56). -/
def LaneRecord.boundaryFirst (ln : LaneRecord) : Bool :=
  match ln.order with
  | [] => false
  | b :: _ => decide (ln.countOf b ≠ slotBytes)

/-- The parser reaches the boundary that ends the unread bytes (R54 to R56). While it discards or copies payload, every slot
before the boundary's has been consumed and has freed (SLOT_FREE); at a header, fewer than sixteen bytes are left before it,
which the step discards (log 32). -/
def LaneRecord.reachesBoundary (ln : LaneRecord) : Bool :=
  if ln.discarding then ln.boundaryFirst
  else match ln.pos with
    | .atHeader => decide (ln.available < headerBytes)
    | .inPayload _ rem => ln.boundaryFirst && decide (ln.available < rem)

/-- The parser stands at a header whose sixteen bytes are present (R49). -/
def LaneRecord.headerPresent (ln : LaneRecord) : Bool :=
  !ln.discarding && decide (ln.pos = .atHeader) && decide (headerBytes ≤ ln.available)

/-- The header that the parser of a lane examines: its programme is INGESTING, the throttle is off and the header's
sixteen bytes are present (R49). -/
def State.examined (s : State) (l : LaneId) : Option UnitHeader :=
  if s.laneState l = some .ingesting ∧ s.throttle = false ∧ (s.lane l).headerPresent = true then
    readUnitHeader ((s.lane l).peek headerBytes)
  else none

/-! ### MALFORMED_UNIT and the removal of lanes -/

/-- The name of a lane's unit in progress. -/
def LaneRecord.unitName (ln : LaneRecord) : Option ItemName :=
  match ln.target, ln.pos with
  | some (h, st), .inPayload q _ => some ⟨h, st, q⟩
  | _, _ => none

/-- A MALFORMED_UNIT of a stream: the statistic, and the error, which is always reported, with the unit sequence where an
entry had been allocated; that entry is removed (R57). -/
def malformedUnit (h : Handle) (st : Stream) (seq : Option (BitVec 24)) (s : State) : State :=
  let s := match seq with
    | some q => s.removeEntry ⟨h, st, q⟩
    | none => s
  s.modProg h.slot (fun pr =>
    (pr.countError .malformedUnit).reportIfEnabled
      { code := .malformedUnit, stream := some st, piece := none, seq := seq, time := none })

/-- The record of a lane that returns to FREE: its slot bytes are not cleared (R41). -/
def LaneRecord.toFree (ln : LaneRecord) : LaneRecord := LaneRecord.freeWith ln.slot0.bytes ln.slot1.bytes

/-- The stream record loses its lane (R56, R58). -/
def dropLane (i : SlotId) (st : Stream) (s : State) : State :=
  s.modProg i (fun pr => pr.modStream st (fun r => { r with lane := none }))

/-- Removes a lane: its unread bytes are discarded, a partly copied unit is removed with its entry and granules, the lane
becomes FREE and the stream loses it (R58, R59). -/
def removeLane (l : LaneId) (s : State) : State :=
  let ln := s.lane l
  let s := match ln.unitName with
    | some n => s.removeEntry n
    | none => s
  let s := s.setLane l ln.toFree
  match ln.target with
  | some (h, st) => dropLane h.slot st s
  | none => s

/-- Removes every lane that a test picks, in lane-number order (R59). -/
def removeLanesWhere (p : LaneRecord → Bool) (s : State) : State :=
  allLanes.foldl (fun s l => if p (s.lane l) then removeLane l s else s) s

/-- A lane attached to a stream of the programme in a slot. -/
def LaneRecord.serves (ln : LaneRecord) (i : SlotId) : Bool :=
  match ln.target with
  | some (h, _) => decide (h.slot = i)
  | none => false

/-- ATTACHED lanes of a programme with a full slot enter RUNNING (R47: at Start Ingest and Resume Ingest). -/
def runLanes (i : SlotId) (s : State) : State :=
  { s with lanes := s.lanes.map (fun ln =>
      if ln.serves i = true ∧ ln.state = .attached ∧ ln.order ≠ [] then { ln with state := .running } else ln) }

end Sys2Proof.Machine
end

