-- ==== Sys2Proof/Machine/Parser.lean ====
section
/-! DEFINITION. Header parse with its arbiter, the throttle's turn-off and what closes every step (R50 to R52, R160 to R164,
R174), and the parser's events: HEADER_PARSE, MALFORMED_HEADER, UNIT_COMPLETE, SLOT_FREE, FLUSH_BOUNDARY and
END_OF_STREAM. An event whose condition does not hold does not take place: it changes nothing (log 6). -/

namespace Sys2Proof.Machine

/-! ### Header parse (R50, R52) -/

/-- The duration of a header, settled: 0 is replaced by the stream's last header duration, or by 1 (R52). -/
def settledDuration (r : StreamRecord) (d : Nat) : Nat := if d = 0 then r.lastHeaderDuration.getD 1 else d

/-- The entry that header parse allocates (R50). -/
def parsedEntry (h : Handle) (st : Stream) (r : StreamRecord) (u : UnitHeader) (granules : List Nat) : Entry :=
  { name := ⟨h, st, r.nextSeq⟩
    piece := u.piece
    timestamp := u.timestamp
    duration := settledDuration r u.duration
    slideIndex := if st = .slide then u.slideIndex else none
    length := u.length
    granules := granules
    timing := none
    key := u.key
    state := .filling
    segment := none
    segStart := false
    forceKey := false
    revision := none
    output := none }

/-- The stream record after header parse: the next sequence number and the last header duration (R50, R52). -/
def parsedStream (u : UnitHeader) (r : StreamRecord) : StreamRecord :=
  { r with nextSeq := r.nextSeq + 1, lastHeaderDuration := some (settledDuration r u.duration) }

/-- The lane after header parse (R50 steps 1 and 6). -/
def LaneRecord.afterHeader (seq : BitVec 24) (u : UnitHeader) (ln : LaneRecord) : LaneRecord :=
  { ln.consume headerBytes with pos := .inPayload seq u.length, begun := ln.begun + 1 }

/-- Header parse on a lane, in one step (R50, R52); the arbiter's pointer moves to the lane after it (R51). -/
def takeHeader (l : LaneId) (h : Handle) (st : Stream) (r : StreamRecord) (u : UnitHeader) (s : State) : State :=
  let ln := s.lane l
  let gs := allocate s.payloadUsed (granulesFor u.length)
  let s := s.setEntries (s.entries ++ [parsedEntry h st r u gs])
  let s := s.modProg h.slot (fun pr => pr.setStream st (parsedStream u r))
  let s := s.advanceLane l ln (ln.afterHeader r.nextSeq u)
  { s with parsePtr := l + 1 }

/-! ### The header-parse arbiter (R51) -/

/-- What a lane waits with at a header that is not malformed: handle, stream, stream record and header (R49, R51). -/
def State.waiting (s : State) (l : LaneId) : Option (Handle × Stream × StreamRecord × UnitHeader) :=
  match s.examined l, (s.lane l).target, s.laneProg l with
  | some u, some (h, st), some (_, _, pr) =>
      if u.malformed st then none
      else (pr.stream st).map (fun r => (h, st, r, u))
  | _, _, _ => none

/-- The supply meets a header's needs (R50). -/
def State.supplyMeets (s : State) (u : UnitHeader) : Bool :=
  decide (s.acceptCount < acceptPlaces) && decide (s.payloadCount + granulesFor u.length ≤ payloadGranules)

/-- The lanes in lane-number order from the pointer, wrapping from L7 to L0 (R51). -/
def lanesFrom (ptr : LaneId) : List LaneId := allLanes.map (fun j => ptr + j)

/-- The first lane from the pointer that waits at a header whose needs are met (R51). -/
def arbiterChoice (s : State) : Option (LaneId × Handle × Stream × StreamRecord × UnitHeader) :=
  (lanesFrom s.parsePtr).findSome? (fun l =>
    match s.waiting l with
    | some (h, st, r, u) => if s.supplyMeets u then some (l, h, st, r, u) else none
    | none => none)

/-- Every programme's horizon forced, with the dispatches that follow, and the sources evaluated on the counts that this
leaves: entries of streams without a rendition retire in it (R113, R160, R164; log 14). -/
def forceForSupply (s : State) : State := evaluateSources s (dispatchAll (forceAll s))

/-- Header parse on the lane that the arbiter chooses, and the sources evaluated on the counts it leaves (R51, R160); none
where no lane waits whose needs are met. -/
def parseNext (s : State) : Option State :=
  (arbiterChoice s).map (fun c => evaluateSources s (takeHeader c.1 c.2.1 c.2.2.1 c.2.2.2.1 c.2.2.2.2 s))

/-- ACCEPT or PAYLOAD has turned on between two states (R163, R164). -/
def turnedOn (before after : State) : Bool :=
  (!before.sources.accept && after.sources.accept) || (!before.sources.payload && after.sources.payload)

/-- One service of the arbiter: a header parse, and, where it turns ACCEPT or PAYLOAD on, every programme's horizon forced in
the same step (R51, R163, R164). DESIGN CHOICE (log 38): a source that the header parse turned on stays on above its low mark,
and stands off at the end of the step where the forcing brings its count to the low mark. -/
def serveLane (s : State) : State :=
  match parseNext s with
  | none => s
  | some s1 => if turnedOn s s1 then forceForSupply s1 else s1

/-- The arbiter serves lanes one at a time, at most `fuel`; it stops where no lane waits, and after a header parse that turns
ACCEPT or PAYLOAD on: the remaining lanes go on waiting, whatever the forcing then leaves of the source (R163). -/
def serveLanes : Nat → State → State
  | 0, s => s
  | fuel + 1, s =>
      match parseNext s with
      | none => s
      | some s1 => if turnedOn s s1 then forceForSupply s1 else serveLanes fuel s1

/-! ### Malformed headers (R49, R57) -/

/-- The lane after a malformed header: its bytes are consumed and it discards, in RESYNC or in ENDING (R47, R49). -/
def LaneRecord.afterMalformed (ln : LaneRecord) : LaneRecord :=
  let ln := ln.consume headerBytes
  { ln with discarding := true, state := if ln.state = .ending then .ending else .resync }

/-- The parser of a lane finds the header it examines malformed (R49, R57); nothing where it does not. -/
def malformedAt (l : LaneId) (s : State) : State :=
  match s.examined l, (s.lane l).target with
  | some u, some (h, st) =>
      if u.malformed st then
        malformedUnit h st none (s.advanceLane l (s.lane l) (s.lane l).afterMalformed)
      else s
  | _, _ => s

/-! ### The throttle's turn-off and the end of a step -/

/-- At the throttle's turn-off each waiting lane examines its header, a malformed one is treated, and the arbiter serves
the others until none waits or a header parse turns ACCEPT or PAYLOAD on (R163). -/
def turnOff (s : State) : State := serveLanes 8 (allLanes.foldl (fun s l => malformedAt l s) s)

/-- What closes a step that led from `before` to `s`: the sources are evaluated on the counts the step leaves (R160), the
turn-off of the throttle, if it turned off, is acted on (R163), and the ports' notices are sent (R174). -/
def conclude (before s : State) : State :=
  let s1 := evaluateSources before s
  notices before (if before.throttle = true ∧ s1.throttle = false then turnOff s1 else s1)

/-! ### Copying payload (R53) -/

/-- The unit in progress on a lane has `n` further bytes copied from the slots into its entry's granules (R53). -/
def copyPayload (l : LaneId) (n : Nat) (s : State) : State :=
  let ln := s.lane l
  match ln.unitName, ln.pos with
  | some name, .inPayload q rem =>
      match s.entry name with
      | none => s
      | some e =>
          let s := { s with payloadArea := writeGranules s.payloadArea e.granules (e.length - rem) (ln.peek n) }
          let pos : ParserPos := if rem ≤ n then .atHeader else .inPayload q (rem - n)
          s.advanceLane l ln { ln.consume n with pos := pos }
  | _, _ => s

/-! ### Flush boundaries (R54, R55) -/

/-- The lane after a boundary has been acted on: every byte before it is consumed, its slot is free, discarding has ended
and the parser stands at a header (R54, R55). -/
def LaneRecord.afterBoundary (ln : LaneRecord) : LaneRecord :=
  let ln := ln.passBoundary
  { ln with
    discarding := false, pos := .atHeader
    state := if ln.state = .resync then (if ln.order = [] then .attached else .running) else ln.state }

/-- The error of a boundary met before the bytes of a header or payload were complete: a unit cut short, with its entry,
or 1 to 15 header bytes, without one; none while discarding or between units (R54, R56). -/
def cutShort (ln : LaneRecord) (s : State) : State :=
  if ln.discarding then s
  else
    match ln.target, ln.pos with
    | some (h, st), .inPayload q _ => malformedUnit h st (some q) s
    | some (h, st), .atHeader => if ln.available = 0 then s else malformedUnit h st none s
    | none, _ => s

/-- The parser of a lane reaches a flush boundary and acts on it (R54). -/
def actOnFlush (l : LaneId) (s : State) : State :=
  let ln := s.lane l
  s.advanceLane l ln ln.afterBoundary |> cutShort ln

/-! ### The events -/

/-- HEADER_PARSE (R50, R51): the arbiter serves the waiting lane it reaches first. -/
def execHeaderParse (s : State) : Host.Outcome State Fault Refusal := .next (notices s (serveLane s))

/-- MALFORMED_HEADER (R49, R57). -/
def execMalformedHeader (l : LaneId) (s : State) : Host.Outcome State Fault Refusal :=
  .next (conclude s (malformedAt l s))

/-- The unit on a lane can be completed: the parser works, and the rest of its payload is present (R53). -/
def State.completable (s : State) (l : LaneId) : Option (ItemName × Nat) :=
  match (s.lane l).unitName, (s.lane l).pos with
  | some n, .inPayload _ rem =>
      if s.parserWorks l = true ∧ (s.lane l).discarding = false ∧ rem ≤ (s.lane l).available ∧
          (s.entry n).isSome = true then some (n, rem) else none
  | _, _ => none

/-- UNIT_COMPLETE (R53): the rest of the payload is copied and the unit passes to the Timeline Mapper (R63). -/
def execUnitComplete (l : LaneId) (s : State) : Host.Outcome State Fault Refusal :=
  match s.completable l with
  | some (n, rem) => .next (conclude s (dispatchAll (mapStep n (copyPayload l rem s))))
  | none => .next s

/-- SLOT_FREE (R45): every byte of the first full slot is consumed. A slot of 32 768 bytes frees by discarding, or by
copying payload of a unit that goes on beyond it; a slot that ends in a flush boundary frees while discarding (R55) or
when nothing is left before the boundary (R54, first case). -/
def execSlotFree (l : LaneId) (s : State) : Host.Outcome State Fault Refusal :=
  let ln := s.lane l
  match ln.order with
  | [] => .next s
  | b :: _ =>
      let left := ln.countOf b - ln.readPos
      if s.parserWorks l = false then .next s
      else if ln.countOf b = slotBytes then
        (if ln.discarding then .next (conclude s (s.advanceLane l ln (ln.consume left)))
         else match ln.pos with
          | .inPayload _ rem => if left < rem then .next (conclude s (copyPayload l left s)) else .next s
          | .atHeader => .next s)
      else if ln.countOf b = 0 then .next s
      else if ln.discarding = true ∨ (ln.pos = .atHeader ∧ left = 0) then .next (conclude s (actOnFlush l s))
      else .next s

/-- FLUSH_BOUNDARY (R54, R55). -/
def execFlushBoundary (l : LaneId) (s : State) : Host.Outcome State Fault Refusal :=
  if s.parserWorks l = true ∧ (s.lane l).boundary = .flush ∧ (s.lane l).reachesBoundary = true then
    .next (conclude s (actOnFlush l s))
  else .next s

/-- The stream of a lane has ended: the lane is FREE, the stream has no lane and its ended flag is set; the end of the
SLIDE stream reaches the cutter (R56 steps 2 to 5). -/
def endStream (l : LaneId) (h : Handle) (st : Stream) (s : State) : State :=
  let s := s.setLane l (s.lane l).toFree
  let s := s.modProg h.slot (fun pr => pr.modStream st (fun r => { r with lane := none, ended := true }))
  if st = .slide then endSlide h.slot s else s

/-- END_OF_STREAM (R56). -/
def execEndOfStream (l : LaneId) (s : State) : Host.Outcome State Fault Refusal :=
  match (s.lane l).target with
  | some (h, st) =>
      if s.parserWorks l = true ∧ (s.lane l).boundary = .eos ∧ (s.lane l).reachesBoundary = true then
        .next (conclude s (dispatchAll (endStream l h st (cutShort (s.lane l) s))))
      else .next s
  | none => .next s

end Sys2Proof.Machine
end

