-- ==== Sys2Proof/Machine/Operands.lean ====
section
/-! DEFINITION. What every port command shares: the checks of R2 and of form (R180), codes of operands (R179), replies,
and how a command reaches its port and is taken (R169 to R171). -/

namespace Sys2Proof.Machine

/-! ### Operand codes (R179) -/

/-- The kinds that a byte of bits names; bit 7 must be zero. -/
def kindsOf (b : Byte) : KindSet := b.extractLsb' 0 7

def kindsForm (b : Byte) : Bool := !b.getLsbD 7

/-- A yes or no byte: 0 or 1. -/
def flagForm (b : Byte) : Bool := decide (b = 0) || decide (b = 1)

/-- A stream set byte holds a stream's bit. -/
def streamBit (b : Byte) : Stream → Bool
  | .cam => b.getLsbD 0
  | .slide => b.getLsbD 1
  | .audio => b.getLsbD 2

/-! ### Replies -/

/-- A refusal: the code, no data and no change of state (R2, R173). -/
def refuse (c : OutcomeCode) (s : State) : State × Reply := (s, ⟨c, .empty⟩)

/-- OK with the data of the command's rule. -/
def okay (d : RespData) (s : State) : State × Reply := (s, ⟨.ok, d⟩)

/-! ### The checks of R2 -/

/-- Checks 1 and 2: form and the handle's slot (MALFORMED), then the handle itself (NOT_FOUND). -/
def withHandle (form : Bool) (h : RawHandle) (s : State) (k : SlotId → Programme → State × Reply) : State × Reply :=
  if hs : h.slot.toNat < 32 then
    if form then
      match s.prog ⟨h.slot.toNat, hs⟩ with
      | some pr => if s.gen ⟨h.slot.toNat, hs⟩ = h.gen then k ⟨h.slot.toNat, hs⟩ pr else refuse .notFound s
      | none => refuse .notFound s
    else refuse .malformed s
  else refuse .malformed s

/-- Checks 1 to 3: also that the port watches the programme (NOT_WATCHING). -/
def withWatched (form : Bool) (p : Port) (h : RawHandle) (s : State) (k : SlotId → Programme → State × Reply) :
    State × Reply :=
  withHandle form h s (fun i pr => if pr.watch.get p then k i pr else refuse .notWatching s)

/-- The lane that a lane byte names (R44, R58, R60: above 7 is MALFORMED). -/
def withLane (b : Byte) (s : State) (k : LaneId → State × Reply) : State × Reply :=
  if h : b.toNat < 8 then k ⟨b.toNat, h⟩ else refuse .malformed s

/-! ### Taking a command (R169 to R171) -/

/-- The response of a taken command joins the end of the port's response queue (R171, R173). -/
def respond (p : Port) (tag : BitVec 16) (code : BitVec 16) (r : Reply) (s : State) : State :=
  s.setPort p { s.port p with responses := (s.port p).responses ++ [⟨code, tag, r⟩] }

/-- Taking a command is one step: it is carried out or refused and its one response joins the queue (R171). -/
def take (p : Port) (tag : BitVec 16) (c : PortCommand) (act : State → State × Reply) (s : State) : State :=
  conclude s (respond p tag c.code (act s).2 (act s).1)

/-- A record joins the end of the command queue, or, with 16 records there, is discarded and sets the overflow
indication (R169, R170). -/
def enqueue (p : Port) (r : CommandRecord) (s : State) : State :=
  let pt := s.port p
  if pt.commands.length < queueRecords then s.setPort p { pt with commands := pt.commands ++ [r] }
  else s.setPort p { pt with overflow := true }

/-- A command that arrives now is taken at once: the command queue is empty and the response queue has a free place
(R171). -/
def State.takesNow (s : State) (p : Port) : Bool :=
  (s.port p).commands.isEmpty && decide ((s.port p).responses.length < queueRecords)

/-- The record of a command (R180). -/
def recordOf (tag : BitVec 16) (c : PortCommand) : CommandRecord :=
  ⟨(encodeRecord tag c).length, encodeRecord tag c⟩

/-- A command sent by a port arrives (R169): it is taken at once (R171), or its record waits in the queue or overflows it
(R170). -/
def issue (p : Port) (tag : BitVec 16) (c : PortCommand) (taken : State → State) (s : State) :
    Host.Outcome State Fault Refusal :=
  .next (if s.takesNow p then taken s else enqueue p (recordOf tag c) s)

end Sys2Proof.Machine
end

