-- ==== Sys2Proof/Machine/Chapters.lean ====
section
/-! DEFINITION. Insert Chapter and Read Chapters (R93, R95). -/

namespace Sys2Proof.Machine

/-- The entry of the list at a time. -/
def Cutter.chapterAt (c : Cutter) (t : Nat) : Option Chapter := c.chapters.find? (fun ch => decide (ch.time = t))

/-- The chapter index of the entry at a time: its place in the list (R92). -/
def Cutter.chapterIndex (c : Cutter) (t : Nat) : Nat :=
  (c.chapters.findIdx? (fun ch => decide (ch.time = t))).getD c.chapters.length

/-- The times an Insert Chapter may name (R93 check 1). -/
def timeForm (time : BitVec 32) : Bool := decide (time.toNat ≤ tMax)

/-- Insert Chapter: the checks of R93 in their order, then the chapter and its decision pass. DESIGN CHOICE (log 37): the second of
two commands at one time, where the first one's pass has moved p to or past that time, is TOO_LATE by the order of R93,
though R94 has it refused DUPLICATE. -/
def doInsertChapter (p : Port) (h : RawHandle) (time : BitVec 32) (s : State) : State × Reply :=
  withWatched (timeForm time) p h s (fun i pr =>
    let c := time.toNat / pr.frame * pr.frame
    if ¬(pr.state = .opened ∨ pr.state = .ingesting ∨ pr.state = .halted) then refuse .badState s
    else if pr.cutter.horizon.reaches (c : Int) = true ∨ c ≤ pr.cutter.lastCut then refuse .tooLate s
    else if (pr.cutter.chapterAt c).isSome then refuse .duplicate s
    else if chapterEntries ≤ pr.cutter.chapters.length then refuse .listFull s
    else
      let s := s.setProg i (pr.addChapter ⟨c, .manual, none, .pending, none, none⟩)
      let s := dispatchAll (passes i s)
      let after := ((s.prog i).getD pr).cutter
      let entry := after.chapterAt c
      okay (.inserted c (after.chapterIndex c) ((entry.map Chapter.disp).getD .pending)
        (entry.bind Chapter.effective)) s)

def execInsertChapter (p : Port) (tag : BitVec 16) (h : RawHandle) (time : BitVec 32) (s : State) :
    Host.Outcome State Fault Refusal :=
  issue p tag (.insertChapter h time) (take p tag (.insertChapter h time) (doInsertChapter p h time)) s

/-- Entries with their chapter indices, counted on from `n`. -/
def numberFrom (n : Nat) : List Chapter → List (Nat × Chapter)
  | [] => []
  | x :: xs => (n, x) :: numberFrom (n + 1) xs

def chaptersView (pr : Programme) (start : Nat) : ChaptersView :=
  let c := pr.cutter
  { count := c.chapters.length, horizon := c.horizon, lastCut := c.lastCut, counter := c.counter
    forced := c.forced, progEnd := c.progEnd
    entries := ((numberFrom 0 c.chapters).drop start).take 16 }

def doReadChapters (p : Port) (h : RawHandle) (start : BitVec 16) (s : State) : State × Reply :=
  withWatched (decide (start.toNat ≤ 127)) p h s (fun _ pr => okay (.chapters (chaptersView pr start.toNat)) s)

def execReadChapters (p : Port) (tag : BitVec 16) (h : RawHandle) (start : BitVec 16) (s : State) :
    Host.Outcome State Fault Refusal :=
  issue p tag (.readChapters h start) (take p tag (.readChapters h start) (doReadChapters p h start)) s

end Sys2Proof.Machine
end

