-- ==== Sys2Proof/Machine/Delivery.lean ====
section
/-! DEFINITION. Watch Programme, Leave Programme, and the delivery commands List Segments, Fetch Segment and Release Segment
(section 1.4.1, chapter 8). -/

namespace Sys2Proof.Machine

/-! ### Watch Programme (R13) -/

/-- A joining port starts with its latches on the programme clear; a member is left as it is (R13). -/
def Programme.join (p : Port) (pr : Programme) : Programme :=
  if pr.watch.get p then pr else { pr with watch := pr.watch.set p true, latches := pr.latches.set p 0 }

def doWatchProgramme (p : Port) (h : RawHandle) (s : State) : State × Reply :=
  withHandle true h s (fun i pr => okay (.watched pr.state) (s.setProg i (pr.join p)))

def execWatchProgramme (p : Port) (tag : BitVec 16) (h : RawHandle) (s : State) : Host.Outcome State Fault Refusal :=
  issue p tag (.watchProgramme h) (take p tag (.watchProgramme h) (doWatchProgramme p h)) s

/-! ### Pending sets and freeing (R143, R155, R156) -/

/-- A CLOSED segment, not UNCLAIMED, whose pending set holds the port. -/
def Segment.owes (g : Segment) (p : Port) : Bool :=
  match g.status with
  | .closed _ pend unclaimed => pend.get p && !unclaimed
  | .opened => false

/-- The segment without the port in its pending set. -/
def Segment.release (g : Segment) (p : Port) : Segment :=
  match g.status with
  | .closed e pend unclaimed => { g with status := .closed e (PortSet.without pend p) unclaimed }
  | .opened => g

/-- The port is the only member of the pending set that it is in. -/
def Segment.owedByAlone (g : Segment) (p : Port) : Bool :=
  g.owes p &&
    (match g.status with
     | .closed _ pend _ => PortSet.isEmpty (PortSet.without pend p)
     | .opened => false)

/-- The port leaves the pending sets of the segments that `sel` picks; those that become empty are freed. The answer holds
how many sets changed and how many segments were freed (R155, R156). -/
def leavePending (p : Port) (sel : Segment → Bool) (s : State) : State × Nat × Nat :=
  let changed := (s.segments.filter (fun g => sel g && g.owes p)).length
  let freed := (s.segments.filter (fun g => sel g && g.owedByAlone p)).length
  let kept := (s.segments.filter (fun g => !(sel g && g.owedByAlone p))).map
    (fun g => if sel g && g.owes p then g.release p else g)
  let s := s.setSegments kept
  (if freed = 0 then s else afterFreeing s, changed, freed)

/-! ### Leave Programme (R14, R155) -/

/-- A port out of a programme's watch set, its latches clear (R14, R24). -/
def Programme.depart (p : Port) (pr : Programme) : Programme :=
  { pr with watch := pr.watch.set p false, latches := pr.latches.set p 0 }

def doLeaveProgramme (p : Port) (h : RawHandle) (s : State) : State × Reply :=
  withWatched true p h s (fun i pr =>
    let r := leavePending p (fun g => g.inSlot i) (s.setProg i (pr.depart p))
    okay (.left r.2.1 r.2.2) r.1)

def execLeaveProgramme (p : Port) (tag : BitVec 16) (h : RawHandle) (s : State) : Host.Outcome State Fault Refusal :=
  issue p tag (.leaveProgramme h) (take p tag (.leaveProgramme h) (doLeaveProgramme p h)) s

/-! ### The checks of delivery (R147) -/

/-- Checks 1 to 3 of R147, and the assembly record of the rendition's stream. -/
def withRendition (form : Bool) (h : RawHandle) (rend : Byte) (s : State)
    (k : SlotId → Programme → AssemblyRecord → State × Reply) : State × Reply :=
  withHandle (form && decide (rend.toNat ≤ 4)) h s (fun i pr =>
    match pr.renditions[rend.toNat]? with
    | none => refuse .malformed s
    | some st =>
        match s.assembly i st with
        | some a => k i pr a
        | none => refuse .malformed s)

/-- The classes of a segment index (R147). -/
inductive SegmentClass where
  | neverExisted
  | isOpen
  | present (g : Segment)
  | freed
  deriving DecidableEq, Repr

/-- Classifies a segment index from the assembly record and the Segment Table (R147). -/
def classify (i : SlotId) (rend : Nat) (a : AssemblyRecord) (idx : Nat) (s : State) : SegmentClass :=
  match a.current with
  | none => .neverExisted
  | some cur =>
      if cur < idx then .neverExisted
      else if idx = cur ∧ a.phase = .assembling then .isOpen
      else match s.segments.find? (fun g => g.isAt i rend idx) with
        | some g => .present g
        | none => .freed

/-- A Fetch or Release of one segment (R147). -/
def withSegment (form : Bool) (h : RawHandle) (rend : Byte) (idx : BitVec 32) (s : State)
    (k : SlotId → Segment → State × Reply) : State × Reply :=
  withRendition form h rend s (fun i _ a =>
    match classify i rend.toNat a idx.toNat s with
    | .neverExisted => refuse .notFound s
    | .isOpen => refuse .notReady s
    | .freed => refuse .gone s
    | .present g => k i g)

/-! ### List Segments (R148, R149) -/

/-- The listing record of a CLOSED segment. -/
def Segment.view (g : Segment) : Option SegmentView :=
  match g.status with
  | .closed e pend unclaimed =>
      some
        { index := g.index, start := g.start, endTime := e, byteCount := g.byteCount
          granuleCount := g.granuleCount, revision := g.revision, flags := g.flags
          firstChapter := if g.flags.chapterStart then g.firstChapter else none
          pending := pend, unclaimed := unclaimed }
  | .opened => none

/-- Places a listing record in increasing order of index. -/
def insertView (v : SegmentView) : List SegmentView → List SegmentView
  | [] => [v]
  | x :: xs => if v.index < x.index then v :: x :: xs else x :: insertView v xs

/-- The CLOSED segments of a rendition in the store, from an index upward, in increasing order of index (R148). -/
def closedFrom (i : SlotId) (rend idx : Nat) (s : State) : List SegmentView :=
  ((s.segments.filter (fun g => g.inSlot i && decide (g.rendition = rend) && decide (idx ≤ g.index))).filterMap
    Segment.view).foldr insertView []

def doListSegments (h : RawHandle) (rend : Byte) (fromIndex : BitVec 32) (s : State) : State × Reply :=
  withRendition true h rend s (fun i _ a =>
    let all := closedFrom i rend.toNat fromIndex.toNat s
    okay (.listing ⟨all.take 8, decide (8 < all.length), a.current, a.phase⟩) s)

def execListSegments (p : Port) (tag : BitVec 16) (h : RawHandle) (rend : Byte) (fromIndex : BitVec 32) (s : State) :
    Host.Outcome State Fault Refusal :=
  issue p tag (.listSegments h rend fromIndex)
    (take p tag (.listSegments h rend fromIndex) (doListSegments h rend fromIndex)) s

/-! ### Fetch Segment (R151) -/

/-- The count that a fetch copies (R151). -/
def fetchCount (total offset length : Nat) : Nat := if total ≤ offset then 0 else min length (total - offset)

def doFetchSegment (p : Port) (h : RawHandle) (rend : Byte) (idx offset length : BitVec 32) (s : State) : State × Reply :=
  withSegment (decide (length.toNat ≤ windowBytes)) h rend idx s (fun _ g =>
    let total := g.byteCount
    let n := fetchCount total offset.toNat length.toNat
    let window := Mem.ofBytes (fun j => readParts s.outputStore g.parts (offset.toNat + j)) n
    okay (.fetched n total (decide (offset.toNat + n = total) || decide (total ≤ offset.toNat)))
      (s.setPort p { s.port p with window := window }))

def execFetchSegment (p : Port) (tag : BitVec 16) (h : RawHandle) (rend : Byte) (idx offset length : BitVec 32) (s : State) :
    Host.Outcome State Fault Refusal :=
  issue p tag (.fetchSegment h rend idx offset length)
    (take p tag (.fetchSegment h rend idx offset length) (doFetchSegment p h rend idx offset length)) s

/-! ### Release Segment (R153) -/

/-- The segments without one (R143). -/
def State.dropSegment (s : State) (g : Segment) : State :=
  s.setSegments (s.segments.filter (fun x => !x.isAt g.handle.slot g.rendition g.index))

/-- The segments with a port out of the pending set of one. -/
def State.releaseAt (s : State) (p : Port) (g : Segment) : State :=
  s.setSegments (s.segments.map (fun x => if x.isAt g.handle.slot g.rendition g.index then x.release p else x))

def doReleaseSegment (p : Port) (h : RawHandle) (rend : Byte) (idx : BitVec 32) (s : State) : State × Reply :=
  withSegment true h rend idx s (fun _ g =>
    match g.status with
    | .opened => refuse .notReady s
    | .closed _ pend unclaimed =>
        if unclaimed then okay (.released false none true) (afterFreeing (s.dropSegment g))
        else if pend.get p then
          if PortSet.isEmpty (PortSet.without pend p) then
            okay (.released true none true) (afterFreeing (s.dropSegment g))
          else okay (.released true (some (PortSet.without pend p)) false) (s.releaseAt p g)
        else okay (.released false (some pend) false) s)

def execReleaseSegment (p : Port) (tag : BitVec 16) (h : RawHandle) (rend : Byte) (idx : BitVec 32) (s : State) :
    Host.Outcome State Fault Refusal :=
  issue p tag (.releaseSegment h rend idx) (take p tag (.releaseSegment h rend idx) (doReleaseSegment p h rend idx)) s

end Sys2Proof.Machine
end

