-- ==== Sys2Proof/Machine/Device.lean ====
section
/-! DEFINITION. Set Hold, Clear Hold, Device Status, Reset Port, link reset and device reset (R161, R166, R175 to R178). -/

namespace Sys2Proof.Machine

/-! ### Set Hold and Clear Hold (R161) -/

def doSetHold (p : Port) (s : State) : State × Reply :=
  let s := s.setPort p { s.port p with hold := true }
  okay (.holds s.holdFlags) s

def execSetHold (p : Port) (tag : BitVec 16) (s : State) : Host.Outcome State Fault Refusal :=
  issue p tag .setHold (take p tag .setHold (doSetHold p)) s

def doClearHold (p : Port) (s : State) : State × Reply :=
  let s := s.setPort p { s.port p with hold := false }
  okay (.holds s.holdFlags) s

def execClearHold (p : Port) (tag : BitVec 16) (s : State) : Host.Outcome State Fault Refusal :=
  issue p tag .clearHold (take p tag .clearHold (doClearHold p)) s

/-! ### Device Status (R166, R175) -/

/-- The state of a pipe and the item it holds (R166, codes of R179). -/
def Pipe.view : Pipe → PipeView
  | .idle => ⟨0, none⟩
  | .encoding d _ => ⟨1, some d.item⟩
  | .storing d _ => ⟨2, some d.item⟩

/-- The need of the head of the store queue, 0 when it is empty (R166). -/
def storeHeadNeed (s : State) : Nat :=
  match s.storeQueue with
  | [] => 0
  | e :: _ => (match s.pipe e with | .storing _ held => outputNeed held | _ => 0)

/-- The need of the head of the table queue, 0 when it is empty (R166). -/
def tableHeadNeed (s : State) : Nat :=
  match s.tableQueue with
  | [] => 0
  | (i, st) :: _ => (match s.prog i with | some pr => (pr.renditionsOf st).length | none => 0)

/-- A CLOSED segment whose pending set holds the port (R158). -/
def Segment.pendsOn (g : Segment) (p : Port) : Bool :=
  match g.status with
  | .closed _ pend _ => pend.get p
  | .opened => false

def Segment.isUnclaimed (g : Segment) : Bool :=
  match g.status with
  | .closed _ _ u => u
  | .opened => false

def portView (s : State) (p : Port) : PortView :=
  let pt := s.port p
  { commands := pt.commands.length
    responses := pt.responses.length
    overflow := pt.overflow
    notice := s.noticeCondition p
    hold := pt.hold
    lanes := allLanes.filter (fun l => decide ((s.lane l).owner = some p))
    stagingEmpty := pt.staging.isNone
    segmentsHeld := (s.segments.filter (fun g => g.pendsOn p)).length }

def deviceView (s : State) : DeviceView :=
  { accept := s.sources.accept
    payload := s.sources.payload
    store := s.sources.store
    table := s.sources.table
    hold := s.holdOn
    throttle := s.throttle
    acceptCount := s.acceptCount
    payloadCount := s.payloadCount
    storeCount := s.storeCount
    tableCount := s.tableCount
    storeQueueLength := s.storeQueue.length
    storeQueueNeed := storeHeadNeed s
    tableQueueLength := s.tableQueue.length
    tableQueueNeed := tableHeadNeed s
    pipes := s.pipes.toList.map Pipe.view
    ports := ⟨portView s .p0, portView s .p1, portView s .p2⟩
    unclaimed := (s.segments.filter Segment.isUnclaimed).length
    freeSlots := (s.slots.toList.filter (fun x => x.prog.isNone)).length
    freeLanes := (s.lanes.toList.filter (fun ln => decide (ln.state = .free))).length }

/-- The sending port's overflow indication is reported as it stands and then cleared (R170, R175). -/
def doDeviceStatus (p : Port) (s : State) : State × Reply :=
  okay (.device (deviceView s)) (s.setPort p { s.port p with overflow := false })

def execDeviceStatus (p : Port) (tag : BitVec 16) (s : State) : Host.Outcome State Fault Refusal :=
  issue p tag .deviceStatus (take p tag .deviceStatus (doDeviceStatus p)) s

/-! ### Port reset (R177) -/

/-- The port's own state after a port reset: the staging area and the fetch window keep their bytes (R177). -/
def PortState.portReset (pt : PortState) : PortState :=
  { pt with commands := [], responses := [], overflow := false, staging := none, hold := false, mask := 0, laneSlot := false }

/-- The port leaves every watch set and its latches are cleared (R24). -/
def departAll (p : Port) (s : State) : State :=
  { s with slots := s.slots.map (fun x => { x with prog := x.prog.map (fun pr => pr.depart p) }) }

/-- A port reset (R177): the port's state, its lanes (R59), its memberships (R24) and its pending sets (R156). -/
def portReset (p : Port) (s : State) : State :=
  let s := removeLanesWhere (fun ln => decide (ln.owner = some p)) s
  let s := s.setPort p (s.port p).portReset
  (leavePending p (fun _ => true) (departAll p s)).1

/-- Reset Port taken: the port reset, and as the last part of the step its own response, OK, in the emptied queue, which
turns the notice condition true (R176). -/
def takeResetPort (p : Port) (tag : BitVec 16) (s : State) : State :=
  let mid := conclude s (portReset p s)
  notices mid (respond p tag PortCommand.resetPort.code ⟨.ok, .empty⟩ mid)

def execResetPort (p : Port) (tag : BitVec 16) (s : State) : Host.Outcome State Fault Refusal :=
  issue p tag .resetPort (takeResetPort p tag) s

/-- LINK_RESET: the port reset, with no response (R176). -/
def execLinkReset (p : Port) (s : State) : Host.Outcome State Fault Refusal :=
  .next (conclude s (portReset p s))

/-- DEVICE_RESET: every block takes its reset state at once (R178). What is the model's own goes on: the commands still to be
stepped stay queued (log 26), and dispatches are counted on, so that the completion of an encoding that the reset abandons is
not taken for an item dispatched after it (R117, R122; log 36). -/
def execDeviceReset (s : State) : Host.Outcome State Fault Refusal :=
  .next { State.reset with pending := s.pending, dispatches := s.dispatches }

end Sys2Proof.Machine
end

