-- ==== Sys2Proof/Machine/Lanes.lean ====
section
/-! DEFINITION. Attach Lane, Detach Lane, Post Chunk, Lane Status and writes through the fill windows (chapter 3). -/

namespace Sys2Proof.Machine

/-! ### Attach Lane (R42) -/

/-- The lowest-numbered FREE lane. -/
def freeLaneNumber (s : State) : Option LaneId := allLanes.find? (fun l => decide ((s.lane l).state = .free))

/-- The record of a lane on attach; the slots keep the bytes they hold (R41, R42). -/
def LaneRecord.attach (p : Port) (h : Handle) (st : Stream) (ln : LaneRecord) : LaneRecord :=
  { ln.toFree with state := .attached, owner := some p, target := some (h, st), fill := some false }

def doAttachLane (p : Port) (h : RawHandle) (code : Byte) (s : State) : State × Reply :=
  match Stream.ofCode code with
  | none => refuse .malformed s
  | some st =>
      withWatched true p h s (fun i pr =>
        if pr.state = .opened ∨ pr.state = .ingesting ∨ pr.state = .halted then
          match pr.stream st with
          | none => refuse .malformed s
          | some r =>
              if r.lane.isSome = true ∨ r.ended = true then refuse .streamBusy s
              else
                match freeLaneNumber s with
                | none => refuse .noLane s
                | some l =>
                    let s := s.setLane l ((s.lane l).attach p (s.handleOf i) st)
                    let s := s.setProg i (pr.setStream st { r with lane := some l })
                    okay (.attached l) (s.setLaneSlot (some p))
        else refuse .badState s)

def execAttachLane (p : Port) (tag : BitVec 16) (h : RawHandle) (code : Byte) (s : State) : Host.Outcome State Fault Refusal :=
  issue p tag (.attachLane h code) (take p tag (.attachLane h code) (doAttachLane p h code)) s

/-! ### Detach Lane (R58) -/

def doDetachLane (p : Port) (lane : Byte) (s : State) : State × Reply :=
  withLane lane s (fun l =>
    match (s.lane l).target with
    | none => refuse .noLane s
    | some (h, st) =>
        match s.prog h.slot with
        | none => refuse .noLane s
        | some pr =>
            if pr.watch.get p then okay (.detached h st) (removeLane l s) else refuse .notWatching s)

def execDetachLane (p : Port) (tag : BitVec 16) (lane : Byte) (s : State) : Host.Outcome State Fault Refusal :=
  issue p tag (.detachLane lane) (take p tag (.detachLane lane) (doDetachLane p lane)) s

/-! ### Post Chunk (R44) -/

/-- The lane after the fill slot `b` has been posted with a count; `runs` says that the programme is INGESTING or HALTED
(R44, R47). -/
def LaneRecord.post (b : SlotNo) (count : Nat) (runs : Bool) (ln : LaneRecord) : LaneRecord :=
  let full := ({ ln.setSlot b { ln.slot b with count := some count } with
    fill := none, order := ln.order ++ [b] } : LaneRecord).chooseFill
  { full with
    endPosted := ln.endPosted || decide (count = 0)
    state :=
      if count = 0 then .ending
      else if ln.state = .attached ∧ runs = true then .running
      else ln.state }

def doPostChunk (p : Port) (lane : Byte) (count : BitVec 16) (s : State) : State × Reply :=
  withLane lane s (fun l =>
    let ln := s.lane l
    if slotBytes < count.toNat then refuse .malformed s
    else if ln.owner ≠ some p then refuse .noLane s
    else if ln.endPosted then refuse .laneEnded s
    else
      match ln.fill with
      | none => refuse .laneFull s
      | some b =>
          let after := ln.post b count.toNat (s.parserWorks l)
          okay (.posted after.freeSlots) (s.setLane l after))

def execPostChunk (p : Port) (tag : BitVec 16) (lane : Byte) (count : BitVec 16) (s : State) : Host.Outcome State Fault Refusal :=
  issue p tag (.postChunk lane count) (take p tag (.postChunk lane count) (doPostChunk p lane count)) s

/-! ### Lane Status (R60) -/

/-- The parser lacks bytes that it needs at its position (R60). -/
def LaneRecord.lacksData (ln : LaneRecord) : Bool :=
  decide (ln.boundary = .none) &&
    (if ln.discarding then decide (ln.available = 0)
     else match ln.pos with
      | .atHeader => decide (ln.available < headerBytes)
      | .inPayload _ _ => decide (ln.available = 0))

/-- The wait reason of a lane, the first that applies (R60): a lane that has bytes or a boundary to act on, and is at no
header, waits for nothing once its programme is not OPEN. -/
def waitReason (l : LaneId) (s : State) : WaitReason :=
  let ln := s.lane l
  if ln.lacksData then .noData
  else if s.laneState l = some .opened then .programmeState
  else if !ln.headerPresent then .none
  else if s.laneState l = some .halted then .programmeState
  else if s.throttle then .throttle
  else
    match readUnitHeader (ln.peek headerBytes), ln.target with
    | some u, some (_, st) =>
        if u.malformed st then .none
        else if acceptPlaces ≤ s.acceptCount then .noEntry
        else if payloadGranules < s.payloadCount + granulesFor u.length then .noGranules
        else .none
    | _, _ => .none

def laneView (l : LaneId) (s : State) : LaneView :=
  let ln := s.lane l
  { state := ln.state, owner := ln.owner, target := ln.target, count0 := ln.slot0.count, count1 := ln.slot1.count
    fill := ln.fill, order := ln.order, readPos := ln.readPos, unread := ln.unread, pos := ln.pos
    discarding := ln.discarding, endPosted := ln.endPosted, wait := waitReason l s
    consumed := ln.consumed, begun := ln.begun }

def doLaneStatus (p : Port) (lane : Byte) (s : State) : State × Reply :=
  withLane lane s (fun l =>
    if (s.lane l).owner = some p then okay (.laneStatus (laneView l s)) s else refuse .noLane s)

def execLaneStatus (p : Port) (tag : BitVec 16) (lane : Byte) (s : State) : Host.Outcome State Fault Refusal :=
  issue p tag (.laneStatus lane) (take p tag (.laneStatus lane) (doLaneStatus p lane)) s

/-! ### FILL_WINDOW_WRITE (R43) -/

/-- The bytes of a write that lie within a fill window: offsets below 32 768 (R43, R168). -/
def windowPart (limit offset : Nat) (bytes : List Byte) : List Byte := bytes.take (limit - offset)

/-- A lane as a waiting command leaves its slots: a Post Chunk of the lane that would be accepted as the lane stands makes its
fill slot full (R44); every other record leaves them (log 33). -/
def LaneRecord.foresee (l : LaneId) (ln : LaneRecord) (r : CommandRecord) : LaneRecord :=
  match decodeRecord r.submitted r.bytes, ln.fill with
  | some (_, .postChunk lane count), some b =>
      if lane.toNat = l.val ∧ count.toNat ≤ slotBytes ∧ ln.endPosted = false then ln.post b count.toNat false else ln
  | _, _ => ln

/-- The fill slot that a write of the lane's owner reaches: the one behind every Post Chunk of the lane that arrived before the
write and still waits in the port's command queue (R43). DEDUCED (log 33). -/
def State.fillSlotFor (s : State) (p : Port) (l : LaneId) : Option SlotNo :=
  ((s.port p).commands.foldl (LaneRecord.foresee l) (s.lane l)).fill

/-- A write through a fill window replaces bytes of the fill slot; it is discarded when the lane is FREE, is not the
port's, or has no fill slot. One that arrives after a Post Chunk goes to the next fill slot, or is discarded if there is none,
whether the Post Chunk has been taken or waits in the command queue (R43). -/
def execFillWindowWrite (p : Port) (l : LaneId) (offset : Nat) (bytes : List Byte) (s : State) :
    Host.Outcome State Fault Refusal :=
  let ln := s.lane l
  if ln.owner = some p then
    match s.fillSlotFor p l with
    | some b =>
        let c := ln.slot b
        .next (s.setLane l (ln.setSlot b
          { c with bytes := Mem.writeBytes c.bytes offset (windowPart slotBytes offset bytes) }))
    | none => .next s
  else .next s

end Sys2Proof.Machine
end

