-- ==== Sys2Proof/Machine/Lifecycle.lean ====
section
/-! DEFINITION. The lifecycle commands: Open Programme, Start Ingest, Resume Ingest, Close Ingest, Retire Programme and Abort
Programme (section 1.3). -/

namespace Sys2Proof.Machine

/-! ### Open Programme (R4, R5) -/

def frameForm (f : BitVec 16) : Bool :=
  decide (f = 3600) || decide (f = 3000) || decide (f = 1800) || decide (f = 1500)

/-- The renditions that name a stream. -/
def renditionCount (rl : List RawRendition) (st : Stream) : Nat :=
  (rl.filter (fun r => decide (Stream.ofCode r.stream = some st))).length

/-- Every rendition names a stream of the set (R4). -/
def renditionsInSet (ss : Byte) (rl : List RawRendition) : Bool :=
  rl.all (fun r => match Stream.ofCode r.stream with | some st => streamBit ss st | none => false)

/-- The MALFORMED checks of R4; a set bit that names no stream is malformed too (R179). -/
def openForm (f : BitVec 16) (ss : Byte) (rl : List RawRendition) : Bool :=
  frameForm f && decide (ss.toNat < 8) && streamBit ss .cam &&
    decide (1 ≤ rl.length) && decide (rl.length ≤ 5) && renditionsInSet ss rl &&
    decide (1 ≤ renditionCount rl .cam) && decide (renditionCount rl .cam ≤ 3) &&
    decide (renditionCount rl .slide ≤ 1) && decide (renditionCount rl .audio ≤ 1)

/-- A bitrate clamped to 64 to 20 000 kbit/s (R4). -/
def clampBitrate (b : Nat) : Nat := if b < 64 then 64 else if 20000 < b then 20000 else b

/-- The numbers of the renditions whose bitrate was clamped, counted on from `n`. -/
def clampedFrom (n : Nat) : List RawRendition → List Nat
  | [] => []
  | r :: rs => if clampBitrate r.bitrate.toNat ≠ r.bitrate.toNat then n :: clampedFrom (n + 1) rs else clampedFrom (n + 1) rs

def Stats.zero : Stats := ⟨PerStream.const 0, 0, 0, 0, 0, 0, 0, 0, 0, 0, 0, 0⟩

/-- A stream record at Open (R5, R61, R131). -/
def StreamRecord.atOpen (hasRenditions : Bool) : StreamRecord :=
  { lane := none, ended := false, nextSeq := 0, lastHeaderDuration := none, piece := none, uPrev := none
    durPrev := none, anchor := 0, position := none, started := none, forceKeyMark := none
    assembly := if hasRenditions then some ⟨none, .waitingOpen⟩ else none }

/-- The cutter at Open (R5, R85): H is −∞ with a SLIDE stream and +∞ without. -/
def Cutter.atOpen (hasSlide : Bool) : Cutter :=
  { confirmed := none, candidate := none, chapters := [], horizon := if hasSlide then .negInf else .posInf
    forced := none, reach := 0, cuts := [⟨0, false⟩], deferred := false, previous := none, progEnd := none }

/-- The programme record that an Open fills (R5). -/
def Programme.atOpen (p : Port) (f : BitVec 16) (ss : Byte) (rl : List RawRendition) : Programme :=
  let renditions := rl.filterMap (fun r => Stream.ofCode r.stream)
  let settings := Settings.atOpen (rl.map (fun r => clampBitrate r.bitrate.toNat))
  let rec1 (st : Stream) : Option StreamRecord :=
    if streamBit ss st then some (StreamRecord.atOpen (renditions.contains st)) else none
  { state := .opened
    frame := f.toNat
    streams := ⟨rec1 .cam, rec1 .slide, rec1 .audio⟩
    renditions := renditions
    active := settings
    revision := 1
    cutRevision := 1
    pendingCut := none
    pendingPiece := none
    revisions := []
    watch := (PerPort.const false).set p true
    latches := PerPort.const 0
    error := none
    pieces := [⟨0, 0, none, 0, settings.pieceValues⟩]
    cutter := Cutter.atOpen (streamBit ss .slide)
    stats := Stats.zero }

/-- The lowest-numbered FREE slot (R4). -/
def freeSlotNumber (s : State) : Option SlotId := allSlots.find? (fun i => (s.prog i).isNone)

/-- Open Programme (R4, R5): the slot's generation advances by one, wrapping (R3). -/
def doOpenProgramme (p : Port) (f : BitVec 16) (ss : Byte) (rl : List RawRendition) (s : State) : State × Reply :=
  if openForm f ss rl then
    match freeSlotNumber s with
    | none => refuse .noSlot s
    | some i =>
        let gen := s.gen i + 1
        let s := { s with slots := s.slots.set i ⟨gen, some (Programme.atOpen p f ss rl)⟩ }
        let clamped := clampedFrom 0 rl
        (s, ⟨if clamped = [] then .ok else .clamped, .opened ⟨i, gen⟩ clamped⟩)
  else refuse .malformed s

def execOpenProgramme (p : Port) (tag : BitVec 16) (f : BitVec 16) (ss : Byte) (rl : List RawRendition) (s : State) :
    Host.Outcome State Fault Refusal :=
  issue p tag (.openProgramme f ss rl) (take p tag (.openProgramme f ss rl) (doOpenProgramme p f ss rl)) s

/-! ### Start Ingest (R6, R37, R38, R133) -/

/-- The piece values of piece 0 and the first record of the revision list are fixed at Start Ingest (R37, R38, R62). -/
def Programme.start (pr : Programme) : Programme :=
  { pr with
    state := .ingesting
    revisions := [⟨pr.cutRevision, 0, pr.active.bitrates⟩]
    pieces := pr.pieces.modify 0 (fun x => { x with values := pr.active.pieceValues }) }

/-- A stream with renditions requests its segment 0; a request that joins an empty table queue is examined at once
(R132, R133). -/
def requestFirst (i : SlotId) (pr : Programme) (st : Stream) (s : State) : State :=
  if (pr.renditionsOf st).isEmpty then s
  else
    let s1 := requestTable i st s
    if s.tableQueue.isEmpty then examineTable s1 else s1

def doStartIngest (p : Port) (h : RawHandle) (s : State) : State × Reply :=
  withWatched true p h s (fun i pr =>
    if pr.state = .opened then
      let s := s.setProg i pr.start
      let s := Stream.all.foldl (fun s st => requestFirst i pr st s) s
      okay .empty (runLanes i s)
    else refuse .badState s)

def execStartIngest (p : Port) (tag : BitVec 16) (h : RawHandle) (s : State) : Host.Outcome State Fault Refusal :=
  issue p tag (.startIngest h) (take p tag (.startIngest h) (doStartIngest p h)) s

/-! ### Resume Ingest (R8) -/

def doResumeIngest (p : Port) (h : RawHandle) (s : State) : State × Reply :=
  withWatched true p h s (fun i pr =>
    if pr.state = .halted then okay .empty (runLanes i (s.setProg i { pr with state := .ingesting }))
    else refuse .badState s)

def execResumeIngest (p : Port) (tag : BitVec 16) (h : RawHandle) (s : State) : Host.Outcome State Fault Refusal :=
  issue p tag (.resumeIngest h) (take p tag (.resumeIngest h) (doResumeIngest p h)) s

/-! ### Close Ingest (R9, R105, R140) -/

/-- Every stream's ended flag is set, with or without a lane (R9). -/
def Programme.endStreams (pr : Programme) : Programme :=
  { pr with streams := pr.streams.map (fun r => r.map (fun x => { x with ended := true })) }

/-- What Close Ingest does to the programme in a slot (R9): lanes, ended flags, the cutter's end and its release pass,
DRAINING with the STATE latch, and the first steps of the drain. -/
def closeIngest (i : SlotId) (s : State) : State :=
  let s := removeLanesWhere (fun ln => ln.serves i) s
  let s := s.modProg i (fun pr => pr.endStreams.endProgramme)
  let s := releasePass i s
  let s := s.modProg i (fun pr => Programme.latch .state { pr with state := .draining })
  dispatchAll (Stream.all.foldl (fun s st => assemble i st s) s)

def doCloseIngest (p : Port) (h : RawHandle) (s : State) : State × Reply :=
  withWatched true p h s (fun i pr =>
    if pr.state = .ingesting ∨ pr.state = .halted then okay .empty (closeIngest i s) else refuse .badState s)

def execCloseIngest (p : Port) (tag : BitVec 16) (h : RawHandle) (s : State) : Host.Outcome State Fault Refusal :=
  issue p tag (.closeIngest h) (take p tag (.closeIngest h) (doCloseIngest p h)) s

/-! ### Retire Programme (R11) -/

def doRetireProgramme (p : Port) (h : RawHandle) (s : State) : State × Reply :=
  withWatched true p h s (fun i pr =>
    if pr.state = .complete ∧ s.segments.any (fun g => g.inSlot i) = false then okay .empty (s.freeSlot i)
    else refuse .badState s)

def execRetireProgramme (p : Port) (tag : BitVec 16) (h : RawHandle) (s : State) : Host.Outcome State Fault Refusal :=
  issue p tag (.retireProgramme h) (take p tag (.retireProgramme h) (doRetireProgramme p h)) s

/-! ### Abort Programme (R12, R126) -/

/-- The slot of the item that a pipe holds. -/
def Pipe.itemSlot : Pipe → Option SlotId
  | .idle => none
  | .encoding d _ => some d.item.handle.slot
  | .storing d _ => some d.item.handle.slot

/-- What Abort Programme removes: lanes, pipe items, entries, segments and table requests; then the slot is FREE, and
the queues examine their heads (R12, R126, R132, R143). -/
def abortProgramme (i : SlotId) (s : State) : State :=
  let s := removeLanesWhere (fun ln => ln.serves i) s
  let queue := s.storeQueue.filter (fun e => decide ((s.pipe e).itemSlot ≠ some i))
  let s := { s with
    storeQueue := queue
    pipes := s.pipes.map (fun (x : Pipe) => if x.itemSlot = some i then .idle else x)
    entries := s.entries.filter (fun e => !e.inSlot i)
    segments := s.segments.filter (fun g => !g.inSlot i)
    tableQueue := s.tableQueue.filter (fun r => decide (r.1 ≠ i)) }
  afterFreeing (s.freeSlot i)

def doAbortProgramme (p : Port) (h : RawHandle) (s : State) : State × Reply :=
  withWatched true p h s (fun i _ => okay .empty (abortProgramme i s))

def execAbortProgramme (p : Port) (tag : BitVec 16) (h : RawHandle) (s : State) : Host.Outcome State Fault Refusal :=
  issue p tag (.abortProgramme h) (take p tag (.abortProgramme h) (doAbortProgramme p h)) s

end Sys2Proof.Machine
end

