-- ==== Sys2Proof/Machine/Pipes.lean ====
section
/-! DEFINITION. The pipes' events PIPE_COMPLETION and WATCHDOG_EXPIRY, and the grants STORAGE_GRANT and TABLE_GRANT
(R118 to R122, R132). -/

namespace Sys2Proof.Machine

/-- An ITEM_OVERSIZE: some byte count is above 1 048 576 (R118). -/
def oversize (outputs : List EncodedOutput) : Bool := outputs.any (fun o => decide (maxOutputBytes < o.count))

/-- A completion that is taken: an ITEM_OVERSIZE loses the entry; otherwise the pipe enters STORING and joins the store
queue, whose head is examined when the queue was empty (R118, R119). -/
def completeItem (pipe : PipeId) (d : ItemDescriptor) (outputs : List EncodedOutput) (s : State) : State :=
  if oversize outputs then dispatchAll (loseEntry .itemOversize d.item (s.setPipe pipe .idle))
  else
    let s1 := { s.setPipe pipe (.storing d outputs) with storeQueue := s.storeQueue ++ [pipe] }
    if s.storeQueue.isEmpty then dispatchAll (examineStore s1) else s1

/-- PIPE_COMPLETION (R118): taken when the pipe is ENCODING that item, by the dispatch of that number (log 36), and the
report has one count for each rendition of its descriptor; otherwise no state changes (R122). -/
def execPipeCompletion (pipe : PipeId) (item : Encoding) (outputs : List EncodedOutput) (s : State) :
    Host.Outcome State Fault Refusal :=
  match s.pipe pipe with
  | .encoding d _ =>
      if d.item = item.name ∧ d.run = item.run ∧ outputs.length = d.renditions.length then
        .next (conclude s (completeItem pipe d outputs s))
      else .next s
  | .idle => .next s
  | .storing _ _ => .next s

/-- WATCHDOG_EXPIRY (R121): the deadline arrives while the pipe is ENCODING; the pipe is reset and the entry is LOST. The
event is the arrival of the deadline, so the clock stands at the deadline or later after it (log 8). -/
def execWatchdogExpiry (pipe : PipeId) (s : State) : Host.Outcome State Fault Refusal :=
  match s.pipe pipe with
  | .encoding d deadline =>
      let s1 := { s.setPipe pipe .idle with now := Max.max s.now deadline }
      .next (conclude s (dispatchAll (loseEntry .itemTimeout d.item s1)))
  | .idle => .next s
  | .storing _ _ => .next s

/-- The head of the store queue can be granted: it is STORING and enough Output granules are free (R119). -/
def State.storeReady (s : State) : Bool :=
  match s.storeQueue with
  | [] => false
  | e :: _ => (match s.pipe e with
               | .storing _ held => decide (s.storeCount + outputNeed held ≤ outputGranules)
               | _ => false)

/-- STORAGE_GRANT (R119, R120): the head of the store queue is examined, and granted where enough granules are free. -/
def execStorageGrant (s : State) : Host.Outcome State Fault Refusal :=
  if s.storeReady then .next (conclude s (dispatchAll (examineStore s))) else .next s

/-- The head of the table queue can be granted: enough table entries are free (R132). -/
def State.tableReady (s : State) : Bool :=
  match s.tableQueue with
  | [] => false
  | (i, st) :: _ => (match s.prog i with
                     | some pr => decide (s.tableCount + (pr.renditionsOf st).length ≤ tableEntries)
                     | none => false)

/-- TABLE_GRANT (R132): the head of the table queue is examined, and granted where enough entries are free. -/
def execTableGrant (s : State) : Host.Outcome State Fault Refusal :=
  if s.tableReady then .next (conclude s (examineTable s)) else .next s

end Sys2Proof.Machine
end

