-- ==== Sys2Proof/Machine/Settings.lean ====
section
/-! DEFINITION. Stage Settings, Read Staging and Commit Settings (chapter 2). -/

namespace Sys2Proof.Machine

/-! ### Stage Settings (R28, R29) -/

/-- The staging record as the preparation of R28 leaves it. -/
def preparedRecord (old : Option StagingRecord) (target : Handle) (revision : Nat) (renew : Bool) : StagingRecord :=
  match old with
  | none => ⟨target, revision, []⟩
  | some r => if r.target ≠ target ∨ renew = true then ⟨target, revision, []⟩ else r

/-- Whether the preparation emptied the record (R29): R28 empties it when it is empty, when it is retargeted and when it is
renewed. -/
def preparationEmptied (old : Option StagingRecord) (target : Handle) (renew : Bool) : Bool :=
  match old with
  | none => true
  | some r => decide (r.target ≠ target) || renew

def doStageSettings (p : Port) (h : RawHandle) (renew : Byte) (fields : List RawField) (s : State) : State × Reply :=
  match parseFields fields with
  | none => refuse .malformed s
  | some xs =>
      withWatched (flagForm renew && decide (fields.length ≤ 22)) p h s (fun i pr =>
        if xs.all (fun x => pr.hasField x.1) then
          let old := (s.port p).staging
          let target := s.handleOf i
          let r := preparedRecord old target pr.revision (decide (renew = 1))
          let merged := mergeAll pr.active.segLength r.fields xs
          let clamped := clampedFields r.fields merged xs
          (s.setPort p { s.port p with staging := some { r with fields := merged } },
            ⟨if clamped = [] then .ok else .clamped,
             .staged
              { clamped := clamped
                emptied := preparationEmptied old target (decide (renew = 1))
                target := target
                base := r.base
                revision := pr.revision
                cutRevision := pr.cutRevision
                active := pr.active
                rated := pr.streams.map Option.isSome
                pendingCut := pr.pendingCut.map PendingCut.fields
                pendingPiece := pr.pendingPiece }⟩)
        else refuse .malformed s)

def execStageSettings (p : Port) (tag : BitVec 16) (h : RawHandle) (renew : Byte) (fields : List RawField) (s : State) :
    Host.Outcome State Fault Refusal :=
  issue p tag (.stageSettings h renew fields)
    (take p tag (.stageSettings h renew fields) (doStageSettings p h renew fields)) s

/-! ### Read Staging (R30) -/

/-- The handle names the programme that is in its slot now. -/
def State.known (s : State) (h : Handle) : Bool := (s.prog h.slot).isSome && decide (s.gen h.slot = h.gen)

def doReadStaging (p : Port) (s : State) : State × Reply :=
  match (s.port p).staging with
  | none => okay (.staging none false none []) s
  | some r => okay (.staging (some r.target) (!s.known r.target) (some r.base) r.fields) s

def execReadStaging (p : Port) (tag : BitVec 16) (s : State) : Host.Outcome State Fault Refusal :=
  issue p tag .readStaging (take p tag .readStaging (doReadStaging p)) s

/-! ### Commit Settings (R31 to R35) -/

/-- The held limit after step 5 of R32: the staged value, or the HELD count where that is greater. -/
def heldAfter (staged : Option Int) (active held : Nat) : Nat :=
  match staged with
  | none => active
  | some v => if v.toNat < held then held else v.toNat

/-- Step 5 raised the held limit (R32). -/
def heldRaised (staged : Option Int) (held : Nat) : Bool :=
  match staged with
  | none => false
  | some v => decide (v.toNat < held)

/-- The commit of a staging record to a programme that is not OPEN (R32 steps 1 to 5), with its HELD count. -/
def Programme.commit (fields : FieldSet) (held : Nat) (pr : Programme) : Programme :=
  let cut := FieldSet.ofGroup fields .cutBound
  let piece := FieldSet.ofGroup fields .pieceBound
  let active := pr.active.applyAll (FieldSet.ofGroup fields .immediate)
  { pr with
    revision := pr.revision + 1
    active := { active with heldLimit := heldAfter (FieldSet.get fields .heldLimit) active.heldLimit held }
    pendingCut := if cut = [] then pr.pendingCut else some ⟨pr.revision + 1, completeCut pr.active cut⟩
    pendingPiece := if piece = [] then pr.pendingPiece else some (mergePending pr.pendingPiece piece) }

/-- The commit of a staging record to an OPEN programme: every field at once (R33). -/
def Programme.commitOpen (fields : FieldSet) (held : Nat) (pr : Programme) : Programme :=
  let cut := FieldSet.ofGroup fields .cutBound
  let all := pr.active.applyAll fields
  let active := if cut = [] then all else all.applyAll (completeCut pr.active cut)
  { pr with
    revision := pr.revision + 1
    active := { active with heldLimit := heldAfter (FieldSet.get fields .heldLimit) active.heldLimit held }
    cutRevision := if cut = [] then pr.cutRevision else pr.revision + 1 }

/-- The fields named as clamped by a commit (R32): W and M that step 3 added, and a held limit that step 5 raised. -/
def commitClamped (pr : Programme) (fields : FieldSet) (held : Nat) : List Field :=
  let cut := FieldSet.ofGroup fields .cutBound
  (if cut = [] then [] else completedFields pr.active cut) ++
    (if heldRaised (FieldSet.get fields .heldLimit) held then [.heldLimit] else [])

/-- A held limit staged by the commit and now equal to the HELD count forces the horizon at the commit (R35, R97). -/
def forceAtCommit (i : SlotId) (fields : FieldSet) (s : State) : State :=
  if (FieldSet.get fields .heldLimit).isSome then dispatchAll (compareHeld i s) else s

def doCommitSettings (p : Port) (h : RawHandle) (revision : BitVec 32) (s : State) : State × Reply :=
  withWatched true p h s (fun i pr =>
    if pr.state = .complete ∨ pr.revision = 4294967295 then refuse .badState s
    else
      match (s.port p).staging with
      | none => refuse .malformed s
      | some r =>
          if r.target ≠ s.handleOf i then refuse .malformed s
          else if revision.toNat ≠ r.base ∨ revision.toNat ≠ pr.revision then refuse .stale s
          else if FieldSet.ofGroup r.fields .cutBound ≠ [] ∧ pr.pendingCut.isSome = true then refuse .pending s
          else
            let held := s.heldCount i
            let committed :=
              if pr.state = .opened then pr.commitOpen r.fields held else pr.commit r.fields held
            let clamped := commitClamped pr r.fields held
            let s := (s.setProg i committed).setPort p { s.port p with staging := none }
            let s := forceAtCommit i r.fields s
            let after := (s.prog i).getD committed
            (s, ⟨if clamped = [] then .ok else .clamped,
              .committed
                { revision := committed.revision
                  active := after.active
                  rated := after.streams.map Option.isSome
                  pendingCut := after.pendingCut.map PendingCut.fields
                  pendingPiece := after.pendingPiece
                  clamped := clamped }⟩))

def execCommitSettings (p : Port) (tag : BitVec 16) (h : RawHandle) (revision : BitVec 32) (s : State) :
    Host.Outcome State Fault Refusal :=
  issue p tag (.commitSettings h revision) (take p tag (.commitSettings h revision) (doCommitSettings p h revision)) s

end Sys2Proof.Machine
end

