-- ==== Sys2Proof/Machine/Status.lean ====
section
/-! DEFINITION. Programme Status, Read Error, Clear Error, Next Attention, Clear Attention and Set Attention Mask
(sections 1.4.2, 1.5.2 and 1.7). -/

namespace Sys2Proof.Machine

/-! ### Programme Status (R23) -/

def StreamRecord.view (r : StreamRecord) : StreamView := ⟨r.lane, r.ended, r.nextSeq, r.position⟩

def statusView (p : Port) (i : SlotId) (pr : Programme) (s : State) : StatusView :=
  { handle := s.handleOf i
    state := pr.state
    frame := pr.frame
    streams := pr.streams.map (fun r => r.map StreamRecord.view)
    renditions := pr.renditions.zip pr.active.bitrates
    revision := pr.revision
    cutPending := pr.pendingCut.isSome
    piecePending := pr.pendingPiece.isSome
    watch := pr.watch
    latches := if pr.watch.get p then pr.latches.get p else 0
    errorFlag := pr.error.isSome
    currentPiece := pr.currentPiece
    pieceCount := pr.pieces.length
    lastCut := pr.cutter.lastCut
    counter := pr.cutter.counter
    forced := pr.cutter.forced
    filling := s.countIn i .filling
    held := s.countIn i .held
    ready := s.countIn i .ready
    inPipe := s.countIn i .inPipe
    done := s.countIn i .done
    lost := s.countIn i .lost
    stats := pr.stats }

def doProgrammeStatus (p : Port) (h : RawHandle) (s : State) : State × Reply :=
  withHandle true h s (fun i pr => okay (.status (statusView p i pr s)) s)

def execProgrammeStatus (p : Port) (tag : BitVec 16) (h : RawHandle) (s : State) : Host.Outcome State Fault Refusal :=
  issue p tag (.programmeStatus h) (take p tag (.programmeStatus h) (doProgrammeStatus p h)) s

/-! ### Read Error and Clear Error (R21) -/

def doReadError (p : Port) (h : RawHandle) (s : State) : State × Reply :=
  withWatched true p h s (fun _ pr => okay (.error pr.error) s)

def execReadError (p : Port) (tag : BitVec 16) (h : RawHandle) (s : State) : Host.Outcome State Fault Refusal :=
  issue p tag (.readError h) (take p tag (.readError h) (doReadError p h)) s

def doClearError (p : Port) (h : RawHandle) (s : State) : State × Reply :=
  withWatched true p h s (fun i pr => okay .empty (s.setProg i { pr with error := none }))

def execClearError (p : Port) (tag : BitVec 16) (h : RawHandle) (s : State) : Host.Outcome State Fault Refusal :=
  issue p tag (.clearError h) (take p tag (.clearError h) (doClearError p h)) s

/-! ### Next Attention (R18) -/

/-- The port's latches of the named kinds that are set and not masked on the programme of a slot, and that programme; none
where there are none (R18). -/
def attentionAt (p : Port) (kinds : KindSet) (s : State) (i : SlotId) : Option (Handle × KindSet × ProgState) :=
  match s.prog i with
  | none => none
  | some pr =>
      let due := unmasked (pr.latches.get p) (s.port p).mask &&& kinds
      if due = 0 then none else some (s.handleOf i, due, pr.state)

def doNextAttention (p : Port) (start kinds : Byte) (s : State) : State × Reply :=
  if start.toNat ≤ 31 ∧ kindsForm kinds = true then
    okay (.attention ((allSlots.filter (fun i => decide (start.toNat ≤ i.val))).findSome?
      (attentionAt p (kindsOf kinds) s))) s
  else refuse .malformed s

def execNextAttention (p : Port) (tag : BitVec 16) (start kinds : Byte) (s : State) : Host.Outcome State Fault Refusal :=
  issue p tag (.nextAttention start kinds) (take p tag (.nextAttention start kinds) (doNextAttention p start kinds)) s

/-! ### Clear Attention (R16) -/

/-- With the LANE_SLOT flag on, the latch is cleared, and set again at once if a lane of the port has a free slot
(R16, R46). -/
def clearLaneSlot (p : Port) (flag : Byte) (s : State) : State :=
  if flag = 1 then s.setPort p { s.port p with laneSlot := s.ownsFreeSlot p } else s

def doClearAttention (p : Port) (h : Option RawHandle) (kinds flag : Byte) (s : State) : State × Reply :=
  let form := kindsForm kinds && flagForm flag
  match h with
  | none =>
      if form then
        let s := clearLaneSlot p flag s
        okay (.latches none (s.port p).laneSlot) s
      else refuse .malformed s
  | some h =>
      withWatched form p h s (fun i pr =>
        let left := pr.latches.get p &&& ~~~(kindsOf kinds)
        let s := clearLaneSlot p flag (s.setProg i { pr with latches := pr.latches.set p left })
        okay (.latches (some left) (s.port p).laneSlot) s)

def execClearAttention (p : Port) (tag : BitVec 16) (h : Option RawHandle) (kinds flag : Byte) (s : State) :
    Host.Outcome State Fault Refusal :=
  issue p tag (.clearAttention h kinds flag) (take p tag (.clearAttention h kinds flag) (doClearAttention p h kinds flag)) s

/-! ### Set Attention Mask (R17) -/

def doSetAttentionMask (p : Port) (kinds : Byte) (s : State) : State × Reply :=
  if kindsForm kinds then okay .empty (s.setPort p { s.port p with mask := kindsOf kinds }) else refuse .malformed s

def execSetAttentionMask (p : Port) (tag : BitVec 16) (kinds : Byte) (s : State) : Host.Outcome State Fault Refusal :=
  issue p tag (.setAttentionMask kinds) (take p tag (.setAttentionMask kinds) (doSetAttentionMask p kinds)) s

end Sys2Proof.Machine
end

