-- ==== Sys2Proof/Machine/PortInterface.lean ====
section
/-! DEFINITION. The Port Interface: writes to the submit word, the take word and the rest of the bulk window, and taking
queued records (R168 to R172). -/

namespace Sys2Proof.Machine

/-- The taking of a command whose record is well formed: its own rule, and its one response (R171). -/
def takeCommand (p : Port) (tag : BitVec 16) (c : PortCommand) (s : State) : State :=
  match c with
  | .openProgramme f ss rl => take p tag c (doOpenProgramme p f ss rl) s
  | .startIngest h => take p tag c (doStartIngest p h) s
  | .resumeIngest h => take p tag c (doResumeIngest p h) s
  | .closeIngest h => take p tag c (doCloseIngest p h) s
  | .retireProgramme h => take p tag c (doRetireProgramme p h) s
  | .abortProgramme h => take p tag c (doAbortProgramme p h) s
  | .watchProgramme h => take p tag c (doWatchProgramme p h) s
  | .leaveProgramme h => take p tag c (doLeaveProgramme p h) s
  | .stageSettings h r fs => take p tag c (doStageSettings p h r fs) s
  | .readStaging => take p tag c (doReadStaging p) s
  | .commitSettings h r => take p tag c (doCommitSettings p h r) s
  | .attachLane h st => take p tag c (doAttachLane p h st) s
  | .detachLane l => take p tag c (doDetachLane p l) s
  | .postChunk l n => take p tag c (doPostChunk p l n) s
  | .laneStatus l => take p tag c (doLaneStatus p l) s
  | .insertChapter h t => take p tag c (doInsertChapter p h t) s
  | .readChapters h i => take p tag c (doReadChapters p h i) s
  | .listSegments h r i => take p tag c (doListSegments h r i) s
  | .fetchSegment h r i o n => take p tag c (doFetchSegment p h r i o n) s
  | .releaseSegment h r i => take p tag c (doReleaseSegment p h r i) s
  | .programmeStatus h => take p tag c (doProgrammeStatus p h) s
  | .readError h => take p tag c (doReadError p h) s
  | .clearError h => take p tag c (doClearError p h) s
  | .nextAttention i k => take p tag c (doNextAttention p i k) s
  | .clearAttention h k l => take p tag c (doClearAttention p h k l) s
  | .setAttentionMask k => take p tag c (doSetAttentionMask p k) s
  | .setHold => take p tag c (doSetHold p) s
  | .clearHold => take p tag c (doClearHold p) s
  | .deviceStatus => take p tag c (doDeviceStatus p) s
  | .resetPort => takeResetPort p tag s

/-- The taking of a record: a malformed one is refused MALFORMED in one response that carries the code and tag read from
it (R169, R180). -/
def takeRecord (p : Port) (r : CommandRecord) (s : State) : State :=
  match decodeRecord r.submitted r.bytes with
  | some (tag, c) => takeCommand p tag c s
  | none =>
      conclude s (respond p (recordCodeTag r.bytes).2 (recordCodeTag r.bytes).1 ⟨.malformed, .empty⟩ s)

/-- Commands are taken from the head of a port's queue, at most `fuel`, while its response queue has a free place
(R171). -/
def takeQueued (p : Port) : Nat → State → State
  | 0, s => s
  | fuel + 1, s =>
    match (s.port p).commands with
    | [] => s
    | r :: rest =>
        if (s.port p).responses.length < queueRecords then
          takeQueued p fuel (takeRecord p r (s.setPort p { s.port p with commands := rest }))
        else s

/-- The head command is examined: at most as many commands are taken as the queue holds. -/
def examineCommands (p : Port) (s : State) : State := takeQueued p (s.port p).commands.length s

/-- The record that a write of `value` to the submit word makes of the staging area (R169, R180). -/
def stagedRecord (pt : PortState) (value : Nat) : CommandRecord :=
  ⟨value, Mem.readBytes pt.area 0 (min value areaBytes)⟩

/-- SUBMIT_WORD (R169 to R171): the staged bytes become a record at the end of the command queue, or overflow it; a record
that arrives into an empty queue is examined at once. -/
def execSubmitWord (p : Port) (value : BitVec 32) (s : State) : Host.Outcome State Fault Refusal :=
  let s1 := enqueue p (stagedRecord (s.port p) value.toNat) s
  .next (if (s.port p).commands.isEmpty then examineCommands p s1 else s1)

/-- TAKE_WORD (R172): the head response is removed, and a command waiting at the head of the command queue is taken; a write
to an empty queue is discarded. The value written does not matter. The removal itself turns no notice condition true; each
command taken sends the notices of its own step (R174). -/
def execTakeWord (p : Port) (_value : BitVec 32) (s : State) : Host.Outcome State Fault Refusal :=
  match (s.port p).responses with
  | [] => .next s
  | _ :: rest =>
      .next (examineCommands p (s.setPort p { s.port p with responses := rest }))

/-- BULK_WINDOW_WRITE (R168): bytes in the command staging area replace it; every other byte is discarded. -/
def execBulkWindowWrite (p : Port) (offset : Nat) (bytes : List Byte) (s : State) : Host.Outcome State Fault Refusal :=
  .next (s.setPort p
    { s.port p with area := Mem.writeBytes (s.port p).area offset (windowPart areaBytes offset bytes) })

end Sys2Proof.Machine
end

