-- ==== Sys2Proof/Machine/Dispatch.lean ====
section
/-! DEFINITION. One arm for each command of the opcode table: the call of its meaning. -/

namespace Sys2Proof.Machine

def exec (i : Instr) (s : State) : Host.Outcome State Fault Refusal :=
  match i with
  | .openProgramme p tag frame streamSet renditions => Sys2Proof.Machine.execOpenProgramme p tag frame streamSet renditions s
  | .startIngest p tag h => Sys2Proof.Machine.execStartIngest p tag h s
  | .resumeIngest p tag h => Sys2Proof.Machine.execResumeIngest p tag h s
  | .closeIngest p tag h => Sys2Proof.Machine.execCloseIngest p tag h s
  | .retireProgramme p tag h => Sys2Proof.Machine.execRetireProgramme p tag h s
  | .abortProgramme p tag h => Sys2Proof.Machine.execAbortProgramme p tag h s
  | .watchProgramme p tag h => Sys2Proof.Machine.execWatchProgramme p tag h s
  | .leaveProgramme p tag h => Sys2Proof.Machine.execLeaveProgramme p tag h s
  | .stageSettings p tag h renew fields => Sys2Proof.Machine.execStageSettings p tag h renew fields s
  | .readStaging p tag => Sys2Proof.Machine.execReadStaging p tag s
  | .commitSettings p tag h revision => Sys2Proof.Machine.execCommitSettings p tag h revision s
  | .attachLane p tag h stream => Sys2Proof.Machine.execAttachLane p tag h stream s
  | .detachLane p tag lane => Sys2Proof.Machine.execDetachLane p tag lane s
  | .postChunk p tag lane count => Sys2Proof.Machine.execPostChunk p tag lane count s
  | .laneStatus p tag lane => Sys2Proof.Machine.execLaneStatus p tag lane s
  | .insertChapter p tag h time => Sys2Proof.Machine.execInsertChapter p tag h time s
  | .readChapters p tag h start => Sys2Proof.Machine.execReadChapters p tag h start s
  | .listSegments p tag h rendition fromIndex => Sys2Proof.Machine.execListSegments p tag h rendition fromIndex s
  | .fetchSegment p tag h rendition index offset length => Sys2Proof.Machine.execFetchSegment p tag h rendition index offset length s
  | .releaseSegment p tag h rendition index => Sys2Proof.Machine.execReleaseSegment p tag h rendition index s
  | .programmeStatus p tag h => Sys2Proof.Machine.execProgrammeStatus p tag h s
  | .readError p tag h => Sys2Proof.Machine.execReadError p tag h s
  | .clearError p tag h => Sys2Proof.Machine.execClearError p tag h s
  | .nextAttention p tag start kinds => Sys2Proof.Machine.execNextAttention p tag start kinds s
  | .clearAttention p tag h kinds laneSlot => Sys2Proof.Machine.execClearAttention p tag h kinds laneSlot s
  | .setAttentionMask p tag kinds => Sys2Proof.Machine.execSetAttentionMask p tag kinds s
  | .setHold p tag => Sys2Proof.Machine.execSetHold p tag s
  | .clearHold p tag => Sys2Proof.Machine.execClearHold p tag s
  | .deviceStatus p tag => Sys2Proof.Machine.execDeviceStatus p tag s
  | .resetPort p tag => Sys2Proof.Machine.execResetPort p tag s
  | .submitWord p value => Sys2Proof.Machine.execSubmitWord p value s
  | .takeWord p value => Sys2Proof.Machine.execTakeWord p value s
  | .fillWindowWrite p lane offset bytes => Sys2Proof.Machine.execFillWindowWrite p lane offset bytes s
  | .bulkWindowWrite p offset bytes => Sys2Proof.Machine.execBulkWindowWrite p offset bytes s
  | .linkReset p => Sys2Proof.Machine.execLinkReset p s
  | .deviceReset => Sys2Proof.Machine.execDeviceReset s
  | .headerParse => Sys2Proof.Machine.execHeaderParse s
  | .malformedHeader lane => Sys2Proof.Machine.execMalformedHeader lane s
  | .unitComplete lane => Sys2Proof.Machine.execUnitComplete lane s
  | .slotFree lane => Sys2Proof.Machine.execSlotFree lane s
  | .flushBoundary lane => Sys2Proof.Machine.execFlushBoundary lane s
  | .endOfStream lane => Sys2Proof.Machine.execEndOfStream lane s
  | .pipeCompletion pipe item outputs => Sys2Proof.Machine.execPipeCompletion pipe item outputs s
  | .watchdogExpiry pipe => Sys2Proof.Machine.execWatchdogExpiry pipe s
  | .storageGrant => Sys2Proof.Machine.execStorageGrant s
  | .tableGrant => Sys2Proof.Machine.execTableGrant s

end Sys2Proof.Machine
end

