-- ==== Sys2Proof/Config.lean ====
section
/-! DEFINITION. What the manual leaves open and no step of the part depends on: the places and sizes of the fields of response
data that chapter 11 does not lay out (log 3). -/

namespace Sys2Proof

/-- One field of a response whose layout the manual does not give: the bytes of a value that R179 codes or whose size it gives;
a number whose size it does not give; or the absence of a value, with the size of the value where R179 gives it. -/
inductive RespField where
  | coded (bytes : List Byte)
  | number (n : Int)
  | absent (width : Option Nat)
  deriving DecidableEq, Repr

/-- FREE VALUE (log 3). The size in bytes of a field that R179 gives none, in a response of the command with the given code and so
many fields, by the field's place in the list of its rule. It has no body, so nothing can be proved of it. -/
opaque Config.fieldWidth : BitVec 16 → Nat → Nat → Nat

/-- FREE VALUE (log 3). The order in which the fields of a response stand; every field stands once. -/
opaque Config.fieldOrder : BitVec 16 → (n : Nat) → Equiv.Perm (Fin n)

/-- FREE VALUE (log 3). The bytes between the fields of a response: before the first, between two, and behind the last. -/
opaque Config.fieldGap : BitVec 16 → Nat → Nat → List Byte

end Sys2Proof
end

