-- ==== Sys2Proof/Machine/Codes.lean ====
section
/-! DEFINITION. The codes of R179 for the values that responses carry, and the fields of every response by the contents that
its command's rule lists. Segment listings have a layout of their own (R183, Machine/Windows.lean); where the fields of the
others stand is not given (log 3). -/

namespace Sys2Proof.Machine

/-! ### Codes (R179, R181) -/

def OutcomeCode.code : OutcomeCode → Byte
  | .ok => 0
  | .clamped => 1
  | .noSlot => 2
  | .notFound => 3
  | .notWatching => 4
  | .badState => 5
  | .noLane => 6
  | .laneFull => 7
  | .laneEnded => 8
  | .stale => 9
  | .pending => 10
  | .streamBusy => 11
  | .tooLate => 12
  | .duplicate => 13
  | .listFull => 14
  | .notReady => 15
  | .gone => 16
  | .malformed => 17

/-- Assembly phase codes. -/
def Phase.code : Phase → Byte
  | .waitingOpen => 0
  | .assembling => 1
  | .finished => 2

/-- Programme state codes. -/
def ProgState.code : ProgState → Byte
  | .opened => 1
  | .ingesting => 2
  | .halted => 3
  | .draining => 4
  | .complete => 5

/-- Lane state codes. -/
def LaneState.code : LaneState → Byte
  | .free => 0
  | .attached => 1
  | .running => 2
  | .resync => 3
  | .ending => 4

/-- Lane wait reason codes. -/
def WaitReason.code : WaitReason → Byte
  | .none => 0
  | .noData => 1
  | .programmeState => 2
  | .throttle => 3
  | .noEntry => 4
  | .noGranules => 5

/-- Entry state codes. -/
def EntryState.code : EntryState → Byte
  | .filling => 0
  | .held => 1
  | .ready => 2
  | .inPipe => 3
  | .done => 4
  | .lost => 5

/-- Chapter source codes. -/
def ChapterSource.code : ChapterSource → Byte
  | .auto => 0
  | .manual => 1

/-- Chapter disposition codes. -/
def Disposition.code : Disposition → Byte
  | .pending => 0
  | .cut => 1
  | .deferred => 2
  | .merged => 3
  | .inside => 4
  | .late => 5

/-- Error class codes. -/
def ErrorClass.code : ErrorClass → Byte
  | .timeRange => 1
  | .timestampMissing => 2
  | .discontinuity => 3
  | .pieceLimit => 4
  | .malformedUnit => 5
  | .itemTimeout => 6
  | .itemOversize => 7

/-- Chapter policy codes. -/
def Policy.code : Policy → Byte
  | .defer => 0
  | .drop => 1

/-- Rounding codes. -/
def Rounding.code : Rounding → Byte
  | .nearest => 0
  | .chop => 1

/-- Off and on, no and yes. -/
def flagCode (b : Bool) : Byte := if b then 1 else 0

/-- A signed field of 8 bytes, in two's complement, little-endian. -/
def signed64 (n : Int) : List Byte := bytes64 (BitVec.ofInt 64 n)

/-- A chapter horizon in its 8 bytes: −∞ is −2^63 and +∞ is 2^63 − 1. -/
def Horizon.bytes : Horizon → List Byte
  | .negInf => signed64 (-9223372036854775808)
  | .at t => signed64 t
  | .posInf => signed64 9223372036854775807

/-- One bit of a byte of bits. -/
def bitAt (n : Nat) (b : Bool) : Byte := if b then (1 : Byte) <<< n else 0

/-- A port set as a byte of bits. -/
def portSetByte (w : PortSet) : Byte := bitAt 0 w.p0 ||| bitAt 1 w.p1 ||| bitAt 2 w.p2

/-- A stream set as a byte of bits. -/
def streamSetByte (w : PerStream Bool) : Byte := bitAt 0 w.cam ||| bitAt 1 w.slide ||| bitAt 2 w.audio

/-- A latch kind set as a byte of bits; bit 7 is zero. -/
def KindSet.byte (k : KindSet) : Byte := k.zeroExtend 8

/-! ### Fields of the responses

R179 codes the values and each command's rule lists the contents; how the contents are put into fields is settled here. DESIGN
CHOICE (log 3): a list with its length in front, lanes, slots and owner ports as numbers, a yes or no as one byte, and what the
definitions below name. -/

/-- A field whose code is one byte. DESIGN CHOICE (log 3): R179 gives the codes of the enumerated values and no size for them; an
enumerated code, and its absence, takes one byte in every response, as the outcome does in R181 and the phase in R183. -/
def byteField (b : Byte) : RespField := .coded [b]

def numberField (n : Nat) : RespField := .number n

/-- A field that may be absent, of a size that R179 gives or not. -/
def optionalField {α : Type} (width : Option Nat) (f : α → RespField) : Option α → RespField
  | some a => f a
  | none => .absent width

/-- A handle: slot and generation, one byte each as in a command record (R180). DEDUCED (log 3). -/
def handleField (h : Handle) : RespField := .coded [BitVec.ofNat 8 h.slot.val, h.gen]

def laneField (l : LaneId) : RespField := numberField l.val

def slotField (k : SlotNo) : RespField := numberField k.toNat

/-- A field by its field code and selector of R180, as a command record names it. DEDUCED (log 3). -/
def Field.name (f : Field) : RespField :=
  .coded (bytes16 (BitVec.ofNat 16 (f.rank / 16)) ++ bytes16 (BitVec.ofNat 16 (f.rank % 16)))

/-- A list, its length in front. -/
def listFields {α : Type} (f : α → List RespField) (xs : List α) : List RespField :=
  numberField xs.length :: xs.flatMap f

/-- Fields with their values (R29, R30, R32). -/
def FieldSet.fields (fs : FieldSet) : List RespField := listFields (fun x => [x.1.name, .number x.2]) fs

/-- DESIGN CHOICE (log 3): a pending set that is absent is one absent field. -/
def optionalSet : Option FieldSet → List RespField
  | some fs => fs.fields
  | none => [.absent none]

/-- All changeable fields of the active settings: a rate correction for each stream of the set alone (section 2.1, R29, R32).
DESIGN CHOICE (log 3): a stream code stands before a rate correction. -/
def Settings.fields (rated : PerStream Bool) (a : Settings) : List RespField :=
  [numberField a.segLength, numberField a.snapWindow, numberField a.minLength, numberField a.dwell,
    byteField a.policy.code] ++ listFields (fun b => [numberField b]) a.bitrates ++
  listFields (fun st => [byteField st.code, .number (a.rates.get st)]) (Stream.all.filter rated.get) ++
  [numberField a.jump, numberField a.gap, byteField a.rounding.code, byteField (flagCode a.repTimeRange),
    byteField (flagCode a.repTimestampMissing), byteField (flagCode a.repDiscontinuity), byteField (flagCode a.repPieceLimit),
    numberField a.itemLimit, numberField a.heldLimit]

/-- The counters of R22. -/
def Stats.fields (x : Stats) : List RespField :=
  [x.mapped.cam, x.mapped.slide, x.mapped.audio, x.early, x.late, x.timeRange, x.timestampMissing, x.discontinuity,
    x.pieceLimit, x.malformedUnit, x.itemTimeout, x.itemOversize, x.chapters, x.segmentsClosed].map
    (fun c => .coded (bytes32 c))

/-- R29. -/
def StageView.fields (v : StageView) : List RespField :=
  listFields (fun f => [f.name]) v.clamped ++
  [byteField (flagCode v.emptied), handleField v.target, numberField v.base, numberField v.revision,
    numberField v.cutRevision] ++ v.active.fields v.rated ++ optionalSet v.pendingCut ++ optionalSet v.pendingPiece

/-- R32. -/
def CommitView.fields (v : CommitView) : List RespField :=
  numberField v.revision :: v.active.fields v.rated ++ optionalSet v.pendingCut ++ optionalSet v.pendingPiece ++
    listFields (fun f => [f.name]) v.clamped

/-- R60. DESIGN CHOICE (log 3): the parser position has no field of its own, because R179 gives it no code: IN_PAYLOAD shows by
its sequence number and remaining bytes, AT_HEADER by both absent. A slot is its count, absent where it is free. -/
def LaneView.fields (v : LaneView) : List RespField :=
  [byteField v.state.code, optionalField none (fun p => numberField (match p with | .p0 => 0 | .p1 => 1 | .p2 => 2)) v.owner,
    optionalField (some 2) (fun x => handleField x.1) v.target, optionalField (some 1) (fun x => byteField x.2.code) v.target,
    optionalField none numberField v.count0, optionalField none numberField v.count1, optionalField none slotField v.fill] ++
  listFields (fun k => [slotField k]) v.order ++
  [numberField v.readPos, numberField v.unread] ++
  (match v.pos with
    | .atHeader => [.absent none, .absent none]
    | .inPayload n rem => [numberField n.toNat, numberField rem]) ++
  [byteField (flagCode v.discarding), byteField (flagCode v.endPosted), byteField v.wait.code,
    numberField v.consumed.toNat, numberField v.begun.toNat]

/-- The fields of R92. -/
def Chapter.fields (c : Chapter) : List RespField :=
  [numberField c.time, byteField c.source.code, optionalField (some 2) (fun i => .coded (bytes16 i)) c.slideIndex,
    byteField c.disp.code, optionalField none numberField c.effective, optionalField none numberField c.segment]

/-- R95. -/
def ChaptersView.fields (v : ChaptersView) : List RespField :=
  [numberField v.count, .coded v.horizon.bytes, numberField v.lastCut, numberField v.counter,
    optionalField none numberField v.forced, optionalField none numberField v.progEnd] ++
  listFields (fun x => numberField x.1 :: x.2.fields) v.entries

/-- R20. -/
def ErrorRecord.fields (r : ErrorRecord) : List RespField :=
  [byteField r.code.code, optionalField (some 1) (fun st => byteField st.code) r.stream,
    optionalField none numberField r.piece, optionalField none (fun n => numberField n.toNat) r.seq,
    optionalField none .number r.time]

/-- What R23 lists of one stream of the set. DESIGN CHOICE (log 3): a stream code stands before a stream's figures. -/
def StreamView.fields (st : Stream) (v : StreamView) : List RespField :=
  [byteField st.code, optionalField none laneField v.lane, byteField (flagCode v.ended), numberField v.nextSeq.toNat,
    optionalField none numberField v.position]

/-- DESIGN CHOICE (log 3): a stream outside the set has no fields. -/
def streamFields (v : PerStream (Option StreamView)) : List RespField :=
  Stream.all.flatMap (fun st => match v.get st with | some r => r.fields st | none => [])

/-- R23. DESIGN CHOICE (log 3): each rendition is its stream code and bitrate, and an entry state code stands before each count
of entries. -/
def StatusView.fields (v : StatusView) : List RespField :=
  [handleField v.handle, byteField v.state.code, numberField v.frame, byteField (streamSetByte (v.streams.map Option.isSome))] ++
  listFields (fun x => [byteField x.1.code, numberField x.2]) v.renditions ++
  [numberField v.revision, byteField (flagCode v.cutPending), byteField (flagCode v.piecePending),
    byteField (portSetByte v.watch), byteField (KindSet.byte v.latches), byteField (flagCode v.errorFlag)] ++
  streamFields v.streams ++
  [numberField v.currentPiece, numberField v.pieceCount, numberField v.lastCut, numberField v.counter,
    optionalField none numberField v.forced] ++
  [(EntryState.filling, v.filling), (.held, v.held), (.ready, v.ready), (.inPipe, v.inPipe), (.done, v.done),
    (.lost, v.lost)].flatMap (fun x => [byteField x.1.code, numberField x.2]) ++
  v.stats.fields

/-- R166: the state code of a pipe and the item it holds. DESIGN CHOICE (log 3): the item's handle, stream and sequence are
absent where the pipe holds none. -/
def PipeView.fields (v : PipeView) : List RespField :=
  byteField (BitVec.ofNat 8 v.code) ::
    (match v.item with
      | some n => [handleField n.handle, byteField n.stream.code, numberField n.seq.toNat]
      | none => [.absent (some 2), .absent (some 1), .absent none])

/-- R175. -/
def PortView.fields (v : PortView) : List RespField :=
  [numberField v.commands, numberField v.responses, byteField (flagCode v.overflow), byteField (flagCode v.notice),
    byteField (flagCode v.hold)] ++ listFields (fun l => [laneField l]) v.lanes ++
  [byteField (flagCode v.stagingEmpty), numberField v.segmentsHeld]

/-- R166, R175. -/
def DeviceView.fields (v : DeviceView) : List RespField :=
  [v.accept, v.payload, v.store, v.table, v.hold, v.throttle].map (fun b => byteField (flagCode b)) ++
  [numberField v.acceptCount, numberField v.payloadCount, numberField v.storeCount, numberField v.tableCount,
    numberField v.storeQueueLength, numberField v.storeQueueNeed, numberField v.tableQueueLength,
    numberField v.tableQueueNeed] ++ v.pipes.flatMap PipeView.fields ++
  Port.all.flatMap (fun p => (v.ports.get p).fields) ++
  [numberField v.unclaimed, numberField v.freeSlots, numberField v.freeLanes]

/-- The fields of a response by the contents that its command's rule lists; a segment listing has its own layout (R183). DESIGN
CHOICE (log 3): the three hold flags of Set Hold and Clear Hold stand as one port set byte, where R161 lists them without a code;
a flag stands before the record of Read Error; and with nothing due, the handle, kinds and state of Next Attention are absent. -/
def RespData.fields : RespData → List RespField
  | .empty => []
  | .opened h clamped => handleField h :: listFields (fun r => [numberField r]) clamped
  | .watched st => [byteField st.code]
  | .left changed freed => [numberField changed, numberField freed]
  | .staged v => v.fields
  | .staging target unknown base fs =>
      [optionalField (some 2) handleField target, byteField (flagCode unknown), optionalField none numberField base] ++
        fs.fields
  | .committed v => v.fields
  | .attached l => [laneField l]
  | .detached h st => [handleField h, byteField st.code]
  | .posted free => [numberField free]
  | .laneStatus v => v.fields
  | .inserted t index d eff => [numberField t, numberField index, byteField d.code, optionalField none numberField eff]
  | .chapters v => v.fields
  | .listing _ => []
  | .fetched count total atEnd => [numberField count, numberField total, byteField (flagCode atEnd)]
  | .released was pend freed =>
      [byteField (flagCode was), optionalField (some 1) (fun w => byteField (portSetByte w)) pend, byteField (flagCode freed)]
  | .status v => v.fields
  | .error (some r) => byteField (flagCode true) :: r.fields
  | .error none => [byteField (flagCode false)]
  | .attention (some (h, k, st)) => [handleField h, byteField (KindSet.byte k), byteField st.code]
  | .attention none => [.absent (some 2), .absent (some 1), .absent (some 1)]
  | .latches kinds ls => [optionalField (some 1) (fun k => byteField (KindSet.byte k)) kinds, byteField (flagCode ls)]
  | .holds w => [byteField (portSetByte w)]
  | .device v => v.fields

/-! ### The bytes of a response's fields (R179) -/

/-- A number in `w` bytes, in two's complement, little-endian (R179). -/
def littleEndian (w : Nat) (n : Int) : List Byte := (List.range w).map (fun k => BitVec.ofInt 8 (n / 256 ^ k))

/-- The bytes of a field, in `w` bytes where R179 gives it no size: a code, a little-endian number, or all ones for an absent
value. -/
def fieldBytes (w : Nat) : RespField → List Byte
  | .coded bytes => bytes
  | .number n => littleEndian w n
  | .absent width => List.replicate (width.getD w) 0xFF

/-- The data of a response of a command: each field once, with its bytes together; the order of the fields, the sizes that R179
does not give and the bytes between fields are free values (log 3). -/
def layOut (command : BitVec 16) (fs : List RespField) : List Byte :=
  (List.finRange fs.length).flatMap (fun k =>
    let j := Config.fieldOrder command fs.length k
    Config.fieldGap command fs.length k ++ fieldBytes (Config.fieldWidth command fs.length j) (fs.get j)) ++
  Config.fieldGap command fs.length fs.length

end Sys2Proof.Machine
end

