-- ==== Sys2Proof/Machine/Windows.lean ====
section
/-! DEFINITION. What a server reads through its port's bulk window: the staging area, the response area with the records
of R181 and R183, the take word and the fetch window (R150, R168, R172). A read changes nothing, so no command of the
table stands for one. -/

namespace Sys2Proof.Machine

/-- The flags byte of a segment record (R183). -/
def SegFlags.byte (f : SegFlags) : Byte :=
  bitAt 0 f.chapterStart ||| bitAt 1 f.gap ||| bitAt 2 f.keyLate ||| bitAt 3 f.empty ||| bitAt 4 f.short

/-! ### The segment listing (R183) -/

/-- A 32-bit field that may be absent: all bits one (R179). -/
def optional32 : Option Nat → BitVec 32
  | some n => BitVec.ofNat 32 n
  | none => 0xFFFFFFFF

def optional16 : Option Nat → BitVec 16
  | some n => BitVec.ofNat 16 n
  | none => 0xFFFF

/-- The 40 bytes of a segment record (R183). -/
def SegmentView.bytes (v : SegmentView) : List Byte :=
  bytes32 (BitVec.ofNat 32 v.index) ++ bytes32 (BitVec.ofNat 32 v.byteCount) ++
  bytes64 (BitVec.ofNat 64 v.start) ++ bytes64 (BitVec.ofNat 64 v.endTime) ++
  bytes32 (BitVec.ofNat 32 v.granuleCount) ++ bytes32 (optional32 v.revision) ++
  [v.flags.byte, portSetByte v.pending ||| bitAt 7 v.unclaimed] ++
  bytes16 (optional16 v.firstChapter) ++ [0, 0, 0, 0]

/-- The listing head and the records of a List Segments response (R183). -/
def ListingView.bytes (v : ListingView) : List Byte :=
  [BitVec.ofNat 8 v.records.length, bitAt 0 v.more, v.phase.code, 0] ++ bytes32 (optional32 v.current) ++
    v.records.flatMap SegmentView.bytes

/-! ### The response area (R172, R181) -/

/-- The data of a response to the command with the given code: List Segments as R183 lays it out; the fields of the others
as R179 codes them, at places that are not given (log 3), within the 4084 bytes that the record's length leaves them
(R181). A response without data has no bytes here. -/
def RespData.bytes (command : BitVec 16) : RespData → List Byte
  | .empty => []
  | .listing v => v.bytes
  | d => (layOut command d.fields).take 4084

/-- The record of a response as the response area presents it, with the queue count of the moment of the read (R181). -/
def Response.bytes (count : Nat) (r : Response) : List Byte :=
  let data := r.reply.data.bytes r.command
  bytes16 (BitVec.ofNat 16 (8 + data.length)) ++ bytes16 r.command ++ bytes16 r.tag ++
    [r.reply.code.code, BitVec.ofNat 8 count] ++ data

/-- The bytes of the head response; none at all when the queue is empty, where the area reads as zero (R172). -/
def PortState.headBytes (pt : PortState) : List Byte :=
  match pt.responses with
  | [] => []
  | r :: _ => r.bytes pt.responses.length

/-! ### The bulk window (R168) -/

/-- The byte that a read of the bulk window at an offset returns: staging area, submit word, response area, take word,
fill windows, fetch window, and 0 where no region lies (R43, R150, R168, R172). -/
def PortState.bulkRead (pt : PortState) (a : Nat) : Byte :=
  if a < areaBytes then Mem.read pt.area a
  else if a < 4096 then 0
  else if a < 8188 then pt.headBytes.getD (a - 4096) 0
  else if a < 8192 then (bytes32 (BitVec.ofNat 32 pt.responses.length)).getD (a - 8188) 0
  else if a < 327680 then 0
  else if a < 327680 + windowBytes then Mem.read pt.window (a - 327680)
  else 0

end Sys2Proof.Machine
end

