-- ==== Sys2Proof/Safety.lean ====
section
/-! DEFINITION. What a well-kept state of the part is, in the terms that the statements use: canonical memories, the
capacities of the shared pools and queues, and the ranges of a programme record. Every one of them is decided by state
alone; that reset has them and that every step keeps them are statements of their own. -/

namespace Sys2Proof.Machine

/-- Every buffer and store holds its bytes in the one canonical form. -/
structure State.MemoryCanonical (s : State) : Prop where
  slot0   : ∀ l, Mem.wf (s.lane l).slot0.bytes = true
  slot1   : ∀ l, Mem.wf (s.lane l).slot1.bytes = true
  area    : ∀ p, Mem.wf (s.port p).area = true
  window  : ∀ p, Mem.wf (s.port p).window = true
  payload : Mem.wf s.payloadArea = true
  output  : Mem.wf s.outputStore = true

/-- The command queue and the response queue of every port hold at most sixteen records (R168, R172). -/
def State.QueuesBounded (s : State) : Prop :=
  ∀ p, (s.port p).commands.length ≤ queueRecords ∧ (s.port p).responses.length ≤ queueRecords

/-- The Accept Queue never holds more than 512 entries (R109) and the Segment Table never more than 2048 segments
(R129). -/
def State.CapacityKept (s : State) : Prop :=
  s.entries.length ≤ acceptPlaces ∧ s.segments.length ≤ tableEntries

/-- A pipe in STORING (R117). -/
def Pipe.isStoring : Pipe → Bool
  | .storing _ _ => true
  | .idle => false
  | .encoding _ _ => false

/-- The store queue holds the pipes in STORING, each once (R119), and each stream has at most one request in the table
queue (R132). -/
structure State.WaitQueuesExact (s : State) : Prop where
  storeOnce : s.storeQueue.Nodup
  storeAll  : ∀ e, e ∈ s.storeQueue ↔ (s.pipe e).isStoring = true
  tableOnce : s.tableQueue.Nodup

/-- The ranges of a programme record: the frame durations of R1, one to five renditions (R1), a piece list of 1 to 16
records (R62), at least cut record 0 (R86), at most 128 chapters (R92), and an error record whose time lies within
−2^47 to 2^47 − 1 (R20). -/
structure Programme.InRange (pr : Programme) : Prop where
  frame      : pr.frame = 3600 ∨ pr.frame = 3000 ∨ pr.frame = 1800 ∨ pr.frame = 1500
  someRendition : 1 ≤ pr.renditions.length
  fiveRenditions : pr.renditions.length ≤ 5
  somePiece  : 1 ≤ pr.pieces.length
  pieceList  : pr.pieces.length ≤ pieceRecords
  cutZero    : pr.cutter.cuts ≠ []
  chapterList : pr.cutter.chapters.length ≤ chapterEntries
  errorTime  : ∀ r, pr.error = some r → ∀ t, r.time = some t → -140737488355328 ≤ t ∧ t ≤ 140737488355327

/-- Every programme record of the table is in range. -/
def State.ProgrammesInRange (s : State) : Prop := ∀ i pr, s.prog i = some pr → pr.InRange

/-- Each Payload granule in use belongs to exactly one Accept Queue entry, and no more are in use than there are
(R141). -/
structure State.PayloadExclusive (s : State) : Prop where
  once : s.payloadUsed.Nodup
  room : s.payloadCount ≤ payloadGranules

/-- A well-kept state: canonical memories, capacities, exact wait queues, records in range and exclusive granules. -/
structure State.WellKept (s : State) : Prop where
  memory : s.MemoryCanonical
  capacity : s.CapacityKept
  waits : s.WaitQueuesExact
  programmes : s.ProgrammesInRange
  payload : s.PayloadExclusive

/-! ### Sources, settings and outputs -/

/-- Each occupancy source stands as its marks demand: on at its high mark and above, off at its low mark and below (R160). -/
structure State.SourcesFit (s : State) : Prop where
  acceptOn   : 448 ≤ s.acceptCount → s.sources.accept = true
  acceptOff  : s.acceptCount ≤ 384 → s.sources.accept = false
  payloadOn  : 458752 ≤ s.payloadCount → s.sources.payload = true
  payloadOff : s.payloadCount ≤ 393216 → s.sources.payload = false
  storeOn    : 917504 ≤ s.storeCount → s.sources.store = true
  storeOff   : s.storeCount ≤ 786432 → s.sources.store = false
  tableOn    : 1920 ≤ s.tableCount → s.sources.table = true
  tableOff   : s.tableCount ≤ 1792 → s.sources.table = false

/-- A source with these marks follows its count from `n` to `m` in a step: unchanged with it; otherwise on afterwards at or
above the high mark, or above the low mark where it was on (R160). -/
def SourceFollows (high low : Nat) (before after : Bool) (n m : Nat) : Prop :=
  if n = m then after = before else (after = true ↔ (high ≤ m ∨ (before = true ∧ low < m)))

/-- Active settings within the ranges of section 2.1, W within 0 to floor(D/4) and M within 25 to D (R40). The held limit has
its lower bound alone: a commit may raise it to the HELD count (R32). -/
structure Settings.InRange (a : Settings) : Prop where
  segLength  : 50 ≤ a.segLength ∧ a.segLength ≤ 600
  snapWindow : a.snapWindow ≤ a.segLength / 4
  minLength  : 25 ≤ a.minLength ∧ a.minLength ≤ a.segLength
  dwell      : 25 ≤ a.dwell ∧ a.dwell ≤ 750
  bitrates   : ∀ b ∈ a.bitrates, 64 ≤ b ∧ b ≤ 20000
  rates      : ∀ st, -500 ≤ a.rates.get st ∧ a.rates.get st ≤ 500
  jump       : 1 ≤ a.jump ∧ a.jump ≤ 250
  gap        : a.gap ≤ 125
  itemLimit  : 20 ≤ a.itemLimit ∧ a.itemLimit ≤ 2000
  heldLimit  : 16 ≤ a.heldLimit

/-- A set of fields as a staging record or a pending set holds it: in field-code order, no field twice (R27). -/
def FieldSet.Ordered (fs : FieldSet) : Prop := fs.Pairwise (fun x y => x.1.rank < y.1.rank)

/-- Every value lies within its field's range, W and M within the ranges that the longest D gives them (section 2.1). -/
def FieldSet.Bounded (fs : FieldSet) : Prop := ∀ x ∈ fs, (x.1.range 600).1 ≤ x.2 ∧ x.2 ≤ (x.1.range 600).2

/-- A programme whose settings are consistent from Open through each activation (R40), the pending ones too, with no cut-bound
set pending in OPEN, where every value takes effect at its commit (R34), whose cut list begins at 0 and rises strictly
(R86), and whose chapter list is in strictly rising time order (R92). -/
structure Programme.SettingsKept (pr : Programme) : Prop where
  frame    : 0 < pr.frame
  active   : pr.active.InRange
  cutSet   : ∀ pc, pr.pendingCut = some pc → pc.fields.Ordered ∧ pc.fields.Bounded ∧
    (∀ x ∈ pc.fields, x.1.group = .cutBound) ∧
    orActive pc.fields .snapWindow pr.active.snapWindow ≤ orActive pc.fields .segLength pr.active.segLength / 4 ∧
    orActive pc.fields .minLength pr.active.minLength ≤ orActive pc.fields .segLength pr.active.segLength
  pieceSet : ∀ fs, pr.pendingPiece = some fs → fs.Ordered ∧ fs.Bounded ∧ ∀ x ∈ fs, x.1.group = .pieceBound
  openSet  : pr.state = .opened → pr.pendingCut = none
  cutStart : (pr.cutter.cuts.head?).map CutRecord.start = some 0
  cutsRise : pr.cutter.cuts.Pairwise (fun a b => a.start < b.start)
  chaptersRise : pr.cutter.chapters.Pairwise (fun a b => a.time < b.time)

/-- Every programme's settings and cut list, and every port's staging record, are kept. -/
structure State.SettingsKept (s : State) : Prop where
  programmes : ∀ i pr, s.prog i = some pr → pr.SettingsKept
  staging    : ∀ p r, (s.port p).staging = some r → r.fields.Ordered ∧ r.fields.Bounded

/-- An UNCLAIMED segment is a CLOSED one with an empty pending set, and no other CLOSED segment has an empty one (R139, R143). -/
def Segment.PendingExact (g : Segment) : Prop := ∀ e pend u, g.status = .closed e pend u → u = PortSet.isEmpty pend

/-- Each Output granule in use belongs to one part of one entry's output or segment, and no more are in use than there are
(R141); a slot, rendition and index name one segment at most (R129); a segment belongs to a stream of the programme in its
slot, at or below the stream's current index (R131); and pending sets are exact. -/
structure State.OutputExclusive (s : State) : Prop where
  once   : s.outputUsed.Nodup
  room   : s.storeCount ≤ outputGranules
  keys   : s.segments.Pairwise (fun g x => g.isAt x.handle.slot x.rendition x.index = false)
  placed : ∀ g ∈ s.segments, ∃ pr st r cur ph, s.prog g.handle.slot = some pr ∧ pr.renditions[g.rendition]? = some st ∧
    pr.stream st = some r ∧ r.assembly = some ⟨some cur, ph⟩ ∧ g.index ≤ cur
  marked : ∀ g ∈ s.segments, g.PendingExact

/-! ### How a programme goes on -/

/-- The changes of programme state that one command or event can make to a record that stays in its slot (the second table
of section 1.3; a drain that is complete at Close Ingest passes DRAINING within the step, R10). -/
def ProgState.leads : ProgState → ProgState → Bool
  | .opened, b => b = .opened || b = .ingesting
  | .ingesting, b => b = .ingesting || b = .halted || b = .draining || b = .complete
  | .halted, b => b = .halted || b = .ingesting || b = .draining || b = .complete
  | .draining, b => b = .draining || b = .complete
  | .complete, b => b = .complete

/-- What never goes back while a record stays in its slot: what Open fixes (R1), the ended flags (R1), the settings revision
(R25), the cut list (R86), the reach (R98), the forced horizon and H (R96, R97), the chapters and their dispositions once
decided (R90, R92), and the programme state (section 1.3). -/
structure Programme.Onward (a b : Programme) : Prop where
  frame : b.frame = a.frame
  renditions : b.renditions = a.renditions
  streamSet : ∀ st, (b.stream st).isSome = (a.stream st).isSome
  ended : ∀ st r r', a.stream st = some r → b.stream st = some r' → r.ended = true → r'.ended = true
  revision : a.revision ≤ b.revision
  cuts : (a.cutter.cuts.map CutRecord.start) <+: (b.cutter.cuts.map CutRecord.start)
  reach : a.cutter.reach ≤ b.cutter.reach
  forced : ∀ g, a.cutter.forced = some g → ∃ g', b.cutter.forced = some g' ∧ g ≤ g'
  horizon : ∀ t, a.cutter.horizon.reaches t = true → b.cutter.horizon.reaches t = true
  chapters : ∀ ch ∈ a.cutter.chapters, ∃ ch' ∈ b.cutter.chapters, ch'.time = ch.time ∧
    (ch.disp ≠ .pending → ch'.disp = ch.disp)

/-! ### What a statement compares -/

/-- The state after a port command has been taken that changed the state from `before` to `s` with no other port's notice:
its response stands at the end of the port's queue, and the port has sent a notice if its condition was false (R173,
R174). -/
def answered (before : State) (p : Port) (tag code : BitVec 16) (r : Reply) (s : State) : State :=
  s.setPort p { s.port p with
    responses := (s.port p).responses ++ [⟨code, tag, r⟩]
    noticesSent := (s.port p).noticesSent + (if before.noticeCondition p then 0 else 1) }

/-- The part of a port's state that no event of the data path reaches: all but the LANE_SLOT latch and the model's count
of notices. -/
structure PortState.SameRecords (a b : PortState) : Prop where
  commands  : b.commands = a.commands
  responses : b.responses = a.responses
  area      : b.area = a.area
  overflow  : b.overflow = a.overflow
  staging   : b.staging = a.staging
  hold      : b.hold = a.hold
  mask      : b.mask = a.mask
  window    : b.window = a.window

/-- What every taken port command leaves behind whatever else it does: its one response at the end of its port's queue, that
port's other commands and staging bytes, the records of the other ports, the generations and the queue of pending commands
(R3, R171). -/
structure Carried (a b : State) (p : Port) (resp : Response) : Prop where
  response : (b.port p).responses = (a.port p).responses ++ [resp]
  commands : (b.port p).commands = (a.port p).commands
  area : (b.port p).area = (a.port p).area
  others : ∀ q, q ≠ p → PortState.SameRecords (a.port q) (b.port q)
  gens : ∀ i, b.gen i = a.gen i
  pending : b.pending = a.pending

/-- Every programme but the one in slot `i` goes onward. -/
def OthersOnward (a b : State) (i : SlotId) : Prop :=
  ∀ j, j ≠ i → ∀ x, a.prog j = some x → ∃ y, b.prog j = some y ∧ x.Onward y

/-- The port's latches on a programme hold a kind. -/
def Programme.holds (pr : Programme) (p : Port) (k : LatchKind) : Prop := pr.latches.get p ||| k.bit = pr.latches.get p

/-- A handle names the programme `pr` in slot `i` (R2). -/
structure Names (s : State) (h : RawHandle) (i : SlotId) (pr : Programme) : Prop where
  slot : h.slot.toNat = i.val
  gen  : s.gen i = h.gen
  prog : s.prog i = some pr

/-- The active settings hold the value that a record gives for a field: a code where the field has codes (R179), the number
itself otherwise. -/
def Settings.has (a : Settings) (f : Field) (v : Int) : Prop :=
  match f with
  | .segLength => a.segLength = v.toNat
  | .snapWindow => a.snapWindow = v.toNat
  | .minLength => a.minLength = v.toNat
  | .dwell => a.dwell = v.toNat
  | .policy => a.policy = if v = 1 then .drop else .defer
  | .bitrate r => a.bitrates[r.val]? = some v.toNat
  | .rate st => a.rates.get st = v
  | .jump => a.jump = v.toNat
  | .gap => a.gap = v.toNat
  | .rounding => a.rounding = if v = 1 then .chop else .nearest
  | .report .timeRange => a.repTimeRange = decide (v = 1)
  | .report .timestampMissing => a.repTimestampMissing = decide (v = 1)
  | .report .discontinuity => a.repDiscontinuity = decide (v = 1)
  | .report .pieceLimit => a.repPieceLimit = decide (v = 1)
  | .itemLimit => a.itemLimit = v.toNat
  | .heldLimit => a.heldLimit = v.toNat

/-- The revision in force for the segment of index `k`: that of the last record of the revision list whose first segment index
is at or below `k`, and none where there is no such record (R37). -/
def Programme.InForce (pr : Programme) (k : Nat) : Option Nat → Prop
  | some v => ∃ (n : Nat) (x : RevRecord), pr.revisions[n]? = some x ∧ x.revision = v ∧ x.firstSegment ≤ k ∧
      ∀ (m : Nat) (y : RevRecord), n < m → pr.revisions[m]? = some y → k < y.firstSegment
  | none => ∀ x ∈ pr.revisions, k < x.firstSegment

/-- The ATTACHED lanes of the programme in slot `i` that have a full slot are RUNNING, and every other lane keeps its record
(R47). -/
def LanesRun (a b : State) (i : SlotId) : Prop :=
  ∀ l,
    let runs := (a.lane l).state = .attached ∧ (a.lane l).order ≠ [] ∧ ∃ h st, (a.lane l).target = some (h, st) ∧ h.slot = i
    (runs → b.lane l = { a.lane l with state := .running }) ∧ (¬runs → b.lane l = a.lane l)

/-- A port sends the notice of a step from `a` to `b` exactly where its notice condition turns from false to true (R174). -/
def NoticeSent (a b : State) (q : Port) : Prop :=
  (b.port q).noticesSent =
    (a.port q).noticesSent + (if a.noticeCondition q = false ∧ b.noticeCondition q = true then 1 else 0)

/-- The programme takes Attach Lane and Insert Chapter (section 1.3). -/
def ProgState.live (x : ProgState) : Prop := x = .opened ∨ x = .ingesting ∨ x = .halted

end Sys2Proof.Machine
end

