-- ==== Sys2Proof/Certificates/Slice0/Obligations.lean ====
section
/-! DEFINITION. The statements for the provers. Numbers such as 0x10 are the command codes of R180; `answered` and `Carried`
say what a taken command leaves behind. A statement whose conclusion is an equation with `.next` also says that the command
completes. -/

section Statements

open Sys2Proof Sys2Proof.Machine

/-! ### The machine -/

/-- A step carries out the command at the front of the queue, on the state with the queue's rest; and, the model's choice
(log 1), with no command waiting it changes nothing. -/
def Obligations.StepTakesFrontCommand : Prop :=
  (∀ (c : Instr) (s : State), step { s with pending := c :: s.pending } = exec c s) ∧
  (∀ s : State, s.pending = [] → step s = .next s)

/-- The machine right after device reset is well kept, with both queues of every port bounded. -/
def Obligations.ResetIsWellKept : Prop := State.reset.WellKept ∧ State.reset.QueuesBounded

/-- What a device reset leaves: every slot FREE with generation 0, every lane FREE with free slots of zero bytes, the pointers,
queues, pipes, segments and sources empty or off, and every port's state clear with zero bytes in its areas (sections 1.8,
3.1, 6.7, 7.7, 9.1 and 10.1); and DEVICE_RESET takes every state there, the commands still to be stepped kept
(the model's choice, log 26) and dispatches counted on (the model's own count, log 36). -/
def Obligations.DeviceResetLeaves : Prop :=
  (∀ s : State, exec .deviceReset s = .next { State.reset with pending := s.pending, dispatches := s.dispatches }) ∧
  (∀ i, State.reset.prog i = none ∧ State.reset.gen i = 0) ∧
  (∀ l, (State.reset.lane l).state = .free ∧ (State.reset.lane l).owner = none ∧ (State.reset.lane l).target = none ∧
    (State.reset.lane l).slot0.count = none ∧ (State.reset.lane l).slot1.count = none ∧
    (∀ a, Mem.read (State.reset.lane l).slot0.bytes a = 0) ∧ (∀ a, Mem.read (State.reset.lane l).slot1.bytes a = 0)) ∧
  (∀ p, (State.reset.port p).commands = [] ∧ (State.reset.port p).responses = [] ∧ (State.reset.port p).overflow = false ∧
    (State.reset.port p).staging = none ∧ (State.reset.port p).hold = false ∧ (State.reset.port p).mask = 0 ∧
    (State.reset.port p).laneSlot = false ∧ (∀ a, Mem.read (State.reset.port p).area a = 0) ∧
    (∀ a, Mem.read (State.reset.port p).window a = 0)) ∧
  (∀ e, State.reset.pipe e = .idle) ∧ State.reset.entries = [] ∧ State.reset.storeQueue = [] ∧
  State.reset.tableQueue = [] ∧ State.reset.segments = [] ∧ State.reset.throttle = false ∧
  State.reset.parsePtr = 0 ∧ (∀ st, State.reset.dispatchPtr.get st = 0)

/-- Every step keeps a well-kept state well kept: canonical memories, an Accept Queue of at most 512 entries and a Segment
Table of at most 2048 segments, a store queue that holds exactly the pipes in STORING, records in range, and every Payload
granule in use held by one entry only, at most 524 288 of them; and every step keeps the command queue and the response
queue of every port within sixteen records. -/
def Obligations.StepKeepsWellKept : Prop :=
  (∀ s t : State, s.WellKept → step s = .next t → t.WellKept) ∧
  (∀ s t : State, s.QueuesBounded → step s = .next t → t.QueuesBounded)

/-- A programme never goes back: whatever one command or event does, a record that stays in its slot goes onward, and its
state changes only as section 1.3 draws it. (SUBMIT_WORD and TAKE_WORD can take several queued commands in one step; the ones
they take act as their own rows do, as `SubmitWordTaken` and `TakeWordTaken` say.) -/
def Obligations.ProgrammesGoOnward : Prop :=
  ∀ (c : Instr) (s t : State), (∀ p v, c ≠ .submitWord p v) → (∀ p v, c ≠ .takeWord p v) → exec c s = .next t →
    ∀ i pr pr', s.prog i = some pr → t.prog i = some pr' → pr.Onward pr' ∧ pr.state.leads pr'.state = true

/-- Every change of programme state has its one cause: OPEN is left by Start Ingest of that slot alone, HALTED is entered
from INGESTING at a unit's completion alone and left for INGESTING by Resume Ingest alone, and draining begins with Close
Ingest alone. -/
def Obligations.StateChangesHaveTheirCause : Prop :=
  ∀ (c : Instr) (s t : State), (∀ p v, c ≠ .submitWord p v) → (∀ p v, c ≠ .takeWord p v) → exec c s = .next t →
    ∀ i pr pr', s.prog i = some pr → t.prog i = some pr' →
      (pr.state = .opened → pr'.state ≠ .opened → ∃ p tag h, c = .startIngest p tag h ∧ h.slot.toNat = i.val) ∧
      (pr.state = .ingesting → pr'.state = .halted → ∃ l, c = .unitComplete l) ∧
      (pr.state = .halted → pr'.state = .ingesting → ∃ p tag h, c = .resumeIngest p tag h ∧ h.slot.toNat = i.val) ∧
      ((pr.state = .ingesting ∨ pr.state = .halted) → (pr'.state = .draining ∨ pr'.state = .complete) →
        ∃ p tag h, c = .closeIngest p tag h ∧ h.slot.toNat = i.val)

/-! ### Records and queues -/

/-- Reading back the record of a well-formed command gives its tag and the command, with every operand. -/
def Obligations.RecordRoundTrip : Prop :=
  ∀ (tag : BitVec 16) (c : PortCommand), c.wf = true →
    decodeRecord (encodeRecord tag c).length (encodeRecord tag c) = some (tag, c)

/-- SUBMIT_WORD. Behind waiting commands, or with the response queue full, the first bytes of the staging area, as many as the
value written says and as they stand, join the end of the command queue as a record, and nothing else changes. With an empty
command queue and a free response place, a staged record is taken in the same step, and the command acts exactly as its own
row does; a malformed one (a value below 16, above 4088 or unlike the header's length, or a record of no command) is refused
MALFORMED with the command code and tag that it holds, 0 for one that it is too short to hold. -/
def Obligations.SubmitWordTaken : Prop :=
  (∀ (s : State) (p : Port) (v : BitVec 32), (s.port p).commands ≠ [] → (s.port p).commands.length < 16 →
      exec (.submitWord p v) s = .next (s.setPort p { s.port p with
        commands := (s.port p).commands ++ [⟨v.toNat, Mem.readBytes (s.port p).area 0 (min v.toNat 4088)⟩] })) ∧
  (∀ (s : State) (p : Port) (v : BitVec 32), (s.port p).commands = [] → 16 ≤ (s.port p).responses.length →
      exec (.submitWord p v) s = .next (s.setPort p { s.port p with
        commands := [⟨v.toNat, Mem.readBytes (s.port p).area 0 (min v.toNat 4088)⟩] })) ∧
  (∀ (c : Instr) (s : State) (p : Port) (tag : BitVec 16) (k : PortCommand) (v : BitVec 32),
      c.command = some (p, tag, k) → k.wf = true → s.takesNow p = true → v.toNat = (encodeRecord tag k).length →
      Mem.readBytes (s.port p).area 0 v.toNat = encodeRecord tag k → exec (.submitWord p v) s = exec c s) ∧
  (∀ (s : State) (p : Port) (v : BitVec 32), s.takesNow p = true →
      (v.toNat < 16 ∨ 4088 < v.toNat ∨
        (word16 (Mem.read (s.port p).area 0) (Mem.read (s.port p).area 1)).toNat ≠ v.toNat ∨
        decodeRecord v.toNat (Mem.readBytes (s.port p).area 0 v.toNat) = none) →
      exec (.submitWord p v) s = .next (answered s p
        (if 6 ≤ v.toNat then word16 (Mem.read (s.port p).area 4) (Mem.read (s.port p).area 5) else 0)
        (if 4 ≤ v.toNat then word16 (Mem.read (s.port p).area 2) (Mem.read (s.port p).area 3) else 0)
        ⟨.malformed, .empty⟩ s))

/-- A command that arrives while the command queue holds sixteen records is discarded, with no response and no change but the
overflow indication; the indication is reported by the port's next Device Status as it stood and cleared in the same step,
and otherwise stays set but for a reset (R170). -/
def Obligations.OverflowIndication : Prop :=
  (∀ (s : State) (p : Port) (v : BitVec 32), (s.port p).commands.length = 16 →
    exec (.submitWord p v) s = .next (s.setPort p { s.port p with overflow := true })) ∧
  (∀ (s : State) (p : Port) (tag : BitVec 16), s.takesNow p = true →
    exec (.deviceStatus p tag) s = .next (answered s p tag 0x90 ⟨.ok, .device (deviceView s)⟩
      (s.setPort p { s.port p with overflow := false }))) ∧
  (∀ (s : State) (p : Port), ((deviceView s).ports.get p).overflow = (s.port p).overflow) ∧
  (∀ (c : Instr) (s t : State) (p : Port), (s.port p).overflow = true → exec c s = .next t → (t.port p).overflow = false →
    (∃ tag, c = .deviceStatus p tag) ∨ (∃ tag, c = .resetPort p tag) ∨ c = .linkReset p ∨ c = .deviceReset ∨
      (∃ v, c = .submitWord p v) ∨ (∃ v, c = .takeWord p v))

/-- A command row behind waiting commands joins the end of its port's queue with the record of section 11.2; one that finds
sixteen commands waiting is discarded and sets the overflow indication. (That a command row stands for the arrival of the
command is the model's reading, log 7.) -/
def Obligations.CommandWaitsItsTurn : Prop :=
  ∀ (c : Instr) (s : State) (p : Port) (tag : BitVec 16) (k : PortCommand), c.command = some (p, tag, k) →
    (s.takesNow p = false → (s.port p).commands.length < 16 →
      exec c s = .next (s.setPort p { s.port p with
        commands := (s.port p).commands ++ [⟨(encodeRecord tag k).length, encodeRecord tag k⟩] })) ∧
    ((s.port p).commands.length = 16 → exec c s = .next (s.setPort p { s.port p with overflow := true }))

/-- TAKE_WORD. On an empty response queue it is discarded; with no command waiting it removes the head response and changes
nothing else; with one command waiting the head response leaves and the command is taken in the same step, exactly as its
own row would act with the queue empty. Of several waiting commands the first is taken, and the next after it, one after
another, while the response queue has a free place: with sixteen responses that is the first alone, and the others still wait
(unless it is Reset Port, which empties their queue). A malformed record that waits is refused in its turn. -/
def Obligations.TakeWordTaken : Prop :=
  (∀ (s : State) (p : Port) (v : BitVec 32),
      ((s.port p).responses = [] → exec (.takeWord p v) s = .next s) ∧
      (∀ r rest, (s.port p).responses = r :: rest → (s.port p).commands = [] →
        exec (.takeWord p v) s = .next (s.setPort p { s.port p with responses := rest }))) ∧
  (∀ (c : Instr) (s : State) (p : Port) (tag : BitVec 16) (k : PortCommand) (v : BitVec 32) (r : Response)
      (rest : List Response), c.command = some (p, tag, k) → k.wf = true →
      (s.port p).commands = [⟨(encodeRecord tag k).length, encodeRecord tag k⟩] → (s.port p).responses = r :: rest →
      rest.length < 16 →
      exec (.takeWord p v) s = exec c (s.setPort p { s.port p with commands := [], responses := rest })) ∧
  (∀ (c : Instr) (s : State) (p : Port) (tag : BitVec 16) (k : PortCommand), c.command = some (p, tag, k) →
      s.takesNow p = true → exec c s = .next (takeCommand p tag k s)) ∧
  (∀ (s : State) (p : Port) (tag : BitVec 16) (k : PortCommand) (v : BitVec 32) (r : Response) (rest : List Response)
      (ws : List CommandRecord), k.wf = true →
      (s.port p).commands = ⟨(encodeRecord tag k).length, encodeRecord tag k⟩ :: ws → (s.port p).responses = r :: rest →
      let next := takeCommand p tag k (s.setPort p { s.port p with commands := ws, responses := rest })
      (rest.length < 16 → exec (.takeWord p v) s = .next (takeQueued p ws.length next)) ∧
      (rest.length = 15 → k ≠ .resetPort → exec (.takeWord p v) s = .next next ∧ (next.port p).commands = ws)) ∧
  (∀ (s : State) (p : Port) (v : BitVec 32) (r : Response) (rest : List Response) (w : CommandRecord)
      (ws : List CommandRecord), (s.port p).commands = w :: ws → (s.port p).responses = r :: rest → rest.length = 15 →
      decodeRecord w.submitted w.bytes = none →
      exec (.takeWord p v) s = .next (answered (s.setPort p { s.port p with commands := ws, responses := rest }) p
        (recordCodeTag w.bytes).2 (recordCodeTag w.bytes).1 ⟨.malformed, .empty⟩
        (s.setPort p { s.port p with commands := ws, responses := rest })))

/-- BULK_WINDOW_WRITE replaces the bytes of the staging area at the offsets written, discards every byte from offset 4088 on
(the model's choice for bytes that have rows of their own, log 23), and changes nothing else. -/
def Obligations.BulkWriteReachesStagingOnly : Prop :=
  ∀ (s : State) (p : Port) (offset : Nat) (bytes : List Byte), Mem.wf (s.port p).area = true →
    ∃ m, exec (.bulkWindowWrite p offset bytes) s = .next (s.setPort p { s.port p with area := m }) ∧
      ∀ a, Mem.read m a = if offset ≤ a ∧ a < offset + bytes.length ∧ a < 4088 then bytes.getD (a - offset) 0
        else Mem.read (s.port p).area a

/-! ### Lifecycle -/

/-- Open Programme. Accepted, it fills the lowest FREE slot, advances its generation by one and answers the new handle,
CLAMPED where a bitrate was clamped. It is refused MALFORMED for a record that section 1.3.1 does not admit, and otherwise
NO_SLOT when no slot is FREE; a refusal changes no state but the response queue. The record that it fills: state OPEN, what
was given, defaults, revision 1, the opening port alone watching, no latch, no error, every statistic 0, piece 0, a cutter at
its start with H at −∞ beside a SLIDE stream and +∞ without, and every stream of the set without a lane, its assembly waiting
where it has a rendition. (The values of piece 0 before Start Ingest, the defaults, are the model's choice, log 19.) -/
def Obligations.OpenTaken : Prop :=
  (∀ (s : State) (p : Port) (tag f : BitVec 16) (ss : Byte) (rl : List RawRendition) (i : SlotId), s.takesNow p = true →
      openForm f ss rl = true → s.prog i = none → (∀ j, j.val < i.val → s.prog j ≠ none) →
      exec (.openProgramme p tag f ss rl) s = .next (answered s p tag 0x01
        ⟨if rl.all (fun r => decide (64 ≤ r.bitrate.toNat ∧ r.bitrate.toNat ≤ 20000)) then .ok else .clamped,
          .opened ⟨i, s.gen i + 1⟩ (clampedFrom 0 rl)⟩
        { s with slots := s.slots.set i ⟨s.gen i + 1, some (Programme.atOpen p f ss rl)⟩ })) ∧
  (∀ (s : State) (p : Port) (tag f : BitVec 16) (ss : Byte) (rl : List RawRendition), s.takesNow p = true →
      (openForm f ss rl = false →
        exec (.openProgramme p tag f ss rl) s = .next (answered s p tag 0x01 ⟨.malformed, .empty⟩ s)) ∧
      (openForm f ss rl = true → (∀ i, s.prog i ≠ none) →
        exec (.openProgramme p tag f ss rl) s = .next (answered s p tag 0x01 ⟨.noSlot, .empty⟩ s))) ∧
  (∀ (f : BitVec 16) (ss : Byte) (rl : List RawRendition), openForm f ss rl = true ↔
      (f.toNat = 3600 ∨ f.toNat = 3000 ∨ f.toNat = 1800 ∨ f.toNat = 1500) ∧ streamBit ss .cam = true ∧
      (∀ n, 3 ≤ n → ss.getLsbD n = false) ∧ 1 ≤ rl.length ∧ rl.length ≤ 5 ∧
      (∀ r ∈ rl, ∃ st : Stream, r.stream = st.code ∧ streamBit ss st = true) ∧
      1 ≤ (rl.filter (fun r => decide (r.stream = 1))).length ∧ (rl.filter (fun r => decide (r.stream = 1))).length ≤ 3 ∧
      (rl.filter (fun r => decide (r.stream = 2))).length ≤ 1 ∧ (rl.filter (fun r => decide (r.stream = 3))).length ≤ 1) ∧
  (∀ (rl : List RawRendition) (n : Nat), n ∈ clampedFrom 0 rl ↔
      ∃ r, rl[n]? = some r ∧ (r.bitrate.toNat < 64 ∨ 20000 < r.bitrate.toNat)) ∧
  (∀ (p : Port) (f : BitVec 16) (ss : Byte) (rl : List RawRendition), openForm f ss rl = true →
      let pr := Programme.atOpen p f ss rl
      pr.InRange ∧ pr.state = .opened ∧ pr.frame = f.toNat ∧ pr.revision = 1 ∧ pr.cutRevision = 1 ∧ pr.pendingCut = none ∧
      pr.pendingPiece = none ∧ pr.revisions = [] ∧ pr.error = none ∧ (∀ q, pr.watch.get q = decide (q = p)) ∧
      (∀ q, pr.latches.get q = 0) ∧ pr.renditions.length = rl.length ∧
      (∀ (n : Nat) (r : RawRendition), rl[n]? = some r → (pr.renditions[n]?).map Stream.code = some r.stream ∧
        pr.active.bitrates[n]? = some (max 64 (min 20000 r.bitrate.toNat))) ∧
      (∀ st, (pr.stream st).isSome = streamBit ss st) ∧
      (∀ st r, pr.stream st = some r → r.lane = none ∧ r.ended = false ∧ r.nextSeq = 0 ∧ r.lastHeaderDuration = none ∧
        r.piece = none ∧ r.position = none ∧ r.uPrev = none ∧ r.durPrev = none ∧ r.anchor = 0 ∧ r.started = none ∧
        r.forceKeyMark = none ∧
        (st ∈ pr.renditions → r.assembly = some ⟨none, .waitingOpen⟩) ∧ (st ∉ pr.renditions → r.assembly = none)) ∧
      pr.active.segLength = 150 ∧ pr.active.snapWindow = 25 ∧ pr.active.minLength = 50 ∧ pr.active.dwell = 75 ∧
      pr.active.policy = .defer ∧ (∀ st, pr.active.rates.get st = 0) ∧ pr.active.jump = 50 ∧ pr.active.gap = 0 ∧
      pr.active.rounding = .nearest ∧ pr.active.repTimeRange = false ∧ pr.active.repTimestampMissing = false ∧
      pr.active.repDiscontinuity = false ∧ pr.active.repPieceLimit = false ∧ pr.active.itemLimit = 250 ∧
      pr.active.heldLimit = 64 ∧ pr.pieces = [⟨0, 0, none, 0, ⟨⟨0, 0, 0⟩, 50, 0, .nearest⟩⟩] ∧
      pr.stats = ⟨⟨0, 0, 0⟩, 0, 0, 0, 0, 0, 0, 0, 0, 0, 0, 0⟩ ∧
      pr.cutter.chapters = [] ∧ pr.cutter.cuts = [⟨0, false⟩] ∧ pr.cutter.lastCut = 0 ∧ pr.cutter.counter = 0 ∧
      pr.cutter.horizon = (if streamBit ss .slide then .negInf else .posInf) ∧ pr.cutter.forced = none ∧
      pr.cutter.confirmed = none ∧ pr.cutter.candidate = none ∧ pr.cutter.reach = 0 ∧ pr.cutter.deferred = false ∧
      pr.cutter.previous = none ∧ pr.cutter.progEnd = none)

/-- The generation of a slot advances by one at each Open that fills it and wraps from 255 to 0; the handle answered carries it;
Retire and Abort leave every generation; after reset every slot holds 0, so a first Open answers generation 1 (R3). -/
def Obligations.GenerationRule : Prop :=
  (∀ (s t : State) (p : Port) (tag f : BitVec 16) (ss : Byte) (rl : List RawRendition) (i : SlotId), s.takesNow p = true →
    openForm f ss rl = true → s.prog i = none → (∀ j, j.val < i.val → s.prog j ≠ none) →
    exec (.openProgramme p tag f ss rl) s = .next t →
      (t.gen i).toNat = ((s.gen i).toNat + 1) % 256 ∧ (∀ j, j ≠ i → t.gen j = s.gen j) ∧
      ∃ code clamped, (t.port p).responses = (s.port p).responses ++ [⟨0x01, tag, ⟨code, .opened ⟨i, t.gen i⟩ clamped⟩⟩]) ∧
  (∀ (s t : State) (p : Port) (tag : BitVec 16) (h : RawHandle),
    exec (.retireProgramme p tag h) s = .next t ∨ exec (.abortProgramme p tag h) s = .next t → ∀ i, t.gen i = s.gen i) ∧
  (∀ i, State.reset.gen i = 0) ∧
  (∀ (t : State) (p : Port) (tag f : BitVec 16) (ss : Byte) (rl : List RawRendition), openForm f ss rl = true →
    exec (.openProgramme p tag f ss rl) State.reset = .next t →
    ∃ code clamped, (t.port p).responses = [⟨0x01, tag, ⟨code, .opened ⟨0, 1⟩ clamped⟩⟩])

/-- An accepted Start Ingest: OK, the programme INGESTING with piece 0 given the piece-bound values active now; it goes onward,
and so does every other. With the throttle off, each lane of the programme that is ATTACHED and has a full slot is RUNNING, and
every other lane keeps its record. With room in the Segment Table and nothing waiting for it, segment 0 of every rendition opens
within the step, with start 0, no bytes and the programme's cut revision, and its stream is ASSEMBLING. In any other state than
OPEN it is refused BAD_STATE, and changes no state but the response queue. -/
def Obligations.StartTaken : Prop :=
  (∀ (s : State) (p : Port) (tag : BitVec 16) (h : RawHandle) (i : SlotId) (pr : Programme), s.takesNow p = true →
      Names s h i pr → pr.watch.get p = true → pr.state = .opened →
      ∃ t pr', exec (.startIngest p tag h) s = .next t ∧ Carried s t p ⟨0x02, tag, ⟨.ok, .empty⟩⟩ ∧ t.prog i = some pr' ∧
        pr'.state = .ingesting ∧ pr.Onward pr' ∧
        pr'.pieces = pr.pieces.modify 0 (fun x => { x with values := pr.active.pieceValues }) ∧ OthersOnward s t i ∧
        (s.throttle = false → LanesRun s t i)) ∧
  (∀ (s : State) (p : Port) (tag : BitVec 16) (h : RawHandle) (i : SlotId) (pr : Programme), s.takesNow p = true →
      Names s h i pr → pr.watch.get p = true → pr.state = .opened → s.throttle = false → s.tableQueue = [] →
      (∀ e ∈ s.entries, e.inSlot i = false) → s.segments.length + pr.renditions.length ≤ 2048 →
      pr.cutter.cuts = [⟨0, false⟩] →
      (∀ st ∈ pr.renditions, ∃ r, pr.stream st = some r ∧ r.assembly = some ⟨none, .waitingOpen⟩) →
      ∃ t, exec (.startIngest p tag h) s = .next t ∧
        ∀ n st, pr.renditions[n]? = some st → t.assembly i st = some ⟨some 0, .assembling⟩ ∧
          ∃ g ∈ t.segments, g.isAt i n 0 = true ∧ g.start = 0 ∧ g.status = .opened ∧ g.parts = [] ∧
            g.revision = some pr.cutRevision) ∧
  (∀ (s : State) (p : Port) (tag : BitVec 16) (h : RawHandle) (i : SlotId) (pr : Programme), s.takesNow p = true →
      Names s h i pr → pr.watch.get p = true → pr.state ≠ .opened →
      exec (.startIngest p tag h) s = .next (answered s p tag 0x02 ⟨.badState, .empty⟩ s))

/-- Resume Ingest moves a HALTED programme to INGESTING with OK and is refused BAD_STATE in any other state; a lane of the
programme that is ATTACHED and has a full slot is RUNNING after it, and every other lane keeps its record; errors and latches
stay as they are (R8). -/
def Obligations.ResumeIngestRule : Prop :=
  ∀ (s : State) (p : Port) (tag : BitVec 16) (h : RawHandle) (i : SlotId) (pr : Programme), s.takesNow p = true →
    Names s h i pr → pr.watch.get p = true →
    (pr.state = .halted → exec (.resumeIngest p tag h) s = .next (answered s p tag 0x03 ⟨.ok, .empty⟩
      (runLanes i (s.setProg i { pr with state := .ingesting }))) ∧
      LanesRun s (answered s p tag 0x03 ⟨.ok, .empty⟩ (runLanes i (s.setProg i { pr with state := .ingesting }))) i) ∧
    (pr.state ≠ .halted →
      exec (.resumeIngest p tag h) s = .next (answered s p tag 0x03 ⟨.badState, .empty⟩ s))

/-- An accepted Close Ingest: OK, the programme in DRAINING or already COMPLETE, every stream ended, H unbounded, the programme
end at the least multiple of F at or above the reach, the STATE latch of every watching port set, and no lane of the
programme left; the others go onward. Where the programme has no entry left and every stream with renditions assembles the final
segment, the drain ends in the step (throttle off): the programme is COMPLETE, every stream FINISHED, and each open segment of
the final index is CLOSED with the programme end, the watch set as its pending set, and its flags: CHAPTER_START, with its first
chapter, where it opened with it or its cut record carries the mark, GAP and KEY_LATE as they were, EMPTY and SHORT. In OPEN, DRAINING and COMPLETE
it is refused BAD_STATE, and changes no state but the response queue. -/
def Obligations.CloseTaken : Prop :=
  (∀ (s : State) (p : Port) (tag : BitVec 16) (h : RawHandle) (i : SlotId) (pr : Programme), s.takesNow p = true →
    Names s h i pr → pr.watch.get p = true → (pr.state = .ingesting ∨ pr.state = .halted) →
    ∃ t pr', exec (.closeIngest p tag h) s = .next t ∧ Carried s t p ⟨0x04, tag, ⟨.ok, .empty⟩⟩ ∧ t.prog i = some pr' ∧
      (pr'.state = .draining ∨ pr'.state = .complete) ∧ pr.Onward pr' ∧
      (∀ st r', pr'.stream st = some r' → r'.ended = true) ∧ (∀ x, pr'.cutter.horizon.reaches x = true) ∧
      pr'.cutter.progEnd = some (ceilDiv pr.cutter.reach pr.frame * pr.frame) ∧
      (∀ q, pr.watch.get q = true → pr'.holds q .state) ∧ (∀ l, (t.lane l).serves i = false) ∧ OthersOnward s t i) ∧
  (∀ (s : State) (p : Port) (tag : BitVec 16) (h : RawHandle) (i : SlotId) (pr : Programme), s.takesNow p = true →
    Names s h i pr → pr.watch.get p = true → (pr.state = .ingesting ∨ pr.state = .halted) → s.throttle = false →
    (∀ e ∈ s.entries, e.inSlot i = false) →
    let e := ceilDiv pr.cutter.reach pr.frame * pr.frame
    let k := pr.endStreams.endProgramme.cutter.counter
    (∀ st r, pr.stream st = some r → (pr.renditionsOf st = [] ∧ r.assembly = none) ∨
      (pr.renditionsOf st ≠ [] ∧ r.assembly = some ⟨some k, .assembling⟩)) →
    ∃ t pr', exec (.closeIngest p tag h) s = .next t ∧ t.prog i = some pr' ∧ pr'.state = .complete ∧
      pr'.cutter.counter = k ∧
      (∀ st, pr.renditionsOf st ≠ [] → (pr.stream st).isSome = true → t.assembly i st = some ⟨some k, .finished⟩) ∧
      ∀ st rn, (pr.stream st).isSome = true → rn ∈ pr.renditionsOf st → ∀ g ∈ s.segments, g.isAt i rn k = true →
        g.status = .opened → ∃ g' ∈ t.segments, g'.isAt i rn k = true ∧ g'.start = g.start ∧ g'.parts = g.parts ∧
          g'.status = .closed e pr.watch (!(pr.watch.p0 || pr.watch.p1 || pr.watch.p2)) ∧
          g'.flags = ⟨g.flags.chapterStart || (pr'.cutter.cutRecord k).chapterStart, g.flags.gap, g.flags.keyLate,
            decide (g.joined = 0), decide (e - g.start < pr'.active.minLength * pr.frame)⟩ ∧
          (g'.flags.chapterStart = true → g'.firstChapter = pr'.cutter.firstChapterAt g.start) ∧
          ∀ q, pr.watch.get q = true → pr'.holds q .segment) ∧
  (∀ (s : State) (p : Port) (tag : BitVec 16) (h : RawHandle) (i : SlotId) (pr : Programme), s.takesNow p = true →
    Names s h i pr → pr.watch.get p = true → (pr.state = .opened ∨ pr.state = .draining ∨ pr.state = .complete) →
    exec (.closeIngest p tag h) s = .next (answered s p tag 0x04 ⟨.badState, .empty⟩ s))

/-- Retire Programme frees the slot of a COMPLETE programme without segments, keeping its generation, and is refused BAD_STATE
otherwise. -/
def Obligations.RetireTaken : Prop :=
  ∀ (s : State) (p : Port) (tag : BitVec 16) (h : RawHandle) (i : SlotId) (pr : Programme), s.takesNow p = true →
    Names s h i pr → pr.watch.get p = true →
    (pr.state = .complete → (∀ g ∈ s.segments, g.inSlot i = false) →
      exec (.retireProgramme p tag h) s = .next (answered s p tag 0x06 ⟨.ok, .empty⟩
        { s with slots := s.slots.set i ⟨s.gen i, none⟩ })) ∧
    ((pr.state ≠ .complete ∨ ∃ g ∈ s.segments, g.inSlot i = true) →
      exec (.retireProgramme p tag h) s = .next (answered s p tag 0x06 ⟨.badState, .empty⟩ s))

/-- An accepted Abort Programme, in every state: OK, the slot FREE with its generation, and nothing of the programme left in
lanes, entries, pipes, segments or the table queue; the others go onward. -/
def Obligations.AbortTaken : Prop :=
  ∀ (s : State) (p : Port) (tag : BitVec 16) (h : RawHandle) (i : SlotId) (pr : Programme), s.takesNow p = true →
    Names s h i pr → pr.watch.get p = true →
    ∃ t, exec (.abortProgramme p tag h) s = .next t ∧ Carried s t p ⟨0x05, tag, ⟨.ok, .empty⟩⟩ ∧ t.prog i = none ∧
      (∀ l, (t.lane l).serves i = false) ∧ (∀ e ∈ t.entries, e.inSlot i = false) ∧
      (∀ k, (t.pipe k).itemSlot ≠ some i) ∧ (∀ g ∈ t.segments, g.inSlot i = false) ∧
      (∀ st, (i, st) ∉ t.tableQueue) ∧ OthersOnward s t i

/-! ### Handles -/

/-- A command that carries a handle is refused before anything else: MALFORMED for a slot above 31 or an operand out of its
form, NOT_FOUND for a FREE slot or another generation, and then, but for Watch Programme, Programme Status and the delivery
commands, NOT_WATCHING for a port outside the watch set; a refusal changes no state but the response queue. -/
def Obligations.HandleChecks : Prop :=
  ∀ (s : State) (p : Port) (tag : BitVec 16) (h : RawHandle) (renew stream rend kinds flag : Byte) (fields : List RawField)
    (rev time idx off len : BitVec 32) (start : BitVec 16), s.takesNow p = true →
    let staged := (parseFields fields).isSome ∧ fields.length ≤ 22 ∧ (renew = 0 ∨ renew = 1)
    let kindSet := kinds.getLsbD 7 = false ∧ (flag = 0 ∨ flag = 1)
    let watching : List (Instr × BitVec 16 × Prop) :=
      [(.startIngest p tag h, 0x02, True), (.resumeIngest p tag h, 0x03, True), (.closeIngest p tag h, 0x04, True),
        (.abortProgramme p tag h, 0x05, True), (.retireProgramme p tag h, 0x06, True), (.leaveProgramme p tag h, 0x11, True),
        (.readError p tag h, 0x61, True), (.clearError p tag h, 0x62, True),
        (.stageSettings p tag h renew fields, 0x20, staged), (.commitSettings p tag h rev, 0x22, True),
        (.attachLane p tag h stream, 0x30, ∃ st : Stream, stream = st.code), (.insertChapter p tag h time, 0x40, True),
        (.readChapters p tag h start, 0x41, start.toNat ≤ 127), (.clearAttention p tag (some h) kinds flag, 0x71, kindSet)]
    let others : List (Instr × BitVec 16 × Prop) :=
      [(.watchProgramme p tag h, 0x10, True), (.programmeStatus p tag h, 0x60, True),
        (.listSegments p tag h rend idx, 0x50, rend.toNat ≤ 4),
        (.fetchSegment p tag h rend idx off len, 0x51, rend.toNat ≤ 4 ∧ len.toNat ≤ 65536),
        (.releaseSegment p tag h rend idx, 0x52, rend.toNat ≤ 4)]
    (∀ c code form, (c, code, form) ∈ watching ++ others →
      ((32 ≤ h.slot.toNat ∨ ¬form) → exec c s = .next (answered s p tag code ⟨.malformed, .empty⟩ s)) ∧
      (form → ∀ i : SlotId, h.slot.toNat = i.val → (s.prog i = none ∨ s.gen i ≠ h.gen) →
        exec c s = .next (answered s p tag code ⟨.notFound, .empty⟩ s))) ∧
    (∀ c code form, (c, code, form) ∈ watching → form → ∀ i pr, Names s h i pr → pr.watch.get p = false →
      exec c s = .next (answered s p tag code ⟨.notWatching, .empty⟩ s))

/-! ### Watching and delivery -/

/-- Watch Programme answers OK with the programme's state; a joining port starts with its latches clear, a member is left as it
is, and nothing else changes. -/
def Obligations.WatchTaken : Prop :=
  ∀ (s : State) (p : Port) (tag : BitVec 16) (h : RawHandle) (i : SlotId) (pr : Programme), s.takesNow p = true →
    Names s h i pr →
    exec (.watchProgramme p tag h) s = .next (answered s p tag 0x10 ⟨.ok, .watched pr.state⟩
      (s.setProg i (if pr.watch.get p = true then pr
        else { pr with watch := pr.watch.set p true, latches := pr.latches.set p 0 })))

/-- An accepted Leave Programme: OK with the counts of section 8.5; the port out of the watch set with its latches clear and in
no pending set of the programme's segments; the others go onward. (That the first count includes the segments freed is the
model's reading, log 28.) -/
def Obligations.LeaveTaken : Prop :=
  ∀ (s : State) (p : Port) (tag : BitVec 16) (h : RawHandle) (i : SlotId) (pr : Programme), s.takesNow p = true →
    Names s h i pr → pr.watch.get p = true →
    ∃ t pr', exec (.leaveProgramme p tag h) s = .next t ∧
      Carried s t p ⟨0x11, tag, ⟨.ok, .left (s.segments.filter (fun g => g.inSlot i && g.owes p)).length
        (s.segments.filter (fun g => g.inSlot i && g.owedByAlone p)).length⟩⟩ ∧
      t.prog i = some pr' ∧ pr'.watch.get p = false ∧ pr'.latches.get p = 0 ∧ pr.Onward pr' ∧
      (∀ g ∈ t.segments, g.inSlot i = true → g.owes p = false) ∧ OthersOnward s t i

/-- An accepted List Segments answers the first eight CLOSED segments of the rendition from the index on, each once and in
increasing order, whether more follow, and the stream's current index and phase; it changes nothing. Each is answered with the
segment's index, start, end, counts, revision, flags, first chapter, pending set and mark. (The indices rise strictly
where the Segment Table has one segment to an index of a rendition, which `StepKeepsMarksCutsAndStore` keeps.) The data that the
response area shows of it are the 8 bytes of the listing head and the 40 bytes of each segment record, as section 11.5 lays them
out. -/
def Obligations.ListTaken : Prop :=
  (∀ (s : State) (p : Port) (tag : BitVec 16) (h : RawHandle) (rend : Byte) (idx : BitVec 32) (i : SlotId) (pr : Programme)
    (st : Stream) (a : AssemblyRecord), s.takesNow p = true → Names s h i pr → rend.toNat ≤ 4 →
    pr.renditions[rend.toNat]? = some st → s.assembly i st = some a →
    ∃ all : List SegmentView,
      exec (.listSegments p tag h rend idx) s = .next (answered s p tag 0x50 ⟨.ok, .listing ⟨all.take 8,
        decide (8 < all.length), a.current, a.phase⟩⟩ s) ∧
      all.Pairwise (fun v w => v.index ≤ w.index) ∧
      all.Perm ((s.segments.filter (fun g => g.inSlot i && decide (g.rendition = rend.toNat) &&
        decide (idx.toNat ≤ g.index))).filterMap Segment.view) ∧
      (s.segments.Pairwise (fun g x => g.isAt x.handle.slot x.rendition x.index = false) →
        all.Pairwise (fun v w => v.index < w.index)) ∧
      ∀ v, v ∈ all ↔ ∃ g ∈ s.segments, g.inSlot i = true ∧ g.rendition = rend.toNat ∧ idx.toNat ≤ g.index ∧
        g.view = some v) ∧
  (∀ (g : Segment) (v : SegmentView), g.view = some v ↔ ∃ e pend u, g.status = .closed e pend u ∧
    v = ⟨g.index, g.start, e, (g.parts.map Extent.count).sum, (g.parts.map (fun x => x.granules.length)).sum, g.revision, g.flags,
      if g.flags.chapterStart = true then g.firstChapter else none, pend, u⟩) ∧
  (let le : Nat → Nat → List Byte := fun w n => (List.range w).map (fun k => BitVec.ofNat 8 (n / 256 ^ k))
   (∀ v : SegmentView, v.bytes.length = 40 ∧ v.bytes = le 4 v.index ++ le 4 v.byteCount ++ le 8 v.start ++ le 8 v.endTime ++
      le 4 v.granuleCount ++ le 4 (v.revision.getD 4294967295) ++
      [BitVec.ofNat 8 (v.flags.chapterStart.toNat + 2 * v.flags.gap.toNat + 4 * v.flags.keyLate.toNat +
          8 * v.flags.empty.toNat + 16 * v.flags.short.toNat),
        BitVec.ofNat 8 (v.pending.p0.toNat + 2 * v.pending.p1.toNat + 4 * v.pending.p2.toNat + 128 * v.unclaimed.toNat)] ++
      le 2 (v.firstChapter.getD 65535) ++ [0, 0, 0, 0]) ∧
   (∀ v : ListingView, (RespData.listing v).bytes 0x50 =
      [BitVec.ofNat 8 v.records.length, BitVec.ofNat 8 v.more.toNat,
        (match v.phase with | .waitingOpen => 0 | .assembling => 1 | .finished => 2), 0] ++
      le 4 (v.current.getD 4294967295) ++ v.records.flatMap SegmentView.bytes ∧
      ((RespData.listing v).bytes 0x50).length = 8 + 40 * v.records.length))

/-- Fetch Segment. Of a segment in the store it copies the bytes from the offset on into the port's fetch window, no more than
the length and no further than the segment's end, and answers the count, the segment's byte count and whether its end was
reached; the rest of the window becomes 0, and only the window and the response queue change. A rendition that the programme
does not have is refused MALFORMED, by List and Release Segment too. Fetch and Release refuse NOT_FOUND an index that never
existed, NOT_READY the current one while its stream is ASSEMBLING, and GONE one that the Segment Table no longer holds. -/
def Obligations.FetchTaken : Prop :=
  (∀ (s : State) (p : Port) (tag : BitVec 16) (h : RawHandle) (rend : Byte) (idx off len : BitVec 32) (i : SlotId)
    (pr : Programme) (st : Stream) (a : AssemblyRecord) (g : Segment), s.takesNow p = true → Names s h i pr →
    rend.toNat ≤ 4 → len.toNat ≤ 65536 → pr.renditions[rend.toNat]? = some st → s.assembly i st = some a →
    classify i rend.toNat a idx.toNat s = .present g →
    let n := min len.toNat (g.byteCount - off.toNat)
    ∃ m, exec (.fetchSegment p tag h rend idx off len) s = .next (answered s p tag 0x51
        ⟨.ok, .fetched n g.byteCount (decide (g.byteCount ≤ off.toNat + n))⟩
        (s.setPort p { s.port p with window := m })) ∧
      (∀ j, j < n → Mem.read m j = readParts s.outputStore g.parts (off.toNat + j)) ∧ (∀ j, n ≤ j → Mem.read m j = 0)) ∧
  (∀ (s : State) (p : Port) (tag : BitVec 16) (h : RawHandle) (rend : Byte) (idx off len : BitVec 32) (i : SlotId)
    (pr : Programme), s.takesNow p = true → Names s h i pr → rend.toNat ≤ 4 → len.toNat ≤ 65536 →
    (pr.renditions[rend.toNat]? = none →
      exec (.listSegments p tag h rend idx) s = .next (answered s p tag 0x50 ⟨.malformed, .empty⟩ s) ∧
      exec (.fetchSegment p tag h rend idx off len) s = .next (answered s p tag 0x51 ⟨.malformed, .empty⟩ s) ∧
      exec (.releaseSegment p tag h rend idx) s = .next (answered s p tag 0x52 ⟨.malformed, .empty⟩ s)) ∧
    (∀ (st : Stream) (a : AssemblyRecord) (code : OutcomeCode), pr.renditions[rend.toNat]? = some st →
      s.assembly i st = some a →
      ((code = .notFound ∧ ∀ cur, a.current = some cur → cur < idx.toNat) ∨
        (code = .notReady ∧ a.current = some idx.toNat ∧ a.phase = .assembling) ∨
        (code = .gone ∧ (∃ cur, a.current = some cur ∧ (idx.toNat < cur ∨ (idx.toNat = cur ∧ a.phase ≠ .assembling))) ∧
          ∀ g ∈ s.segments, g.isAt i rend.toNat idx.toNat = false)) →
      exec (.fetchSegment p tag h rend idx off len) s = .next (answered s p tag 0x51 ⟨code, .empty⟩ s) ∧
      exec (.releaseSegment p tag h rend idx) s = .next (answered s p tag 0x52 ⟨code, .empty⟩ s))) ∧
  (∀ (s : State) (i : SlotId) (rend idx : Nat) (a : AssemblyRecord) (g : Segment),
    classify i rend a idx s = .present g ↔
      (∃ cur, a.current = some cur ∧ (idx < cur ∨ (idx = cur ∧ a.phase ≠ .assembling))) ∧
      s.segments.find? (fun x => x.isAt i rend idx) = some g)

/-- Release Segment. Of a segment whose pending set keeps other ports, it takes the sending port out of it and frees nothing;
of one that does not wait for the port, it changes nothing; by the last port of a pending set, or of an UNCLAIMED segment, it
frees the segment, and the programmes go onward. -/
def Obligations.ReleaseTaken : Prop :=
  (∀ (s : State) (p : Port) (tag : BitVec 16) (h : RawHandle) (rend : Byte) (idx : BitVec 32) (i : SlotId)
      (pr : Programme) (st : Stream) (a : AssemblyRecord) (g : Segment) (e : Nat) (pend : PortSet), s.takesNow p = true →
      Names s h i pr → rend.toNat ≤ 4 → pr.renditions[rend.toNat]? = some st → s.assembly i st = some a →
      classify i rend.toNat a idx.toNat s = .present g → g.status = .closed e pend false →
      (pend.get p = true → (∃ q, q ≠ p ∧ pend.get q = true) →
        exec (.releaseSegment p tag h rend idx) s = .next (answered s p tag 0x52
          ⟨.ok, .released true (some (pend.set p false)) false⟩
          (s.setSegments (s.segments.map (fun x => if x.isAt i rend.toNat idx.toNat = true then
            x.release p else x))))) ∧
      (pend.get p = false →
        exec (.releaseSegment p tag h rend idx) s = .next (answered s p tag 0x52
          ⟨.ok, .released false (some pend) false⟩ s))) ∧
  (∀ (s : State) (p : Port) (tag : BitVec 16) (h : RawHandle) (rend : Byte) (idx : BitVec 32) (i : SlotId)
      (pr : Programme) (st : Stream) (a : AssemblyRecord) (g : Segment) (e : Nat) (pend : PortSet) (u : Bool),
      s.takesNow p = true → Names s h i pr → rend.toNat ≤ 4 → pr.renditions[rend.toNat]? = some st →
      s.assembly i st = some a → classify i rend.toNat a idx.toNat s = .present g → g.status = .closed e pend u →
      (u = true ∨ (pend.get p = true ∧ ∀ q, q ≠ p → pend.get q = false)) →
      ∃ t, exec (.releaseSegment p tag h rend idx) s = .next t ∧
        Carried s t p ⟨0x52, tag, ⟨.ok, .released (!u) none true⟩⟩ ∧
        (∀ x ∈ t.segments, x.isAt i rend.toNat idx.toNat = false) ∧
        (∀ j x, s.prog j = some x → ∃ y, t.prog j = some y ∧ x.Onward y))

/-! ### Settings -/

/-- An accepted Stage Settings merges the values into the port's staging record (made new when it was empty, named another
programme or was renewed, and then answered as emptied) and changes nothing else. It answers the target and base revision, the
programme's two revisions, its active settings and its two pending sets, and the fields it names as clamped: those staged with
another value than the one given, and a W or M not given whose staged value changed; CLAMPED where it names one, OK otherwise.
The active settings have a rate correction for each stream of the set alone. A value for a rendition or stream that the
programme does not have is refused MALFORMED. (That the values of one command are merged one after another, log 15, and that a
record empty before is answered as emptied too, log 16, is the model's reading.) -/
def Obligations.StageTaken : Prop :=
  (∀ (s : State) (p : Port) (tag : BitVec 16) (h : RawHandle) (renew : Byte) (fields : List RawField) (i : SlotId)
    (pr : Programme) (xs : List (Field × Int)), s.takesNow p = true → Names s h i pr → pr.watch.get p = true →
    (renew = 0 ∨ renew = 1) → fields.length ≤ 22 → parseFields fields = some xs → (∀ x ∈ xs, pr.hasField x.1 = true) →
    ∃ (v : StageView) (r : StagingRecord),
      r.target = ⟨i, s.gen i⟩ ∧
      (∀ old, (s.port p).staging = some old → old.target = ⟨i, s.gen i⟩ → renew = 0 →
        r.base = old.base ∧ r.fields = mergeAll pr.active.segLength old.fields xs ∧ v.emptied = false ∧
        v.clamped = clampedFields old.fields r.fields xs) ∧
      (((s.port p).staging = none ∨ renew = 1 ∨ ∃ old, (s.port p).staging = some old ∧ old.target ≠ ⟨i, s.gen i⟩) →
        r.base = pr.revision ∧ r.fields = mergeAll pr.active.segLength [] xs ∧ v.emptied = true ∧
        v.clamped = clampedFields [] r.fields xs) ∧
      v.target = r.target ∧ v.base = r.base ∧ v.revision = pr.revision ∧ v.cutRevision = pr.cutRevision ∧
      v.active = pr.active ∧ (∀ st, v.rated.get st = (pr.stream st).isSome) ∧
      v.pendingCut = pr.pendingCut.map PendingCut.fields ∧ v.pendingPiece = pr.pendingPiece ∧
      exec (.stageSettings p tag h renew fields) s = .next (answered s p tag 0x20
        ⟨if v.clamped = [] then .ok else .clamped, .staged v⟩ (s.setPort p { s.port p with staging := some r }))) ∧
  (∀ (before after : FieldSet) (xs : List (Field × Int)) (f : Field), f ∈ clampedFields before after xs ↔
      ∃ v, (f, v) ∈ after ∧ ((∃ g, givenValue xs f = some g ∧ v ≠ g) ∨
        (givenValue xs f = none ∧ (f = .snapWindow ∨ f = .minLength) ∧ before.get f ≠ some v))) ∧
  (∀ (s : State) (p : Port) (tag : BitVec 16) (h : RawHandle) (renew : Byte) (fields : List RawField) (i : SlotId)
    (pr : Programme) (xs : List (Field × Int)), s.takesNow p = true → Names s h i pr → pr.watch.get p = true →
    (renew = 0 ∨ renew = 1) → fields.length ≤ 22 → parseFields fields = some xs → (∃ x ∈ xs, pr.hasField x.1 = false) →
    exec (.stageSettings p tag h renew fields) s = .next (answered s p tag 0x20 ⟨.malformed, .empty⟩ s))

/-- Staging one value. Into whatever record, a value within its field's range is staged as it is given, one below becomes the
lowest value of the range and one above the highest; for W and M the range is that of the D in the record, or else of the active
D. Every other field of the record keeps its value, but that a D staged brings the W and M held into the ranges it gives them.
The values of a command are staged one after another, in its order (the model's reading, log 15); and a record whose values lie
in range keeps them in range, whatever is merged. -/
def Obligations.StagedValuesInRange : Prop :=
  (∀ n : Nat, Field.range n .segLength = (50, 600) ∧ Field.range n .snapWindow = (0, ((n / 4 : Nat) : Int)) ∧
    Field.range n .minLength = (25, (n : Int)) ∧ Field.range n .dwell = (25, 750) ∧ (∀ r, Field.range n (.bitrate r) = (64, 20000)) ∧
    (∀ st, Field.range n (.rate st) = (-500, 500)) ∧ Field.range n .jump = (1, 250) ∧ Field.range n .gap = (0, 125) ∧
    Field.range n .itemLimit = (20, 2000) ∧ Field.range n .heldLimit = (16, 128) ∧
    ∀ f : Field, f.coded = true → Field.range n f = (0, 1)) ∧
  (∀ (d : Nat) (fs : FieldSet) (f : Field) (v : Int),
    let n := ((FieldSet.get fs .segLength).map Int.toNat).getD d
    let out := mergeField d fs (f, v)
    50 ≤ n →
      ((f.range n).1 ≤ v → v ≤ (f.range n).2 → FieldSet.get out f = some v) ∧
      (v < (f.range n).1 → FieldSet.get out f = some (f.range n).1) ∧
      ((f.range n).2 < v → FieldSet.get out f = some (f.range n).2) ∧
      (∀ g, g ≠ f → f ≠ .segLength → FieldSet.get out g = FieldSet.get fs g) ∧
      (f = .segLength → ∃ k : Nat, FieldSet.get out .segLength = some (k : Int) ∧
        FieldSet.get out .snapWindow = (FieldSet.get fs .snapWindow).map (fun w => max 0 (min ((k / 4 : Nat) : Int) w)) ∧
        FieldSet.get out .minLength = (FieldSet.get fs .minLength).map (fun m => max 25 (min (k : Int) m)) ∧
        ∀ g, g ≠ .segLength → g ≠ .snapWindow → g ≠ .minLength → FieldSet.get out g = FieldSet.get fs g)) ∧
  (∀ (d : Nat) (fs : FieldSet) (x : Field × Int) (xs : List (Field × Int)),
    mergeAll d fs [] = fs ∧ mergeAll d fs (x :: xs) = mergeAll d (mergeField d fs x) xs) ∧
  (∀ (d : Nat) (fs : FieldSet) (xs : List (Field × Int)), 50 ≤ d → d ≤ 600 →
    (∀ f v, FieldSet.get fs f = some v → (f.range (stagedLength d fs)).1 ≤ v ∧ v ≤ (f.range (stagedLength d fs)).2) →
    ∀ f v, FieldSet.get (mergeAll d fs xs) f = some v →
      (f.range (stagedLength d (mergeAll d fs xs))).1 ≤ v ∧ v ≤ (f.range (stagedLength d (mergeAll d fs xs))).2)

/-- Commit Settings. Accepted, with no held limit staged or with one above the HELD count: the revision advances by one, the
values take effect by group (all at once in OPEN), the staging record empties, and nothing else changes; the response carries
the revision, the active settings (a rate correction for each stream of the set alone), the two pending sets and the fields
clamped, CLAMPED where W or M was added. With a held
limit at or below the HELD count, the limit becomes that count, named as clamped where it was raised, and the programme's
horizon is forced. A commit is refused BAD_STATE in COMPLETE or at the last revision, then MALFORMED without a staging record
for that handle, then STALE when it quotes another revision, then PENDING when it brings cut-bound values while a cut-bound
set is pending; a refusal changes no state but the response queue. -/
def Obligations.CommitTaken : Prop :=
  (∀ (s : State) (p : Port) (tag : BitVec 16) (h : RawHandle) (rev : BitVec 32) (i : SlotId) (pr : Programme)
      (r : StagingRecord), s.takesNow p = true → Names s h i pr → pr.watch.get p = true → pr.state ≠ .complete →
      pr.revision ≠ 4294967295 → (s.port p).staging = some r → r.target = ⟨i, s.gen i⟩ → rev.toNat = r.base →
      rev.toNat = pr.revision → (FieldSet.ofGroup r.fields .cutBound = [] ∨ pr.pendingCut = none) →
      (FieldSet.get r.fields .heldLimit = none ∨ ((idlePipe s = none ∨ chooseEntry s = none) ∧
        ∃ x, FieldSet.get r.fields .heldLimit = some x ∧ s.heldCount i < x.toNat)) →
      ∃ (v : CommitView) (pr' : Programme),
        pr' = (if pr.state = .opened then pr.commitOpen r.fields (s.heldCount i) else pr.commit r.fields (s.heldCount i)) ∧
        pr'.revision = pr.revision + 1 ∧ v.revision = pr.revision + 1 ∧ v.active = pr'.active ∧
        (∀ st, v.rated.get st = (pr.stream st).isSome) ∧
        v.pendingPiece = pr'.pendingPiece ∧ v.pendingCut = pr'.pendingCut.map PendingCut.fields ∧
        v.clamped = (if FieldSet.ofGroup r.fields .cutBound = [] then []
          else completedFields pr.active (FieldSet.ofGroup r.fields .cutBound)) ∧
        exec (.commitSettings p tag h rev) s = .next (answered s p tag 0x22
          ⟨if v.clamped = [] then .ok else .clamped, .committed v⟩
          ((s.setProg i pr').setPort p { s.port p with staging := none }))) ∧
  (∀ (s : State) (p : Port) (tag : BitVec 16) (h : RawHandle) (rev : BitVec 32) (i : SlotId) (pr : Programme)
      (r : StagingRecord) (x : Int) (g : Nat), s.takesNow p = true → Names s h i pr → pr.watch.get p = true →
      pr.state ≠ .complete → pr.revision ≠ 4294967295 → (s.port p).staging = some r → r.target = ⟨i, s.gen i⟩ →
      rev.toNat = r.base → rev.toNat = pr.revision →
      (FieldSet.ofGroup r.fields .cutBound = [] ∨ pr.pendingCut = none) →
      (∀ pc, pr.pendingCut = some pc → ∀ y ∈ pc.fields, y.1.group = .cutBound) →
      FieldSet.get r.fields .heldLimit = some x → x.toNat ≤ s.heldCount i → s.greatestHeld i = some g →
      ∃ t v pr' f, exec (.commitSettings p tag h rev) s = .next t ∧
        Carried s t p ⟨0x22, tag, ⟨if v.clamped = [] then .ok else .clamped, .committed v⟩⟩ ∧
        v.revision = pr.revision + 1 ∧ v.active.heldLimit = s.heldCount i ∧
        (∀ st, v.rated.get st = (pr.stream st).isSome) ∧
        (.heldLimit ∈ v.clamped ↔ x.toNat < s.heldCount i) ∧ (t.port p).staging = none ∧ t.prog i = some pr' ∧
        pr'.revision = pr.revision + 1 ∧ pr'.cutter.forced = some f ∧ g ≤ f ∧
        ((∀ f, pr.cutter.forced = some f → f < g) → pr'.cutter.horizon.reaches (g : Int) = true ∧
          ∀ q, pr.watch.get q = true → pr'.holds q .forced)) ∧
  (∀ (s : State) (p : Port) (tag : BitVec 16) (h : RawHandle) (rev : BitVec 32) (i : SlotId) (pr : Programme),
      s.takesNow p = true → Names s h i pr → pr.watch.get p = true →
      ((pr.state = .complete ∨ pr.revision = 4294967295) →
        exec (.commitSettings p tag h rev) s = .next (answered s p tag 0x22 ⟨.badState, .empty⟩ s)) ∧
      (pr.state ≠ .complete → pr.revision ≠ 4294967295 →
        (∀ r, (s.port p).staging = some r → r.target ≠ ⟨i, s.gen i⟩) →
        exec (.commitSettings p tag h rev) s = .next (answered s p tag 0x22 ⟨.malformed, .empty⟩ s))) ∧
  (∀ (s : State) (p : Port) (tag : BitVec 16) (h : RawHandle) (rev : BitVec 32) (i : SlotId) (pr : Programme)
      (r : StagingRecord), s.takesNow p = true → Names s h i pr → pr.watch.get p = true → pr.state ≠ .complete →
      pr.revision ≠ 4294967295 → (s.port p).staging = some r → r.target = ⟨i, s.gen i⟩ →
      ((rev.toNat ≠ r.base ∨ rev.toNat ≠ pr.revision) →
        exec (.commitSettings p tag h rev) s = .next (answered s p tag 0x22 ⟨.stale, .empty⟩ s)) ∧
      (rev.toNat = r.base → rev.toNat = pr.revision → FieldSet.ofGroup r.fields .cutBound ≠ [] → pr.pendingCut ≠ none →
        exec (.commitSettings p tag h rev) s = .next (answered s p tag 0x22 ⟨.pending, .empty⟩ s)))

/-- What a commit and an activation do to the values. Outside OPEN a commit changes no active cut-bound or piece-bound value;
its immediate values are active at once, the held limit no lower than the HELD count; its cut-bound values form the pending
set as staged, labelled with the new revision; where the W or M that will be in force, staged or active, exceeds floor(D/4) or D,
for the D that will be in force, the set holds floor(D/4) or D for it. Its piece-bound values are merged over those pending. In
OPEN every value is active at once, W and M, staged or active, brought within the resulting D where a cut-bound value is staged,
the held limit no lower than the HELD count, and no pending set changes. A field that is not staged keeps its value. The
pending cut-bound set becomes active at the next decided cut, with its label as cut revision and a new record of the revision
list, and the pending piece-bound set when a piece opens; each sets SETTINGS. (An activated set is read as a record holds it:
in field-code order, no field twice.) -/
def Obligations.CommitByGroup : Prop :=
  (∀ (pr : Programme) (fs : FieldSet) (held : Nat),
    let a := (pr.commit fs held).active
    a.segLength = pr.active.segLength ∧ a.snapWindow = pr.active.snapWindow ∧ a.minLength = pr.active.minLength ∧
    a.dwell = pr.active.dwell ∧ a.policy = pr.active.policy ∧ a.bitrates = pr.active.bitrates ∧
    a.rates = pr.active.rates ∧ a.jump = pr.active.jump ∧ a.gap = pr.active.gap ∧ a.rounding = pr.active.rounding ∧
    (FieldSet.ofGroup fs .cutBound ≠ [] → ∃ pc, (pr.commit fs held).pendingCut = some pc ∧ pc.label = pr.revision + 1 ∧
      orActive pc.fields .snapWindow pr.active.snapWindow ≤ orActive pc.fields .segLength pr.active.segLength / 4 ∧
      orActive pc.fields .minLength pr.active.minLength ≤ orActive pc.fields .segLength pr.active.segLength ∧
      (let d := ((FieldSet.get fs .segLength).map Int.toNat).getD pr.active.segLength
       let w := ((FieldSet.get fs .snapWindow).map Int.toNat).getD pr.active.snapWindow
       let m := ((FieldSet.get fs .minLength).map Int.toNat).getD pr.active.minLength
       FieldSet.get pc.fields .snapWindow =
         (if d / 4 < w then some ((d / 4 : Nat) : Int) else FieldSet.get fs .snapWindow) ∧
       FieldSet.get pc.fields .minLength = (if d < m then some (d : Int) else FieldSet.get fs .minLength) ∧
       ∀ f, f ≠ .snapWindow → f ≠ .minLength →
         FieldSet.get pc.fields f = if f.group = .cutBound then FieldSet.get fs f else none))) ∧
  (∀ (pr : Programme) (fs : FieldSet) (held : Nat), fs.Ordered →
    let c := pr.commit fs held
    (∀ f v, (f, v) ∈ fs → f.group = .immediate → f ≠ .heldLimit → c.active.has f v) ∧
    (∀ v, (.heldLimit, v) ∈ fs → c.active.heldLimit = max v.toNat held) ∧
    (∀ f v, f.group = .immediate → FieldSet.get fs f = none → pr.active.has f v → c.active.has f v) ∧
    (∀ pc, c.pendingCut = some pc → FieldSet.ofGroup fs .cutBound ≠ [] → ∀ f v, (f, v) ∈ fs → f.group = .cutBound →
      (f ≠ .snapWindow → f ≠ .minLength → FieldSet.get pc.fields f = some v) ∧
      (f = .snapWindow → 0 ≤ v → FieldSet.get pc.fields f =
        some (min v (orActive fs .segLength pr.active.segLength / 4 : Nat))) ∧
      (f = .minLength → 0 ≤ v → FieldSet.get pc.fields f =
        some (min v (orActive fs .segLength pr.active.segLength : Nat)))) ∧
    (FieldSet.ofGroup fs .cutBound = [] → c.pendingCut = pr.pendingCut) ∧
    (FieldSet.ofGroup fs .pieceBound = [] → c.pendingPiece = pr.pendingPiece) ∧
    (FieldSet.ofGroup fs .pieceBound ≠ [] → ∃ ps, c.pendingPiece = some ps ∧ ∀ f, f.group = .pieceBound →
      FieldSet.get ps f = (FieldSet.get fs f).or (FieldSet.get (pr.pendingPiece.getD []) f)) ∧
    (let o := pr.commitOpen fs held
     o.pendingCut = pr.pendingCut ∧ o.pendingPiece = pr.pendingPiece ∧
     o.cutRevision = (if FieldSet.ofGroup fs .cutBound = [] then pr.cutRevision else pr.revision + 1) ∧
     (∀ f v, (f, v) ∈ fs → f ≠ .snapWindow → f ≠ .minLength → f ≠ .heldLimit →
       (∀ n, f = .bitrate n → n.val < pr.active.bitrates.length) → o.active.has f v) ∧
     (FieldSet.ofGroup fs .cutBound ≠ [] →
       let d := ((FieldSet.get fs .segLength).map Int.toNat).getD pr.active.segLength
       let w := ((FieldSet.get fs .snapWindow).map Int.toNat).getD pr.active.snapWindow
       let m := ((FieldSet.get fs .minLength).map Int.toNat).getD pr.active.minLength
       o.active.segLength = d ∧ o.active.snapWindow = min w (d / 4) ∧ o.active.minLength = min m d) ∧
     (FieldSet.ofGroup fs .cutBound = [] → o.active.segLength = pr.active.segLength ∧
       o.active.snapWindow = pr.active.snapWindow ∧ o.active.minLength = pr.active.minLength) ∧
     (∀ v, (.heldLimit, v) ∈ fs → o.active.heldLimit = max v.toNat held) ∧
     (∀ f v, f ≠ .snapWindow → f ≠ .minLength → FieldSet.get fs f = none → pr.active.has f v → o.active.has f v))) ∧
  (∀ (pr : Programme) (k : Nat) (pc : PendingCut), pr.pendingCut = some pc → pc.fields.Ordered →
    let c := pr.activateCut k
    (∀ f v, (f, v) ∈ pc.fields → (∀ n, f = .bitrate n → n.val < pr.active.bitrates.length) → c.active.has f v) ∧
    (∀ f v, FieldSet.get pc.fields f = none → pr.active.has f v → c.active.has f v) ∧
    c.cutRevision = pc.label ∧ c.pendingCut = none ∧
    c.revisions = pr.revisions ++ [⟨pc.label, k, c.active.bitrates⟩] ∧ c.pendingPiece = pr.pendingPiece ∧
    (∀ q, pr.watch.get q = true → c.holds q .settings)) ∧
  (∀ (pr : Programme) (n : Nat) (fs : FieldSet), pr.pendingPiece = some fs → fs.Ordered →
    let c := pr.openPiece n
    (∀ f v, (f, v) ∈ fs → f.group = .pieceBound → c.active.has f v) ∧
    (∀ f v, FieldSet.get fs f = none → pr.active.has f v → c.active.has f v) ∧ c.pendingPiece = none ∧
    (c.pieces.getLast?).map PieceRecord.values = some c.active.pieceValues ∧ c.cutRevision = pr.cutRevision ∧
    c.revisions = pr.revisions ∧ (∀ q, pr.watch.get q = true → c.holds q .settings)) ∧
  (∀ (pr : Programme) (cs : CutCase) (pc : PendingCut), pr.pendingCut = some pc →
    (pr.decideCut cs).pendingCut = none ∧ (pr.decideCut cs).cutRevision = pc.label ∧
    (pr.decideCut cs).active = (pr.activateCut (pr.cutter.counter + 1)).active)

/-! ### Lanes -/

/-- Attach Lane. Accepted, it takes the lowest-numbered FREE lane for the port and stream, with slot 0 as fill slot and both
slots keeping their bytes, gives the stream that lane and sets LANE_SLOT; nothing else of the stream's mapper state changes.
It is refused BAD_STATE in DRAINING and COMPLETE, then MALFORMED for a stream outside the set, then STREAM_BUSY for a stream
that has a lane or has ended, then NO_LANE when no lane is FREE; a refusal changes no state but the response queue. -/
def Obligations.AttachTaken : Prop :=
  (∀ (s : State) (p : Port) (tag : BitVec 16) (h : RawHandle) (code : Byte) (st : Stream) (i : SlotId) (pr : Programme)
      (r : StreamRecord) (l : LaneId), s.takesNow p = true → Names s h i pr → pr.watch.get p = true → pr.state.live →
      code = st.code → pr.stream st = some r → r.lane = none → r.ended = false → (s.lane l).state = .free →
      (∀ k, k.val < l.val → (s.lane k).state ≠ .free) →
      exec (.attachLane p tag h code) s = .next (answered s p tag 0x30 ⟨.ok, .attached l⟩
        (((s.setLane l { state := .attached, owner := some p, target := some (⟨i, s.gen i⟩, st)
                         slot0 := ⟨none, (s.lane l).slot0.bytes⟩, slot1 := ⟨none, (s.lane l).slot1.bytes⟩
                         fill := some false, order := [], readPos := 0, pos := .atHeader, discarding := false
                         endPosted := false, consumed := 0, begun := 0 }).setProg i
          (pr.setStream st { r with lane := some l })).setPort p { s.port p with laneSlot := true }))) ∧
  (∀ (s : State) (p : Port) (tag : BitVec 16) (h : RawHandle) (st : Stream) (i : SlotId) (pr : Programme),
      s.takesNow p = true → Names s h i pr → pr.watch.get p = true →
      (¬pr.state.live →
        exec (.attachLane p tag h st.code) s = .next (answered s p tag 0x30 ⟨.badState, .empty⟩ s)) ∧
      (pr.state.live → pr.stream st = none →
        exec (.attachLane p tag h st.code) s = .next (answered s p tag 0x30 ⟨.malformed, .empty⟩ s))) ∧
  (∀ (s : State) (p : Port) (tag : BitVec 16) (h : RawHandle) (st : Stream) (i : SlotId) (pr : Programme)
      (r : StreamRecord), s.takesNow p = true → Names s h i pr → pr.watch.get p = true → pr.state.live →
      pr.stream st = some r →
      ((r.lane ≠ none ∨ r.ended = true) →
        exec (.attachLane p tag h st.code) s = .next (answered s p tag 0x30 ⟨.streamBusy, .empty⟩ s)) ∧
      (r.lane = none → r.ended = false → (∀ l, (s.lane l).state ≠ .free) →
        exec (.attachLane p tag h st.code) s = .next (answered s p tag 0x30 ⟨.noLane, .empty⟩ s)))

/-- Detach Lane. Accepted: OK with the handle and stream; the lane FREE with its slot bytes as they were; the stream without a
lane, not ended by it, and its mapper state as it stood; a partly copied unit's entry removed, with no error and no statistic
(the entries are judged with the throttle off, so that no header is parsed in the same step). It is refused MALFORMED above
lane 7, NO_LANE for a FREE lane and NOT_WATCHING for a port outside the watch set of the lane's programme; a refusal changes
no state but the response queue. -/
def Obligations.DetachTaken : Prop :=
  (∀ (s : State) (p : Port) (tag : BitVec 16) (b : Byte) (l : LaneId) (h : Handle) (st : Stream) (pr : Programme)
    (r : StreamRecord), s.takesNow p = true → b.toNat = l.val → (s.lane l).target = some (h, st) →
    s.prog h.slot = some pr → pr.watch.get p = true → pr.stream st = some r →
    ∃ t pr' r', exec (.detachLane p tag b) s = .next t ∧ Carried s t p ⟨0x31, tag, ⟨.ok, .detached h st⟩⟩ ∧
      t.lane l = LaneRecord.freeWith (s.lane l).slot0.bytes (s.lane l).slot1.bytes ∧ t.prog h.slot = some pr' ∧
      pr'.stream st = some r' ∧ r'.lane = none ∧ r'.ended = r.ended ∧ r'.position = r.position ∧ r'.uPrev = r.uPrev ∧
      r'.durPrev = r.durPrev ∧ r'.anchor = r.anchor ∧ r'.piece = r.piece ∧ pr.Onward pr' ∧ OthersOnward s t h.slot ∧
      (s.throttle = false → pr'.stats = pr.stats ∧ pr'.error = pr.error ∧
        (∀ q k, (s.lane l).pos = .inPayload q k →
          t.entries = s.entries.filter (fun e => decide (e.name ≠ ⟨h, st, q⟩))) ∧
        ((s.lane l).pos = .atHeader → t.entries = s.entries))) ∧
  (∀ (s : State) (p : Port) (tag : BitVec 16) (b : Byte), s.takesNow p = true →
    (8 ≤ b.toNat → exec (.detachLane p tag b) s = .next (answered s p tag 0x31 ⟨.malformed, .empty⟩ s)) ∧
    (∀ l : LaneId, b.toNat = l.val →
      (s.lane l = LaneRecord.freeWith (s.lane l).slot0.bytes (s.lane l).slot1.bytes →
        exec (.detachLane p tag b) s = .next (answered s p tag 0x31 ⟨.noLane, .empty⟩ s)) ∧
      (∀ h st pr, (s.lane l).target = some (h, st) → s.prog h.slot = some pr → pr.watch.get p = false →
        exec (.detachLane p tag b) s = .next (answered s p tag 0x31 ⟨.notWatching, .empty⟩ s))))

/-- Post Chunk. Accepted, it makes the fill slot full with the count and puts it last in the post order; the other slot, if
free, becomes the fill slot; a count of 0 ends the lane; a count above 0 makes an ATTACHED lane RUNNING exactly when its
programme is INGESTING or HALTED; nothing but the lane and the response queue changes. It is refused in the order MALFORMED
(lane above 7, count above 32 768), NO_LANE, LANE_ENDED, LANE_FULL. -/
def Obligations.PostTaken : Prop :=
  (∀ (s : State) (p : Port) (tag : BitVec 16) (lane : Byte) (count : BitVec 16) (l : LaneId) (b : SlotNo),
      s.takesNow p = true → lane.toNat = l.val → count.toNat ≤ 32768 → (s.lane l).owner = some p →
      (s.lane l).endPosted = false → (s.lane l).fill = some b →
      ∃ ln, exec (.postChunk p tag lane count) s = .next (answered s p tag 0x32 ⟨.ok, .posted ln.freeSlots⟩ (s.setLane l ln)) ∧
        ln.order = (s.lane l).order ++ [b] ∧ (ln.slot b).count = some count.toNat ∧ (ln.slot (!b)) = (s.lane l).slot (!b) ∧
        (ln.slot b).bytes = ((s.lane l).slot b).bytes ∧
        ln.fill = (if ((s.lane l).slot (!b)).count = none then some (!b) else none) ∧
        ln.endPosted = decide (count = 0) ∧ (count = 0 → ln.state = .ending) ∧
        (count ≠ 0 → ln.state ≠ (s.lane l).state → (s.lane l).state = .attached ∧ ln.state = .running) ∧
        (count ≠ 0 → (s.lane l).state = .attached → ∀ h st pr, (s.lane l).target = some (h, st) → s.prog h.slot = some pr →
          ln.state = (if pr.state = .ingesting ∨ pr.state = .halted then .running else .attached)) ∧
        ln.owner = (s.lane l).owner ∧ ln.target = (s.lane l).target ∧ ln.readPos = (s.lane l).readPos ∧
        ln.pos = (s.lane l).pos ∧ ln.discarding = (s.lane l).discarding ∧ ln.consumed = (s.lane l).consumed ∧
        ln.begun = (s.lane l).begun) ∧
  (∀ (s : State) (p : Port) (tag : BitVec 16) (lane : Byte) (count : BitVec 16), s.takesNow p = true →
      ((8 ≤ lane.toNat ∨ 32768 < count.toNat) →
        exec (.postChunk p tag lane count) s = .next (answered s p tag 0x32 ⟨.malformed, .empty⟩ s)) ∧
      (∀ l : LaneId, lane.toNat = l.val → count.toNat ≤ 32768 →
        ((s.lane l).owner ≠ some p →
          exec (.postChunk p tag lane count) s = .next (answered s p tag 0x32 ⟨.noLane, .empty⟩ s)) ∧
        ((s.lane l).owner = some p → (s.lane l).endPosted = true →
          exec (.postChunk p tag lane count) s = .next (answered s p tag 0x32 ⟨.laneEnded, .empty⟩ s)) ∧
        ((s.lane l).owner = some p → (s.lane l).endPosted = false → (s.lane l).fill = none →
          exec (.postChunk p tag lane count) s = .next (answered s p tag 0x32 ⟨.laneFull, .empty⟩ s))))

/-- Writes and reads through a bulk window. A fill window: the write of the lane's owner replaces the bytes at the same offsets
of the fill slot and nothing else; behind a Post Chunk of the lane that waits in the command queue and would be accepted as the
lane stands (log 33), it replaces those of the other slot, the next fill slot, or is discarded where that is full; and it is
discarded when the lane is not the port's or has no fill slot. Reads: the staging area and the fetch window return their bytes;
the response area returns the head response, its header of length, command code, tag, outcome and queue count and then its data,
and zero bytes behind them or with no response; the take word returns the queue's count; and the submit word, the fill windows
and every offset without a region return zero bytes. -/
def Obligations.FillWindowRule : Prop :=
  (∀ (s : State) (p : Port) (l : LaneId) (b : SlotNo) (offset : Nat) (bytes : List Byte), (s.lane l).owner = some p →
    (s.lane l).fill = some b → Mem.wf ((s.lane l).slot b).bytes = true → Mem.wf ((s.lane l).slot (!b)).bytes = true →
    offset + bytes.length ≤ 32768 →
    let posts : CommandRecord → Prop := fun r => ∃ tag lane count,
      decodeRecord r.submitted r.bytes = some (tag, .postChunk lane count) ∧ lane.toNat = l.val
    let written : SlotNo → Prop := fun x => ∃ m, exec (.fillWindowWrite p l offset bytes) s =
        .next (s.setLane l ((s.lane l).setSlot x { (s.lane l).slot x with bytes := m })) ∧
      ∀ a, Mem.read m a = if offset ≤ a ∧ a < offset + bytes.length then bytes.getD (a - offset) 0
        else Mem.read ((s.lane l).slot x).bytes a
    ((∀ r ∈ (s.port p).commands, ¬posts r) → written b) ∧
    (∀ (before after : List CommandRecord) (r : CommandRecord) (tag : BitVec 16) (lane : Byte) (count : BitVec 16),
      (s.port p).commands = before ++ r :: after → (∀ x ∈ before ++ after, ¬posts x) →
      decodeRecord r.submitted r.bytes = some (tag, .postChunk lane count) → lane.toNat = l.val → count.toNat ≤ 32768 →
      (s.lane l).endPosted = false →
      (((s.lane l).slot (!b)).count = none → written (!b)) ∧
      (((s.lane l).slot (!b)).count ≠ none → exec (.fillWindowWrite p l offset bytes) s = .next s))) ∧
  (∀ (s : State) (p : Port) (l : LaneId) (offset : Nat) (bytes : List Byte),
    ((s.lane l).owner ≠ some p ∨ (s.lane l).fill = none) → exec (.fillWindowWrite p l offset bytes) s = .next s) ∧
  (∀ (pt : PortState) (a : Nat),
    (a < 4088 → pt.bulkRead a = Mem.read pt.area a) ∧
    (4088 ≤ a → a < 4096 → pt.bulkRead a = 0) ∧
    (8192 ≤ a → a < 327680 → pt.bulkRead a = 0) ∧
    (a < 65536 → pt.bulkRead (327680 + a) = Mem.read pt.window a) ∧
    (393216 ≤ a → pt.bulkRead a = 0) ∧
    (a < 4 → pt.bulkRead (8188 + a) = BitVec.ofNat 8 (pt.responses.length / 256 ^ a)) ∧
    (a < 4092 → pt.responses = [] → pt.bulkRead (4096 + a) = 0) ∧
    (a < 4092 → ∀ r rest, pt.responses = r :: rest →
      let data := r.reply.data.bytes r.command
      pt.bulkRead (4096 + a) = ([BitVec.ofNat 8 (8 + data.length), BitVec.ofNat 8 ((8 + data.length) / 256),
        BitVec.ofNat 8 r.command.toNat, BitVec.ofNat 8 (r.command.toNat / 256), BitVec.ofNat 8 r.tag.toNat,
        BitVec.ofNat 8 (r.tag.toNat / 256), r.reply.code.code, BitVec.ofNat 8 pt.responses.length] ++ data).getD a 0)) ∧
  (∀ command, RespData.empty.bytes command = []) ∧
  [OutcomeCode.ok, .clamped, .noSlot, .notFound, .notWatching, .badState, .noLane, .laneFull, .laneEnded, .stale, .pending,
    .streamBusy, .tooLate, .duplicate, .listFull, .notReady, .gone, .malformed].map OutcomeCode.code =
    (List.range 18).map (BitVec.ofNat 8)

/-- Lane Status of a lane of the port answers its record and wait reason, whoever watches, and is refused NO_LANE otherwise and
MALFORMED above lane 7; it changes nothing but the response queue. The wait reason is the first of section 3.8 that applies:
NO_DATA where no boundary ends the unread bytes and they are too few (none at all while discarding or in a payload, fewer than
sixteen at a header); PROGRAMME_STATE in OPEN, or in HALTED at a header that is present; and, at a header that is present,
THROTTLE, then NO_ENTRY and NO_GRANULES where the supply does not meet a header that is not malformed. (Where section 3.8 leaves
a reason to its words, that HALTED asks for a header that is present among them, it is the model's reading, log 25.) -/
def Obligations.LaneStatusTaken : Prop :=
  ∀ (s : State) (p : Port) (tag : BitVec 16) (lane : Byte), s.takesNow p = true →
    (8 ≤ lane.toNat → exec (.laneStatus p tag lane) s = .next (answered s p tag 0x33 ⟨.malformed, .empty⟩ s)) ∧
    (∀ l : LaneId, lane.toNat = l.val →
      ((s.lane l).owner ≠ some p → exec (.laneStatus p tag lane) s = .next (answered s p tag 0x33 ⟨.noLane, .empty⟩ s)) ∧
      ((s.lane l).owner = some p → ∃ v : LaneView,
        exec (.laneStatus p tag lane) s = .next (answered s p tag 0x33 ⟨.ok, .laneStatus v⟩ s) ∧
        v.state = (s.lane l).state ∧ v.owner = some p ∧ v.target = (s.lane l).target ∧
        v.count0 = (s.lane l).slot0.count ∧ v.count1 = (s.lane l).slot1.count ∧ v.fill = (s.lane l).fill ∧
        v.order = (s.lane l).order ∧ v.readPos = (s.lane l).readPos ∧
        v.unread = ((s.lane l).order.map (fun b => ((s.lane l).slot b).count.getD 0)).sum - (s.lane l).readPos ∧
        v.pos = (s.lane l).pos ∧ v.discarding = (s.lane l).discarding ∧
        v.endPosted = (s.lane l).endPosted ∧ v.consumed = (s.lane l).consumed ∧ v.begun = (s.lane l).begun ∧
        (v.wait = .throttle → s.throttle = true) ∧
        ∀ h st pr u, (s.lane l).target = some (h, st) → s.prog h.slot = some pr →
          readUnitHeader ((s.lane l).peek 16) = some u →
          let present := (s.lane l).discarding = false ∧ (s.lane l).pos = .atHeader ∧ 16 ≤ (s.lane l).available
          let noData := (s.lane l).boundary = .none ∧
            ((s.lane l).available = 0 ∨ ((s.lane l).discarding = false ∧ (s.lane l).pos = .atHeader ∧
              (s.lane l).available < 16))
          v.wait =
            if noData then .noData
            else if pr.state = .opened ∨ (present ∧ pr.state = .halted) then .programmeState
            else if ¬present then .none
            else if s.throttle = true then .throttle
            else if u.malformed st = true then .none
            else if 512 ≤ s.entries.length then .noEntry
            else if 524288 < s.payloadCount + (u.length + 511) / 512 then .noGranules
            else .none))

/-! ### Chapters -/

/-- Insert Chapter. Accepted, it records a MANUAL chapter at the time snapped down to a multiple of F: OK with that time, the
CHAPTER latch of every watching port set, and every programme onward; the index answered is the chapter's place in the list,
and the disposition and effective time are those it has after the step (with the throttle off, so that no header is parsed in
the same step). It is refused BAD_STATE in DRAINING and COMPLETE, then TOO_LATE at or below H or the last decided cut, then
DUPLICATE for a time that has a chapter, then LIST_FULL at 128 chapters; a refusal changes no state but the response queue. (That
TOO_LATE comes before DUPLICATE also for two commands at one time, where the pass of the first has moved the last decided cut, is
the model's choice, log 37.) -/
def Obligations.InsertTaken : Prop :=
  (∀ (s : State) (p : Port) (tag : BitVec 16) (h : RawHandle) (time : BitVec 32) (i : SlotId) (pr : Programme),
      s.takesNow p = true → Names s h i pr → pr.watch.get p = true → pr.state.live →
      pr.cutter.horizon.reaches ((time.toNat / pr.frame * pr.frame : Nat) : Int) = false →
      pr.cutter.lastCut < time.toNat / pr.frame * pr.frame →
      (∀ ch ∈ pr.cutter.chapters, ch.time ≠ time.toNat / pr.frame * pr.frame) → pr.cutter.chapters.length < 128 →
      ∃ t pr' idx disp eff, exec (.insertChapter p tag h time) s = .next t ∧
        Carried s t p ⟨0x40, tag, ⟨.ok, .inserted (time.toNat / pr.frame * pr.frame) idx disp eff⟩⟩ ∧
        t.prog i = some pr' ∧ pr.Onward pr' ∧ (∀ q, pr.watch.get q = true → pr'.holds q .chapter) ∧
        (∃ ch ∈ pr'.cutter.chapters, ch.time = time.toNat / pr.frame * pr.frame ∧ ch.source = .manual) ∧ OthersOnward s t i ∧
        (s.throttle = false → ∃ ch, pr'.cutter.chapters[idx]? = some ch ∧ ch.time = time.toNat / pr.frame * pr.frame ∧
          ch.disp = disp ∧ ch.effective = eff)) ∧
  (∀ (s : State) (p : Port) (tag : BitVec 16) (h : RawHandle) (time : BitVec 32) (i : SlotId) (pr : Programme),
      s.takesNow p = true → Names s h i pr → pr.watch.get p = true →
      let c := time.toNat / pr.frame * pr.frame
      let late := pr.cutter.horizon.reaches (c : Int) = true ∨ c ≤ pr.cutter.lastCut
      (¬pr.state.live → exec (.insertChapter p tag h time) s = .next (answered s p tag 0x40 ⟨.badState, .empty⟩ s)) ∧
      (pr.state.live → late → exec (.insertChapter p tag h time) s = .next (answered s p tag 0x40 ⟨.tooLate, .empty⟩ s)) ∧
      (pr.state.live → ¬late → (∃ ch ∈ pr.cutter.chapters, ch.time = c) →
        exec (.insertChapter p tag h time) s = .next (answered s p tag 0x40 ⟨.duplicate, .empty⟩ s)) ∧
      (pr.state.live → ¬late → (∀ ch ∈ pr.cutter.chapters, ch.time ≠ c) → 128 ≤ pr.cutter.chapters.length →
        exec (.insertChapter p tag h time) s = .next (answered s p tag 0x40 ⟨.listFull, .empty⟩ s)))

/-- Read Chapters answers the chapter count, H, the last decided cut, the segment counter, the forced horizon and E, and up to
sixteen entries from the start index on, each with its chapter index; it is refused MALFORMED above 127, needs the port to
watch, is taken in every state and changes nothing (R95). -/
def Obligations.ReadChaptersRule : Prop :=
  ∀ (s : State) (p : Port) (tag : BitVec 16) (h : RawHandle) (start : BitVec 16) (i : SlotId) (pr : Programme),
    s.takesNow p = true → Names s h i pr →
    (127 < start.toNat →
      exec (.readChapters p tag h start) s = .next (answered s p tag 0x41 ⟨.malformed, .empty⟩ s)) ∧
    (start.toNat ≤ 127 → pr.watch.get p = false →
      exec (.readChapters p tag h start) s = .next (answered s p tag 0x41 ⟨.notWatching, .empty⟩ s)) ∧
    (start.toNat ≤ 127 → pr.watch.get p = true → ∃ v : ChaptersView,
      exec (.readChapters p tag h start) s = .next (answered s p tag 0x41 ⟨.ok, .chapters v⟩ s) ∧
      v.count = pr.cutter.chapters.length ∧ v.horizon = pr.cutter.horizon ∧ v.lastCut = pr.cutter.lastCut ∧
      v.counter = pr.cutter.counter ∧ v.forced = pr.cutter.forced ∧ v.progEnd = pr.cutter.progEnd ∧
      v.entries.length = min 16 (pr.cutter.chapters.length - start.toNat) ∧
      ∀ n e, v.entries[n]? = some e → e.1 = start.toNat + n ∧ pr.cutter.chapters[e.1]? = some e.2)

/-- The cutter. With M at least 25 and at most D frames (section 2.1), whatever cut a decision pass decides next lies at least
M·F and at most (D + W)·F above the last decided cut; which case yields it is as R100 to R103 say, the chapter in range being
the earliest PENDING one from p + M·F to p + (D + W)·F (in a list in rising time order, which `StepKeepsMarksCutsAndStore`
keeps); and with the settings kept a pass ends only where no case yields a cut that passes the reach gate (after a forcing too,
which is the model's choice where R97 and R99 differ: log 39). A rise of H makes H the greatest of its value, the
forced horizon and the slide term: the slide position less dwell·F, −∞ before a first position, and +∞ without a SLIDE stream or
after its end. A cut that is decided gives the chapters of its case their dispositions and joins the cut list; where it activates
another dwell, the candidate is then tested once with the new dwell at the slide position as it stands, a confirmation is
recorded, and H rises with the new dwell. The slide detector
keeps, starts, confirms or clears its candidate by the index of a unit; a confirmation is recorded once for a time, with the
disposition that the last decided cut and the forced horizon give it, and with a full list not at all; the passes that follow a
confirmation in stage 2 are made where it was recorded, and the rise of H follows in either case. -/
def Obligations.NextCutWithinBounds : Prop :=
  (∀ (pr : Programme) (cs : CutCase), pr.active.minLength ≤ pr.active.segLength → pr.nextCut = some cs →
    pr.cutter.lastCut + pr.active.minLength * pr.frame ≤ cs.time ∧
    cs.time ≤ pr.cutter.lastCut + (pr.active.segLength + pr.active.snapWindow) * pr.frame) ∧
  (∀ pr : Programme,
    let p := pr.cutter.lastCut
    let m := pr.active.minLength * pr.frame
    let d := pr.active.segLength * pr.frame
    let dw := (pr.active.segLength + pr.active.snapWindow) * pr.frame
    let early := ∃ ch ∈ pr.cutter.chapters, ch.disp = .pending ∧ p < ch.time ∧ ch.time < p + m
    let forced := ∃ g, pr.cutter.forced = some g ∧ p + d ≤ g
    (early → pr.active.policy = .defer → pr.nextCut = some (.early (p + m))) ∧
    (early → pr.active.policy = .drop → pr.nextCut = none) ∧
    (¬early → ∀ ch, pr.cutter.inRangeChapter m dw = some ch →
      (pr.cutter.horizon.reaches (ch.time : Int) = true → pr.nextCut = some (.inRange ch.time)) ∧
      (pr.cutter.horizon.reaches (ch.time : Int) = false → forced → pr.nextCut = some (.nominal (p + d))) ∧
      (pr.cutter.horizon.reaches (ch.time : Int) = false → ¬forced → pr.nextCut = none)) ∧
    (¬early → pr.cutter.inRangeChapter m dw = none →
      ((pr.cutter.horizon.reaches ((p + dw : Nat) : Int) = true ∨ forced) → pr.nextCut = some (.nominal (p + d))) ∧
      (pr.cutter.horizon.reaches ((p + dw : Nat) : Int) = false → ¬forced → pr.nextCut = none)) ∧
    (pr.cutter.inRangeChapter m dw = none ↔
      ∀ ch ∈ pr.cutter.chapters, ch.disp = .pending → p + m ≤ ch.time → p + dw < ch.time) ∧
    (pr.cutter.chapters.Pairwise (fun a b => a.time < b.time) → ∀ ch, pr.cutter.inRangeChapter m dw = some ch ↔
      ch ∈ pr.cutter.chapters ∧ ch.disp = .pending ∧ p + m ≤ ch.time ∧ ch.time ≤ p + dw ∧
      ∀ y ∈ pr.cutter.chapters, y.disp = .pending → p + m ≤ y.time → y.time ≤ p + dw → ch.time ≤ y.time) ∧
    pr.disposeEarly.cutter.chapters =
      (if pr.active.policy = .drop ∧ pr.cutter.horizon.reaches ((p + m : Nat) : Int) = true then
        pr.cutter.chapters.map (fun ch => if ch.disp = .pending ∧ p < ch.time ∧ ch.time < p + m then
          { ch with disp := .inside, segment := some pr.cutter.counter } else ch)
      else pr.cutter.chapters)) ∧
  (∀ pr : Programme, pr.SettingsKept → ∀ cs, pr.decisionPass.nextCut = some cs →
    pr.decisionPass.cutter.gate cs.time = false) ∧
  (∀ pr : Programme,
    let h := pr.raiseHorizon.cutter.horizon
    let slide : Int → Prop := fun t => pr.stream .slide = none ∨ ∃ r, pr.stream .slide = some r ∧ (r.ended = true ∨
      ∃ x, r.position = some x ∧ t ≤ (x : Int) - ((pr.active.dwell * pr.frame : Nat) : Int))
    pr.raiseHorizon = { pr with cutter := { pr.cutter with horizon := h } } ∧
    ∀ t : Int, h.reaches t = true ↔
      (pr.cutter.horizon.reaches t = true ∨ (∃ g, pr.cutter.forced = some g ∧ t ≤ (g : Int)) ∨ slide t)) ∧
  ((∀ t : Int, Horizon.negInf.reaches t = false ∧ Horizon.posInf.reaches t = true) ∧
    ∀ a t : Int, (Horizon.at a).reaches t = true ↔ t ≤ a) ∧
  (∀ (s : State) (i : SlotId) (pr : Programme), s.prog i = some pr →
    (pr.raiseHorizon.cutter.horizon = pr.cutter.horizon → raiseAndPass i s = s) ∧
    (pr.raiseHorizon.cutter.horizon ≠ pr.cutter.horizon → raiseAndPass i s = passes i (s.setProg i pr.raiseHorizon))) ∧
  (∀ pr : Programme,
    (pr.dwellChange = true ↔ ∃ pc v, pr.pendingCut = some pc ∧ FieldSet.get pc.fields .dwell = some v ∧
      v.toNat ≠ pr.active.dwell) ∧
    (∀ r x cand, pr.stream .slide = some r → r.position = some x → pr.cutter.candidate = some cand →
      (cand.start + pr.active.dwell * pr.frame ≤ x →
        let m := pr.recordAuto cand.start cand.index
        pr.dwellEffect =
          ({ m with cutter := { m.cutter with confirmed := some cand.index, candidate := none } } : Programme).raiseHorizon) ∧
      (x < cand.start + pr.active.dwell * pr.frame → pr.dwellEffect = pr.raiseHorizon)) ∧
    ((pr.cutter.candidate = none ∨ ∀ r, pr.stream .slide = some r → r.position = none) →
      pr.dwellEffect = pr.raiseHorizon)) ∧
  (∀ (pr : Programme) (cs : CutCase), ∃ b : Programme,
    let c := b.cutter
    let p := pr.cutter.lastCut
    let k := pr.cutter.counter
    let q := cs.time
    (pr.dwellChange = false → pr.decideCut cs = b) ∧ (pr.dwellChange = true → pr.decideCut cs = b.dwellEffect) ∧
    b.active = (pr.activateCut (k + 1)).active ∧
    (∀ pc v, pr.pendingCut = some pc → pc.fields.Ordered → (.dwell, v) ∈ pc.fields → b.active.dwell = v.toNat) ∧
    b.frame = pr.frame ∧ b.streams = pr.streams ∧ b.stats = pr.stats ∧ b.watch = pr.watch ∧
    c.candidate = pr.cutter.candidate ∧ c.confirmed = pr.cutter.confirmed ∧ c.horizon = pr.cutter.horizon ∧
    c.progEnd = pr.cutter.progEnd ∧
    c.cuts = pr.cutter.cuts ++ [⟨q, match cs with | .nominal _ => false | .early _ => true | .inRange _ => true⟩] ∧
    c.lastCut = q ∧ c.previous = some p ∧ (c.deferred = true ↔ ∃ x, cs = .early x) ∧ c.reach = pr.cutter.reach ∧
    c.forced = pr.cutter.forced ∧ c.chapters.length = pr.cutter.chapters.length ∧
    ∀ (n : Nat) (ch : Chapter), pr.cutter.chapters[n]? = some ch → ∃ ch', c.chapters[n]? = some ch' ∧
      (ch.disp = .pending → p < ch.time →
        ((∃ x, cs = .early x) → ch.time ≤ q → ch' = { ch with
          disp := if (pr.cutter.chapters.find? (fun y => decide (y.disp = .pending ∧ p < y.time))).map Chapter.time = some ch.time then
            .deferred else .merged
          effective := some q, segment := some (k + 1) }) ∧
        ((∃ x, cs = .inRange x) → ch.time = q → ch' = { ch with disp := .cut, effective := some q, segment := some (k + 1) }) ∧
        ((∀ x, cs ≠ .early x) → ch.time < q → ch' = { ch with disp := .inside, segment := some k }) ∧
        (q < ch.time → ch' = ch)) ∧
      (ch.disp = .late → ch' = if p ≤ ch.time ∧ ch.time < q ∧ ch.segment = none then { ch with segment := some k } else ch) ∧
      (ch.disp ≠ .pending → ch.disp ≠ .late → ch' = ch)) ∧
  (∀ (pr : Programme) (idx : Option (BitVec 16)) (x : Nat),
    let d := pr.detect idx x
    (d.1 = true ↔ ∃ cand, pr.cutter.candidate = some cand ∧
      (idx = none ∨ (idx = some cand.index ∧ pr.cutter.confirmed ≠ some cand.index)) ∧
      cand.start + pr.active.dwell * pr.frame ≤ x) ∧
    (∀ cand, d.1 = true → pr.cutter.candidate = some cand → d.2.cutter.confirmed = some cand.index ∧
      d.2.cutter.candidate = none ∧ d.2.cutter.chapters = (pr.recordAuto cand.start cand.index).cutter.chapters ∧
      d.2.cutter.cuts = (pr.recordAuto cand.start cand.index).cutter.cuts) ∧
    (d.1 = false → d.2 = { pr with cutter := { pr.cutter with candidate :=
      match idx with
      | none => pr.cutter.candidate
      | some i =>
          if pr.cutter.confirmed = some i then none
          else if pr.cutter.candidate.map Candidate.index = some i then pr.cutter.candidate
          else some ⟨i, x / pr.frame * pr.frame⟩ } })) ∧
  (∀ (pr : Programme) (t : Nat) (idx : BitVec 16),
    let r := pr.recordAuto t idx
    let known := ∃ ch ∈ pr.cutter.chapters, ch.time = t
    (known → r.cutter.chapters = pr.cutter.chapters.map (fun ch => if ch.time = t then { ch with slideIndex := some idx } else ch) ∧
      r.cutter.cuts = pr.cutter.cuts ∧ r.stats = pr.stats ∧ ∀ q, pr.watch.get q = true → r.holds q .chapter) ∧
    (¬known → 128 ≤ pr.cutter.chapters.length →
      r.cutter = pr.cutter ∧ r.stats = pr.stats ∧ ∀ q, pr.watch.get q = true → r.holds q .limit) ∧
    (¬known → pr.cutter.chapters.length < 128 →
      let p := pr.cutter.lastCut
      let late := ∃ g, pr.cutter.forced = some g ∧ t ≤ g
      let within : Option Nat := if t < p then some (pr.cutter.segmentAt t) else none
      let merges := t < p ∧ (∃ q, pr.cutter.previous = some q ∧ q < t) ∧ pr.cutter.deferred = true
      ∃ (l1 l2 : List Chapter) (new : Chapter), pr.cutter.chapters = l1 ++ l2 ∧ r.cutter.chapters = l1 ++ new :: l2 ∧
        (∀ y ∈ l1, y.time < t) ∧ (∀ y, l2.head? = some y → t < y.time) ∧
        new.time = t ∧ new.source = .auto ∧ new.slideIndex = some idx ∧
        (late → new.disp = .late ∧ new.effective = none ∧ new.segment = within) ∧
        (¬late → t = p → new.disp = (if pr.cutter.hasEffective p then .merged else .cut) ∧ new.effective = some p ∧
          new.segment = some pr.cutter.counter) ∧
        (¬late → merges → new.disp = .merged ∧ new.effective = some p ∧ new.segment = some pr.cutter.counter) ∧
        (¬late → t < p → ¬merges → new.disp = .late ∧ new.effective = none ∧ new.segment = within) ∧
        (¬late → p < t → new.disp = .pending ∧ new.effective = none ∧ new.segment = none) ∧
        r.cutter.cuts = (if new.disp = .cut then markLast pr.cutter.cuts else pr.cutter.cuts) ∧
        r.stats.chapters = pr.stats.chapters + 1 ∧ (∀ q, pr.watch.get q = true → r.holds q .chapter) ∧
        (pr.cutter.chapters.length = 127 → ∀ q, pr.watch.get q = true → r.holds q .limit))) ∧
  (∀ (s : State) (i : SlotId) (pr : Programme) (idx : Option (BitVec 16)) (x : Nat), s.prog i = some pr →
    let d := pr.detect idx x
    let recorded := d.1 = true ∧ ∃ cand, pr.cutter.candidate = some cand ∧
      (pr.cutter.chapters.length < 128 ∨ ∃ ch ∈ pr.cutter.chapters, ch.time = cand.start)
    (recorded → slideStages i idx x s = raiseAndPass i (passes i (s.setProg i d.2))) ∧
    (¬recorded → slideStages i idx x s = raiseAndPass i (s.setProg i d.2)))

/-- Releasing entries. An entry released at position x goes into the segment that holds x: the segment's start is at or below x,
and no later decided cut is; whether it is released is as R106 says. A release pass releases a stream's HELD entries in
sequence order and stops at the first that it cannot release, changing nothing else: an entry takes its segment's index and
the revision in force for it (that of the last record of the revision list that reaches down to the segment), its segment-start flag where the stream has reached no such segment, the force key of the stream's mark, and is
READY, or, where its stream has no rendition, DONE without granules. -/
def Obligations.ReleaseIntoItsSegment : Prop :=
  (∀ (pr : Programme) (x k : Nat), pr.cutter.cuts.Pairwise (fun a b => a.start < b.start) →
    (pr.cutter.cuts.head?).map CutRecord.start = some 0 → pr.releaseIndex x = some k →
    (∃ c, pr.cutter.cuts[k]? = some c ∧ c.start ≤ x) ∧ (∀ j c, k < j → pr.cutter.cuts[j]? = some c → x < c.start)) ∧
  (∀ (pr : Programme) (x : Nat),
    (pr.releaseIndex x).isSome = true ↔ (x < pr.cutter.lastCut + pr.active.minLength * pr.frame ∨
      (pr.cutter.horizon.reaches (x : Int) = true ∧ x < pr.cutter.lastCut + pr.active.segLength * pr.frame) ∨
      x < pr.cutter.lastCut ∨ pr.cutter.progEnd.isSome = true)) ∧
  (∀ (i : SlotId) (st : Stream) (pr : Programme) (r : StreamRecord) (es : List Entry),
    let out := releaseEntries i st pr r es
    out.2.length = es.length ∧
    ∀ (n : Nat) (e : Entry), es[n]? = some e → ∃ e', out.2[n]? = some e' ∧ e'.name = e.name ∧
      let blocked := ∃ (m : Nat) (b : Entry), m ≤ n ∧ es[m]? = some b ∧ b.inStream i st = true ∧ b.state = .held ∧
        b.timing.bind (fun x => pr.releaseIndex x.x) = none
      (¬(e.inStream i st = true ∧ e.state = .held) ∨ blocked → e' = e) ∧
      (e.inStream i st = true → e.state = .held → ¬blocked →
        ∃ k, e.timing.bind (fun x => pr.releaseIndex x.x) = some k ∧ e'.segment = some k ∧
          e'.revision = pr.revisionFor k ∧ pr.InForce k e'.revision ∧ e'.timing = e.timing ∧ (e.forceKey = true → e'.forceKey = true) ∧
          (pr.renditionsOf st = [] → e'.state = .done ∧ e'.granules = [] ∧ e'.output = some []) ∧
          (pr.renditionsOf st ≠ [] → e'.state = .ready ∧ e'.granules = e.granules ∧ e'.output = e.output))) ∧
  (∀ (i : SlotId) (st : Stream) (pr : Programme) (r : StreamRecord) (e : Entry) (es : List Entry) (k : Nat),
    e.inStream i st = true → e.state = .held → e.timing.bind (fun x => pr.releaseIndex x.x) = some k →
    ∃ (r1 : StreamRecord) (e' : Entry) (rest : List Entry),
      releaseEntries i st pr r (e :: es) = ((releaseEntries i st pr r1 es).1, e' :: rest) ∧
      rest = (releaseEntries i st pr r1 es).2 ∧
      (e'.segStart = true ↔ ∀ j, r.started = some j → j < k) ∧
      (e'.forceKey = true ↔ (e.forceKey = true ∨ r.forceKeyMark = some k)) ∧
      r1.started = some (match r.started with | some j => max j k | none => k) ∧
      r1.forceKeyMark = (match r.forceKeyMark with | some j => if j ≤ k then none else some j | none => none) ∧
      r1.position = r.position ∧ r1.assembly = r.assembly)

/-! ### Status and attention -/

/-- Programme Status, Read Error, Next Attention, Read Staging and Device Status answer what sections 1.7, 1.5.2, 1.4.2, 2.2, 9.6
and 10.6 list. The first four change nothing but the response queue, and Device Status only the sending port's overflow
indication; Read Staging marks a target that names no programme now as unknown. -/
def Obligations.QueriesTaken : Prop :=
  (∀ (s : State) (p : Port) (tag : BitVec 16), s.takesNow p = true →
      (∀ (h : RawHandle) (i : SlotId) (pr : Programme), Names s h i pr →
        let inState := fun x => (s.entries.filter (fun e => e.inSlot i && decide (e.state = x))).length
        (∃ v : StatusView, exec (.programmeStatus p tag h) s = .next (answered s p tag 0x60 ⟨.ok, .status v⟩ s) ∧
          v.handle = ⟨i, h.gen⟩ ∧ v.state = pr.state ∧ v.frame = pr.frame ∧
          (∀ st, v.streams.get st = (pr.stream st).map (fun r => ⟨r.lane, r.ended, r.nextSeq, r.position⟩)) ∧
          v.renditions = pr.renditions.zip pr.active.bitrates ∧ v.revision = pr.revision ∧
          v.cutPending = pr.pendingCut.isSome ∧ v.piecePending = pr.pendingPiece.isSome ∧ v.watch = pr.watch ∧
          v.latches = (if pr.watch.get p = true then pr.latches.get p else 0) ∧ v.errorFlag = pr.error.isSome ∧
          v.currentPiece = pr.pieces.length - 1 ∧ v.pieceCount = pr.pieces.length ∧
          v.lastCut = pr.cutter.lastCut ∧ v.counter = pr.cutter.counter ∧ v.forced = pr.cutter.forced ∧
          v.filling = inState .filling ∧ v.held = inState .held ∧ v.ready = inState .ready ∧ v.inPipe = inState .inPipe ∧
          v.done = inState .done ∧ v.lost = inState .lost ∧ v.stats = pr.stats ∧
          v.filling + v.held + v.ready + v.inPipe + v.done + v.lost = (s.entries.filter (fun e => e.inSlot i)).length) ∧
        (pr.watch.get p = true →
          exec (.readError p tag h) s = .next (answered s p tag 0x61 ⟨.ok, .error pr.error⟩ s))) ∧
      (∀ (start kinds : Byte), start.toNat ≤ 31 → kinds.getLsbD 7 = false → ∃ o : Option (Handle × KindSet × ProgState),
        exec (.nextAttention p tag start kinds) s = .next (answered s p tag 0x70 ⟨.ok, .attention o⟩ s) ∧
        (o = none → ∀ i : SlotId, start.toNat ≤ i.val → ∀ pr, s.prog i = some pr →
          pr.latches.get p &&& ~~~(s.port p).mask &&& kinds.setWidth 7 = 0) ∧
        (∀ h ks x, o = some (h, ks, x) → ∃ pr, s.prog h.slot = some pr ∧ h.gen = s.gen h.slot ∧ pr.state = x ∧
          start.toNat ≤ h.slot.val ∧ ks = pr.latches.get p &&& ~~~(s.port p).mask &&& kinds.setWidth 7 ∧ ks ≠ 0 ∧
          ∀ i : SlotId, start.toNat ≤ i.val → i.val < h.slot.val → ∀ q, s.prog i = some q →
            q.latches.get p &&& ~~~(s.port p).mask &&& kinds.setWidth 7 = 0)) ∧
      (∀ (start kinds : Byte), (31 < start.toNat ∨ kinds.getLsbD 7 = true) →
        exec (.nextAttention p tag start kinds) s = .next (answered s p tag 0x70 ⟨.malformed, .empty⟩ s))) ∧
  (∀ (s : State) (p : Port) (tag : BitVec 16), s.takesNow p = true →
      ((s.port p).staging = none →
        exec (.readStaging p tag) s = .next (answered s p tag 0x21 ⟨.ok, .staging none false none []⟩ s)) ∧
      (∀ r, (s.port p).staging = some r →
        exec (.readStaging p tag) s = .next (answered s p tag 0x21 ⟨.ok, .staging (some r.target)
          (decide (s.prog r.target.slot = none ∨ s.gen r.target.slot ≠ r.target.gen)) (some r.base) r.fields⟩ s))) ∧
  (∀ (s : State) (p : Port) (tag : BitVec 16), s.takesNow p = true → ∃ v : DeviceView,
      exec (.deviceStatus p tag) s = .next (answered s p tag 0x90 ⟨.ok, .device v⟩
        (s.setPort p { s.port p with overflow := false })) ∧
      v.accept = s.sources.accept ∧ v.payload = s.sources.payload ∧ v.store = s.sources.store ∧ v.table = s.sources.table ∧
      (v.hold = true ↔ ∃ q, (s.port q).hold = true) ∧ v.throttle = s.throttle ∧ v.acceptCount = s.entries.length ∧
      v.payloadCount = (s.entries.map (fun e => e.granules.length)).sum ∧ v.storeCount = s.storeCount ∧
      v.tableCount = s.segments.length ∧ v.storeQueueLength = s.storeQueue.length ∧
      (s.storeQueue = [] → v.storeQueueNeed = 0) ∧
      (∀ e rest d held, s.storeQueue = e :: rest → s.pipe e = .storing d held →
        v.storeQueueNeed = (held.map (fun o => (o.count + 511) / 512)).sum) ∧
      v.tableQueueLength = s.tableQueue.length ∧ (s.tableQueue = [] → v.tableQueueNeed = 0) ∧
      (∀ i st rest pr, s.tableQueue = (i, st) :: rest → s.prog i = some pr →
        v.tableQueueNeed = (pr.renditionsOf st).length) ∧
      (∀ e : PipeId, v.pipes[e.val]? = some (match s.pipe e with
        | .idle => ⟨0, none⟩
        | .encoding d _ => ⟨1, some d.item⟩
        | .storing d _ => ⟨2, some d.item⟩)) ∧
      (∀ q, (v.ports.get q).commands = (s.port q).commands.length ∧ (v.ports.get q).responses = (s.port q).responses.length ∧
        (v.ports.get q).overflow = (s.port q).overflow ∧ (v.ports.get q).notice = s.noticeCondition q ∧
        (v.ports.get q).hold = (s.port q).hold ∧ (∀ l, l ∈ (v.ports.get q).lanes ↔ (s.lane l).owner = some q) ∧
        (v.ports.get q).stagingEmpty = decide ((s.port q).staging = none) ∧
        (v.ports.get q).segmentsHeld = (s.segments.filter (fun g =>
          match g.status with | .closed _ pend _ => pend.get q | .opened => false)).length) ∧
      v.unclaimed = (s.segments.filter (fun g => match g.status with | .closed _ _ u => u | .opened => false)).length ∧
      v.freeSlots = (allSlots.filter (fun i => (s.prog i).isNone)).length ∧
      v.freeLanes = (allLanes.filter (fun l => decide ((s.lane l).state = .free))).length)

/-- Clear Error empties the error record and leaves latches and state; Set Attention Mask replaces the whole mask; Clear
Attention removes the named kinds of the port's latches on the programme alone, and with the flag on leaves LANE_SLOT set
exactly when a lane that the port owns has a free slot. Set Attention Mask with an unknown kind, and Clear Attention without a
handle with an unknown kind or a flag that is neither 0 nor 1, are refused MALFORMED. Notices: a port's notice condition is true
exactly while a response waits, a latch of the port on some programme is set and not masked, or its LANE_SLOT latch is set; and
every command and event sends each port a notice exactly where it turns that port's condition from false to true. A Reset Port
that is taken sends its own port one, for its response, whatever stood before. (SUBMIT_WORD and TAKE_WORD can take several queued
commands in one step; the ones they take act as their own rows do. A device reset, which sends none, is `DeviceResetLeaves`.
That a notice is counted and not described is the model's choice, log 34.) -/
def Obligations.AttentionTaken : Prop :=
  (∀ (s : State) (q : Port),
    (s.noticeCondition q = true ↔ (s.port q).responses ≠ [] ∨
      (∃ i pr, s.prog i = some pr ∧ pr.latches.get q &&& ~~~(s.port q).mask ≠ 0) ∨ (s.port q).laneSlot = true) ∧
    (s.ownsFreeSlot q = true ↔
      ∃ l, (s.lane l).owner = some q ∧ ((s.lane l).slot0.count = none ∨ (s.lane l).slot1.count = none))) ∧
  (∀ (c : Instr) (s t : State), (∀ p v, c ≠ .submitWord p v) → (∀ p v, c ≠ .takeWord p v) → c ≠ .deviceReset →
    exec c s = .next t → ∀ q, (∀ tag, c = .resetPort q tag → s.takesNow q = false) → NoticeSent s t q) ∧
  (∀ (s t : State) (p : Port) (tag : BitVec 16), s.takesNow p = true → exec (.resetPort p tag) s = .next t →
    (t.port p).noticesSent = (s.port p).noticesSent + 1) ∧
  ∀ (s : State) (p : Port) (tag : BitVec 16), s.takesNow p = true →
    (∀ (h : RawHandle) (i : SlotId) (pr : Programme), Names s h i pr → pr.watch.get p = true →
      exec (.clearError p tag h) s = .next (answered s p tag 0x62 ⟨.ok, .empty⟩ (s.setProg i { pr with error := none }))) ∧
    (∀ kinds : Byte, kinds.getLsbD 7 = false →
      exec (.setAttentionMask p tag kinds) s = .next (answered s p tag 0x72 ⟨.ok, .empty⟩
        (s.setPort p { s.port p with mask := kinds.setWidth 7 }))) ∧
    (∀ (h : RawHandle) (i : SlotId) (pr : Programme) (kinds flag : Byte), Names s h i pr → pr.watch.get p = true →
      kinds.getLsbD 7 = false → (flag = 0 ∨ flag = 1) →
      let left := pr.latches.get p &&& ~~~(kinds.setWidth 7)
      let slot := if flag = 1 then s.ownsFreeSlot p else (s.port p).laneSlot
      exec (.clearAttention p tag (some h) kinds flag) s = .next (answered s p tag 0x71 ⟨.ok, .latches (some left) slot⟩
        ((s.setProg i { pr with latches := pr.latches.set p left }).setPort p { s.port p with laneSlot := slot }))) ∧
    (∀ kinds flag : Byte, kinds.getLsbD 7 = false → (flag = 0 ∨ flag = 1) →
      let slot := if flag = 1 then s.ownsFreeSlot p else (s.port p).laneSlot
      exec (.clearAttention p tag none kinds flag) s = .next (answered s p tag 0x71 ⟨.ok, .latches none slot⟩
        (s.setPort p { s.port p with laneSlot := slot }))) ∧
    (∀ kinds : Byte, kinds.getLsbD 7 = true →
      exec (.setAttentionMask p tag kinds) s = .next (answered s p tag 0x72 ⟨.malformed, .empty⟩ s)) ∧
    (∀ kinds flag : Byte, (kinds.getLsbD 7 = true ∨ (flag ≠ 0 ∧ flag ≠ 1)) →
      exec (.clearAttention p tag none kinds flag) s = .next (answered s p tag 0x71 ⟨.malformed, .empty⟩ s))

/-! ### Flow control and resets -/

/-- Set Hold sets the sending port's flag and Clear Hold clears it; both answer OK with the three flags after the command; no
other port's flag changes; Set Hold changes nothing else, and neither does Clear Hold while another source holds the throttle
on. Where Clear Hold turns the throttle off, the arbiter serves in the same step: after it no lane waits whose needs are met,
unless a header parse turned ACCEPT or PAYLOAD on and so forced a programme's horizon, after which the remaining lanes go on
waiting (R163; that the source may stand off again at the end of that step, so that they wait with the throttle off, is the
model's choice, log 38); and, while the throttle stays off, no lane stands at a malformed header that it examines. -/
def Obligations.HoldTaken : Prop :=
  (∀ (s : State) (p : Port) (tag : BitVec 16), s.takesNow p = true →
    exec (.setHold p tag) s = .next (answered s p tag 0x80 ⟨.ok, .holds (s.holdFlags.set p true)⟩
      (s.setPort p { s.port p with hold := true })) ∧
    (∃ t, exec (.clearHold p tag) s = .next t ∧
      Carried s t p ⟨0x81, tag, ⟨.ok, .holds (s.holdFlags.set p false)⟩⟩ ∧ (t.port p).hold = false ∧
      (∀ i x, s.prog i = some x → ∃ y, t.prog i = some y ∧ x.Onward y)) ∧
    ((s.setPort p { s.port p with hold := false }).throttle = true →
      exec (.clearHold p tag) s = .next (answered s p tag 0x81 ⟨.ok, .holds (s.holdFlags.set p false)⟩
        (s.setPort p { s.port p with hold := false })))) ∧
  (∀ (s : State) (p : Port) (tag : BitVec 16), s.takesNow p = true → s.throttle = true →
    (s.setPort p { s.port p with hold := false }).throttle = false →
    ∃ t, exec (.clearHold p tag) s = .next t ∧
      (arbiterChoice t = none ∨ ∃ i pr pr', s.prog i = some pr ∧ t.prog i = some pr' ∧
        pr'.cutter.forced ≠ pr.cutter.forced) ∧
      ∀ l u h st, t.examined l = some u → (t.lane l).target = some (h, st) → u.malformed st = false)

/-- A port reset, by Reset Port or by the link, clears the port's queues, indication, staging record, hold flag, mask and
LANE_SLOT, keeps its staging bytes and fetch window, takes it out of every watch set with its latches and out of every pending
set, and frees its lanes; Reset Port then answers OK as the only response. The other ports keep their records and the
programmes go onward. With the throttle off, so that no header is parsed in the same step, the entry of a partly copied unit of
a freed lane is removed, with no error and no statistic of any programme but the segments that it may close; and, with nothing
waiting for the Segment Table or the Output Store besides, no other entry is removed, the segments that waited for this port
alone are freed, and no other changes but for the port in its pending set. -/
def Obligations.PortResetRule : Prop :=
  (∀ (c : Instr) (s : State) (p : Port) (tag : BitVec 16), (c = .resetPort p tag ∧ s.takesNow p = true) ∨ c = .linkReset p →
    ∃ t, exec c s = .next t ∧
      (t.port p).responses = (if c = .linkReset p then [] else [⟨0x91, tag, ⟨.ok, .empty⟩⟩]) ∧ (t.port p).commands = [] ∧
      (t.port p).overflow = false ∧ (t.port p).staging = none ∧ (t.port p).hold = false ∧ (t.port p).mask = 0 ∧
      (t.port p).laneSlot = false ∧ (t.port p).area = (s.port p).area ∧ (t.port p).window = (s.port p).window ∧
      (∀ q, q ≠ p → PortState.SameRecords (s.port q) (t.port q)) ∧ (∀ i, t.gen i = s.gen i) ∧ t.pending = s.pending ∧
      (∀ l, (t.lane l).owner ≠ some p) ∧ (∀ g ∈ t.segments, g.owes p = false) ∧
      (∀ i x, s.prog i = some x → ∃ y, t.prog i = some y ∧ x.Onward y ∧ y.watch.get p = false ∧ y.latches.get p = 0)) ∧
  (∀ (c : Instr) (s : State) (p : Port) (tag : BitVec 16), (c = .resetPort p tag ∧ s.takesNow p = true) ∨ c = .linkReset p →
    s.storeQueue = [] → s.tableQueue = [] → s.throttle = false →
    ∃ t, exec c s = .next t ∧
      t.segments = (s.segments.filter (fun g => !g.owedByAlone p)).map (fun g =>
        match g.status with
        | .closed e pend false => if pend.get p = true then { g with status := .closed e (pend.set p false) false } else g
        | .closed _ _ true => g
        | .opened => g) ∧
      ∀ n, n ∈ t.entries.map Entry.name ↔ n ∈ s.entries.map Entry.name ∧ ∀ l h st q k, (s.lane l).owner = some p →
        (s.lane l).target = some (h, st) → (s.lane l).pos = .inPayload q k → n ≠ ⟨h, st, q⟩) ∧
  (∀ (c : Instr) (s : State) (p : Port) (tag : BitVec 16), (c = .resetPort p tag ∧ s.takesNow p = true) ∨ c = .linkReset p →
    s.throttle = false → ∃ t, exec c s = .next t ∧
      (∀ l h st q k, (s.lane l).owner = some p → (s.lane l).target = some (h, st) → (s.lane l).pos = .inPayload q k →
        ∀ e ∈ t.entries, e.name ≠ ⟨h, st, q⟩) ∧
      ∀ i x, s.prog i = some x → ∃ y, t.prog i = some y ∧ y.error = x.error ∧
        y.stats = { x.stats with segmentsClosed := y.stats.segmentsClosed })

/-- The throttle is on exactly while one of the five sources is, and while it is on no header parse takes place. Each occupancy
source whose count a step changed is on after it when the count reaches the high mark, or when it was on and the count is
above the low mark; one whose count did not change stays as it was: for the operation itself, and for the step of every row
but header parse, in which a source can turn on, a device reset and the two that can take several commands, as long as the
throttle's turn-off parses no header in the step. A header parse that brings ACCEPT or PAYLOAD to its high mark, and a HELD
count equal to the held limit, force the horizons; an unequal one changes nothing. -/
def Obligations.ThrottleFollowsSources : Prop :=
  (∀ s : State, s.throttle = true ↔ (s.sources.accept = true ∨ s.sources.payload = true ∨ s.sources.store = true ∨
    s.sources.table = true ∨ ∃ p, (s.port p).hold = true)) ∧
  (∀ s : State, s.throttle = true → exec .headerParse s = .next s) ∧
  (∀ before s : State,
    let t := evaluateSources before s
    SourceFollows 448 384 s.sources.accept t.sources.accept before.acceptCount s.acceptCount ∧
    SourceFollows 458752 393216 s.sources.payload t.sources.payload before.payloadCount s.payloadCount ∧
    SourceFollows 917504 786432 s.sources.store t.sources.store before.storeCount s.storeCount ∧
    SourceFollows 1920 1792 s.sources.table t.sources.table before.tableCount s.tableCount) ∧
  (∀ (c : Instr) (s t : State), (∀ p v, c ≠ .submitWord p v) → (∀ p v, c ≠ .takeWord p v) → c ≠ .headerParse →
    c ≠ .deviceReset → exec c s = .next t →
    (s.throttle = false ∨ ((∃ p, (s.port p).hold = true) ∧ ∃ p, (t.port p).hold = true)) →
    SourceFollows 448 384 s.sources.accept t.sources.accept s.acceptCount t.acceptCount ∧
    SourceFollows 458752 393216 s.sources.payload t.sources.payload s.payloadCount t.payloadCount ∧
    SourceFollows 917504 786432 s.sources.store t.sources.store s.storeCount t.storeCount ∧
    SourceFollows 1920 1792 s.sources.table t.sources.table s.tableCount t.tableCount) ∧
  (∀ (s : State) (l : LaneId) (h : Handle) (st : Stream) (r : StreamRecord) (u : UnitHeader),
    arbiterChoice s = some (l, h, st, r, u) → (s.entries.map Entry.name).Nodup → s.entry ⟨h, st, r.nextSeq⟩ = none →
    (448 ≤ s.acceptCount + 1 ∨ 458752 ≤ s.payloadCount + (u.length + 511) / 512) →
    ∃ t, exec .headerParse s = .next t ∧ ∀ i pr g, s.prog i = some pr → s.greatestHeld i = some g →
      ∃ pr' f, t.prog i = some pr' ∧ pr'.cutter.forced = some f ∧ g ≤ f ∧
        ((∀ f, pr.cutter.forced = some f → f < g) → pr'.cutter.horizon.reaches (g : Int) = true ∧
          ∀ q, pr.watch.get q = true → pr'.holds q .forced)) ∧
  (∀ (s : State) (i : SlotId) (pr : Programme), s.prog i = some pr →
    (s.heldCount i ≠ pr.active.heldLimit → compareHeld i s = s) ∧
    (∀ g, s.heldCount i = pr.active.heldLimit → s.greatestHeld i = some g →
      ∃ pr' f, (compareHeld i s).prog i = some pr' ∧ pr'.cutter.forced = some f ∧ g ≤ f ∧
        ((∀ f, pr.cutter.forced = some f → f < g) → pr'.cutter.horizon.reaches (g : Int) = true ∧
          ∀ q, pr.watch.get q = true → pr'.holds q .forced)))

/-! ### The parser -/

/-- HEADER_PARSE serves the first lane, in lane-number order from the arbiter's pointer on and wrapping, that waits at a header
whose needs are met: its entry stands FILLING with the header's fields (the slide index in a SLIDE stream alone), granules for
its length and the next sequence number; sixteen bytes are consumed, the lane is IN_PAYLOAD, the duration is the stream's last
header duration, and the pointer designates the lane after it. A lane waits where its programme is INGESTING, the throttle is
off and the sixteen bytes of a header that is not malformed are present; its needs are a free entry and the granules. Where no
lane waits so, header parse does not take place (log 6). -/
def Obligations.HeaderParseTaken : Prop :=
  (∀ (s : State) (l : LaneId) (h : Handle) (st : Stream) (r : StreamRecord) (u : UnitHeader),
      arbiterChoice s = some (l, h, st, r, u) → s.entry ⟨h, st, r.nextSeq⟩ = none →
      ∃ t e, exec .headerParse s = .next t ∧ t.entry ⟨h, st, r.nextSeq⟩ = some e ∧ e.state = .filling ∧ e.length = u.length ∧
        e.timestamp = u.timestamp ∧ e.key = u.key ∧ e.piece = u.piece ∧
        e.duration = (if u.duration = 0 then r.lastHeaderDuration.getD 1 else u.duration) ∧
        e.slideIndex = (if st = .slide then u.slideIndex else none) ∧
        (∀ g ∈ e.granules, g ∉ s.payloadUsed) ∧ e.granules.length = (u.length + 511) / 512 ∧
        (t.lane l).pos = .inPayload r.nextSeq u.length ∧ (t.lane l).consumed = (s.lane l).consumed + 16 ∧
        (t.lane l).begun = (s.lane l).begun + 1 ∧ t.parsePtr = l + 1 ∧
        (∃ pr r', t.prog h.slot = some pr ∧ pr.stream st = some r' ∧ r'.nextSeq = r.nextSeq + 1 ∧
          r'.lastHeaderDuration = some e.duration) ∧ t.pending = s.pending ∧
        (∀ q, PortState.SameRecords (s.port q) (t.port q))) ∧
  (∀ s : State, arbiterChoice s = none → exec .headerParse s = .next s) ∧
  (∀ s : State,
    (∀ l h st r u, arbiterChoice s = some (l, h, st, r, u) → s.waiting l = some (h, st, r, u) ∧ s.supplyMeets u = true ∧
      ∃ j : Fin 8, l = s.parsePtr + j ∧ ∀ k : Fin 8, k < j → ∀ h' st' r' u',
        s.waiting (s.parsePtr + k) = some (h', st', r', u') → s.supplyMeets u' = false) ∧
    (arbiterChoice s = none → ∀ l h st r u, s.waiting l = some (h, st, r, u) → s.supplyMeets u = false)) ∧
  (∀ (s : State) (l : LaneId) (h : Handle) (st : Stream) (r : StreamRecord) (u : UnitHeader),
    s.waiting l = some (h, st, r, u) ↔ (s.lane l).target = some (h, st) ∧
      (∃ pr, s.prog h.slot = some pr ∧ pr.state = .ingesting ∧ pr.stream st = some r) ∧ s.throttle = false ∧
      (s.lane l).discarding = false ∧ (s.lane l).pos = .atHeader ∧ 16 ≤ (s.lane l).available ∧
      readUnitHeader ((s.lane l).peek 16) = some u ∧ u.malformed st = false) ∧
  (∀ (s : State) (u : UnitHeader), s.supplyMeets u = true ↔
    s.entries.length < 512 ∧ s.payloadCount + (u.length + 511) / 512 ≤ 524288)

/-- MALFORMED_HEADER: the header's bytes are consumed and the lane discards, in RESYNC or in ENDING; the statistic and the error
record name the stream, with no piece, sequence or time, and every watching port's ERROR latch is set. -/
def Obligations.MalformedHeaderTaken : Prop :=
  ∀ (s : State) (l : LaneId) (u : UnitHeader) (h : Handle) (st : Stream) (pr : Programme),
    s.examined l = some u → (s.lane l).target = some (h, st) → u.malformed st = true → s.prog h.slot = some pr →
    ∃ t pr', exec (.malformedHeader l) s = .next t ∧ (t.lane l).discarding = true ∧
      (t.lane l).state = (if (s.lane l).state = .ending then .ending else .resync) ∧
      (t.lane l).consumed = (s.lane l).consumed + 16 ∧ t.prog h.slot = some pr' ∧
      pr'.stats.malformedUnit = pr.stats.malformedUnit + 1 ∧
      pr'.error = some ⟨.malformedUnit, some st, none, none, none⟩ ∧ pr'.state = pr.state ∧
      (∀ q, pr.watch.get q = true → pr'.holds q .error) ∧ t.entries = s.entries ∧ t.segments = s.segments

/-- UNIT_COMPLETE with the throttle off: the rest of the payload is consumed, the parser stands at a header, and the unit has
left FILLING, mapped or discarded; the Payload Area holds the rest of the payload as `PayloadCopied` says; the programmes go
onward. A unit that is kept moves its stream: position, previous
timestamp, duration, anchor and piece; the mapped statistic of its stream, the reach, and the running end of the current piece
follow it; its entry carries t, dm, the stream position and the piece. Where it makes the HELD count equal to the held limit
the horizon is forced, and the forced horizon stays as it was otherwise (judged for a unit that is not of a SLIDE stream, which
stages 2 and 3 of the cutter's step pass over; names unique). -/
def Obligations.UnitCompleteTaken : Prop :=
  (∀ (s : State) (l : LaneId) (n : ItemName) (rem : Nat), s.completable l = some (n, rem) → s.throttle = false →
    (∃ pr, s.prog n.handle.slot = some pr ∧ (pr.stream n.stream).isSome = true) →
    ∃ t, exec (.unitComplete l) s = .next t ∧ (t.lane l).pos = .atHeader ∧
      (t.lane l).consumed = (s.lane l).consumed + BitVec.ofNat 48 rem ∧
      t.payloadArea = (copyPayload l rem s).payloadArea ∧
      (∀ e ∈ t.entries, e.name = n → e.state ≠ .filling) ∧
      (∀ i x, s.prog i = some x → ∃ y, t.prog i = some y ∧ x.Onward y)) ∧
  (∀ (s : State) (l : LaneId) (n : ItemName) (rem : Nat) (e : Entry) (pr : Programme) (r : StreamRecord) (u : MappedUnit),
    s.completable l = some (n, rem) → s.throttle = false → s.entry n = some e → s.prog n.handle.slot = some pr →
    pr.stream n.stream = some r → (pr.mapUnit r e).unit = some u → (pr.mapUnit r e).limit = .kept →
    let m := pr.mapUnit r e
    let x := match r.position with | some y => max y u.t.toNat | none => u.t.toNat
    ∃ t pr' r', exec (.unitComplete l) s = .next t ∧ t.prog n.handle.slot = some pr' ∧ pr'.stream n.stream = some r' ∧
      r'.position = some x ∧ r'.uPrev = some u.u ∧ r'.durPrev = some e.duration ∧ r'.anchor = u.anchor ∧
      r'.piece = some u.piece ∧
      (∀ st, pr'.stats.mapped.get st = pr.stats.mapped.get st + (if st = n.stream then 1 else 0)) ∧
      pr'.cutter.reach = max pr.cutter.reach (u.t.toNat + u.dm) ∧
      pr'.pieces = (if u.piece = m.prog.currentPiece then
        m.prog.pieces.modify u.piece (fun y => { y with runningEnd := max y.runningEnd (u.t.toNat + u.dm) })
        else m.prog.pieces) ∧
      (∀ y ∈ t.entries, y.name = n → y.timing = some ⟨u.t.toNat, u.dm, x⟩ ∧ y.piece = u.piece ∧ y.state ≠ .filling) ∧
      (n.stream ≠ .slide → e.state = .filling → (s.entries.map Entry.name).Nodup →
        (s.heldCount n.handle.slot + 1 ≠ m.prog.active.heldLimit → pr'.cutter.forced = pr.cutter.forced) ∧
        (s.heldCount n.handle.slot + 1 = m.prog.active.heldLimit → ∃ f, pr'.cutter.forced = some f ∧ x ≤ f ∧
          ((∀ f, pr.cutter.forced = some f → f < x) → pr'.cutter.horizon.reaches (x : Int) = true ∧
            ∀ q, pr.watch.get q = true → pr'.holds q .forced))))

/-- Copying payload puts each byte in its place of the entry's granules, in order, and leaves every other byte of the Payload
Area as it was. (`UnitCompleteTaken` and `SlotFreeTaken` say when UNIT_COMPLETE and SLOT_FREE copy.) -/
def Obligations.PayloadCopied : Prop :=
  ∀ (s : State) (l : LaneId) (n : Nat) (name : ItemName) (seq : BitVec 24) (rem : Nat) (e : Entry),
    (s.lane l).unitName = some name → (s.lane l).pos = .inPayload seq rem → s.entry name = some e →
    Mem.wf s.payloadArea = true → e.granules.Nodup → n ≤ rem → rem ≤ e.length → e.length ≤ 512 * e.granules.length →
    (∀ j, j < n → Mem.read (copyPayload l n s).payloadArea (granuleAddr e.granules (e.length - rem + j)) =
      ((s.lane l).peek n).getD j 0) ∧
    (∀ a, (∀ j, j < n → a ≠ granuleAddr e.granules (e.length - rem + j)) →
      Mem.read (copyPayload l n s).payloadArea a = Mem.read s.payloadArea a)

/-- The limits are tested in the order early (below 0), late (at or beyond the next piece's offset, in a CLOSED piece), TIME_RANGE
(above T_MAX); and a unit that a limit or a missing timestamp discards is removed with its entry in its mapping step, which
counts an early or a late discard and leaves the stream as it was. Each error class raised in a mapping step is counted, and
the last of those whose report is on leaves its record and sets ERROR; a reported TIME_RANGE halts an INGESTING programme with
STATE set (throttle off; settings kept, so that no activation touches a report enable). -/
def Obligations.LimitsInOrder : Prop :=
  (∀ (pr : Programme) (k : Nat) (t : Int),
    (pr.limitOf k t = .early ↔ t < 0) ∧
    (pr.limitOf k t = .late ↔ 0 ≤ t ∧ k < pr.currentPiece ∧ ∃ nx, pr.pieces[k + 1]? = some nx ∧ (nx.offset : Int) ≤ t) ∧
    (pr.limitOf k t = .timeRange → 4294967295 < t) ∧ (pr.limitOf k t = .kept → 0 ≤ t ∧ t ≤ 4294967295)) ∧
  (∀ (s : State) (n : ItemName) (e : Entry) (pr : Programme) (r : StreamRecord), s.entry n = some e →
    s.prog n.handle.slot = some pr → pr.stream n.stream = some r →
    ((pr.mapUnit r e).unit = none ∨ (pr.mapUnit r e).limit ≠ .kept) →
    (mapStep n s).entries = s.entries.filter (fun x => decide (x.name ≠ n))) ∧
  (∀ (s : State) (l : LaneId) (n : ItemName) (rem : Nat) (e : Entry) (pr : Programme) (r : StreamRecord),
    s.completable l = some (n, rem) → s.throttle = false → s.entry n = some e → s.prog n.handle.slot = some pr →
    pr.stream n.stream = some r → pr.SettingsKept →
    let m := pr.mapUnit r e
    let discarded := m.unit = none ∨ m.limit ≠ .kept
    let reported := m.raised.filter (fun c => m.prog.active.reports c)
    ∃ t pr', exec (.unitComplete l) s = .next t ∧ t.prog n.handle.slot = some pr' ∧
      (discarded → pr'.stream n.stream = some r ∧ (∀ y ∈ t.entries, y.name ≠ n) ∧ pr'.stats.mapped = pr.stats.mapped) ∧
      pr'.stats.early = pr.stats.early + (if m.unit ≠ none ∧ m.limit = .early then 1 else 0) ∧
      pr'.stats.late = pr.stats.late + (if m.unit ≠ none ∧ m.limit = .late then 1 else 0) ∧
      pr'.stats.pieceLimit = pr.stats.pieceLimit + (if .pieceLimit ∈ m.raised then 1 else 0) ∧
      pr'.stats.timestampMissing = pr.stats.timestampMissing + (if .timestampMissing ∈ m.raised then 1 else 0) ∧
      pr'.stats.discontinuity = pr.stats.discontinuity + (if .discontinuity ∈ m.raised then 1 else 0) ∧
      pr'.stats.timeRange = pr.stats.timeRange + (if .timeRange ∈ m.raised then 1 else 0) ∧
      pr'.error = (match reported.getLast? with
        | none => pr.error
        | some c => some ⟨c, some n.stream, some (if c = .pieceLimit then e.piece else m.piece), some n.seq,
            m.unit.map (fun u => errorTime u.t)⟩) ∧
      (reported ≠ [] → ∀ q, pr.watch.get q = true → pr'.holds q .error) ∧
      pr'.state = (if .timeRange ∈ reported ∧ pr.state = .ingesting then .halted else pr.state) ∧
      (.timeRange ∈ reported → pr.state = .ingesting → ∀ q, pr.watch.get q = true → pr'.holds q .state))

/-- SLOT_FREE. Each full-size slot that a discarding parser passes frees: it leaves the post order, its bytes count as consumed,
and the owner's LANE_SLOT latch is set. One whose bytes are payload of a unit that goes on beyond it frees so too, with the bytes
copied as `PayloadCopied` says. A slot that ends in a flush boundary frees while the parser discards, or when nothing is left
before the boundary: its boundary is acted on with it, discarding ends and a header follows. No entry and no programme changes.
(That SLOT_FREE of such a slot acts on the boundary, and so does what FLUSH_BOUNDARY does, is the model's reading, log 32:
spec/95_what_each_step_holds.md lists RESYNC_END, "Discarding ends at a flush boundary", within SLOT_FREE.) -/
def Obligations.SlotFreeTaken : Prop :=
  (∀ (s : State) (l : LaneId) (b : SlotNo) (rest : List SlotNo), s.parserWorks l = true → (s.lane l).order = b :: rest →
    ((s.lane l).slot b).count = some 32768 → (s.lane l).readPos ≤ 32768 → (s.lane l).discarding = true →
    ∃ t, exec (.slotFree l) s = .next t ∧ (t.lane l).order = rest ∧ ((t.lane l).slot b).count = none ∧
      (t.lane l).readPos = 0 ∧
      (t.lane l).consumed = (s.lane l).consumed + BitVec.ofNat 48 (32768 - (s.lane l).readPos) ∧
      (∀ q, (s.lane l).owner = some q → (t.port q).laneSlot = true) ∧ t.entries = s.entries ∧ ∀ i, t.prog i = s.prog i) ∧
  (∀ (s : State) (l : LaneId) (b : SlotNo) (rest : List SlotNo) (n : ItemName) (q : BitVec 24) (rem : Nat),
    s.parserWorks l = true → (s.lane l).order = b :: rest → ((s.lane l).slot b).count = some 32768 →
    (s.lane l).readPos ≤ 32768 → (s.lane l).discarding = false → (s.lane l).unitName = some n →
    (s.lane l).pos = .inPayload q rem → 32768 - (s.lane l).readPos < rem → (s.entry n).isSome = true →
    ∃ t, exec (.slotFree l) s = .next t ∧ (t.lane l).order = rest ∧ ((t.lane l).slot b).count = none ∧
      (t.lane l).readPos = 0 ∧ (t.lane l).pos = .inPayload q (rem - (32768 - (s.lane l).readPos)) ∧
      (t.lane l).consumed = (s.lane l).consumed + BitVec.ofNat 48 (32768 - (s.lane l).readPos) ∧
      t.payloadArea = (copyPayload l (32768 - (s.lane l).readPos) s).payloadArea ∧
      (∀ p, (s.lane l).owner = some p → (t.port p).laneSlot = true) ∧ t.entries = s.entries ∧
      ∀ i, t.prog i = s.prog i) ∧
  (∀ (s : State) (l : LaneId) (b : SlotNo) (rest : List SlotNo) (c : Nat), s.parserWorks l = true →
    (s.lane l).order = b :: rest → ((s.lane l).slot b).count = some c → 0 < c → c < 32768 →
    ((s.lane l).discarding = true ∨ ((s.lane l).pos = .atHeader ∧ c ≤ (s.lane l).readPos)) →
    exec (.slotFree l) s = exec (.flushBoundary l) s ∧
    ∃ t, exec (.slotFree l) s = .next t ∧ (t.lane l).order = rest ∧ ((t.lane l).slot b).count = none ∧
      (t.lane l).readPos = 0 ∧ (t.lane l).pos = .atHeader ∧ (t.lane l).discarding = false ∧ (t.lane l).state ≠ .resync ∧
      (t.lane l).consumed = (s.lane l).consumed + BitVec.ofNat 48 (c - (s.lane l).readPos) ∧
      (∀ p, (s.lane l).owner = some p → (t.port p).laneSlot = true) ∧ t.entries = s.entries ∧
      t.payloadArea = s.payloadArea ∧ ∀ i, t.prog i = s.prog i)

/-- FLUSH_BOUNDARY with the throttle off: the parser stands at a header and discards no more, out of RESYNC; a unit cut short is
removed with its entry and counted and reported as MALFORMED_UNIT with its sequence number; 1 to 15 bytes of a header are
counted and reported so without a sequence number and no entry goes; a boundary met while discarding or between units changes
neither the programme nor the queue. -/
def Obligations.FlushBoundaryTaken : Prop :=
  ∀ (s : State) (l : LaneId) (h : Handle) (st : Stream) (pr : Programme), s.parserWorks l = true →
    (s.lane l).boundary = .flush → (s.lane l).reachesBoundary = true → s.throttle = false →
    (s.lane l).target = some (h, st) → s.prog h.slot = some pr →
    ∃ t pr', exec (.flushBoundary l) s = .next t ∧ (t.lane l).discarding = false ∧ (t.lane l).pos = .atHeader ∧
      (t.lane l).state ≠ .resync ∧ t.prog h.slot = some pr' ∧
      (∀ q k, (s.lane l).discarding = false → (s.lane l).pos = .inPayload q k →
        t.entries = s.entries.filter (fun e => decide (e.name ≠ ⟨h, st, q⟩)) ∧
        pr'.stats.malformedUnit = pr.stats.malformedUnit + 1 ∧
        pr'.error = some ⟨.malformedUnit, some st, none, some q, none⟩ ∧
        ∀ p, pr.watch.get p = true → pr'.holds p .error) ∧
      ((s.lane l).discarding = false → (s.lane l).pos = .atHeader → (s.lane l).available ≠ 0 →
        t.entries = s.entries ∧ pr'.stats.malformedUnit = pr.stats.malformedUnit + 1 ∧
        pr'.error = some ⟨.malformedUnit, some st, none, none, none⟩ ∧
        ∀ p, pr.watch.get p = true → pr'.holds p .error) ∧
      ((s.lane l).discarding = false → (s.lane l).pos = .atHeader → (s.lane l).available = 0 →
        t.entries = s.entries ∧ pr' = pr) ∧
      ((s.lane l).discarding = true → t.entries = s.entries ∧ pr' = pr)

/-- END_OF_STREAM: the lane is FREE with its bytes as they were, and the stream has no lane and its ended flag is set; the
programmes go onward. A SLIDE stream's end drops the candidate and makes H unbounded. With the throttle off, a unit cut short
is removed with its entry and counted and reported as MALFORMED_UNIT with its sequence number, 1 to 15 bytes of a header
without one, and otherwise nothing is counted or reported. -/
def Obligations.EndOfStreamTaken : Prop :=
  ∀ (s : State) (l : LaneId) (h : Handle) (st : Stream) (pr : Programme) (r : StreamRecord), s.parserWorks l = true →
    (s.lane l).boundary = .eos → (s.lane l).reachesBoundary = true → (s.lane l).target = some (h, st) →
    s.prog h.slot = some pr → pr.stream st = some r →
    ∃ t pr' r', exec (.endOfStream l) s = .next t ∧
      t.lane l = LaneRecord.freeWith (s.lane l).slot0.bytes (s.lane l).slot1.bytes ∧ t.prog h.slot = some pr' ∧
      pr'.stream st = some r' ∧ r'.lane = none ∧ r'.ended = true ∧ r'.position = r.position ∧ pr.Onward pr' ∧
      OthersOnward s t h.slot ∧
      (st = .slide → pr'.cutter.candidate = none ∧ ∀ x, pr'.cutter.horizon.reaches x = true) ∧
      (s.throttle = false →
        (∀ q k, (s.lane l).discarding = false → (s.lane l).pos = .inPayload q k →
          (∀ e ∈ t.entries, e.name ≠ ⟨h, st, q⟩) ∧ pr'.stats.malformedUnit = pr.stats.malformedUnit + 1 ∧
          pr'.error = some ⟨.malformedUnit, some st, none, some q, none⟩ ∧
          ∀ p, pr.watch.get p = true → pr'.holds p .error) ∧
        ((s.lane l).discarding = false → (s.lane l).pos = .atHeader → (s.lane l).available ≠ 0 →
          pr'.stats.malformedUnit = pr.stats.malformedUnit + 1 ∧
          pr'.error = some ⟨.malformedUnit, some st, none, none, none⟩ ∧
          ∀ p, pr.watch.get p = true → pr'.holds p .error) ∧
        (((s.lane l).discarding = true ∨ ((s.lane l).pos = .atHeader ∧ (s.lane l).available = 0)) →
          pr'.stats.malformedUnit = pr.stats.malformedUnit ∧ pr'.error = pr.error))

/-! ### The mapper's arithmetic -/

/-- Rounding a / 1 000 000: NEAREST gives the nearest integer, a half going away from zero; CHOP the integer toward zero;
the mode is that of the piece in which the unit is mapped (R71). -/
def Obligations.RoundingRule : Prop :=
  (∀ a : Int,
    (∃ q : Int, q = roundMillion .nearest a ∧ 2 * (a - q * 1000000).natAbs ≤ 1000000 ∧
      (2 * (a - q * 1000000).natAbs = 1000000 → a.natAbs < q.natAbs * 1000000)) ∧
    (∃ q : Int, q = roundMillion .chop a ∧ (a - q * 1000000).natAbs < 1000000 ∧ q.natAbs * 1000000 ≤ a.natAbs ∧
      (q = 0 ∨ (0 < q ↔ 0 < a)))) ∧
  (∀ (piece : PieceRecord) (st : Stream) (u o : Int), piece.origin = some o →
    programmeTime piece st u = piece.offset + (u - o) +
      roundMillion piece.values.rounding ((u - o) * piece.values.rates.get st))

/-- The mapper's stages. Piece selection: a label in the list names its piece; one above the current label opens a piece, or,
with sixteen records, is a PIECE_LIMIT taken in the current piece; any other is taken in the current piece. An opened piece
lies after the running end of the one it closes, at a multiple of F with the new gap, takes the active piece values, and
LIMIT marks a skipped number and a full list. Unwrap: the first unit of a stream in a piece is read nearest the piece's
origin, or sets it; a later one steps from the previous reading, is set to follow the previous unit when the step exceeds the
jump threshold, and is interpolated without a timestamp, which a first unit may not lack. A duration of 1 to 65 535 ticks,
corrected by at most 500 ppm in either mode, maps to 1 to 65 568 TU, within 33 of the duration, and one tick maps to 1 TU. The
unwrap step is the smallest in either direction that leads from the previous reading to the timestamp modulo 2^33, the step of
exactly 2^32 going down. The mapping step composes these, and raises each error class where its stage does. -/
def Obligations.MapperArithmetic : Prop :=
  (∀ (pr : Programme) (n : Nat),
    (∀ (k : Nat) (pc : PieceRecord), pr.pieces[k]? = some pc → pc.label = n →
      (∀ (j : Nat) (y : PieceRecord), j < k → pr.pieces[j]? = some y → y.label ≠ n) → pr.selectPiece n = (k, false, pr)) ∧
    (∀ cur : PieceRecord, pr.pieces.getLast? = some cur → (∀ y ∈ pr.pieces, y.label ≠ n) →
      (cur.label < n → pr.pieces.length < 16 → pr.selectPiece n = (pr.pieces.length, false, pr.openPiece n)) ∧
      (cur.label < n → 16 ≤ pr.pieces.length → pr.selectPiece n = (pr.pieces.length - 1, true, pr)) ∧
      (n ≤ cur.label → pr.selectPiece n = (pr.pieces.length - 1, false, pr))) ∧
    (∀ cur : PieceRecord, pr.pieces.getLast? = some cur → 0 < pr.frame →
      let c := pr.openPiece n
      let offset := (cur.runningEnd + (pr.frame - 1)) / pr.frame * pr.frame + c.active.gap * pr.frame
      c.pieces = pr.pieces ++ [⟨n, offset, none, offset, ⟨c.active.rates, c.active.jump, c.active.gap, c.active.rounding⟩⟩] ∧
      c.cutter = pr.cutter ∧ c.streams = pr.streams ∧ c.stats = pr.stats ∧ c.state = pr.state ∧ c.error = pr.error ∧
      ((cur.label + 1 < n ∨ pr.pieces.length = 15) → ∀ q, pr.watch.get q = true → c.holds q .limit))) ∧
  (∀ (frame k : Nat) (piece : PieceRecord) (r : StreamRecord),
    ((r.uPrev = none ∨ r.piece ≠ some k) →
      unwrap frame k piece r none = .missing ∧
      ∀ p : Nat, unwrap frame k piece r (some p) = (match piece.origin with
        | none => .at p 0 false (some p)
        | some o => .at (o + unwrapStep p o) 0 false none)) ∧
    (∀ v : Int, r.uPrev = some v → r.piece = some k →
      unwrap frame k piece r none = .at (v + (r.durPrev.getD 0 : Nat)) r.anchor false none ∧
      ∀ p : Nat,
        let d := unwrapStep p (v - r.anchor)
        (d.natAbs ≤ piece.values.jump * frame → unwrap frame k piece r (some p) = .at (v + d) r.anchor false none) ∧
        (piece.values.jump * frame < d.natAbs → unwrap frame k piece r (some p) =
          .at (v + (r.durPrev.getD 0 : Nat)) (r.anchor + (v + (r.durPrev.getD 0 : Nat) - (v + d))) true none))) ∧
  (∀ (piece : PieceRecord) (st : Stream) (dur : Nat), 1 ≤ dur → dur ≤ 65535 → -500 ≤ piece.values.rates.get st →
      piece.values.rates.get st ≤ 500 →
      1 ≤ mappedDuration piece st dur ∧ mappedDuration piece st dur ≤ 65568 ∧
      dur ≤ mappedDuration piece st dur + 33 ∧ mappedDuration piece st dur ≤ dur + 33 ∧ mappedDuration piece st 1 = 1) ∧
  (∀ p prev : Int, 0 ≤ p → p < 8589934592 →
      (prev + unwrapStep p prev) % 8589934592 = p ∧ -4294967296 ≤ unwrapStep p prev ∧ unwrapStep p prev < 4294967296) ∧
  (∀ (pr : Programme) (r : StreamRecord) (e : Entry) (piece : PieceRecord),
    (pr.selectPiece e.piece).2.2.pieces[(pr.selectPiece e.piece).1]? = some piece →
    let k := (pr.selectPiece e.piece).1
    let m := pr.mapUnit r e
    m.piece = k ∧ (.pieceLimit ∈ m.raised ↔ (pr.selectPiece e.piece).2.1 = true) ∧
    (unwrap (pr.selectPiece e.piece).2.2.frame k piece r e.timestamp = .missing →
      m.unit = none ∧ m.prog = (pr.selectPiece e.piece).2.2 ∧ .timestampMissing ∈ m.raised) ∧
    (∀ u anchor disc o, unwrap (pr.selectPiece e.piece).2.2.frame k piece r e.timestamp = .at u anchor disc o →
      let t := programmeTime { piece with origin := piece.origin.or o } e.name.stream u
      m.unit = some ⟨k, u, anchor, t, mappedDuration piece e.name.stream e.duration⟩ ∧
      m.limit = m.prog.limitOf k t ∧ .timestampMissing ∉ m.raised ∧ (.discontinuity ∈ m.raised ↔ disc = true) ∧
      (.timeRange ∈ m.raised ↔ m.limit = .timeRange) ∧
      (m.prog.pieces[k]?).map PieceRecord.origin = some (o.or piece.origin)))

/-! ### The pipes and the stores -/

/-- The dispatcher prefers AUDIO to SLIDE to CAM, takes, of the slots from the class's pointer on and wrapping, the first with a
candidate, and of its entries the earliest READY one of the stream; a candidate is a READY entry of a stream with a rendition,
and one is taken whenever there is one. A dispatch gives it to the lowest-numbered IDLE pipe with its descriptor and a deadline
of now plus the item limit and, for each rendition of the stream, the bitrate of the revision list's record with the entry's
revision, makes it IN_PIPE and moves the class's pointer to the next slot; dispatches follow one another until
no pipe is IDLE or no candidate is left, as after the loss of an item (throttle off). (That a dispatch has a number, and that the
descriptor holds it, is the model's choice, log 36.) -/
def Obligations.DispatchChoice : Prop :=
  (∀ (s : State) (e : Entry), chooseEntry s = some e →
    e ∈ s.entries ∧ s.isCandidate e = true ∧
    (∀ x ∈ s.entries, s.isCandidate x = true → (x.name.stream = .audio → e.name.stream = .audio) ∧
      (x.name.stream = .slide → e.name.stream ≠ .cam)) ∧
    s.entries.find? (fun x => x.inStream e.name.handle.slot e.name.stream && s.isCandidate x) = some e ∧
    ∃ j : Fin 32, e.name.handle.slot = s.dispatchPtr.get e.name.stream + j ∧ ∀ k : Fin 32, k < j → ∀ x ∈ s.entries,
      x.inStream (s.dispatchPtr.get e.name.stream + k) e.name.stream = true → s.isCandidate x = false) ∧
  (∀ (s : State) (x : Entry),
    (s.isCandidate x = true ↔ x.state = .ready ∧
      ∃ pr, s.prog x.name.handle.slot = some pr ∧ x.name.stream ∈ pr.renditions) ∧
    (x ∈ s.entries → s.isCandidate x = true → ∃ e, chooseEntry s = some e)) ∧
  (∀ (s : State) (e : Entry) (k : PipeId) (pr : Programme), chooseEntry s = some e → s.pipe k = .idle →
    (∀ j, j.val < k.val → s.pipe j ≠ .idle) → s.prog e.name.handle.slot = some pr →
    ∃ t d, dispatchAll s = dispatchLoop 3 t ∧ t.pipe k = .encoding d (s.now + pr.active.itemLimit) ∧
      (∀ j, j ≠ k → t.pipe j = s.pipe j) ∧ d.run = s.dispatches ∧ d.item = e.name ∧ d.granules = e.granules ∧
      d.length = e.length ∧ d.timing = e.timing ∧ d.key = e.key ∧ d.segStart = e.segStart ∧ d.forceKey = e.forceKey ∧
      d.renditions = pr.renditionsOf e.name.stream ∧
      d.bitrates = d.renditions.map (fun r => (pr.bitratesOf e.revision).getD r 0) ∧
      (∀ (n : Nat) (x : RevRecord), pr.revisions[n]? = some x → e.revision = some x.revision →
        (∀ (m : Nat) (y : RevRecord), m < n → pr.revisions[m]? = some y → y.revision ≠ x.revision) →
        d.bitrates = d.renditions.map (fun r => x.bitrates.getD r 0)) ∧
      t.entries = s.entries.map (fun x => if x.name = e.name then { x with state := .inPipe } else x) ∧
      t.dispatchPtr.get e.name.stream = e.name.handle.slot + 1 ∧
      (∀ st, st ≠ e.name.stream → t.dispatchPtr.get st = s.dispatchPtr.get st) ∧ t.dispatches = s.dispatches + 1) ∧
  (∀ s : State, (idlePipe s = none ∨ chooseEntry s = none) → dispatchAll s = s) ∧
  (∀ s : State, idlePipe (dispatchAll s) = none ∨ chooseEntry (dispatchAll s) = none) ∧
  (∀ (s : State) (k : PipeId) (d : ItemDescriptor) (dl : Nat), s.pipe k = .encoding d dl → s.throttle = false →
    ∃ t, exec (.watchdogExpiry k) s = .next t ∧ (idlePipe t = none ∨ chooseEntry t = none))

/-- PIPE_COMPLETION. Taken while other pipes wait to store, the pipe is STORING with the outputs and joins the end of the store
queue, and nothing else changes. Taken with an empty store queue, it is examined in the same step: with enough free Output
granules it is granted as STORAGE_GRANT would grant it, its entry DONE without Payload granules (throttle off) and the pipe no
longer in the queue; without enough it waits alone, and nothing else changes (no dispatch being due). One of an item or of a
dispatch that the pipe is not encoding, or without a count for each rendition, changes no state (logs 6, 18 and 36). -/
def Obligations.CompletionWaitsToStore : Prop :=
  (∀ (s : State) (k : PipeId) (d : ItemDescriptor) (dl : Nat) (outs : List EncodedOutput), s.pipe k = .encoding d dl →
    outs.length = d.renditions.length → (∀ o ∈ outs, o.count ≤ 1048576) → s.storeQueue ≠ [] →
    exec (.pipeCompletion k ⟨d.item, d.run⟩ outs) s =
      .next { s.setPipe k (.storing d outs) with storeQueue := s.storeQueue ++ [k] }) ∧
  (∀ (s : State) (k : PipeId) (d : ItemDescriptor) (dl : Nat) (outs : List EncodedOutput), s.pipe k = .encoding d dl →
    outs.length = d.renditions.length → (∀ o ∈ outs, o.count ≤ 1048576) → s.storeQueue = [] →
    let waiting : State := { s.setPipe k (.storing d outs) with storeQueue := [k] }
    (s.storeCount + outputNeed outs ≤ 1048576 →
      exec (.pipeCompletion k ⟨d.item, d.run⟩ outs) s = exec .storageGrant waiting ∧
      (s.throttle = false → ∃ t, exec (.pipeCompletion k ⟨d.item, d.run⟩ outs) s = .next t ∧ k ∉ t.storeQueue ∧
        (∀ x ∈ t.entries, x.name = d.item → x.state = .done ∧ x.granules = []))) ∧
    (1048576 < s.storeCount + outputNeed outs → (idlePipe s = none ∨ chooseEntry s = none) →
      exec (.pipeCompletion k ⟨d.item, d.run⟩ outs) s = .next waiting)) ∧
  (∀ (s : State) (k : PipeId) (n : Encoding) (outs : List EncodedOutput),
    (∀ d dl, s.pipe k = .encoding d dl → d.item ≠ n.name ∨ d.run ≠ n.run ∨ outs.length ≠ d.renditions.length) →
    exec (.pipeCompletion k n outs) s = .next s)

/-- PIPE_COMPLETION with a byte count above 1 048 576 is an ITEM_OVERSIZE, and WATCHDOG_EXPIRY an ITEM_TIMEOUT: with the throttle
off, the entry is LOST without granules, the class counted, its error recorded from the entry, and the watching ports' ERROR
latches set; the programme's state stays but for the end of a drain. The key that the entry carried as a segment start or by
force passes to the earliest READY entry of its stream and segment, or else becomes the stream's force-key mark; an entry that
carried none leaves the mark. At the head of its stream in the current segment, the entry retires at once: each rendition's
open segment keeps its parts, counts it and shows GAP, and KEY_LATE where it carried a key. (Names unique; the clock of the
timeout is the model's, log 8.) -/
def Obligations.LossesTaken : Prop :=
  (∀ (s : State) (k : PipeId) (d : ItemDescriptor) (dl : Nat) (e : Entry) (pr : Programme), s.pipe k = .encoding d dl →
    s.entry d.item = some e → s.prog d.item.handle.slot = some pr → s.throttle = false →
    (∀ outs : List EncodedOutput, outs.length = d.renditions.length → (∃ o ∈ outs, 1048576 < o.count) →
      ∃ t pr', exec (.pipeCompletion k ⟨d.item, d.run⟩ outs) s = .next t ∧
        (∀ x ∈ t.entries, x.name = d.item → x.state = .lost ∧ x.granules = []) ∧ t.prog d.item.handle.slot = some pr' ∧
        pr'.stats.itemOversize = pr.stats.itemOversize + 1 ∧
        pr'.error = some ⟨.itemOversize, some d.item.stream, some e.piece, some d.item.seq,
          e.timing.map (fun x => errorTime x.t)⟩ ∧
        (∀ q, pr.watch.get q = true → pr'.holds q .error) ∧
        (pr'.state = pr.state ∨ (pr.state = .draining ∧ pr'.state = .complete))) ∧
    (∃ t pr', exec (.watchdogExpiry k) s = .next t ∧
      (∀ x ∈ t.entries, x.name = d.item → x.state = .lost ∧ x.granules = []) ∧
      (∀ d' dl', t.pipe k = .encoding d' dl' → d'.item ≠ d.item) ∧ t.prog d.item.handle.slot = some pr' ∧
      pr'.stats.itemTimeout = pr.stats.itemTimeout + 1 ∧
      pr'.error = some ⟨.itemTimeout, some d.item.stream, some e.piece, some d.item.seq,
        e.timing.map (fun x => errorTime x.t)⟩ ∧
      (∀ q, pr.watch.get q = true → pr'.holds q .error) ∧
        (pr'.state = pr.state ∨ (pr.state = .draining ∧ pr'.state = .complete)) ∧ dl ≤ t.now)) ∧
  (∀ (c : Instr) (s : State) (k : PipeId) (d : ItemDescriptor) (dl : Nat) (outs : List EncodedOutput) (e : Entry)
    (pr : Programme) (r : StreamRecord), s.pipe k = .encoding d dl → s.entry d.item = some e → e.state = .inPipe →
    s.prog d.item.handle.slot = some pr → pr.stream d.item.stream = some r → s.throttle = false →
    (s.entries.map Entry.name).Nodup →
    ((c = .pipeCompletion k ⟨d.item, d.run⟩ outs ∧ outs.length = d.renditions.length ∧ ∃ o ∈ outs, 1048576 < o.count) ∨
      c = .watchdogExpiry k) →
    let carried := e.segStart = true ∨ e.forceKey = true
    let heir := s.entries.find? (fun x => decide (x.name.handle.slot = d.item.handle.slot ∧
      x.name.stream = d.item.stream ∧ x.state = .ready ∧ x.segment = e.segment))
    ∃ t pr' r', exec c s = .next t ∧ t.prog d.item.handle.slot = some pr' ∧ pr'.stream d.item.stream = some r' ∧
      (∀ x, carried → heir = some x → r'.forceKeyMark = r.forceKeyMark ∧
        ∃ y ∈ t.entries, y.name = x.name ∧ y.forceKey = true) ∧
      (carried → heir = none → r'.forceKeyMark = e.segment) ∧
      (¬carried → r'.forceKeyMark = r.forceKeyMark) ∧
      (∀ cur, s.head d.item.handle.slot d.item.stream = some e → r.assembly = some ⟨some cur, .assembling⟩ →
        e.segment = some cur → (∀ y ∈ t.entries, y.name ≠ d.item) ∧
        ∀ rn ∈ pr.renditionsOf d.item.stream, ∀ g ∈ s.segments, g.isAt d.item.handle.slot rn cur = true →
          g.status = .opened → ∃ g' ∈ t.segments, g'.isAt d.item.handle.slot rn cur = true ∧ g.parts <+: g'.parts ∧
            g.joined < g'.joined ∧ g'.flags.gap = true ∧ (carried → g'.flags.keyLate = true)))

/-- STORAGE_GRANT with enough free Output granules for the head of the store queue: the head leaves the queue and its entry is
DONE without Payload granules (throttle off, so that no header is parsed in the same step); without enough, nothing
changes (log 6). Where no other pipe waits and the entry is the head of its stream in the current segment, it retires in the
same step: each rendition's open segment is joined by an extent of the output's count, behind the parts it had, that holds the
output's bytes. -/
def Obligations.StorageGrantTaken : Prop :=
  (∀ (s : State) (k : PipeId) (rest : List PipeId) (d : ItemDescriptor) (held : List EncodedOutput), s.WaitQueuesExact →
    s.storeQueue = k :: rest → s.pipe k = .storing d held → s.storeCount + outputNeed held ≤ 1048576 → s.throttle = false →
    ∃ t, exec .storageGrant s = .next t ∧ k ∉ t.storeQueue ∧
      (∀ x ∈ t.entries, x.name = d.item → x.state = .done ∧ x.granules = []) ∧
      (∀ i x, s.prog i = some x → ∃ y, t.prog i = some y ∧ x.Onward y)) ∧
  (∀ (s : State) (k : PipeId) (rest : List PipeId) (d : ItemDescriptor) (held : List EncodedOutput),
    s.storeQueue = k :: rest → s.pipe k = .storing d held → 1048576 < s.storeCount + outputNeed held →
    exec .storageGrant s = .next s) ∧
  (∀ (s : State) (k : PipeId) (d : ItemDescriptor) (held : List EncodedOutput) (pr : Programme) (e : Entry) (cur : Nat),
    s.storeQueue = [k] → s.pipe k = .storing d held → s.storeCount + outputNeed held ≤ 1048576 → s.throttle = false →
    Mem.wf s.outputStore = true → s.prog d.item.handle.slot = some pr →
    held.length = (pr.renditionsOf d.item.stream).length → (s.entries.map Entry.name).Nodup →
    s.head d.item.handle.slot d.item.stream = some e → e.name = d.item →
    s.assembly d.item.handle.slot d.item.stream = some ⟨some cur, .assembling⟩ → e.segment = some cur →
    ∃ t, exec .storageGrant s = .next t ∧ (∀ y ∈ t.entries, y.name ≠ d.item) ∧
      ∀ (n rn : Nat) (o : EncodedOutput), (pr.renditionsOf d.item.stream)[n]? = some rn → held[n]? = some o →
        ∀ g ∈ s.segments, g.isAt d.item.handle.slot rn cur = true → g.status = .opened →
          ∃ g' ∈ t.segments, g'.isAt d.item.handle.slot rn cur = true ∧ g.joined < g'.joined ∧
            ∃ x : Extent, (g.parts ++ [x]) <+: g'.parts ∧ x.count = o.count ∧ x.granules.length = (o.count + 511) / 512 ∧
              ∀ j, j < o.count → Mem.read t.outputStore (granuleAddr x.granules j) = Mem.read o.bytes j)

/-- A storage grant's bytes: what an allocation takes was free and is taken once; each output's bytes stand in its granules in
order; every byte outside the granules taken is as it was. A STORAGE_GRANT to the one waiting pipe leaves the Output Store so,
and its entry, unless it retired in the same step, with those extents as its output (throttle off). -/
def Obligations.GrantPlacesOutputs : Prop :=
  (∀ (m : Mem) (used : List Nat) (held : List EncodedOutput), Mem.wf m = true →
    let gs := allocate used (outputNeed held)
    gs.length = outputNeed held ∧ gs.Nodup ∧ (∀ g ∈ gs, g ∉ used) ∧
    (∀ (n : Nat) (x : Extent) (o : EncodedOutput), (splitExtents gs held)[n]? = some x → held[n]? = some o → x.count = o.count ∧
      x.granules.length = granulesFor o.count ∧
      ∀ j, j < o.count → Mem.read (placeExtents m (splitExtents gs held) held) (granuleAddr x.granules j) =
        Mem.read o.bytes j) ∧
    (∀ a, a / 512 ∉ gs → Mem.read (placeExtents m (splitExtents gs held) held) a = Mem.read m a)) ∧
  (∀ (s : State) (k : PipeId) (d : ItemDescriptor) (held : List EncodedOutput), s.storeQueue = [k] →
    s.pipe k = .storing d held → s.storeCount + outputNeed held ≤ 1048576 → s.throttle = false →
    let extents := splitExtents (allocate s.outputUsed (outputNeed held)) held
    ∃ t, exec .storageGrant s = .next t ∧ t.outputStore = placeExtents s.outputStore extents held ∧ t.storeQueue = [] ∧
      ∀ x ∈ t.entries, x.name = d.item → x.output = some extents)

/-- TABLE_GRANT with enough free entries for the head of the table queue: its stream moves on by at least one segment, or opens
segment 0; without enough, nothing changes (log 6). Every segment that it opens on the way stands in every rendition of the
stream with its cut record's start and the revision in force for it, OPEN at the new current index of a stream that goes on, and
CLOSED below it. The open segment left behind is CLOSED in every rendition with the start of the next cut record as its end, its
bytes as they were, the watch set as its pending set, UNCLAIMED where that is empty, and its flags; and SEGMENT is set (each
request once in the queue; throttle off). -/
def Obligations.TableGrantTaken : Prop :=
  (∀ (s : State) (i : SlotId) (st : Stream) (rest : List (SlotId × Stream)) (pr : Programme) (a : AssemblyRecord),
    s.tableQueue = (i, st) :: rest → s.prog i = some pr → s.assembly i st = some a →
    s.segments.length + (pr.renditionsOf st).length ≤ 2048 →
    ∃ t cur ph, exec .tableGrant s = .next t ∧ t.assembly i st = some ⟨some cur, ph⟩ ∧
      (∀ c, a.current = some c → c < cur) ∧
      (∀ j x, s.prog j = some x → ∃ y, t.prog j = some y ∧ x.Onward y)) ∧
  (∀ (s : State) (i : SlotId) (st : Stream) (rest : List (SlotId × Stream)) (pr : Programme),
    s.tableQueue = (i, st) :: rest → s.prog i = some pr → 2048 < s.segments.length + (pr.renditionsOf st).length →
    exec .tableGrant s = .next s) ∧
  (∀ (s : State) (i : SlotId) (st : Stream) (rest : List (SlotId × Stream)) (pr : Programme) (a : AssemblyRecord),
    s.tableQueue = (i, st) :: rest → s.tableQueue.Nodup → s.throttle = false → s.prog i = some pr →
    s.assembly i st = some a → (a = ⟨none, .waitingOpen⟩ ∨ ∃ c, a = ⟨some c, .assembling⟩) →
    s.segments.length + (pr.renditionsOf st).length ≤ 2048 →
    ∃ t pr' cur ph, exec .tableGrant s = .next t ∧ t.prog i = some pr' ∧ t.assembly i st = some ⟨some cur, ph⟩ ∧
      (∀ j, (∀ c, a.current = some c → c < j) → j ≤ cur → ∀ rn ∈ pr.renditionsOf st, ∃ g ∈ t.segments,
        g.isAt i rn j = true ∧ g.start = (pr.cutter.cutRecord j).start ∧ g.revision = pr.revisionFor j ∧ pr.InForce j g.revision ∧
        (j = cur → ph = .assembling → g.status = .opened) ∧
        (j < cur → g.status =
          .closed (pr.cutter.cutRecord (j + 1)).start pr.watch (!(pr.watch.p0 || pr.watch.p1 || pr.watch.p2)))) ∧
      (∀ c, a.current = some c → (∀ q, pr.watch.get q = true → pr'.holds q .segment) ∧
        ∀ rn ∈ pr.renditionsOf st, ∀ g ∈ s.segments, g.isAt i rn c = true → g.status = .opened →
          ∃ g' ∈ t.segments, g'.isAt i rn c = true ∧ g'.start = g.start ∧ g'.parts = g.parts ∧ g'.joined = g.joined ∧
            g'.revision = g.revision ∧ g'.status =
              .closed (pr.cutter.cutRecord (c + 1)).start pr.watch (!(pr.watch.p0 || pr.watch.p1 || pr.watch.p2)) ∧
            g'.flags = ⟨g.flags.chapterStart || (pr.cutter.cutRecord c).chapterStart, g.flags.gap, g.flags.keyLate,
              decide (g.joined = 0), false⟩ ∧
            (g'.flags.chapterStart = true → g'.firstChapter = pr.cutter.firstChapterAt g.start)))

/-- Three more invariants. At reset and after every step, each occupancy source stands as its marks demand, and every programme's
settings, pending sets and staging records lie in their ranges, its cut list rises strictly from 0 and its chapter list rises
strictly. And in states whose
entries have unique names, every command and event keeps each Output granule with one owner and in room, one segment to an
index of a rendition, at or below its stream's current index, and pending sets exact. (SUBMIT_WORD and TAKE_WORD can take several
queued commands in one step; the ones they take act as their own rows do.) -/
def Obligations.StepKeepsMarksCutsAndStore : Prop :=
  State.reset.SourcesFit ∧ State.reset.SettingsKept ∧ State.reset.OutputExclusive ∧
  (∀ s t : State, s.SourcesFit → step s = .next t → t.SourcesFit) ∧
  (∀ s t : State, s.SettingsKept → step s = .next t → t.SettingsKept) ∧
  (∀ (c : Instr) (s t : State), (∀ p v, c ≠ .submitWord p v) → (∀ p v, c ≠ .takeWord p v) →
    (s.entries.map Entry.name).Nodup → s.OutputExclusive → exec c s = .next t → t.OutputExclusive)

end Statements
end

