-- ==== Sys2Proof/Laws/Memory.lean ====
section
/-! SUPPORT. Reading after writing, and the canonical form that every memory operation keeps. -/

namespace Sys2Proof.Machine

theorem Mem.read_write_same (m : Mem) (a : Nat) (b : Byte) (h : Mem.wf m = true) : Mem.read (Mem.write m a b) a = b := by
  unfold Mem.wf at h
  generalize hlo : (0 : Nat) = lo at h
  clear hlo
  -- Above the address of its first cell a canonical memory reads 0.
  have zero : ∀ (m : Mem) (lo a : Nat), Mem.wfFrom lo m = true → a < lo → Mem.read m a = 0 := by
    intro m
    induction m with
    | nil => intros; rfl
    | cons c m ih =>
      obtain ⟨k, v⟩ := c
      intro lo a h ha
      simp only [Mem.wfFrom, Bool.and_eq_true, decide_eq_true_eq] at h
      simp only [Mem.read]
      rw [if_neg (by omega)]
      exact ih (k + 1) a h.2 (by omega)
  induction m generalizing lo with
  | nil => simp only [Mem.write]; split <;> simp_all [Mem.read]
  | cons c m ih =>
    obtain ⟨k, v⟩ := c
    simp only [Mem.wfFrom, Bool.and_eq_true, decide_eq_true_eq] at h
    simp only [Mem.write]
    split
    · rename_i hlt
      split
      · rename_i hb
        subst hb
        simp only [Mem.read]
        rw [if_neg (by omega)]
        exact zero m (k + 1) a h.2 (by omega)
      · simp [Mem.read]
    · split
      · rename_i heq
        subst heq
        split
        · rename_i hb
          subst hb
          exact zero m (a + 1) a h.2 (by omega)
        · simp [Mem.read]
      · rename_i hne
        simp only [Mem.read]
        rw [if_neg hne]
        exact ih (k + 1) h.2

theorem Mem.read_write_other (m : Mem) (a x : Nat) (b : Byte) (h : x ≠ a) : Mem.read (Mem.write m a b) x = Mem.read m x := by
  induction m with
  | nil => simp only [Mem.write]; split <;> simp [Mem.read, h]
  | cons c m ih =>
    obtain ⟨k, v⟩ := c
    simp only [Mem.write]
    split
    · split
      · rfl
      · simp [Mem.read, h]
    · split
      · rename_i heq
        subst heq
        split <;> simp [Mem.read, h]
      · simp only [Mem.read, ih]

theorem Mem.wfFrom_mono {lo lo' : Nat} (h : lo ≤ lo') (m : Mem) (hm : Mem.wfFrom lo' m = true) : Mem.wfFrom lo m = true := by
  cases m with
  | nil => rfl
  | cons c m =>
    obtain ⟨k, v⟩ := c
    simp only [Mem.wfFrom, Bool.and_eq_true, decide_eq_true_eq] at hm ⊢
    exact ⟨⟨by omega, hm.1.2⟩, hm.2⟩

theorem Mem.wfFrom_write (lo : Nat) (m : Mem) (a : Nat) (b : Byte) (ha : lo ≤ a) (h : Mem.wfFrom lo m = true) :
    Mem.wfFrom lo (Mem.write m a b) = true := by
  induction m generalizing lo with
  | nil => simp only [Mem.write]; split <;> simp_all [Mem.wfFrom]
  | cons c m ih =>
    obtain ⟨k, v⟩ := c
    simp only [Mem.wfFrom, Bool.and_eq_true, decide_eq_true_eq] at h
    obtain ⟨⟨h1, h2⟩, h3⟩ := h
    simp only [Mem.write]
    split
    · split
      · simp only [Mem.wfFrom, Bool.and_eq_true, decide_eq_true_eq]
        exact ⟨⟨h1, h2⟩, h3⟩
      · rename_i hlt hb
        simp only [Mem.wfFrom, Bool.and_eq_true, decide_eq_true_eq]
        exact ⟨⟨ha, hb⟩, ⟨by omega, h2⟩, h3⟩
    · split
      · rename_i heq
        subst heq
        split
        · exact Mem.wfFrom_mono (by omega) m h3
        · rename_i hb
          simp only [Mem.wfFrom, Bool.and_eq_true, decide_eq_true_eq]
          exact ⟨⟨ha, hb⟩, h3⟩
      · simp only [Mem.wfFrom, Bool.and_eq_true, decide_eq_true_eq]
        exact ⟨⟨h1, h2⟩, ih (k + 1) (by omega) h3⟩

/-- A write keeps the canonical form. -/
theorem Mem.wf_write (m : Mem) (a : Nat) (b : Byte) (h : Mem.wf m = true) : Mem.wf (Mem.write m a b) = true :=
  Mem.wfFrom_write 0 m a b (Nat.zero_le a) h

/-- Writing bytes in a row keeps the canonical form. -/
theorem Mem.wf_writeBytes (bs : List Byte) (m : Mem) (a : Nat) (h : Mem.wf m = true) :
    Mem.wf (Mem.writeBytes m a bs) = true := by
  induction bs generalizing m a with
  | nil => exact h
  | cons b bs ih => exact ih _ _ (Mem.wf_write m a b h)

/-- Bytes written in a row leave every address outside them as it was. -/
theorem Mem.read_writeBytes_other (bs : List Byte) (m : Mem) (a x : Nat) (h : x < a ∨ a + bs.length ≤ x) :
    Mem.read (Mem.writeBytes m a bs) x = Mem.read m x := by
  induction bs generalizing m a with
  | nil => rfl
  | cons b bs ih =>
    simp only [List.length_cons] at h
    rw [Mem.writeBytes, ih _ _ (by omega), Mem.read_write_other _ _ _ _ (by omega)]

/-- Bytes written in a row are read back. -/
theorem Mem.read_writeBytes_same (bs : List Byte) (m : Mem) (a j : Nat) (hm : Mem.wf m = true) (h : j < bs.length) :
    Mem.read (Mem.writeBytes m a bs) (a + j) = bs[j] := by
  induction bs generalizing m a j with
  | nil => simp at h
  | cons b bs ih =>
    cases j with
    | zero =>
      rw [Mem.writeBytes, Mem.read_writeBytes_other _ _ _ _ (by omega)]
      exact Mem.read_write_same m a b hm
    | succ j =>
      have := ih (Mem.write m a b) (a + 1) j (Mem.wf_write m a b hm) (by simpa using h)
      simpa [Mem.writeBytes, Nat.add_assoc, Nat.add_comm 1 j] using this

theorem Mem.wfFrom_cellsFrom (f : Nat → Byte) (n a lo : Nat) (h : lo ≤ a) : Mem.wfFrom lo (Mem.cellsFrom f a n) = true := by
  induction n generalizing a lo with
  | zero => rfl
  | succ n ih =>
    simp only [Mem.cellsFrom]
    split
    · exact ih (a + 1) lo (by omega)
    · rename_i hne
      simp only [Mem.wfFrom, Bool.and_eq_true, decide_eq_true_eq]
      exact ⟨⟨h, hne⟩, ih (a + 1) (a + 1) (Nat.le_refl _)⟩

/-- A buffer built from its bytes is in canonical form. -/
theorem Mem.wf_ofBytes (f : Nat → Byte) (n : Nat) : Mem.wf (Mem.ofBytes f n) = true :=
  Mem.wfFrom_cellsFrom f n 0 0 (Nat.le_refl 0)

theorem Mem.read_cellsFrom (f : Nat → Byte) (n a x : Nat) :
    Mem.read (Mem.cellsFrom f a n) x = if a ≤ x ∧ x < a + n then f x else 0 := by
  induction n generalizing a with
  | zero => rw [if_neg (by omega)]; rfl
  | succ n ih =>
    simp only [Mem.cellsFrom]
    split
    · rename_i hz
      rw [ih]
      by_cases hx : x = a
      · subst hx
        rw [if_neg (by omega), if_pos (by omega), hz]
      · by_cases hin : a ≤ x ∧ x < a + (n + 1)
        · rw [if_pos hin, if_pos (by omega)]
        · rw [if_neg hin, if_neg (by omega)]
    · simp only [Mem.read, ih]
      by_cases hx : x = a
      · subst hx
        rw [if_pos rfl, if_pos (by omega)]
      · rw [if_neg hx]
        by_cases hin : a ≤ x ∧ x < a + (n + 1)
        · rw [if_pos hin, if_pos (by omega)]
        · rw [if_neg hin, if_neg (by omega)]

/-- Such a buffer reads its bytes, and 0 beyond them. -/
theorem Mem.read_ofBytes (f : Nat → Byte) (n x : Nat) : Mem.read (Mem.ofBytes f n) x = if x < n then f x else 0 := by
  rw [Mem.ofBytes, Mem.read_cellsFrom]
  by_cases h : x < n
  · rw [if_pos h, if_pos (by omega)]
  · rw [if_neg h, if_neg (by omega)]

theorem wf_writeGranules (gs : List Nat) (bs : List Byte) (m : Mem) (i : Nat) (h : Mem.wf m = true) :
    Mem.wf (writeGranules m gs i bs) = true := by
  induction bs generalizing m i with
  | nil => exact h
  | cons b bs ih => exact ih _ _ (Mem.wf_write m _ b h)

theorem wf_placeOutput (gs : List Nat) (out : Mem) (n : Nat) (m : Mem) (i : Nat) (h : Mem.wf m = true) :
    Mem.wf (placeOutput m gs out i n) = true := by
  induction n generalizing m i with
  | zero => exact h
  | succ n ih => exact ih _ _ (Mem.wf_write m _ _ h)

theorem wf_placeExtents (xs : List Extent) (os : List EncodedOutput) (m : Mem) (h : Mem.wf m = true) :
    Mem.wf (placeExtents m xs os) = true := by
  induction xs generalizing m os with
  | nil => cases os <;> exact h
  | cons x xs ih =>
    cases os with
    | nil => exact h
    | cons o os => exact ih os _ (wf_placeOutput _ _ _ _ _ h)

/-! ### Allocation (R141) -/

theorem lowestFree_length_le (used : List Nat) (fuel cand n : Nat) : (lowestFree used fuel cand n).length ≤ n := by
  induction fuel generalizing cand n with
  | zero => cases n <;> simp [lowestFree]
  | succ fuel ih =>
    cases n with
    | zero => simp [lowestFree]
    | succ n =>
      simp only [lowestFree]
      split
      · exact ih (cand + 1) (n + 1)
      · simpa using ih (cand + 1) n

theorem lowestFree_not_used (used : List Nat) (fuel cand n g : Nat) (h : g ∈ lowestFree used fuel cand n) :
    g ∉ used ∧ cand ≤ g := by
  induction fuel generalizing cand n with
  | zero => cases n <;> simp [lowestFree] at h
  | succ fuel ih =>
    cases n with
    | zero => simp [lowestFree] at h
    | succ n =>
      simp only [lowestFree] at h
      split at h
      · exact ⟨(ih _ _ h).1, by have := (ih _ _ h).2; omega⟩
      · rename_i hc
        simp only [List.mem_cons] at h
        rcases h with rfl | h
        · exact ⟨by simpa using hc, Nat.le_refl _⟩
        · exact ⟨(ih _ _ h).1, by have := (ih _ _ h).2; omega⟩

theorem lowestFree_nodup (used : List Nat) (fuel cand n : Nat) : (lowestFree used fuel cand n).Nodup := by
  induction fuel generalizing cand n with
  | zero => cases n <;> simp [lowestFree]
  | succ fuel ih =>
    cases n with
    | zero => simp [lowestFree]
    | succ n =>
      simp only [lowestFree]
      split
      · exact ih _ _
      · refine List.nodup_cons.mpr ⟨fun h => ?_, ih _ _⟩
        have := (lowestFree_not_used used fuel (cand + 1) n cand h).2
        omega

/-- An allocation takes no granule twice, and no more than it asks for. -/
theorem allocate_nodup (used : List Nat) (n : Nat) : (allocate used n).Nodup := lowestFree_nodup _ _ _ _

theorem allocate_length_le (used : List Nat) (n : Nat) : (allocate used n).length ≤ n := lowestFree_length_le _ _ _ _

/-- A granule that an allocation takes was free. -/
theorem allocate_not_used (used : List Nat) (n g : Nat) (h : g ∈ allocate used n) : g ∉ used :=
  (lowestFree_not_used used _ 0 n g h).1

end Sys2Proof.Machine
end

