-- ==== Sys2Proof/Laws/State.lean ====
section
/-! SUPPORT. One lemma per field per named update of the state, and reading back what an update wrote. -/

namespace Sys2Proof

/-! ### A value per port, per stream -/

@[simp] theorem PerPort.get_set_same {α : Type} (v : PerPort α) (p : Port) (a : α) : (v.set p a).get p = a := by
  cases p <;> rfl

theorem PerPort.get_set_other {α : Type} (v : PerPort α) {p q : Port} (a : α) (h : q ≠ p) :
    (v.set p a).get q = v.get q := by
  cases p <;> cases q <;> first | rfl | exact absurd rfl h

@[simp] theorem PerPort.get_map {α β : Type} (f : α → β) (v : PerPort α) (p : Port) : (v.map f).get p = f (v.get p) := by
  cases p <;> rfl

@[simp] theorem PerPort.get_const {α : Type} (a : α) (p : Port) : (PerPort.const a).get p = a := by
  cases p <;> rfl

theorem PerPort.ext_get {α : Type} {v w : PerPort α} (h : ∀ p, v.get p = w.get p) : v = w := by
  cases v; cases w
  simp only [PerPort.mk.injEq]
  exact ⟨h .p0, h .p1, h .p2⟩

@[simp] theorem PerPort.set_get {α : Type} (v : PerPort α) (p : Port) : v.set p (v.get p) = v := by
  cases p <;> rfl

@[simp] theorem PerStream.get_set_same {α : Type} (v : PerStream α) (st : Stream) (a : α) : (v.set st a).get st = a := by
  cases st <;> rfl

theorem PerStream.get_set_other {α : Type} (v : PerStream α) {st su : Stream} (a : α) (h : su ≠ st) :
    (v.set st a).get su = v.get su := by
  cases st <;> cases su <;> first | rfl | exact absurd rfl h

end Sys2Proof

namespace Sys2Proof.Machine

/-! ### `State.setProg` -/

theorem State.setProg_slots (s : State) (i : SlotId) (pr : Programme) : (s.setProg i pr).slots = s.slots.set i ⟨s.gen i, some pr⟩ := rfl
@[simp] theorem State.setProg_lanes (s : State) (i : SlotId) (pr : Programme) : (s.setProg i pr).lanes = s.lanes := rfl
@[simp] theorem State.setProg_ports (s : State) (i : SlotId) (pr : Programme) : (s.setProg i pr).ports = s.ports := rfl
@[simp] theorem State.setProg_entries (s : State) (i : SlotId) (pr : Programme) : (s.setProg i pr).entries = s.entries := rfl
@[simp] theorem State.setProg_pipes (s : State) (i : SlotId) (pr : Programme) : (s.setProg i pr).pipes = s.pipes := rfl
@[simp] theorem State.setProg_storeQueue (s : State) (i : SlotId) (pr : Programme) : (s.setProg i pr).storeQueue = s.storeQueue := rfl
@[simp] theorem State.setProg_tableQueue (s : State) (i : SlotId) (pr : Programme) : (s.setProg i pr).tableQueue = s.tableQueue := rfl
@[simp] theorem State.setProg_segments (s : State) (i : SlotId) (pr : Programme) : (s.setProg i pr).segments = s.segments := rfl
@[simp] theorem State.setProg_sources (s : State) (i : SlotId) (pr : Programme) : (s.setProg i pr).sources = s.sources := rfl
@[simp] theorem State.setProg_parsePtr (s : State) (i : SlotId) (pr : Programme) : (s.setProg i pr).parsePtr = s.parsePtr := rfl
@[simp] theorem State.setProg_dispatchPtr (s : State) (i : SlotId) (pr : Programme) : (s.setProg i pr).dispatchPtr = s.dispatchPtr := rfl
@[simp] theorem State.setProg_payloadArea (s : State) (i : SlotId) (pr : Programme) : (s.setProg i pr).payloadArea = s.payloadArea := rfl
@[simp] theorem State.setProg_outputStore (s : State) (i : SlotId) (pr : Programme) : (s.setProg i pr).outputStore = s.outputStore := rfl
@[simp] theorem State.setProg_now (s : State) (i : SlotId) (pr : Programme) : (s.setProg i pr).now = s.now := rfl
@[simp] theorem State.setProg_dispatches (s : State) (i : SlotId) (pr : Programme) : (s.setProg i pr).dispatches = s.dispatches := rfl
@[simp] theorem State.setProg_pending (s : State) (i : SlotId) (pr : Programme) : (s.setProg i pr).pending = s.pending := rfl
@[simp] theorem State.setProg_lane (s : State) (i : SlotId) (pr : Programme) (k : LaneId) : (s.setProg i pr).lane k = s.lane k := rfl
@[simp] theorem State.setProg_port (s : State) (i : SlotId) (pr : Programme) (q : Port) : (s.setProg i pr).port q = s.port q := rfl
@[simp] theorem State.setProg_pipe (s : State) (i : SlotId) (pr : Programme) (k : PipeId) : (s.setProg i pr).pipe k = s.pipe k := rfl

/-! ### `State.freeSlot` -/

theorem State.freeSlot_slots (s : State) (i : SlotId) : (s.freeSlot i).slots = s.slots.set i ⟨s.gen i, none⟩ := rfl
@[simp] theorem State.freeSlot_lanes (s : State) (i : SlotId) : (s.freeSlot i).lanes = s.lanes := rfl
@[simp] theorem State.freeSlot_ports (s : State) (i : SlotId) : (s.freeSlot i).ports = s.ports := rfl
@[simp] theorem State.freeSlot_entries (s : State) (i : SlotId) : (s.freeSlot i).entries = s.entries := rfl
@[simp] theorem State.freeSlot_pipes (s : State) (i : SlotId) : (s.freeSlot i).pipes = s.pipes := rfl
@[simp] theorem State.freeSlot_storeQueue (s : State) (i : SlotId) : (s.freeSlot i).storeQueue = s.storeQueue := rfl
@[simp] theorem State.freeSlot_tableQueue (s : State) (i : SlotId) : (s.freeSlot i).tableQueue = s.tableQueue := rfl
@[simp] theorem State.freeSlot_segments (s : State) (i : SlotId) : (s.freeSlot i).segments = s.segments := rfl
@[simp] theorem State.freeSlot_sources (s : State) (i : SlotId) : (s.freeSlot i).sources = s.sources := rfl
@[simp] theorem State.freeSlot_parsePtr (s : State) (i : SlotId) : (s.freeSlot i).parsePtr = s.parsePtr := rfl
@[simp] theorem State.freeSlot_dispatchPtr (s : State) (i : SlotId) : (s.freeSlot i).dispatchPtr = s.dispatchPtr := rfl
@[simp] theorem State.freeSlot_payloadArea (s : State) (i : SlotId) : (s.freeSlot i).payloadArea = s.payloadArea := rfl
@[simp] theorem State.freeSlot_outputStore (s : State) (i : SlotId) : (s.freeSlot i).outputStore = s.outputStore := rfl
@[simp] theorem State.freeSlot_now (s : State) (i : SlotId) : (s.freeSlot i).now = s.now := rfl
@[simp] theorem State.freeSlot_dispatches (s : State) (i : SlotId) : (s.freeSlot i).dispatches = s.dispatches := rfl
@[simp] theorem State.freeSlot_pending (s : State) (i : SlotId) : (s.freeSlot i).pending = s.pending := rfl
@[simp] theorem State.freeSlot_lane (s : State) (i : SlotId) (k : LaneId) : (s.freeSlot i).lane k = s.lane k := rfl
@[simp] theorem State.freeSlot_port (s : State) (i : SlotId) (q : Port) : (s.freeSlot i).port q = s.port q := rfl
@[simp] theorem State.freeSlot_pipe (s : State) (i : SlotId) (k : PipeId) : (s.freeSlot i).pipe k = s.pipe k := rfl

/-! ### `State.setLane` -/

@[simp] theorem State.setLane_slots (s : State) (l : LaneId) (ln : LaneRecord) : (s.setLane l ln).slots = s.slots := rfl
theorem State.setLane_lanes (s : State) (l : LaneId) (ln : LaneRecord) : (s.setLane l ln).lanes = s.lanes.set l ln := rfl
@[simp] theorem State.setLane_ports (s : State) (l : LaneId) (ln : LaneRecord) : (s.setLane l ln).ports = s.ports := rfl
@[simp] theorem State.setLane_entries (s : State) (l : LaneId) (ln : LaneRecord) : (s.setLane l ln).entries = s.entries := rfl
@[simp] theorem State.setLane_pipes (s : State) (l : LaneId) (ln : LaneRecord) : (s.setLane l ln).pipes = s.pipes := rfl
@[simp] theorem State.setLane_storeQueue (s : State) (l : LaneId) (ln : LaneRecord) : (s.setLane l ln).storeQueue = s.storeQueue := rfl
@[simp] theorem State.setLane_tableQueue (s : State) (l : LaneId) (ln : LaneRecord) : (s.setLane l ln).tableQueue = s.tableQueue := rfl
@[simp] theorem State.setLane_segments (s : State) (l : LaneId) (ln : LaneRecord) : (s.setLane l ln).segments = s.segments := rfl
@[simp] theorem State.setLane_sources (s : State) (l : LaneId) (ln : LaneRecord) : (s.setLane l ln).sources = s.sources := rfl
@[simp] theorem State.setLane_parsePtr (s : State) (l : LaneId) (ln : LaneRecord) : (s.setLane l ln).parsePtr = s.parsePtr := rfl
@[simp] theorem State.setLane_dispatchPtr (s : State) (l : LaneId) (ln : LaneRecord) : (s.setLane l ln).dispatchPtr = s.dispatchPtr := rfl
@[simp] theorem State.setLane_payloadArea (s : State) (l : LaneId) (ln : LaneRecord) : (s.setLane l ln).payloadArea = s.payloadArea := rfl
@[simp] theorem State.setLane_outputStore (s : State) (l : LaneId) (ln : LaneRecord) : (s.setLane l ln).outputStore = s.outputStore := rfl
@[simp] theorem State.setLane_now (s : State) (l : LaneId) (ln : LaneRecord) : (s.setLane l ln).now = s.now := rfl
@[simp] theorem State.setLane_dispatches (s : State) (l : LaneId) (ln : LaneRecord) : (s.setLane l ln).dispatches = s.dispatches := rfl
@[simp] theorem State.setLane_pending (s : State) (l : LaneId) (ln : LaneRecord) : (s.setLane l ln).pending = s.pending := rfl
@[simp] theorem State.setLane_prog (s : State) (l : LaneId) (ln : LaneRecord) (j : SlotId) : (s.setLane l ln).prog j = s.prog j := rfl
@[simp] theorem State.setLane_gen (s : State) (l : LaneId) (ln : LaneRecord) (j : SlotId) : (s.setLane l ln).gen j = s.gen j := rfl
@[simp] theorem State.setLane_port (s : State) (l : LaneId) (ln : LaneRecord) (q : Port) : (s.setLane l ln).port q = s.port q := rfl
@[simp] theorem State.setLane_pipe (s : State) (l : LaneId) (ln : LaneRecord) (k : PipeId) : (s.setLane l ln).pipe k = s.pipe k := rfl

/-! ### `State.setPort` -/

@[simp] theorem State.setPort_slots (s : State) (p : Port) (pt : PortState) : (s.setPort p pt).slots = s.slots := rfl
@[simp] theorem State.setPort_lanes (s : State) (p : Port) (pt : PortState) : (s.setPort p pt).lanes = s.lanes := rfl
theorem State.setPort_ports (s : State) (p : Port) (pt : PortState) : (s.setPort p pt).ports = s.ports.set p pt := rfl
@[simp] theorem State.setPort_entries (s : State) (p : Port) (pt : PortState) : (s.setPort p pt).entries = s.entries := rfl
@[simp] theorem State.setPort_pipes (s : State) (p : Port) (pt : PortState) : (s.setPort p pt).pipes = s.pipes := rfl
@[simp] theorem State.setPort_storeQueue (s : State) (p : Port) (pt : PortState) : (s.setPort p pt).storeQueue = s.storeQueue := rfl
@[simp] theorem State.setPort_tableQueue (s : State) (p : Port) (pt : PortState) : (s.setPort p pt).tableQueue = s.tableQueue := rfl
@[simp] theorem State.setPort_segments (s : State) (p : Port) (pt : PortState) : (s.setPort p pt).segments = s.segments := rfl
@[simp] theorem State.setPort_sources (s : State) (p : Port) (pt : PortState) : (s.setPort p pt).sources = s.sources := rfl
@[simp] theorem State.setPort_parsePtr (s : State) (p : Port) (pt : PortState) : (s.setPort p pt).parsePtr = s.parsePtr := rfl
@[simp] theorem State.setPort_dispatchPtr (s : State) (p : Port) (pt : PortState) : (s.setPort p pt).dispatchPtr = s.dispatchPtr := rfl
@[simp] theorem State.setPort_payloadArea (s : State) (p : Port) (pt : PortState) : (s.setPort p pt).payloadArea = s.payloadArea := rfl
@[simp] theorem State.setPort_outputStore (s : State) (p : Port) (pt : PortState) : (s.setPort p pt).outputStore = s.outputStore := rfl
@[simp] theorem State.setPort_now (s : State) (p : Port) (pt : PortState) : (s.setPort p pt).now = s.now := rfl
@[simp] theorem State.setPort_dispatches (s : State) (p : Port) (pt : PortState) : (s.setPort p pt).dispatches = s.dispatches := rfl
@[simp] theorem State.setPort_pending (s : State) (p : Port) (pt : PortState) : (s.setPort p pt).pending = s.pending := rfl
@[simp] theorem State.setPort_prog (s : State) (p : Port) (pt : PortState) (j : SlotId) : (s.setPort p pt).prog j = s.prog j := rfl
@[simp] theorem State.setPort_gen (s : State) (p : Port) (pt : PortState) (j : SlotId) : (s.setPort p pt).gen j = s.gen j := rfl
@[simp] theorem State.setPort_lane (s : State) (p : Port) (pt : PortState) (k : LaneId) : (s.setPort p pt).lane k = s.lane k := rfl
@[simp] theorem State.setPort_pipe (s : State) (p : Port) (pt : PortState) (k : PipeId) : (s.setPort p pt).pipe k = s.pipe k := rfl

/-! ### `State.setPipe` -/

@[simp] theorem State.setPipe_slots (s : State) (e : PipeId) (x : Pipe) : (s.setPipe e x).slots = s.slots := rfl
@[simp] theorem State.setPipe_lanes (s : State) (e : PipeId) (x : Pipe) : (s.setPipe e x).lanes = s.lanes := rfl
@[simp] theorem State.setPipe_ports (s : State) (e : PipeId) (x : Pipe) : (s.setPipe e x).ports = s.ports := rfl
@[simp] theorem State.setPipe_entries (s : State) (e : PipeId) (x : Pipe) : (s.setPipe e x).entries = s.entries := rfl
theorem State.setPipe_pipes (s : State) (e : PipeId) (x : Pipe) : (s.setPipe e x).pipes = s.pipes.set e x := rfl
@[simp] theorem State.setPipe_storeQueue (s : State) (e : PipeId) (x : Pipe) : (s.setPipe e x).storeQueue = s.storeQueue := rfl
@[simp] theorem State.setPipe_tableQueue (s : State) (e : PipeId) (x : Pipe) : (s.setPipe e x).tableQueue = s.tableQueue := rfl
@[simp] theorem State.setPipe_segments (s : State) (e : PipeId) (x : Pipe) : (s.setPipe e x).segments = s.segments := rfl
@[simp] theorem State.setPipe_sources (s : State) (e : PipeId) (x : Pipe) : (s.setPipe e x).sources = s.sources := rfl
@[simp] theorem State.setPipe_parsePtr (s : State) (e : PipeId) (x : Pipe) : (s.setPipe e x).parsePtr = s.parsePtr := rfl
@[simp] theorem State.setPipe_dispatchPtr (s : State) (e : PipeId) (x : Pipe) : (s.setPipe e x).dispatchPtr = s.dispatchPtr := rfl
@[simp] theorem State.setPipe_payloadArea (s : State) (e : PipeId) (x : Pipe) : (s.setPipe e x).payloadArea = s.payloadArea := rfl
@[simp] theorem State.setPipe_outputStore (s : State) (e : PipeId) (x : Pipe) : (s.setPipe e x).outputStore = s.outputStore := rfl
@[simp] theorem State.setPipe_now (s : State) (e : PipeId) (x : Pipe) : (s.setPipe e x).now = s.now := rfl
@[simp] theorem State.setPipe_dispatches (s : State) (e : PipeId) (x : Pipe) : (s.setPipe e x).dispatches = s.dispatches := rfl
@[simp] theorem State.setPipe_pending (s : State) (e : PipeId) (x : Pipe) : (s.setPipe e x).pending = s.pending := rfl
@[simp] theorem State.setPipe_prog (s : State) (e : PipeId) (x : Pipe) (j : SlotId) : (s.setPipe e x).prog j = s.prog j := rfl
@[simp] theorem State.setPipe_gen (s : State) (e : PipeId) (x : Pipe) (j : SlotId) : (s.setPipe e x).gen j = s.gen j := rfl
@[simp] theorem State.setPipe_lane (s : State) (e : PipeId) (x : Pipe) (k : LaneId) : (s.setPipe e x).lane k = s.lane k := rfl
@[simp] theorem State.setPipe_port (s : State) (e : PipeId) (x : Pipe) (q : Port) : (s.setPipe e x).port q = s.port q := rfl

/-! ### `State.setEntries` -/

@[simp] theorem State.setEntries_slots (s : State) (es : List Entry) : (s.setEntries es).slots = s.slots := rfl
@[simp] theorem State.setEntries_lanes (s : State) (es : List Entry) : (s.setEntries es).lanes = s.lanes := rfl
@[simp] theorem State.setEntries_ports (s : State) (es : List Entry) : (s.setEntries es).ports = s.ports := rfl
theorem State.setEntries_entries (s : State) (es : List Entry) : (s.setEntries es).entries = es := rfl
@[simp] theorem State.setEntries_pipes (s : State) (es : List Entry) : (s.setEntries es).pipes = s.pipes := rfl
@[simp] theorem State.setEntries_storeQueue (s : State) (es : List Entry) : (s.setEntries es).storeQueue = s.storeQueue := rfl
@[simp] theorem State.setEntries_tableQueue (s : State) (es : List Entry) : (s.setEntries es).tableQueue = s.tableQueue := rfl
@[simp] theorem State.setEntries_segments (s : State) (es : List Entry) : (s.setEntries es).segments = s.segments := rfl
@[simp] theorem State.setEntries_sources (s : State) (es : List Entry) : (s.setEntries es).sources = s.sources := rfl
@[simp] theorem State.setEntries_parsePtr (s : State) (es : List Entry) : (s.setEntries es).parsePtr = s.parsePtr := rfl
@[simp] theorem State.setEntries_dispatchPtr (s : State) (es : List Entry) : (s.setEntries es).dispatchPtr = s.dispatchPtr := rfl
@[simp] theorem State.setEntries_payloadArea (s : State) (es : List Entry) : (s.setEntries es).payloadArea = s.payloadArea := rfl
@[simp] theorem State.setEntries_outputStore (s : State) (es : List Entry) : (s.setEntries es).outputStore = s.outputStore := rfl
@[simp] theorem State.setEntries_now (s : State) (es : List Entry) : (s.setEntries es).now = s.now := rfl
@[simp] theorem State.setEntries_dispatches (s : State) (es : List Entry) : (s.setEntries es).dispatches = s.dispatches := rfl
@[simp] theorem State.setEntries_pending (s : State) (es : List Entry) : (s.setEntries es).pending = s.pending := rfl
@[simp] theorem State.setEntries_prog (s : State) (es : List Entry) (j : SlotId) : (s.setEntries es).prog j = s.prog j := rfl
@[simp] theorem State.setEntries_gen (s : State) (es : List Entry) (j : SlotId) : (s.setEntries es).gen j = s.gen j := rfl
@[simp] theorem State.setEntries_lane (s : State) (es : List Entry) (k : LaneId) : (s.setEntries es).lane k = s.lane k := rfl
@[simp] theorem State.setEntries_port (s : State) (es : List Entry) (q : Port) : (s.setEntries es).port q = s.port q := rfl
@[simp] theorem State.setEntries_pipe (s : State) (es : List Entry) (k : PipeId) : (s.setEntries es).pipe k = s.pipe k := rfl

/-! ### `State.setSegments` -/

@[simp] theorem State.setSegments_slots (s : State) (gs : List Segment) : (s.setSegments gs).slots = s.slots := rfl
@[simp] theorem State.setSegments_lanes (s : State) (gs : List Segment) : (s.setSegments gs).lanes = s.lanes := rfl
@[simp] theorem State.setSegments_ports (s : State) (gs : List Segment) : (s.setSegments gs).ports = s.ports := rfl
@[simp] theorem State.setSegments_entries (s : State) (gs : List Segment) : (s.setSegments gs).entries = s.entries := rfl
@[simp] theorem State.setSegments_pipes (s : State) (gs : List Segment) : (s.setSegments gs).pipes = s.pipes := rfl
@[simp] theorem State.setSegments_storeQueue (s : State) (gs : List Segment) : (s.setSegments gs).storeQueue = s.storeQueue := rfl
@[simp] theorem State.setSegments_tableQueue (s : State) (gs : List Segment) : (s.setSegments gs).tableQueue = s.tableQueue := rfl
theorem State.setSegments_segments (s : State) (gs : List Segment) : (s.setSegments gs).segments = gs := rfl
@[simp] theorem State.setSegments_sources (s : State) (gs : List Segment) : (s.setSegments gs).sources = s.sources := rfl
@[simp] theorem State.setSegments_parsePtr (s : State) (gs : List Segment) : (s.setSegments gs).parsePtr = s.parsePtr := rfl
@[simp] theorem State.setSegments_dispatchPtr (s : State) (gs : List Segment) : (s.setSegments gs).dispatchPtr = s.dispatchPtr := rfl
@[simp] theorem State.setSegments_payloadArea (s : State) (gs : List Segment) : (s.setSegments gs).payloadArea = s.payloadArea := rfl
@[simp] theorem State.setSegments_outputStore (s : State) (gs : List Segment) : (s.setSegments gs).outputStore = s.outputStore := rfl
@[simp] theorem State.setSegments_now (s : State) (gs : List Segment) : (s.setSegments gs).now = s.now := rfl
@[simp] theorem State.setSegments_dispatches (s : State) (gs : List Segment) : (s.setSegments gs).dispatches = s.dispatches := rfl
@[simp] theorem State.setSegments_pending (s : State) (gs : List Segment) : (s.setSegments gs).pending = s.pending := rfl
@[simp] theorem State.setSegments_prog (s : State) (gs : List Segment) (j : SlotId) : (s.setSegments gs).prog j = s.prog j := rfl
@[simp] theorem State.setSegments_gen (s : State) (gs : List Segment) (j : SlotId) : (s.setSegments gs).gen j = s.gen j := rfl
@[simp] theorem State.setSegments_lane (s : State) (gs : List Segment) (k : LaneId) : (s.setSegments gs).lane k = s.lane k := rfl
@[simp] theorem State.setSegments_port (s : State) (gs : List Segment) (q : Port) : (s.setSegments gs).port q = s.port q := rfl
@[simp] theorem State.setSegments_pipe (s : State) (gs : List Segment) (k : PipeId) : (s.setSegments gs).pipe k = s.pipe k := rfl

/-! ### Reading back -/

@[simp] theorem State.setProg_prog_same (s : State) (i : SlotId) (pr : Programme) : (s.setProg i pr).prog i = some pr := by
  simp [State.prog, State.setProg]

theorem State.setProg_prog_other (s : State) {i j : SlotId} (pr : Programme) (h : j ≠ i) :
    (s.setProg i pr).prog j = s.prog j := by
  have hv : (i : Nat) ≠ j := fun e => h (Fin.ext e.symm)
  simp [State.prog, State.setProg, hv]

@[simp] theorem State.setProg_gen (s : State) (i j : SlotId) (pr : Programme) : (s.setProg i pr).gen j = s.gen j := by
  by_cases hv : (i : Nat) = j
  · have : i = j := Fin.ext hv
    subst this
    simp [State.gen, State.setProg]
  · simp [State.gen, State.setProg, hv]

@[simp] theorem State.freeSlot_prog_same (s : State) (i : SlotId) : (s.freeSlot i).prog i = none := by
  simp [State.prog, State.freeSlot]

theorem State.freeSlot_prog_other (s : State) {i j : SlotId} (h : j ≠ i) : (s.freeSlot i).prog j = s.prog j := by
  have hv : (i : Nat) ≠ j := fun e => h (Fin.ext e.symm)
  simp [State.prog, State.freeSlot, hv]

@[simp] theorem State.freeSlot_gen (s : State) (i j : SlotId) : (s.freeSlot i).gen j = s.gen j := by
  by_cases hv : (i : Nat) = j
  · have : i = j := Fin.ext hv
    subst this
    simp [State.gen, State.freeSlot]
  · simp [State.gen, State.freeSlot, hv]

@[simp] theorem State.setLane_lane_same (s : State) (l : LaneId) (ln : LaneRecord) : (s.setLane l ln).lane l = ln := by
  simp [State.lane, State.setLane]

theorem State.setLane_lane_other (s : State) {l k : LaneId} (ln : LaneRecord) (h : k ≠ l) :
    (s.setLane l ln).lane k = s.lane k := by
  have hv : (l : Nat) ≠ k := fun e => h (Fin.ext e.symm)
  simp [State.lane, State.setLane, hv]

@[simp] theorem State.setPort_port_same (s : State) (p : Port) (pt : PortState) : (s.setPort p pt).port p = pt :=
  PerPort.get_set_same _ _ _

theorem State.setPort_port_other (s : State) {p q : Port} (pt : PortState) (h : q ≠ p) :
    (s.setPort p pt).port q = s.port q :=
  PerPort.get_set_other _ _ h

@[simp] theorem State.setPort_port_self (s : State) (p : Port) : s.setPort p (s.port p) = s := by
  simp [State.setPort, State.port]

@[simp] theorem State.setPort_setPort (s : State) (p : Port) (a b : PortState) :
    (s.setPort p a).setPort p b = s.setPort p b := by
  cases p <;> rfl

@[simp] theorem State.setPipe_pipe_same (s : State) (e : PipeId) (x : Pipe) : (s.setPipe e x).pipe e = x := by
  simp [State.pipe, State.setPipe]

theorem State.setPipe_pipe_other (s : State) {e k : PipeId} (x : Pipe) (h : k ≠ e) :
    (s.setPipe e x).pipe k = s.pipe k := by
  have hv : (e : Nat) ≠ k := fun w => h (Fin.ext w.symm)
  simp [State.pipe, State.setPipe, hv]

/-- Changing a record leaves every other slot as it was, and a FREE slot FREE. -/
theorem State.modProg_prog_other (s : State) {i j : SlotId} (f : Programme → Programme) (h : j ≠ i) :
    (s.modProg i f).prog j = s.prog j := by
  unfold State.modProg
  split
  · exact s.setProg_prog_other _ h
  · rfl

theorem State.modProg_prog_same (s : State) (i : SlotId) (f : Programme → Programme) :
    (s.modProg i f).prog i = (s.prog i).map f := by
  unfold State.modProg
  split <;> simp_all

end Sys2Proof.Machine
end

