-- ==== Sys2Proof/Laws/Programme.lean ====
section
/-! SUPPORT. What each named change of a programme record leaves unchanged, and that every one of them keeps the record in
range. -/

namespace Sys2Proof.Machine

/-! ### Latches, errors and statistics change nothing else -/

theorem Programme.latch_eq (k : LatchKind) (pr : Programme) :
    Programme.latch k pr = { pr with latches := (Programme.latch k pr).latches } := rfl

@[simp] theorem Programme.latch_state (k : LatchKind) (pr : Programme) : (Programme.latch k pr).state = pr.state := rfl
@[simp] theorem Programme.latch_frame (k : LatchKind) (pr : Programme) : (Programme.latch k pr).frame = pr.frame := rfl
@[simp] theorem Programme.latch_streams (k : LatchKind) (pr : Programme) : (Programme.latch k pr).streams = pr.streams := rfl
@[simp] theorem Programme.latch_renditions (k : LatchKind) (pr : Programme) : (Programme.latch k pr).renditions = pr.renditions := rfl
@[simp] theorem Programme.latch_active (k : LatchKind) (pr : Programme) : (Programme.latch k pr).active = pr.active := rfl
@[simp] theorem Programme.latch_watch (k : LatchKind) (pr : Programme) : (Programme.latch k pr).watch = pr.watch := rfl
@[simp] theorem Programme.latch_error (k : LatchKind) (pr : Programme) : (Programme.latch k pr).error = pr.error := rfl
@[simp] theorem Programme.latch_pieces (k : LatchKind) (pr : Programme) : (Programme.latch k pr).pieces = pr.pieces := rfl
@[simp] theorem Programme.latch_cutter (k : LatchKind) (pr : Programme) : (Programme.latch k pr).cutter = pr.cutter := rfl
@[simp] theorem Programme.latch_stats (k : LatchKind) (pr : Programme) : (Programme.latch k pr).stats = pr.stats := rfl

/-- An event sets its latch for exactly the watching ports; a latch already set stays set (R15). -/
theorem Programme.latch_get (k : LatchKind) (pr : Programme) (p : Port) :
    (Programme.latch k pr).latches.get p = if pr.watch.get p then pr.latches.get p ||| k.bit else pr.latches.get p := by
  cases p <;> rfl

/-! ### The range of a record -/

theorem Programme.InRange.latch {pr : Programme} (h : pr.InRange) (k : LatchKind) : (Programme.latch k pr).InRange :=
  ⟨h.frame, h.someRendition, h.fiveRenditions, h.somePiece, h.pieceList, h.cutZero, h.chapterList, h.errorTime⟩

theorem errorTime_range (t : Int) : -140737488355328 ≤ errorTime t ∧ errorTime t ≤ 140737488355327 := by
  unfold errorTime
  omega

theorem Programme.InRange.report {pr : Programme} (h : pr.InRange) (r : ErrorRecord) : (Programme.report r pr).InRange := by
  refine ⟨h.frame, h.someRendition, h.fiveRenditions, h.somePiece, h.pieceList, h.cutZero, h.chapterList, ?_⟩
  intro r' hr' t ht
  have hr : r' = { r with time := r.time.map Sys2Proof.Machine.errorTime } := by
    simpa [Programme.report] using hr'.symm
  subst hr
  simp only [Option.map_eq_some_iff] at ht
  obtain ⟨u, -, rfl⟩ := ht
  exact errorTime_range u

theorem Programme.InRange.halt {pr : Programme} (h : pr.InRange) : (Programme.halt pr).InRange := by
  unfold Programme.halt
  split
  · exact ⟨h.frame, h.someRendition, h.fiveRenditions, h.somePiece, h.pieceList, h.cutZero, h.chapterList, h.errorTime⟩
  · exact h

theorem Programme.InRange.reportIfEnabled {pr : Programme} (h : pr.InRange) (r : ErrorRecord) :
    (Programme.reportIfEnabled r pr).InRange := by
  unfold Programme.reportIfEnabled
  split
  · split
    · exact (h.report r).halt
    · exact h.report r
  · exact h

theorem Programme.InRange.countError {pr : Programme} (h : pr.InRange) (c : ErrorClass) :
    (Programme.countError c pr).InRange :=
  ⟨h.frame, h.someRendition, h.fiveRenditions, h.somePiece, h.pieceList, h.cutZero, h.chapterList, h.errorTime⟩

theorem Programme.InRange.modStream {pr : Programme} (h : pr.InRange) (st : Stream) (f : StreamRecord → StreamRecord) :
    (pr.modStream st f).InRange := by
  unfold Programme.modStream
  split
  · exact ⟨h.frame, h.someRendition, h.fiveRenditions, h.somePiece, h.pieceList, h.cutZero, h.chapterList, h.errorTime⟩
  · exact h

theorem Programme.InRange.activatePiece {pr : Programme} (h : pr.InRange) : pr.activatePiece.InRange := by
  unfold Programme.activatePiece
  split
  · exact h
  · exact ⟨h.frame, h.someRendition, h.fiveRenditions, h.somePiece, h.pieceList, h.cutZero, h.chapterList, h.errorTime⟩

theorem Programme.InRange.activateCut {pr : Programme} (h : pr.InRange) (k : Nat) : (pr.activateCut k).InRange := by
  unfold Programme.activateCut
  split
  · exact h
  · exact ⟨h.frame, h.someRendition, h.fiveRenditions, h.somePiece, h.pieceList, h.cutZero, h.chapterList, h.errorTime⟩

/-! ### The cutter's changes -/

theorem insertChapter_length (ch : Chapter) (l : List Chapter) : (insertChapter ch l).length = l.length + 1 := by
  induction l with
  | nil => rfl
  | cons x xs ih =>
    simp only [insertChapter]
    split
    · rfl
    · simp [ih]

theorem markLast_ne_nil (l : List CutRecord) (h : l ≠ []) : markLast l ≠ [] := by
  cases l with
  | nil => exact absurd rfl h
  | cons r rs => cases rs <;> simp [markLast]

theorem Programme.InRange.raiseHorizon {pr : Programme} (h : pr.InRange) : pr.raiseHorizon.InRange :=
  ⟨h.frame, h.someRendition, h.fiveRenditions, h.somePiece, h.pieceList, h.cutZero, h.chapterList, h.errorTime⟩

theorem Programme.InRange.addChapter {pr : Programme} (h : pr.InRange) (ch : Chapter)
    (hl : pr.cutter.chapters.length < chapterEntries) : (pr.addChapter ch).InRange := by
  have hlen : (insertChapter ch pr.cutter.chapters).length ≤ chapterEntries := by
    rw [insertChapter_length]
    exact hl
  unfold Programme.addChapter
  dsimp only
  split <;>
    exact ⟨h.frame, h.someRendition, h.fiveRenditions, h.somePiece, h.pieceList, h.cutZero, hlen, h.errorTime⟩

theorem Programme.addChapter_cuts (pr : Programme) (ch : Chapter) : (pr.addChapter ch).cutter.cuts = pr.cutter.cuts := by
  unfold Programme.addChapter
  dsimp only
  split <;> rfl

theorem Programme.InRange.recordAuto {pr : Programme} (h : pr.InRange) (t : Nat) (idx : BitVec 16) :
    (pr.recordAuto t idx).InRange := by
  unfold Programme.recordAuto
  dsimp only
  split
  · refine ⟨h.frame, h.someRendition, h.fiveRenditions, h.somePiece, h.pieceList, h.cutZero, ?_, h.errorTime⟩
    simpa [Programme.latch] using h.chapterList
  · split
    · rename_i hl
      have h2 := h.addChapter ⟨t, .auto, some idx, (pr.cutter.autoDisposition t).1, (pr.cutter.autoDisposition t).2.1,
        (pr.cutter.autoDisposition t).2.2⟩ hl
      split
      · exact ⟨h2.frame, h2.someRendition, h2.fiveRenditions, h2.somePiece, h2.pieceList,
          markLast_ne_nil _ h2.cutZero, h2.chapterList, h2.errorTime⟩
      · exact h2
    · exact h.latch _

theorem Programme.InRange.confirm {pr : Programme} (h : pr.InRange) (x : Nat) : (pr.confirm x).2.InRange := by
  unfold Programme.confirm
  split
  · exact h
  · rename_i cand _
    split
    · have h2 := h.recordAuto cand.start cand.index
      exact ⟨h2.frame, h2.someRendition, h2.fiveRenditions, h2.somePiece, h2.pieceList, h2.cutZero, h2.chapterList,
        h2.errorTime⟩
    · exact h

theorem Programme.InRange.setCandidate {pr : Programme} (h : pr.InRange) (c : Option Candidate) :
    Programme.InRange { pr with cutter := { pr.cutter with candidate := c } } :=
  ⟨h.frame, h.someRendition, h.fiveRenditions, h.somePiece, h.pieceList, h.cutZero, h.chapterList, h.errorTime⟩

theorem Programme.InRange.detect {pr : Programme} (h : pr.InRange) (idx : Option (BitVec 16)) (x : Nat) :
    (pr.detect idx x).2.InRange := by
  unfold Programme.detect
  split
  · exact h.confirm x
  · split
    · exact h.setCandidate none
    · split
      · split
        · exact h.confirm x
        · exact h.setCandidate _
      · exact h.setCandidate _

theorem Programme.InRange.disposeEarly {pr : Programme} (h : pr.InRange) : pr.disposeEarly.InRange := by
  unfold Programme.disposeEarly
  dsimp only
  split
  · refine ⟨h.frame, h.someRendition, h.fiveRenditions, h.somePiece, h.pieceList, h.cutZero, ?_, h.errorTime⟩
    simpa using h.chapterList
  · exact h

theorem Programme.InRange.dwellEffect {pr : Programme} (h : pr.InRange) : pr.dwellEffect.InRange := by
  unfold Programme.dwellEffect
  split
  · exact (h.confirm _).raiseHorizon
  · exact h.raiseHorizon

theorem Programme.InRange.decideCut {pr : Programme} (h : pr.InRange) (cs : CutCase) : (pr.decideCut cs).InRange := by
  have h1 : ∀ d chs, chs.length = pr.cutter.chapters.length →
      Programme.InRange { pr with cutter := { pr.cutter with
        chapters := chs, previous := some pr.cutter.lastCut, deferred := d
        cuts := pr.cutter.cuts ++ [CutRecord.mk cs.time cs.atChapter] } } := by
    intro d chs hl
    exact ⟨h.frame, h.someRendition, h.fiveRenditions, h.somePiece, h.pieceList, by simp, by simpa [hl] using h.chapterList,
      h.errorTime⟩
  unfold Programme.decideCut
  dsimp only
  split
  · exact ((h1 _ _ (by simp)).activateCut _).dwellEffect
  · exact (h1 _ _ (by simp)).activateCut _

theorem decisionLoop_inRange (fuel : Nat) (pr : Programme) (h : pr.InRange) : (decisionLoop fuel pr).InRange := by
  induction fuel generalizing pr with
  | zero => exact h
  | succ fuel ih =>
    simp only [decisionLoop]
    split
    · exact h.disposeEarly
    · split
      · exact ih _ (h.disposeEarly.decideCut _)
      · exact h.disposeEarly

theorem Programme.InRange.decisionPass {pr : Programme} (h : pr.InRange) : pr.decisionPass.InRange :=
  decisionLoop_inRange _ pr h

theorem Programme.InRange.endProgramme {pr : Programme} (h : pr.InRange) : pr.endProgramme.InRange := by
  have h1 := (h.setCandidate none).raiseHorizon
  have h2 : ∀ e, Programme.InRange { Programme.raiseHorizon { pr with cutter := { pr.cutter with candidate := none } } with
      cutter := { (Programme.raiseHorizon { pr with cutter := { pr.cutter with candidate := none } }).cutter with
        progEnd := e } } := fun e =>
    ⟨h1.frame, h1.someRendition, h1.fiveRenditions, h1.somePiece, h1.pieceList, h1.cutZero, h1.chapterList, h1.errorTime⟩
  unfold Programme.endProgramme
  dsimp only
  have h3 := (h2 (some (ceilDiv (Programme.raiseHorizon { pr with cutter := { pr.cutter with candidate := none } }).cutter.reach
    (Programme.raiseHorizon { pr with cutter := { pr.cutter with candidate := none } }).frame *
    (Programme.raiseHorizon { pr with cutter := { pr.cutter with candidate := none } }).frame))).decisionPass
  exact ⟨h3.frame, h3.someRendition, h3.fiveRenditions, h3.somePiece, h3.pieceList, h3.cutZero,
    by simpa using h3.chapterList, h3.errorTime⟩

/-! ### The mapper's changes -/

theorem Programme.InRange.openPiece {pr : Programme} (h : pr.InRange) (n : Nat) (hl : pr.pieces.length < pieceRecords) :
    (pr.openPiece n).InRange := by
  have ha := h.activatePiece
  have hp : pr.activatePiece.pieces = pr.pieces := by
    unfold Programme.activatePiece
    split <;> rfl
  have hlen : ∀ x, (pr.activatePiece.pieces ++ [x]).length ≤ pieceRecords ∧ 1 ≤ (pr.activatePiece.pieces ++ [x]).length := by
    intro x
    rw [hp]
    simp only [List.length_append, List.length_singleton]
    omega
  have h1 : ∀ x, Programme.InRange { pr.activatePiece with pieces := pr.activatePiece.pieces ++ [x] } := fun x =>
    ⟨ha.frame, ha.someRendition, ha.fiveRenditions, (hlen x).2, (hlen x).1, ha.cutZero, ha.chapterList, ha.errorTime⟩
  unfold Programme.openPiece
  dsimp only
  split <;> split <;> first | exact ((h1 _).latch _).latch _ | exact (h1 _).latch _ | exact h1 _

theorem Programme.InRange.selectPiece {pr : Programme} (h : pr.InRange) (n : Nat) : (pr.selectPiece n).2.2.InRange := by
  unfold Programme.selectPiece
  split
  · exact h
  · split
    · split
      · rename_i hl
        exact h.openPiece n hl
      · exact h
    · exact h

theorem Programme.InRange.setOrigin {pr : Programme} (h : pr.InRange) (k : Nat) (o : Option Int) :
    (pr.setOrigin k o).InRange := by
  unfold Programme.setOrigin
  split
  · exact h
  · exact ⟨h.frame, h.someRendition, h.fiveRenditions, by simpa using h.somePiece, by simpa using h.pieceList, h.cutZero,
      h.chapterList, h.errorTime⟩

theorem Programme.InRange.mapUnit {pr : Programme} (h : pr.InRange) (r : StreamRecord) (e : Entry) :
    (pr.mapUnit r e).prog.InRange := by
  have hs := h.selectPiece e.piece
  unfold Programme.mapUnit
  dsimp only
  split
  · exact hs
  · split
    · exact hs
    · exact hs.setOrigin _ _

theorem Programme.InRange.countLimit {pr : Programme} (h : pr.InRange) (l : Limit) : (countLimit l pr).InRange := by
  cases l <;>
    exact ⟨h.frame, h.someRendition, h.fiveRenditions, h.somePiece, h.pieceList, h.cutZero, h.chapterList, h.errorTime⟩

theorem Programme.InRange.countErrors {pr : Programme} (h : pr.InRange) (cs : List ErrorClass) :
    (cs.foldl (fun pr c => pr.countError c) pr).InRange := by
  induction cs generalizing pr with
  | nil => exact h
  | cons c cs ih => exact ih (h.countError c)

theorem Programme.InRange.reportRaised {pr : Programme} (h : pr.InRange) (e : Entry) (m : Mapping) :
    (Sys2Proof.Machine.reportRaised e m pr).InRange := by
  unfold Sys2Proof.Machine.reportRaised
  generalize m.raised = cs
  induction cs generalizing pr with
  | nil => exact h
  | cons c cs ih => exact ih (h.reportIfEnabled _)

theorem Programme.InRange.keep {pr : Programme} (h : pr.InRange) (st : Stream) (r : StreamRecord) (u : MappedUnit) (d : Nat) :
    (pr.keep st r u d).InRange := by
  unfold Programme.keep
  dsimp only
  split
  · exact ⟨h.frame, h.someRendition, h.fiveRenditions, by simpa using h.somePiece, by simpa using h.pieceList, h.cutZero,
      h.chapterList, h.errorTime⟩
  · exact ⟨h.frame, h.someRendition, h.fiveRenditions, h.somePiece, h.pieceList, h.cutZero, h.chapterList, h.errorTime⟩

end Sys2Proof.Machine
end

