-- ==== Sys2Proof/Laws/Kept.lean ====
section
/-! SUPPORT. What no work inside the part reaches: every operation of the assembler, the dispatcher, the cutter, the mapper,
the lanes and the parser leaves the queue of pending commands, the generations and the ports' records as they were, and
keeps a well-kept state well kept. One lemma for each shared operation. -/

namespace Sys2Proof.Machine

/-- What an internal operation leading from `a` to `b` keeps. -/
structure Kept (a b : State) : Prop where
  pending : b.pending = a.pending
  gens : ∀ i, b.gen i = a.gen i
  ports : ∀ p, PortState.SameRecords (a.port p) (b.port p)
  wellKept : a.WellKept → b.WellKept

theorem PortState.SameRecords.refl (a : PortState) : PortState.SameRecords a a := ⟨rfl, rfl, rfl, rfl, rfl, rfl, rfl, rfl⟩

theorem PortState.SameRecords.trans {a b c : PortState} (h : PortState.SameRecords a b) (k : PortState.SameRecords b c) :
    PortState.SameRecords a c :=
  ⟨k.commands.trans h.commands, k.responses.trans h.responses, k.area.trans h.area, k.overflow.trans h.overflow,
    k.staging.trans h.staging, k.hold.trans h.hold, k.mask.trans h.mask, k.window.trans h.window⟩

theorem Kept.refl (a : State) : Kept a a := ⟨rfl, fun _ => rfl, fun _ => .refl _, id⟩

theorem Kept.trans {a b c : State} (h : Kept a b) (k : Kept b c) : Kept a c :=
  ⟨k.pending.trans h.pending, fun i => (k.gens i).trans (h.gens i), fun p => (h.ports p).trans (k.ports p),
    fun w => k.wellKept (h.wellKept w)⟩

/-- A fold of operations that keep. -/
theorem Kept.foldl {α : Type} (f : State → α → State) (hf : ∀ s x, Kept s (f s x)) (l : List α) (s : State) :
    Kept s (l.foldl f s) := by
  induction l generalizing s with
  | nil => exact .refl s
  | cons x xs ih => exact (hf s x).trans (ih _)

/-- An update that keeps slots, lanes and ports, the wait queues and the stores, and adds neither entries nor segments. -/
theorem Kept.ofFields {a b : State} (pending : b.pending = a.pending := by rfl) (slots : b.slots = a.slots := by rfl)
    (lanes : b.lanes = a.lanes := by rfl) (ports : b.ports = a.ports := by rfl) (pipes : b.pipes = a.pipes := by rfl)
    (storeQueue : b.storeQueue = a.storeQueue := by rfl) (tableQueue : b.tableQueue = a.tableQueue := by rfl)
    (payload : b.payloadArea = a.payloadArea := by rfl) (output : b.outputStore = a.outputStore := by rfl)
    (entries : b.entries.length ≤ a.entries.length := by exact Nat.le_refl _)
    (segments : b.segments.length ≤ a.segments.length := by exact Nat.le_refl _)
    (used : b.payloadUsed.Sublist a.payloadUsed := by exact List.Sublist.refl _) : Kept a b := by
  have hp : ∀ p, b.port p = a.port p := fun p => by simp [State.port, ports]
  have hl : ∀ l, b.lane l = a.lane l := fun l => by simp [State.lane, lanes]
  have he : ∀ e, b.pipe e = a.pipe e := fun e => by simp [State.pipe, pipes]
  have hg : ∀ i, b.prog i = a.prog i := fun i => by simp [State.prog, slots]
  refine ⟨pending, fun i => by simp [State.gen, slots], fun p => by rw [hp p]; exact .refl _, fun w => ⟨?_, ?_, ?_, ?_, ?_⟩⟩
  · exact ⟨fun l => by rw [hl l]; exact w.memory.slot0 l, fun l => by rw [hl l]; exact w.memory.slot1 l,
      fun p => by rw [hp p]; exact w.memory.area p, fun p => by rw [hp p]; exact w.memory.window p,
      by rw [payload]; exact w.memory.payload, by rw [output]; exact w.memory.output⟩
  · exact ⟨Nat.le_trans entries w.capacity.1, Nat.le_trans segments w.capacity.2⟩
  · exact ⟨by rw [storeQueue]; exact w.waits.storeOnce, fun e => by rw [storeQueue, he e]; exact w.waits.storeAll e,
      by rw [tableQueue]; exact w.waits.tableOnce⟩
  · intro i pr h
    rw [hg i] at h
    exact w.programmes i pr h
  · exact ⟨w.payload.once.sublist used, Nat.le_trans used.length_le w.payload.room⟩

/-! ### The named updates -/

/-- Granules that entries hold, in a list with some entries left out. -/
theorem granules_filter_sublist (p : Entry → Bool) (es : List Entry) :
    ((es.filter p).flatMap Entry.granules).Sublist (es.flatMap Entry.granules) := by
  induction es with
  | nil => exact .slnil
  | cons e es ih =>
    simp only [List.filter_cons, List.flatMap_cons]
    split
    · exact List.Sublist.append (.refl _) ih
    · exact List.Sublist.trans ih (List.sublist_append_right _ _)

/-- Granules that entries hold, in a list whose entries hold no more than before. -/
theorem granules_map_sublist (f : Entry → Entry) (h : ∀ e, (f e).granules.Sublist e.granules) (es : List Entry) :
    ((es.map f).flatMap Entry.granules).Sublist (es.flatMap Entry.granules) := by
  induction es with
  | nil => exact .slnil
  | cons e es ih =>
    simp only [List.map_cons, List.flatMap_cons]
    exact List.Sublist.append (h e) ih

theorem kept_setEntries (s : State) (es : List Entry) (h : es.length ≤ s.entries.length)
    (hg : (es.flatMap Entry.granules).Sublist (s.entries.flatMap Entry.granules)) : Kept s (s.setEntries es) :=
  .ofFields (entries := h) (used := hg)

theorem kept_setSegments (s : State) (gs : List Segment) (h : gs.length ≤ s.segments.length) : Kept s (s.setSegments gs) :=
  .ofFields (segments := h)

theorem kept_removeEntry (s : State) (n : ItemName) : Kept s (s.removeEntry n) :=
  kept_setEntries s _ (List.length_filter_le _ _) (granules_filter_sublist _ _)

theorem kept_modEntry (s : State) (n : ItemName) (f : Entry → Entry)
    (h : ∀ e, (f e).granules.Sublist e.granules := by intro e; exact List.Sublist.refl _) : Kept s (s.modEntry n f) :=
  kept_setEntries s _ (by simp) (granules_map_sublist _ (fun e => by split; exacts [h e, .refl _]) _)

/-- Writing a record that is in range wherever the state was well kept. -/
theorem kept_setProg (s : State) (i : SlotId) (pr : Programme) (h : s.WellKept → pr.InRange) : Kept s (s.setProg i pr) := by
  refine ⟨rfl, fun j => by simp, fun p => .refl _, fun w => ⟨⟨w.memory.slot0, w.memory.slot1, w.memory.area,
    w.memory.window, w.memory.payload, w.memory.output⟩, w.capacity, ⟨w.waits.storeOnce, w.waits.storeAll,
    w.waits.tableOnce⟩, ?_, ⟨w.payload.once, w.payload.room⟩⟩⟩
  intro j pr' hj
  by_cases hij : j = i
  · subst hij
    rw [State.setProg_prog_same] at hj
    cases hj
    exact h w
  · rw [State.setProg_prog_other _ _ hij] at hj
    exact w.programmes j pr' hj

theorem kept_modProg (s : State) (i : SlotId) (f : Programme → Programme) (h : ∀ pr, pr.InRange → (f pr).InRange) :
    Kept s (s.modProg i f) := by
  unfold State.modProg
  split
  · rename_i pr hp
    exact kept_setProg s i _ (fun w => h pr (w.programmes i pr hp))
  · exact .refl s

theorem kept_freeSlot (s : State) (i : SlotId) : Kept s (s.freeSlot i) := by
  refine ⟨rfl, fun j => by simp, fun p => .refl _, fun w => ⟨⟨w.memory.slot0, w.memory.slot1, w.memory.area,
    w.memory.window, w.memory.payload, w.memory.output⟩, w.capacity, ⟨w.waits.storeOnce, w.waits.storeAll,
    w.waits.tableOnce⟩, ?_, ⟨w.payload.once, w.payload.room⟩⟩⟩
  intro j pr' hj
  by_cases hij : j = i
  · subst hij
    simp at hj
  · rw [State.freeSlot_prog_other _ hij] at hj
    exact w.programmes j pr' hj

/-- The bytes of both slots of a lane are canonical. -/
def LaneRecord.Canonical (ln : LaneRecord) : Prop := Mem.wf ln.slot0.bytes = true ∧ Mem.wf ln.slot1.bytes = true

theorem kept_setLane (s : State) (l : LaneId) (ln : LaneRecord) (h : (s.lane l).Canonical → ln.Canonical) :
    Kept s (s.setLane l ln) := by
  refine ⟨rfl, fun j => rfl, fun p => .refl _, fun w => ⟨⟨?_, ?_, w.memory.area,
    w.memory.window, w.memory.payload, w.memory.output⟩, w.capacity, ⟨w.waits.storeOnce, w.waits.storeAll,
    w.waits.tableOnce⟩, w.programmes, ⟨w.payload.once, w.payload.room⟩⟩⟩
  · intro k
    by_cases hk : k = l
    · subst hk
      rw [State.setLane_lane_same]
      exact (h ⟨w.memory.slot0 k, w.memory.slot1 k⟩).1
    · rw [State.setLane_lane_other _ _ hk]
      exact w.memory.slot0 k
  · intro k
    by_cases hk : k = l
    · subst hk
      rw [State.setLane_lane_same]
      exact (h ⟨w.memory.slot0 k, w.memory.slot1 k⟩).2
    · rw [State.setLane_lane_other _ _ hk]
      exact w.memory.slot1 k

/-- Writing a port that keeps its records. -/
theorem kept_setPort (s : State) (p : Port) (pt : PortState) (h : PortState.SameRecords (s.port p) pt) :
    Kept s (s.setPort p pt) := by
  have hq : ∀ q, PortState.SameRecords (s.port q) ((s.setPort p pt).port q) := by
    intro q
    by_cases hk : q = p
    · subst hk
      rw [State.setPort_port_same]
      exact h
    · rw [State.setPort_port_other _ _ hk]
      exact .refl _
  refine ⟨rfl, fun j => rfl, hq, fun w => ⟨⟨w.memory.slot0, w.memory.slot1, ?_, ?_, w.memory.payload, w.memory.output⟩,
    w.capacity, ⟨w.waits.storeOnce, w.waits.storeAll, w.waits.tableOnce⟩, w.programmes, ⟨w.payload.once, w.payload.room⟩⟩⟩
  · intro q
    rw [(hq q).area]
    exact w.memory.area q
  · intro q
    rw [(hq q).window]
    exact w.memory.window q

theorem kept_setLaneSlot (s : State) (o : Option Port) : Kept s (s.setLaneSlot o) := by
  cases o with
  | none => exact .refl s
  | some p => exact kept_setPort s p _ ⟨rfl, rfl, rfl, rfl, rfl, rfl, rfl, rfl⟩

theorem kept_notify (before : State) (p : Port) (s : State) : Kept s (notify before p s) := by
  unfold notify
  split
  · exact kept_setPort s p _ ⟨rfl, rfl, rfl, rfl, rfl, rfl, rfl, rfl⟩
  · exact .refl s

theorem kept_notices (before s : State) : Kept s (notices before s) :=
  ((kept_notify before .p0 s).trans (kept_notify before .p1 _)).trans (kept_notify before .p2 _)

theorem kept_evaluateSources (before s : State) : Kept s (evaluateSources before s) := .ofFields

/-! ### The assembler -/

theorem kept_closeCurrent (i : SlotId) (pr : Programme) (st : Stream) (cur : Nat) (final : Bool) (e : Nat) (s : State) :
    Kept s (closeCurrent i pr st cur final e s) := by
  unfold closeCurrent
  refine (kept_setSegments s _ (by simp)).trans (kept_modProg _ _ _ ?_)
  intro pr h
  exact ⟨h.frame, h.someRendition, h.fiveRenditions, h.somePiece, h.pieceList, h.cutZero, h.chapterList, h.errorTime⟩

theorem closeCurrent_segments_length (i : SlotId) (pr : Programme) (st : Stream) (cur : Nat) (final : Bool) (e : Nat)
    (s : State) : (closeCurrent i pr st cur final e s).segments.length = s.segments.length := by
  unfold closeCurrent State.modProg
  dsimp only
  split <;> simp [State.setSegments]

/-- Opening segments for a stream keeps where the table has entries for them (R132, R138). -/
theorem kept_openAt (i : SlotId) (pr : Programme) (st : Stream) (idx : Nat) (s : State)
    (h : s.segments.length + (pr.renditionsOf st).length ≤ tableEntries) : Kept s (openAt i pr st idx s) := by
  refine ⟨rfl, fun _ => rfl, fun _ => .refl _, fun w => ⟨⟨w.memory.slot0, w.memory.slot1, w.memory.area,
    w.memory.window, w.memory.payload, w.memory.output⟩, ⟨w.capacity.1, ?_⟩, ⟨w.waits.storeOnce, w.waits.storeAll,
    w.waits.tableOnce⟩, w.programmes, ⟨w.payload.once, w.payload.room⟩⟩⟩
  simpa [openAt, State.setSegments] using h

theorem kept_setAssembly (i : SlotId) (st : Stream) (a : AssemblyRecord) (s : State) : Kept s (setAssembly i st a s) :=
  kept_modProg _ _ _ fun _ h => h.modStream _ _

theorem kept_requestTable (i : SlotId) (st : Stream) (s : State) : Kept s (requestTable i st s) := by
  unfold requestTable
  split
  · exact .refl s
  · rename_i hn
    refine ⟨rfl, fun _ => rfl, fun _ => .refl _, fun w => ⟨⟨w.memory.slot0, w.memory.slot1, w.memory.area,
      w.memory.window, w.memory.payload, w.memory.output⟩, w.capacity, ⟨w.waits.storeOnce, w.waits.storeAll, ?_⟩,
      w.programmes, ⟨w.payload.once, w.payload.room⟩⟩⟩
    exact List.nodup_append.mpr ⟨w.waits.tableOnce, by simp, by
      intro a ha b hb
      simp only [List.mem_singleton] at hb
      subst hb
      intro e
      subst e
      exact hn ha⟩

theorem kept_retire (i : SlotId) (rs : List Nat) (cur : Nat) (e : Entry) (s : State) : Kept s (retire i rs cur e s) :=
  (kept_setSegments s _ (by simp)).trans (kept_removeEntry _ _)

theorem kept_assembleStream (i : SlotId) (st : Stream) (fuel : Nat) (s : State) : Kept s (assembleStream i st fuel s) := by
  induction fuel generalizing s with
  | zero => exact .refl s
  | succ fuel ih =>
    simp only [assembleStream]
    split
    · exact .refl s
    · split
      · exact .refl s
      · split
        · split
          · exact (kept_removeEntry s _).trans (ih _)
          · exact .refl s
        · split
          · split
            · exact (kept_retire _ _ _ _ s).trans (ih _)
            · split
              · exact kept_requestTable _ _ s
              · exact .refl s
          · exact .refl s
        · split
          · split
            · exact kept_requestTable _ _ s
            · exact (kept_closeCurrent _ _ _ _ _ _ s).trans (kept_setAssembly _ _ _ _)
          · exact .refl s
        · exact .refl s

theorem kept_completeDrain (i : SlotId) (s : State) : Kept s (completeDrain i s) := by
  unfold completeDrain
  split
  · exact .refl s
  · rename_i pr hp
    split
    · refine kept_setProg s i _ fun w => ?_
      have h := w.programmes i pr hp
      exact ⟨h.frame, h.someRendition, h.fiveRenditions, h.somePiece, h.pieceList, h.cutZero, h.chapterList, h.errorTime⟩
    · exact .refl s

theorem kept_pruneRevisions (i : SlotId) (s : State) : Kept s (pruneRevisions i s) :=
  kept_modProg _ _ _ fun _ h =>
    ⟨h.frame, h.someRendition, h.fiveRenditions, h.somePiece, h.pieceList, h.cutZero, h.chapterList, h.errorTime⟩

theorem kept_progressStream (i : SlotId) (st : Stream) (s : State) : Kept s (progressStream i st s) :=
  ((kept_assembleStream i st _ s).trans (kept_pruneRevisions i _)).trans (kept_completeDrain i _)

theorem kept_tableGrantOne (i : SlotId) (pr : Programme) (st : Stream) (s : State)
    (h : s.segments.length + (pr.renditionsOf st).length ≤ tableEntries) : Kept s (tableGrantOne i pr st s) := by
  unfold tableGrantOne
  split
  · exact (kept_openAt _ _ _ _ s h).trans (kept_setAssembly _ _ _ _)
  · exact ((kept_closeCurrent _ _ _ _ _ _ s).trans
      (kept_openAt _ _ _ _ _ (by rw [closeCurrent_segments_length]; exact h))).trans (kept_setAssembly _ _ _ _)
  · exact .refl s

/-- Dropping the head of the table queue. -/
theorem kept_dropRequest (s : State) (r : SlotId × Stream) (rest : List (SlotId × Stream)) (h : s.tableQueue = r :: rest) :
    Kept s { s with tableQueue := rest } := by
  refine ⟨rfl, fun _ => rfl, fun _ => .refl _, fun w => ⟨⟨w.memory.slot0, w.memory.slot1, w.memory.area,
    w.memory.window, w.memory.payload, w.memory.output⟩, w.capacity, ⟨w.waits.storeOnce, w.waits.storeAll, ?_⟩,
    w.programmes, ⟨w.payload.once, w.payload.room⟩⟩⟩
  have := w.waits.tableOnce
  rw [h] at this
  exact (List.nodup_cons.mp this).2

theorem modProg_tableQueue (s : State) (i : SlotId) (f : Programme → Programme) :
    (s.modProg i f).tableQueue = s.tableQueue := by
  unfold State.modProg
  split <;> rfl

theorem closeCurrent_tableQueue (i : SlotId) (pr : Programme) (st : Stream) (cur : Nat) (final : Bool) (e : Nat)
    (s : State) : (closeCurrent i pr st cur final e s).tableQueue = s.tableQueue := by
  unfold closeCurrent
  exact modProg_tableQueue _ _ _

theorem tableGrantOne_tableQueue (i : SlotId) (pr : Programme) (st : Stream) (s : State) :
    (tableGrantOne i pr st s).tableQueue = s.tableQueue := by
  unfold tableGrantOne setAssembly
  split
  · rw [modProg_tableQueue]; rfl
  · rw [modProg_tableQueue]; exact closeCurrent_tableQueue _ _ _ _ _ _ _
  · rfl

theorem kept_tableGrants (fuel : Nat) (s : State) : Kept s (tableGrants fuel s) := by
  induction fuel generalizing s with
  | zero => exact .refl s
  | succ fuel ih =>
    simp only [tableGrants]
    split
    · exact .refl s
    · rename_i i st rest hq
      split
      · exact (kept_dropRequest s _ rest hq).trans (ih _)
      · rename_i pr hp
        split
        · rename_i hroom
          have h1 := (kept_tableGrantOne i pr st s hroom).trans (kept_pruneRevisions i _)
          split
          · exact h1.trans (ih _)
          · have hq2 : (pruneRevisions i (tableGrantOne i pr st s)).tableQueue = (i, st) :: rest := by
              unfold pruneRevisions
              rw [modProg_tableQueue, tableGrantOne_tableQueue, hq]
            exact (h1.trans (kept_dropRequest _ _ rest hq2)).trans ((kept_progressStream i st _).trans (ih _))
        · exact .refl s

theorem kept_examineTable (s : State) : Kept s (examineTable s) := kept_tableGrants _ s

theorem kept_assemble (i : SlotId) (st : Stream) (s : State) : Kept s (assemble i st s) := by
  unfold assemble
  dsimp only
  split
  · exact (kept_progressStream i st s).trans (kept_examineTable _)
  · exact kept_progressStream i st s

/-! ### The dispatcher, the store queue and losses -/

theorem mem_allPipes_find {s : State} {e : PipeId} (h : idlePipe s = some e) : s.pipe e = .idle := by
  have := List.find?_some h
  simpa using this

/-- Changing a pipe that is not STORING to another that is not. -/
theorem kept_setPipe (s : State) (e : PipeId) (x : Pipe) (h0 : (s.pipe e).isStoring = false) (h1 : x.isStoring = false) :
    Kept s (s.setPipe e x) := by
  refine ⟨rfl, fun _ => rfl, fun _ => .refl _, fun w => ⟨⟨w.memory.slot0, w.memory.slot1, w.memory.area,
    w.memory.window, w.memory.payload, w.memory.output⟩, w.capacity, ⟨w.waits.storeOnce, ?_, w.waits.tableOnce⟩,
    w.programmes, ⟨w.payload.once, w.payload.room⟩⟩⟩
  intro k
  have := w.waits.storeAll k
  by_cases hk : k = e
  · subst hk
    rw [State.setPipe_pipe_same, h1]
    rw [h0] at this
    exact this
  · rw [State.setPipe_pipe_other _ _ hk]
    exact this

theorem kept_dispatchTo (pipe : PipeId) (pr : Programme) (e : Entry) (s : State) (h : s.pipe pipe = .idle) :
    Kept s (dispatchTo pipe pr e s) := by
  have h1 := kept_modEntry s e.name (fun x => { x with state := .inPipe })
  have h2 := h1.trans (kept_setPipe _ pipe (.encoding (descriptorOf s.dispatches pr e) (s.now + pr.active.itemLimit))
    (by show (s.pipe pipe).isStoring = false; rw [h]; rfl) rfl)
  exact h2.trans .ofFields

theorem kept_dispatchLoop (fuel : Nat) (s : State) : Kept s (dispatchLoop fuel s) := by
  induction fuel generalizing s with
  | zero => exact .refl s
  | succ fuel ih =>
    simp only [dispatchLoop]
    split
    · rename_i pipe e hp he
      split
      · exact (kept_dispatchTo _ _ _ s (mem_allPipes_find hp)).trans (ih _)
      · exact .refl s
    · exact .refl s

theorem kept_dispatchAll (s : State) : Kept s (dispatchAll s) := kept_dispatchLoop 4 s

/-- A grant takes its pipe, the head, out of the store queue and makes it IDLE (R120). -/
theorem kept_storageGrantOne (pipe : PipeId) (rest : List PipeId) (d : ItemDescriptor) (held : List EncodedOutput) (s : State)
    (hq : s.storeQueue = pipe :: rest) : Kept s (storageGrantOne pipe rest d held s) := by
  have hsub : ((s.entries.map (fun e => if e.name = d.item then { e with
      output := some (splitExtents (allocate s.outputUsed (outputNeed held)) held), granules := [], state := .done }
      else e)).flatMap Entry.granules).Sublist (s.entries.flatMap Entry.granules) := by
    refine granules_map_sublist _ (fun e => ?_) _
    split
    · exact List.nil_sublist _
    · exact .refl _
  unfold storageGrantOne
  dsimp only
  refine ⟨rfl, fun _ => rfl, fun _ => .refl _, fun w => ⟨⟨w.memory.slot0, w.memory.slot1, w.memory.area,
    w.memory.window, w.memory.payload, wf_placeExtents _ _ _ w.memory.output⟩, ⟨?_, w.capacity.2⟩, ⟨?_, ?_,
    w.waits.tableOnce⟩, w.programmes, ⟨w.payload.once.sublist hsub, Nat.le_trans hsub.length_le w.payload.room⟩⟩⟩
  · simpa [State.setPipe, State.modEntry, State.setEntries] using w.capacity.1
  · have := w.waits.storeOnce
    rw [hq] at this
    exact (List.nodup_cons.mp this).2
  · intro k
    have hall := w.waits.storeAll k
    have hone := w.waits.storeOnce
    rw [hq] at hall hone
    by_cases hk : k = pipe
    · subst hk
      rw [State.setPipe_pipe_same]
      exact ⟨fun h => absurd h (List.nodup_cons.mp hone).1, fun h => absurd h (by simp [Pipe.isStoring])⟩
    · rw [State.setPipe_pipe_other _ _ hk]
      show k ∈ rest ↔ (s.pipe k).isStoring = true
      rw [← hall]
      simp [hk]

theorem kept_storeGrants (fuel : Nat) (s : State) : Kept s (storeGrants fuel s) := by
  induction fuel generalizing s with
  | zero => exact .refl s
  | succ fuel ih =>
    simp only [storeGrants]
    split
    · exact .refl s
    · rename_i pipe rest hq
      split
      · split
        · exact ((kept_storageGrantOne pipe rest _ _ s hq).trans (kept_assemble _ _ _)).trans (ih _)
        · exact .refl s
      · exact .refl s

theorem kept_examineStore (s : State) : Kept s (examineStore s) := kept_storeGrants _ s

theorem kept_afterFreeing (s : State) : Kept s (afterFreeing s) :=
  ((kept_examineStore s).trans (kept_examineTable _)).trans (kept_dispatchAll _)

theorem kept_passKey (e : Entry) (s : State) : Kept s (passKey e s) := by
  unfold passKey
  dsimp only
  split
  · rename_i x _
    exact kept_modEntry s x.name (fun x => { x with forceKey := true })
  · exact kept_modProg _ _ _ fun _ h => h.modStream _ _

theorem kept_loseEntry (c : ErrorClass) (n : ItemName) (s : State) : Kept s (loseEntry c n s) := by
  unfold loseEntry
  split
  · exact .refl s
  · rename_i e _
    dsimp only
    have h1 := (kept_modEntry s n (fun x => { x with state := .lost, granules := [] }) (fun _ => List.nil_sublist _)).trans
      (kept_modProg _ n.handle.slot (fun pr => (pr.countError c).reportIfEnabled (lossRecord c e))
        (fun _ h => (h.countError c).reportIfEnabled _))
    split
    · exact (h1.trans (kept_passKey e _)).trans (kept_assemble _ _ _)
    · exact h1.trans (kept_assemble _ _ _)

/-! ### The cutter -/

theorem releaseEntries_length (i : SlotId) (st : Stream) (pr : Programme) (r : StreamRecord) (es : List Entry) :
    (releaseEntries i st pr r es).2.length = es.length := by
  induction es generalizing r with
  | nil => rfl
  | cons e es ih =>
    simp only [releaseEntries]
    split
    · split
      · rfl
      · simp [ih]
    · simp [ih]

theorem releasedEntry_granules (pr : Programme) (r : StreamRecord) (k : Nat) (e : Entry) :
    (releasedEntry pr r k e).granules.Sublist e.granules := by
  unfold releasedEntry
  dsimp only
  split
  · exact List.nil_sublist _
  · exact .refl _

theorem releaseEntries_granules (i : SlotId) (st : Stream) (pr : Programme) (r : StreamRecord) (es : List Entry) :
    ((releaseEntries i st pr r es).2.flatMap Entry.granules).Sublist (es.flatMap Entry.granules) := by
  induction es generalizing r with
  | nil => exact .slnil
  | cons e es ih =>
    simp only [releaseEntries]
    split
    · split
      · exact .refl _
      · simp only [List.flatMap_cons]
        exact List.Sublist.append (releasedEntry_granules _ _ _ _) (ih _)
    · simp only [List.flatMap_cons]
      exact List.Sublist.append (.refl _) (ih _)

theorem kept_releaseStream (i : SlotId) (st : Stream) (s : State) : Kept s (releaseStream i st s) := by
  unfold releaseStream
  split
  · exact .refl s
  · rename_i pr hp
    split
    · exact .refl s
    · rename_i r _
      dsimp only
      have h1 : Kept s ((s.setEntries (releaseEntries i st pr r s.entries).2).setProg i
          (pr.setStream st (releaseEntries i st pr r s.entries).1)) := by
        have h0 := kept_setEntries s (releaseEntries i st pr r s.entries).2 (Nat.le_of_eq (releaseEntries_length _ _ _ _ _))
          (releaseEntries_granules _ _ _ _ _)
        refine h0.trans (kept_setProg _ _ _ fun w => ?_)
        have h := w.programmes i pr hp
        exact ⟨h.frame, h.someRendition, h.fiveRenditions, h.somePiece, h.pieceList, h.cutZero, h.chapterList, h.errorTime⟩
      split
      · exact h1.trans (kept_assemble _ _ _)
      · exact h1

theorem kept_releasePass (i : SlotId) (s : State) : Kept s (releasePass i s) :=
  ((kept_releaseStream i .cam s).trans (kept_releaseStream i .slide _)).trans (kept_releaseStream i .audio _)

theorem kept_passes (i : SlotId) (s : State) : Kept s (passes i s) :=
  (kept_modProg s i _ fun _ h => h.decisionPass).trans (kept_releasePass i _)

theorem kept_forceHorizon (i : SlotId) (s : State) : Kept s (forceHorizon i s) := by
  unfold forceHorizon
  split
  · rename_i pr g hp _
    have raised : Kept s (passes i (s.setProg i (Programme.raiseHorizon (Programme.latch .forced
        { pr with cutter := { pr.cutter with forced := some g } })))) := by
      refine (kept_setProg s i _ fun w => ?_).trans (kept_passes i _)
      have h := w.programmes i pr hp
      have h1 : Programme.InRange { pr with cutter := { pr.cutter with forced := some g } } :=
        ⟨h.frame, h.someRendition, h.fiveRenditions, h.somePiece, h.pieceList, h.cutZero, h.chapterList, h.errorTime⟩
      exact (h1.latch _).raiseHorizon
    split
    · split
      · exact raised
      · exact .refl s
    · rw [if_pos rfl]
      exact raised
  · exact .refl s

theorem kept_forceAll (s : State) : Kept s (forceAll s) := Kept.foldl _ (fun s i => kept_forceHorizon i s) _ s

theorem kept_compareHeld (i : SlotId) (s : State) : Kept s (compareHeld i s) := by
  unfold compareHeld
  split
  · split
    · exact kept_forceHorizon i s
    · exact .refl s
  · exact .refl s

theorem kept_raiseAndPass (i : SlotId) (s : State) : Kept s (raiseAndPass i s) := by
  unfold raiseAndPass
  split
  · exact .refl s
  · rename_i pr hp
    split
    · exact .refl s
    · exact (kept_setProg s i _ fun w => (w.programmes i pr hp).raiseHorizon).trans (kept_passes i _)

theorem kept_slideStages (i : SlotId) (idx : Option (BitVec 16)) (x : Nat) (s : State) :
    Kept s (slideStages i idx x s) := by
  unfold slideStages
  split
  · exact .refl s
  · rename_i pr hp
    dsimp only
    have h1 := kept_setProg s i (pr.detect idx x).2 fun w => (w.programmes i pr hp).detect idx x
    split
    · exact (h1.trans (kept_passes i _)).trans (kept_raiseAndPass i _)
    · exact h1.trans (kept_raiseAndPass i _)

theorem kept_holdEntry (n : ItemName) (s : State) : Kept s (holdEntry n s) := kept_modEntry s n _

theorem kept_cutterStep (n : ItemName) (idx : Option (BitVec 16)) (t dm x : Nat) (s : State) :
    Kept s (cutterStep n idx t dm x s) := by
  unfold cutterStep
  dsimp only
  have h1 := kept_modProg s n.handle.slot
    (fun pr => { pr with cutter := { pr.cutter with reach := Max.max pr.cutter.reach (t + dm) } })
    (fun _ h => ⟨h.frame, h.someRendition, h.fiveRenditions, h.somePiece, h.pieceList, h.cutZero, h.chapterList, h.errorTime⟩)
  have h2 : ∀ u, Kept u (passes n.handle.slot (compareHeld n.handle.slot (holdEntry n u))) := fun u =>
    ((kept_holdEntry n u).trans (kept_compareHeld _ _)).trans (kept_passes _ _)
  split
  · exact (h1.trans (kept_slideStages _ idx x _)).trans (h2 _)
  · exact h1.trans (h2 _)

theorem kept_endSlide (i : SlotId) (s : State) : Kept s (endSlide i s) :=
  (kept_modProg s i _ fun _ h => h.setCandidate none).trans (kept_raiseAndPass i _)

/-! ### The mapper -/

theorem kept_mapStep (n : ItemName) (s : State) : Kept s (mapStep n s) := by
  unfold mapStep
  dsimp only
  split
  · rename_i e pr he hp
    split
    · exact .refl s
    · rename_i r _
      have hc : s.WellKept → ((pr.mapUnit r e).raised.foldl (fun pr c => pr.countError c) (pr.mapUnit r e).prog).InRange :=
        fun w => ((w.programmes _ pr hp).mapUnit r e).countErrors _
      refine Kept.trans ?_ (kept_modProg _ _ _ fun _ h => h.reportRaised e _)
      split
      · exact ((kept_setProg s _ _ fun w => (hc w).keep _ _ _ _).trans (kept_modEntry _ _ _)).trans
          (kept_cutterStep _ _ _ _ _ _)
      · exact (kept_setProg s _ _ fun w => (hc w).countLimit _).trans (kept_removeEntry _ _)
      · exact (kept_setProg s _ _ hc).trans (kept_removeEntry _ _)
  · exact .refl s

/-! ### The lanes -/

theorem LaneRecord.Canonical.chooseFill {ln : LaneRecord} (h : ln.Canonical) : ln.chooseFill.Canonical := by
  unfold LaneRecord.chooseFill
  split <;> exact h

theorem LaneRecord.Canonical.setSlot {ln : LaneRecord} (h : ln.Canonical) (b : SlotNo) (c : ChunkSlot)
    (hc : Mem.wf c.bytes = true) : (ln.setSlot b c).Canonical := by
  cases b
  · exact ⟨hc, h.2⟩
  · exact ⟨h.1, hc⟩

theorem LaneRecord.Canonical.slot {ln : LaneRecord} (h : ln.Canonical) (b : SlotNo) : Mem.wf (ln.slot b).bytes = true := by
  cases b
  · exact h.1
  · exact h.2

theorem LaneRecord.Canonical.freeSlotNo {ln : LaneRecord} (h : ln.Canonical) (b : SlotNo) : (ln.freeSlotNo b).Canonical :=
  (h.setSlot b { ln.slot b with count := none } (h.slot b)).chooseFill

theorem LaneRecord.Canonical.settleState {ln : LaneRecord} (h : ln.Canonical) : ln.settleState.Canonical := by
  unfold LaneRecord.settleState
  split <;> exact h

theorem consumeFrom_canonical (ln : LaneRecord) (bs : List SlotNo) (rp n : Nat) (h : ln.Canonical) :
    (consumeFrom ln bs rp n).1.Canonical := by
  induction bs generalizing ln rp n with
  | nil => exact h
  | cons b bs ih =>
    simp only [consumeFrom]
    split
    · exact h
    · split
      · exact ih _ _ _ (h.freeSlotNo b)
      · exact h

theorem LaneRecord.Canonical.consume {ln : LaneRecord} (h : ln.Canonical) (n : Nat) : (ln.consume n).Canonical := by
  unfold LaneRecord.consume
  dsimp only
  exact LaneRecord.Canonical.settleState (consumeFrom_canonical ln ln.order ln.readPos n h)

theorem dropThrough_canonical (ln : LaneRecord) (bs : List SlotNo) (h : ln.Canonical) : (dropThrough ln bs).1.Canonical := by
  induction bs generalizing ln with
  | nil => exact h
  | cons b bs ih =>
    simp only [dropThrough]
    split
    · exact ih _ (h.freeSlotNo b)
    · exact h.freeSlotNo b

theorem LaneRecord.Canonical.passBoundary {ln : LaneRecord} (h : ln.Canonical) : ln.passBoundary.Canonical := by
  unfold LaneRecord.passBoundary
  dsimp only
  exact LaneRecord.Canonical.settleState (dropThrough_canonical ln ln.order h)

theorem LaneRecord.Canonical.afterBoundary {ln : LaneRecord} (h : ln.Canonical) : ln.afterBoundary.Canonical :=
  h.passBoundary

theorem LaneRecord.Canonical.afterMalformed {ln : LaneRecord} (h : ln.Canonical) : ln.afterMalformed.Canonical :=
  h.consume headerBytes

theorem LaneRecord.Canonical.afterHeader {ln : LaneRecord} (h : ln.Canonical) (q : BitVec 24) (u : UnitHeader) :
    (ln.afterHeader q u).Canonical := h.consume headerBytes

theorem kept_advanceLane (s : State) (l : LaneId) (before after : LaneRecord) (h : (s.lane l).Canonical → after.Canonical) :
    Kept s (s.advanceLane l before after) := by
  unfold State.advanceLane
  dsimp only
  split
  · exact (kept_setLane s l after h).trans (kept_setLaneSlot _ _)
  · exact kept_setLane s l after h

theorem kept_malformedUnit (h : Handle) (st : Stream) (seq : Option (BitVec 24)) (s : State) :
    Kept s (malformedUnit h st seq s) := by
  unfold malformedUnit
  dsimp only
  refine Kept.trans ?_ (kept_modProg _ _ _ fun _ hp => (hp.countError _).reportIfEnabled _)
  split
  · exact kept_removeEntry s _
  · exact .refl s

theorem kept_dropLane (i : SlotId) (st : Stream) (s : State) : Kept s (dropLane i st s) :=
  kept_modProg _ _ _ fun _ h => h.modStream _ _

theorem kept_removeLane (l : LaneId) (s : State) : Kept s (removeLane l s) := by
  have hfree : ∀ t : State, t.lanes = s.lanes → Kept t (t.setLane l (s.lane l).toFree) := by
    intro t ht
    refine kept_setLane t l _ fun h => ?_
    have : t.lane l = s.lane l := by simp [State.lane, ht]
    rw [this] at h
    exact h
  unfold removeLane
  dsimp only
  split <;> split
  all_goals first
    | exact ((kept_removeEntry s _).trans (hfree _ rfl)).trans (kept_dropLane _ _ _)
    | exact (kept_removeEntry s _).trans (hfree _ rfl)
    | exact (hfree _ rfl).trans (kept_dropLane _ _ _)
    | exact hfree _ rfl

theorem kept_removeLanesWhere (p : LaneRecord → Bool) (s : State) : Kept s (removeLanesWhere p s) := by
  refine Kept.foldl _ (fun s l => ?_) _ s
  split
  · exact kept_removeLane l s
  · exact .refl s

theorem kept_runLanes (i : SlotId) (s : State) : Kept s (runLanes i s) := by
  have hl : ∀ l, ((runLanes i s).lane l).slot0 = (s.lane l).slot0 ∧ ((runLanes i s).lane l).slot1 = (s.lane l).slot1 := by
    intro l
    simp only [runLanes, State.lane, Fin.getElem_fin, Vector.getElem_map]
    split <;> exact ⟨rfl, rfl⟩
  refine ⟨rfl, fun _ => rfl, fun _ => .refl _, fun w => ⟨⟨?_, ?_, w.memory.area,
    w.memory.window, w.memory.payload, w.memory.output⟩, w.capacity, ⟨w.waits.storeOnce, w.waits.storeAll,
    w.waits.tableOnce⟩, w.programmes, ⟨w.payload.once, w.payload.room⟩⟩⟩
  · intro l
    rw [(hl l).1]
    exact w.memory.slot0 l
  · intro l
    rw [(hl l).2]
    exact w.memory.slot1 l

/-! ### The parser -/

theorem arbiterChoice_supply {s : State} {l : LaneId} {h : Handle} {st : Stream} {r : StreamRecord} {u : UnitHeader}
    (hc : arbiterChoice s = some (l, h, st, r, u)) : s.supplyMeets u = true ∧ s.waiting l = some (h, st, r, u) := by
  unfold arbiterChoice at hc
  obtain ⟨k, -, hk⟩ := List.exists_of_findSome?_eq_some hc
  split at hk
  · rename_i hw
    split at hk
    · rename_i hs
      cases hk
      exact ⟨hs, hw⟩
    · cases hk
  · cases hk

/-- What a header parse of the arbiter is: the parse on the lane chosen, with the sources evaluated (R51, R160). -/
theorem parseNext_cases {s s1 : State} (hn : parseNext s = some s1) : ∃ l h st r u,
    arbiterChoice s = some (l, h, st, r, u) ∧ s1 = evaluateSources s (takeHeader l h st r u s) := by
  obtain ⟨⟨l, h, st, r, u⟩, hc, rfl⟩ := Option.map_eq_some_iff.mp hn
  exact ⟨l, h, st, r, u, hc, rfl⟩

/-- A header parse that turns ACCEPT or PAYLOAD on ends the arbiter's service of a turn-off (R163). -/
theorem serveLanes_stops {s s1 : State} (n : Nat) (hn : parseNext s = some s1) (ht : turnedOn s s1 = true) :
    serveLanes (n + 1) s = forceForSupply s1 := by
  simp only [serveLanes, hn, ht, if_true]

/-- Header parse keeps where an entry is free (R50, R109). -/
theorem kept_takeHeader (l : LaneId) (h : Handle) (st : Stream) (r : StreamRecord) (u : UnitHeader) (s : State)
    (hfree : s.entries.length < acceptPlaces) (hroom : s.payloadCount + granulesFor u.length ≤ payloadGranules) : Kept s (takeHeader l h st r u s) := by
  have hused : (s.setEntries (s.entries ++ [parsedEntry h st r u (allocate s.payloadUsed (granulesFor u.length))])).payloadUsed =
      s.payloadUsed ++ allocate s.payloadUsed (granulesFor u.length) := by
    simp [State.payloadUsed, State.setEntries, parsedEntry]
  have hpay : s.PayloadExclusive →
      (s.setEntries (s.entries ++ [parsedEntry h st r u (allocate s.payloadUsed (granulesFor u.length))])).PayloadExclusive :=
    fun hp => ⟨by
      rw [hused]
      refine List.nodup_append.mpr ⟨hp.once, allocate_nodup _ _, fun a ha b hb hab => ?_⟩
      subst hab
      exact allocate_not_used _ _ _ hb ha, by
      unfold State.payloadCount
      rw [hused, List.length_append]
      exact Nat.le_trans (Nat.add_le_add_left (allocate_length_le _ _) _) hroom⟩
  unfold takeHeader
  dsimp only
  have h1 : Kept s (s.setEntries (s.entries ++ [parsedEntry h st r u (allocate s.payloadUsed (granulesFor u.length))])) :=
    ⟨rfl, fun _ => rfl, fun _ => .refl _, fun w => ⟨⟨w.memory.slot0, w.memory.slot1, w.memory.area,
      w.memory.window, w.memory.payload, w.memory.output⟩, ⟨by simpa [State.setEntries] using hfree, w.capacity.2⟩,
      ⟨w.waits.storeOnce, w.waits.storeAll, w.waits.tableOnce⟩, w.programmes, hpay w.payload⟩⟩
  have h2 : ∀ t : State, Kept t (t.modProg h.slot (fun pr => pr.setStream st (parsedStream u r))) := fun t =>
    kept_modProg t _ _ fun _ hp =>
      ⟨hp.frame, hp.someRendition, hp.fiveRenditions, hp.somePiece, hp.pieceList, hp.cutZero, hp.chapterList, hp.errorTime⟩
  refine ((h1.trans (h2 _)).trans (kept_advanceLane _ _ _ _ ?_)).trans .ofFields
  intro hcan
  have hlane : ((s.setEntries (s.entries ++ [parsedEntry h st r u (allocate s.payloadUsed (granulesFor u.length))])).modProg
      h.slot (fun pr => pr.setStream st (parsedStream u r))).lane l = s.lane l := by
    unfold State.modProg
    split <;> rfl
  rw [hlane] at hcan
  exact hcan.afterHeader _ _

theorem kept_forceForSupply (s : State) : Kept s (forceForSupply s) :=
  ((kept_forceAll s).trans (kept_dispatchAll _)).trans (kept_evaluateSources _ _)

theorem kept_parseNext {s s1 : State} (hn : parseNext s = some s1) : Kept s s1 := by
  obtain ⟨l, h, st, r, u, hc, rfl⟩ := parseNext_cases hn
  have hs := (arbiterChoice_supply hc).1
  simp only [State.supplyMeets, Bool.and_eq_true, decide_eq_true_eq] at hs
  exact (kept_takeHeader l h st r u s hs.1 hs.2).trans (kept_evaluateSources s _)

theorem kept_serveLane (s : State) : Kept s (serveLane s) := by
  unfold serveLane
  split
  · exact .refl s
  · rename_i hn
    split
    · exact (kept_parseNext hn).trans (kept_forceForSupply _)
    · exact kept_parseNext hn

theorem kept_serveLanes (fuel : Nat) (s : State) : Kept s (serveLanes fuel s) := by
  induction fuel generalizing s with
  | zero => exact .refl s
  | succ fuel ih =>
    simp only [serveLanes]
    split
    · exact .refl s
    · rename_i hn
      split
      · exact (kept_parseNext hn).trans (kept_forceForSupply _)
      · exact (kept_parseNext hn).trans (ih _)

theorem kept_malformedAt (l : LaneId) (s : State) : Kept s (malformedAt l s) := by
  unfold malformedAt
  split
  · split
    · exact (kept_advanceLane s l _ _ fun h => h.afterMalformed).trans (kept_malformedUnit _ _ _ _)
    · exact .refl s
  · exact .refl s

theorem kept_turnOff (s : State) : Kept s (turnOff s) :=
  (Kept.foldl _ (fun s l => kept_malformedAt l s) _ s).trans (kept_serveLanes _ _)

/-- What closes every step: sources, the throttle's turn-off and the notices. -/
theorem kept_conclude (before s : State) : Kept s (conclude before s) := by
  unfold conclude
  dsimp only
  split
  · exact ((kept_evaluateSources before s).trans (kept_turnOff _)).trans (kept_notices _ _)
  · exact (kept_evaluateSources before s).trans (kept_notices _ _)

theorem kept_copyPayload (l : LaneId) (n : Nat) (s : State) : Kept s (copyPayload l n s) := by
  unfold copyPayload
  dsimp only
  split
  · split
    · exact .refl s
    · rename_i e _
      have h1 : ∀ m, (Mem.wf s.payloadArea = true → Mem.wf m = true) → Kept s { s with payloadArea := m } := fun m hm =>
        ⟨rfl, fun _ => rfl, fun _ => .refl _, fun w => ⟨⟨w.memory.slot0, w.memory.slot1, w.memory.area,
          w.memory.window, hm w.memory.payload, w.memory.output⟩, w.capacity, ⟨w.waits.storeOnce, w.waits.storeAll,
          w.waits.tableOnce⟩, w.programmes, ⟨w.payload.once, w.payload.room⟩⟩⟩
      refine (h1 _ fun h => wf_writeGranules _ _ _ _ h).trans (kept_advanceLane _ _ _ _ fun h => ?_)
      exact LaneRecord.Canonical.consume (ln := s.lane l) h n
  · exact .refl s

theorem kept_cutShort (ln : LaneRecord) (s : State) : Kept s (cutShort ln s) := by
  unfold cutShort
  split
  · exact .refl s
  · split
    · exact kept_malformedUnit _ _ _ _
    · split
      · exact .refl s
      · exact kept_malformedUnit _ _ _ _
    · exact .refl s

theorem kept_actOnFlush (l : LaneId) (s : State) : Kept s (actOnFlush l s) :=
  (kept_advanceLane s l _ _ fun h => h.afterBoundary).trans (kept_cutShort _ _)

theorem kept_endStream (l : LaneId) (h : Handle) (st : Stream) (s : State) : Kept s (endStream l h st s) := by
  unfold endStream
  dsimp only
  have h1 := (kept_setLane s l (s.lane l).toFree fun hc => hc).trans
    (kept_modProg _ h.slot (fun pr => pr.modStream st (fun r => { r with lane := none, ended := true }))
      (fun _ hp => hp.modStream _ _))
  split
  · exact h1.trans (kept_endSlide _ _)
  · exact h1

end Sys2Proof.Machine
end

