-- ==== Sys2Proof/Laws/Commands.lean ====
section
/-! SUPPORT. What carrying out a port command can reach: the queues of every port, the records of the other ports and the
queue of pending commands stay as they were, and a well-kept state stays well kept. One lemma for each command's rule. -/

namespace Sys2Proof.Machine

/-- What carrying out a command of port `p`, from `a` to `b`, keeps. -/
structure ActsFor (p : Port) (a b : State) : Prop where
  pending : b.pending = a.pending
  commands : ∀ q, (b.port q).commands = (a.port q).commands
  responses : ∀ q, (b.port q).responses = (a.port q).responses
  others : ∀ q, q ≠ p → PortState.SameRecords (a.port q) (b.port q)
  wellKept : a.WellKept → b.WellKept

theorem ActsFor.refl (p : Port) (a : State) : ActsFor p a a :=
  ⟨rfl, fun _ => rfl, fun _ => rfl, fun _ _ => .refl _, id⟩

theorem ActsFor.trans {p : Port} {a b c : State} (h : ActsFor p a b) (k : ActsFor p b c) : ActsFor p a c :=
  ⟨k.pending.trans h.pending, fun q => (k.commands q).trans (h.commands q), fun q => (k.responses q).trans (h.responses q),
    fun q hq => (h.others q hq).trans (k.others q hq), fun w => k.wellKept (h.wellKept w)⟩

/-- Work inside the part acts for any port. -/
theorem Kept.acts {a b : State} (h : Kept a b) (p : Port) : ActsFor p a b :=
  ⟨h.pending, fun q => (h.ports q).commands, fun q => (h.ports q).responses, fun q _ => h.ports q, h.wellKept⟩

/-- A command changes its own port, but not its queues. -/
theorem acts_setPort (s : State) (p : Port) (pt : PortState) (hc : pt.commands = (s.port p).commands)
    (hr : pt.responses = (s.port p).responses) (ha : pt.area = (s.port p).area)
    (hw : Mem.wf (s.port p).window = true → Mem.wf pt.window = true) : ActsFor p s (s.setPort p pt) := by
  refine ⟨rfl, fun q => ?_, fun q => ?_, fun q hq => ?_, fun w => ⟨⟨w.memory.slot0, w.memory.slot1, fun q => ?_,
    fun q => ?_, w.memory.payload, w.memory.output⟩, w.capacity, ⟨w.waits.storeOnce, w.waits.storeAll,
    w.waits.tableOnce⟩, w.programmes, ⟨w.payload.once, w.payload.room⟩⟩⟩
  · by_cases hq : q = p
    · subst hq; rw [State.setPort_port_same]; exact hc
    · rw [State.setPort_port_other _ _ hq]
  · by_cases hq : q = p
    · subst hq; rw [State.setPort_port_same]; exact hr
    · rw [State.setPort_port_other _ _ hq]
  · rw [State.setPort_port_other _ _ hq]; exact .refl _
  · by_cases hq : q = p
    · subst hq; rw [State.setPort_port_same, ha]; exact w.memory.area q
    · rw [State.setPort_port_other _ _ hq]; exact w.memory.area q
  · by_cases hq : q = p
    · subst hq; rw [State.setPort_port_same]; exact hw (w.memory.window q)
    · rw [State.setPort_port_other _ _ hq]; exact w.memory.window q

/-! ### The checks -/

theorem okay_fst (d : RespData) (s : State) : (okay d s).1 = s := rfl

theorem acts_refuse (p : Port) (c : OutcomeCode) (s : State) : ActsFor p s (refuse c s).1 := .refl p s

/-- The checks of R2 pass a found programme on, or refuse without a change. -/
theorem acts_withHandle (p : Port) (form : Bool) (h : RawHandle) (s : State) (k : SlotId → Programme → State × Reply)
    (hk : ∀ i pr, s.prog i = some pr → ActsFor p s (k i pr).1) : ActsFor p s (withHandle form h s k).1 := by
  unfold withHandle
  split
  · split
    · split
      · rename_i pr hp
        split
        · exact hk _ pr hp
        · exact .refl p s
      · exact .refl p s
    · exact .refl p s
  · exact .refl p s

theorem acts_withWatched (p q : Port) (form : Bool) (h : RawHandle) (s : State) (k : SlotId → Programme → State × Reply)
    (hk : ∀ i pr, s.prog i = some pr → ActsFor p s (k i pr).1) : ActsFor p s (withWatched form q h s k).1 := by
  refine acts_withHandle p form h s _ fun i pr hp => ?_
  split
  · exact hk i pr hp
  · exact .refl p s

theorem acts_withLane (p : Port) (b : Byte) (s : State) (k : LaneId → State × Reply) (hk : ∀ l, ActsFor p s (k l).1) :
    ActsFor p s (withLane b s k).1 := by
  unfold withLane
  split
  · exact hk _
  · exact .refl p s

/-- A well-found handle: what the continuation of the checks gives (R2). -/
theorem withHandle_of_names {s : State} {h : RawHandle} {i : SlotId} {pr : Programme} (hn : Names s h i pr)
    (k : SlotId → Programme → State × Reply) : withHandle true h s k = k i pr := by
  obtain ⟨hs, hg, hp⟩ := hn
  have hi : (⟨h.slot.toNat, by omega⟩ : SlotId) = i := Fin.ext hs
  unfold withHandle
  rw [dif_pos (by omega : h.slot.toNat < 32), if_pos rfl]
  simp only [hi, hp, hg, if_true]

theorem withWatched_of_names {s : State} {p : Port} {h : RawHandle} {i : SlotId} {pr : Programme} (hn : Names s h i pr)
    (hw : pr.watch.get p = true) (k : SlotId → Programme → State × Reply) : withWatched true p h s k = k i pr := by
  unfold withWatched
  rw [withHandle_of_names hn, if_pos hw]

/-! ### Lifecycle -/

theorem Programme.atOpen_inRange (p : Port) (f : BitVec 16) (ss : Byte) (rl : List RawRendition) (h : openForm f ss rl = true) :
    (Programme.atOpen p f ss rl).InRange := by
  have hf : f = 3600 ∨ f = 3000 ∨ f = 1800 ∨ f = 1500 := by
    simp only [openForm, frameForm, Bool.and_eq_true, Bool.or_eq_true, decide_eq_true_eq] at h
    obtain ⟨⟨⟨⟨⟨⟨⟨⟨⟨h, -⟩, -⟩, -⟩, -⟩, -⟩, -⟩, -⟩, -⟩, -⟩ := h
    rcases h with ((h | h) | h) | h
    · exact .inl h
    · exact .inr (.inl h)
    · exact .inr (.inr (.inl h))
    · exact .inr (.inr (.inr h))
  have hl : 1 ≤ rl.length ∧ rl.length ≤ 5 := by
    simp only [openForm, Bool.and_eq_true, decide_eq_true_eq] at h
    omega
  have hset : renditionsInSet ss rl = true := by
    simp only [openForm, Bool.and_eq_true] at h
    exact h.1.1.1.1.2
  have hlen : (rl.filterMap (fun r => Stream.ofCode r.stream)).length = rl.length := by
    clear h hl
    induction rl with
    | nil => rfl
    | cons r rs ih =>
      simp only [renditionsInSet, List.all_cons, Bool.and_eq_true] at hset
      cases hc : Stream.ofCode r.stream with
      | none => rw [hc] at hset; simp at hset
      | some st =>
        simp only [List.filterMap_cons, hc, List.length_cons]
        rw [ih hset.2]
  refine ⟨?_, ?_, ?_, by simp [Programme.atOpen], by simp [Programme.atOpen, pieceRecords],
    by simp [Programme.atOpen, Cutter.atOpen], by simp [Programme.atOpen, Cutter.atOpen], ?_⟩
  · rcases hf with rfl | rfl | rfl | rfl
    · exact .inl rfl
    · exact .inr (.inl rfl)
    · exact .inr (.inr (.inl rfl))
    · exact .inr (.inr (.inr rfl))
  · show 1 ≤ (rl.filterMap _).length
    rw [hlen]; exact hl.1
  · show (rl.filterMap _).length ≤ 5
    rw [hlen]; exact hl.2
  · intro r hr
    simp [Programme.atOpen] at hr

/-- Writing a slot whole, with a record that is in range. -/
theorem acts_fillSlot (p : Port) (s : State) (i : SlotId) (g : Byte) (pr : Programme) (h : pr.InRange) :
    ActsFor p s { s with slots := s.slots.set i ⟨g, some pr⟩ } := by
  refine ⟨rfl, fun _ => rfl, fun _ => rfl, fun _ _ => .refl _, fun w => ⟨⟨w.memory.slot0, w.memory.slot1, w.memory.area,
    w.memory.window, w.memory.payload, w.memory.output⟩, w.capacity, ⟨w.waits.storeOnce, w.waits.storeAll,
    w.waits.tableOnce⟩, ?_, ⟨w.payload.once, w.payload.room⟩⟩⟩
  intro j pr' hj
  by_cases hij : (i : Nat) = j
  · have : i = j := Fin.ext hij
    subst this
    simp [State.prog] at hj
    subst hj
    exact h
  · simp [State.prog, hij] at hj
    exact w.programmes j pr' hj

theorem acts_openProgramme (p : Port) (f : BitVec 16) (ss : Byte) (rl : List RawRendition) (s : State) :
    ActsFor p s (doOpenProgramme p f ss rl s).1 := by
  unfold doOpenProgramme
  split
  · rename_i h
    split
    · exact .refl p s
    · exact acts_fillSlot p s _ _ _ (Programme.atOpen_inRange p f ss rl h)
  · exact .refl p s

theorem kept_requestFirst (i : SlotId) (pr : Programme) (st : Stream) (s : State) : Kept s (requestFirst i pr st s) := by
  unfold requestFirst
  split
  · exact .refl s
  · dsimp only
    split
    · exact (kept_requestTable i st s).trans (kept_examineTable _)
    · exact kept_requestTable i st s

theorem Programme.InRange.start {pr : Programme} (h : pr.InRange) : pr.start.InRange :=
  ⟨h.frame, h.someRendition, h.fiveRenditions, by simpa [Programme.start] using h.somePiece,
    by simpa [Programme.start] using h.pieceList, h.cutZero, h.chapterList, h.errorTime⟩

theorem acts_startIngest (p : Port) (h : RawHandle) (s : State) : ActsFor p s (doStartIngest p h s).1 := by
  refine acts_withWatched p p true h s _ fun i pr hp => ?_
  dsimp only
  split
  · exact (((kept_setProg s i _ fun w => (w.programmes i pr hp).start).trans
      (Kept.foldl _ (fun s st => kept_requestFirst i pr st s) _ _)).trans (kept_runLanes i _)).acts p
  · exact .refl p s

theorem Programme.InRange.withState {pr : Programme} (h : pr.InRange) (x : ProgState) :
    Programme.InRange { pr with state := x } :=
  ⟨h.frame, h.someRendition, h.fiveRenditions, h.somePiece, h.pieceList, h.cutZero, h.chapterList, h.errorTime⟩

theorem acts_resumeIngest (p : Port) (h : RawHandle) (s : State) : ActsFor p s (doResumeIngest p h s).1 := by
  refine acts_withWatched p p true h s _ fun i pr hp => ?_
  split
  · exact ((kept_setProg s i _ fun w => (w.programmes i pr hp).withState _).trans (kept_runLanes i _)).acts p
  · exact .refl p s

theorem kept_closeIngest (i : SlotId) (s : State) : Kept s (closeIngest i s) := by
  unfold closeIngest
  dsimp only
  refine ((((kept_removeLanesWhere _ s).trans (kept_modProg _ i _ fun pr h => ?_)).trans (kept_releasePass i _)).trans
    (kept_modProg _ i _ fun pr h => ?_)).trans
    ((Kept.foldl _ (fun s st => kept_assemble i st s) _ _).trans (kept_dispatchAll _))
  · have h1 : pr.endStreams.InRange :=
      ⟨h.frame, h.someRendition, h.fiveRenditions, h.somePiece, h.pieceList, h.cutZero, h.chapterList, h.errorTime⟩
    exact h1.endProgramme
  · exact (h.withState _).latch _

theorem acts_closeIngest (p : Port) (h : RawHandle) (s : State) : ActsFor p s (doCloseIngest p h s).1 := by
  unfold doCloseIngest
  refine acts_withWatched p p true h s _ fun i pr hp => ?_
  split
  · rw [okay_fst]
    exact (kept_closeIngest i s).acts p
  · exact .refl p s

theorem acts_retireProgramme (p : Port) (h : RawHandle) (s : State) : ActsFor p s (doRetireProgramme p h s).1 := by
  unfold doRetireProgramme
  refine acts_withWatched p p true h s _ fun i pr hp => ?_
  split
  · rw [okay_fst]
    exact (kept_freeSlot s i).acts p
  · exact .refl p s

theorem kept_abortProgramme (i : SlotId) (s : State) : Kept s (abortProgramme i s) := by
  unfold abortProgramme
  dsimp only
  refine (kept_removeLanesWhere (fun ln => ln.serves i) s).trans ?_
  generalize removeLanesWhere (fun ln => ln.serves i) s = t
  refine Kept.trans ?_ (kept_afterFreeing _)
  refine Kept.trans ?_ (kept_freeSlot _ i)
  refine ⟨rfl, fun _ => rfl, fun _ => .refl _, fun w => ⟨⟨w.memory.slot0, w.memory.slot1, w.memory.area,
    w.memory.window, w.memory.payload, w.memory.output⟩, ⟨Nat.le_trans (List.length_filter_le _ _) w.capacity.1,
    Nat.le_trans (List.length_filter_le _ _) w.capacity.2⟩, ⟨w.waits.storeOnce.sublist List.filter_sublist, fun e => ?_,
    w.waits.tableOnce.sublist List.filter_sublist⟩, w.programmes, ⟨w.payload.once.sublist (granules_filter_sublist _ _),
      Nat.le_trans (granules_filter_sublist _ _).length_le w.payload.room⟩⟩⟩
  have hall := w.waits.storeAll e
  have hpipe : State.pipe { t with
      storeQueue := t.storeQueue.filter (fun e => decide ((t.pipe e).itemSlot ≠ some i))
      pipes := t.pipes.map (fun (x : Pipe) => if x.itemSlot = some i then .idle else x)
      entries := t.entries.filter (fun e => !e.inSlot i)
      segments := t.segments.filter (fun g => !g.inSlot i)
      tableQueue := t.tableQueue.filter (fun r => decide (r.1 ≠ i)) } e =
      if (t.pipe e).itemSlot = some i then .idle else t.pipe e := by
    simp only [State.pipe, Fin.getElem_fin, Vector.getElem_map]
    rfl
  rw [hpipe]
  show e ∈ t.storeQueue.filter _ ↔ _
  rw [List.mem_filter, hall]
  by_cases hi : (t.pipe e).itemSlot = some i
  · rw [if_pos hi]
    simp [hi, Pipe.isStoring]
  · rw [if_neg hi]
    simp [hi]

theorem acts_abortProgramme (p : Port) (h : RawHandle) (s : State) : ActsFor p s (doAbortProgramme p h s).1 := by
  unfold doAbortProgramme
  refine acts_withWatched p p true h s _ fun i _ _ => ?_
  rw [okay_fst]
  exact (kept_abortProgramme i s).acts p

/-! ### Watching and delivery -/

theorem acts_watchProgramme (p : Port) (h : RawHandle) (s : State) : ActsFor p s (doWatchProgramme p h s).1 := by
  unfold doWatchProgramme
  refine acts_withHandle p true h s _ fun i pr hp => ?_
  show ActsFor p s (s.setProg i (pr.join p))
  refine Kept.acts (kept_setProg s i (pr.join p) fun w => ?_) p
  have hr := w.programmes i pr hp
  unfold Programme.join
  split
  · exact hr
  · exact ⟨hr.frame, hr.someRendition, hr.fiveRenditions, hr.somePiece, hr.pieceList, hr.cutZero, hr.chapterList,
      hr.errorTime⟩

theorem Programme.InRange.depart {pr : Programme} (h : pr.InRange) (p : Port) : (pr.depart p).InRange :=
  ⟨h.frame, h.someRendition, h.fiveRenditions, h.somePiece, h.pieceList, h.cutZero, h.chapterList, h.errorTime⟩

theorem kept_leavePending (p : Port) (sel : Segment → Bool) (s : State) : Kept s (leavePending p sel s).1 := by
  unfold leavePending
  dsimp only
  have h1 := kept_setSegments s ((s.segments.filter (fun g => !(sel g && g.owedByAlone p))).map
    (fun g => if sel g && g.owes p then g.release p else g)) (by simpa using List.length_filter_le _ _)
  split
  · exact h1
  · exact h1.trans (kept_afterFreeing _)

theorem acts_leaveProgramme (p : Port) (h : RawHandle) (s : State) : ActsFor p s (doLeaveProgramme p h s).1 := by
  refine acts_withWatched p p true h s _ fun i pr hp => ?_
  exact ((kept_setProg s i _ fun w => (w.programmes i pr hp).depart p).trans (kept_leavePending p _ _)).acts p

theorem acts_withRendition (p : Port) (form : Bool) (h : RawHandle) (rend : Byte) (s : State)
    (k : SlotId → Programme → AssemblyRecord → State × Reply) (hk : ∀ i pr a, ActsFor p s (k i pr a).1) :
    ActsFor p s (withRendition form h rend s k).1 := by
  refine acts_withHandle p _ h s _ fun i pr hp => ?_
  split
  · exact .refl p s
  · split
    · exact hk _ _ _
    · exact .refl p s

theorem acts_withSegment (p : Port) (form : Bool) (h : RawHandle) (rend : Byte) (idx : BitVec 32) (s : State)
    (k : SlotId → Segment → State × Reply) (hk : ∀ i g, ActsFor p s (k i g).1) :
    ActsFor p s (withSegment form h rend idx s k).1 := by
  refine acts_withRendition p form h rend s _ fun i pr a => ?_
  split
  · exact .refl p s
  · exact .refl p s
  · exact .refl p s
  · exact hk _ _

theorem acts_listSegments (p : Port) (h : RawHandle) (rend : Byte) (i : BitVec 32) (s : State) :
    ActsFor p s (doListSegments h rend i s).1 :=
  acts_withRendition p true h rend s _ fun _ _ _ => .refl p s

theorem acts_fetchSegment (p : Port) (h : RawHandle) (rend : Byte) (i o n : BitVec 32) (s : State) :
    ActsFor p s (doFetchSegment p h rend i o n s).1 :=
  acts_withSegment p _ h rend i s _ fun _ _ => acts_setPort s p _ rfl rfl rfl fun _ => Mem.wf_ofBytes _ _

theorem acts_releaseSegment (p : Port) (h : RawHandle) (rend : Byte) (i : BitVec 32) (s : State) :
    ActsFor p s (doReleaseSegment p h rend i s).1 := by
  have hdrop : ∀ g, Kept s (afterFreeing (s.dropSegment g)) := fun g =>
    (kept_setSegments s _ (List.length_filter_le _ _)).trans (kept_afterFreeing _)
  refine acts_withSegment p _ h rend i s _ fun _ g => ?_
  split
  · exact .refl p s
  · split
    · exact (hdrop g).acts p
    · split
      · split
        · exact (hdrop g).acts p
        · exact (kept_setSegments s _ (by simp)).acts p
      · exact .refl p s

/-! ### Settings -/

theorem acts_stageSettings (p : Port) (h : RawHandle) (renew : Byte) (fs : List RawField) (s : State) :
    ActsFor p s (doStageSettings p h renew fs s).1 := by
  unfold doStageSettings
  split
  · exact .refl p s
  · refine acts_withWatched p p _ h s _ fun i pr hp => ?_
    dsimp only
    split
    · exact acts_setPort s p _ rfl rfl rfl id
    · exact .refl p s

theorem acts_readStaging (p : Port) (s : State) : ActsFor p s (doReadStaging p s).1 := by
  unfold doReadStaging
  split <;> exact .refl p s

theorem kept_forceAtCommit (i : SlotId) (fs : FieldSet) (s : State) : Kept s (forceAtCommit i fs s) := by
  unfold forceAtCommit
  split
  · exact (kept_compareHeld i s).trans (kept_dispatchAll _)
  · exact .refl s

theorem acts_commitSettings (p : Port) (h : RawHandle) (rev : BitVec 32) (s : State) :
    ActsFor p s (doCommitSettings p h rev s).1 := by
  refine acts_withWatched p p true h s _ fun i pr hp => ?_
  dsimp only
  split
  · exact .refl p s
  · split
    · exact .refl p s
    · split
      · exact .refl p s
      · split
        · exact .refl p s
        · split
          · exact .refl p s
          · rename_i r _ _ _ _
            refine ((kept_setProg s i (if pr.state = .opened then pr.commitOpen r.fields (s.heldCount i)
              else pr.commit r.fields (s.heldCount i)) fun w => ?_).acts p).trans
              ((acts_setPort (s.setProg i (if pr.state = .opened then pr.commitOpen r.fields (s.heldCount i)
                else pr.commit r.fields (s.heldCount i))) p { s.port p with staging := none } rfl rfl rfl id).trans
                ((kept_forceAtCommit i r.fields _).acts p))
            have hr := w.programmes i pr hp
            split <;>
              exact ⟨hr.frame, hr.someRendition, hr.fiveRenditions, hr.somePiece, hr.pieceList, hr.cutZero,
                hr.chapterList, hr.errorTime⟩

/-! ### Lanes and chapters -/

theorem LaneRecord.Canonical.post {ln : LaneRecord} (h : ln.Canonical) (b : SlotNo) (n : Nat) (r : Bool) :
    (ln.post b n r).Canonical := by
  have h1 : (ln.setSlot b { ln.slot b with count := some n }).Canonical := h.setSlot b _ (h.slot b)
  have h2 : LaneRecord.Canonical { ln.setSlot b { ln.slot b with count := some n } with
      fill := none, order := ln.order ++ [b] } := h1
  exact LaneRecord.Canonical.chooseFill h2

theorem kept_attach (p : Port) (i : SlotId) (pr : Programme) (st : Stream) (r : StreamRecord) (l : LaneId) (s : State)
    (hp : s.prog i = some pr) :
    Kept s (((s.setLane l ((s.lane l).attach p (s.handleOf i) st)).setProg i
      (pr.setStream st { r with lane := some l })).setLaneSlot (some p)) := by
  refine ((kept_setLane s l ((s.lane l).attach p (s.handleOf i) st) fun hc => hc).trans
    (kept_setProg _ i (pr.setStream st { r with lane := some l }) fun w => ?_)).trans (kept_setLaneSlot _ _)
  have hr := w.programmes i pr hp
  exact ⟨hr.frame, hr.someRendition, hr.fiveRenditions, hr.somePiece, hr.pieceList, hr.cutZero, hr.chapterList,
    hr.errorTime⟩

theorem acts_attachLane (p : Port) (h : RawHandle) (code : Byte) (s : State) : ActsFor p s (doAttachLane p h code s).1 := by
  unfold doAttachLane
  split
  · exact .refl p s
  · rename_i st _
    refine acts_withWatched p p true h s _ fun i pr hp => ?_
    dsimp only
    split
    · split
      · exact .refl p s
      · rename_i r _
        split
        · exact .refl p s
        · split
          · exact .refl p s
          · rename_i l _
            exact Kept.acts (kept_attach p i pr st r l s hp) p
    · exact .refl p s

theorem acts_detachLane (p : Port) (b : Byte) (s : State) : ActsFor p s (doDetachLane p b s).1 := by
  unfold doDetachLane
  refine acts_withLane p b s _ fun l => ?_
  split
  · exact .refl p s
  · split
    · exact .refl p s
    · split
      · exact (kept_removeLane l s).acts p
      · exact .refl p s

theorem acts_postChunk (p : Port) (b : Byte) (c : BitVec 16) (s : State) : ActsFor p s (doPostChunk p b c s).1 := by
  unfold doPostChunk
  refine acts_withLane p b s _ fun l => ?_
  split
  · exact .refl p s
  · dsimp only
    split
    · exact .refl p s
    · split
      · exact .refl p s
      · split
        · exact .refl p s
        · exact (kept_setLane s l _ fun h => h.post _ _ _).acts p

theorem acts_laneStatus (p : Port) (b : Byte) (s : State) : ActsFor p s (doLaneStatus p b s).1 := by
  unfold doLaneStatus
  refine acts_withLane p b s _ fun l => ?_
  split <;> exact .refl p s

theorem acts_insertChapter (p : Port) (h : RawHandle) (t : BitVec 32) (s : State) :
    ActsFor p s (doInsertChapter p h t s).1 := by
  refine acts_withWatched p p _ h s _ fun i pr hp => ?_
  dsimp only
  split
  · exact .refl p s
  · split
    · exact .refl p s
    · split
      · exact .refl p s
      · split
        · exact .refl p s
        · rename_i hl
          exact (((kept_setProg s i _ fun w => (w.programmes i pr hp).addChapter _ (Nat.lt_of_not_le hl)).trans
            (kept_passes i _)).trans (kept_dispatchAll _)).acts p

theorem acts_readChapters (p : Port) (h : RawHandle) (i : BitVec 16) (s : State) : ActsFor p s (doReadChapters p h i s).1 :=
  acts_withWatched p p _ h s _ fun _ _ _ => .refl p s

/-! ### Status and attention -/

theorem acts_programmeStatus (p : Port) (h : RawHandle) (s : State) : ActsFor p s (doProgrammeStatus p h s).1 :=
  acts_withHandle p true h s _ fun _ _ _ => .refl p s

theorem acts_readError (p : Port) (h : RawHandle) (s : State) : ActsFor p s (doReadError p h s).1 :=
  acts_withWatched p p true h s _ fun _ _ _ => .refl p s

theorem acts_clearError (p : Port) (h : RawHandle) (s : State) : ActsFor p s (doClearError p h s).1 := by
  refine acts_withWatched p p true h s _ fun i pr hp => ?_
  refine (kept_setProg s i _ fun w => ?_).acts p
  have hr := w.programmes i pr hp
  exact ⟨hr.frame, hr.someRendition, hr.fiveRenditions, hr.somePiece, hr.pieceList, hr.cutZero, hr.chapterList,
    fun r h => by cases h⟩

theorem acts_nextAttention (p : Port) (i k : Byte) (s : State) : ActsFor p s (doNextAttention p i k s).1 := by
  unfold doNextAttention
  split <;> exact .refl p s

theorem acts_clearLaneSlot (p : Port) (f : Byte) (s : State) : ActsFor p s (clearLaneSlot p f s) := by
  unfold clearLaneSlot
  split
  · exact acts_setPort s p _ rfl rfl rfl id
  · exact .refl p s

theorem acts_clearAttention (p : Port) (h : Option RawHandle) (k f : Byte) (s : State) :
    ActsFor p s (doClearAttention p h k f s).1 := by
  unfold doClearAttention
  dsimp only
  split
  · split
    · exact acts_clearLaneSlot p f s
    · exact .refl p s
  · refine acts_withWatched p p _ _ s _ fun i pr hp => ?_
    refine ((kept_setProg s i _ fun w => ?_).acts p).trans (acts_clearLaneSlot p f _)
    have hr := w.programmes i pr hp
    exact ⟨hr.frame, hr.someRendition, hr.fiveRenditions, hr.somePiece, hr.pieceList, hr.cutZero, hr.chapterList,
      hr.errorTime⟩

theorem acts_setAttentionMask (p : Port) (k : Byte) (s : State) : ActsFor p s (doSetAttentionMask p k s).1 := by
  unfold doSetAttentionMask
  split
  · exact acts_setPort s p _ rfl rfl rfl id
  · exact .refl p s

/-! ### Flow control and the device -/

theorem acts_setHold (p : Port) (s : State) : ActsFor p s (doSetHold p s).1 := acts_setPort s p _ rfl rfl rfl id

theorem acts_clearHold (p : Port) (s : State) : ActsFor p s (doClearHold p s).1 := acts_setPort s p _ rfl rfl rfl id

theorem acts_deviceStatus (p : Port) (s : State) : ActsFor p s (doDeviceStatus p s).1 := acts_setPort s p _ rfl rfl rfl id

/-! ### Taking a command -/

/-- A response joins the end of one port's queue (R171, R173). -/
theorem respond_port_same (p : Port) (tag code : BitVec 16) (r : Reply) (s : State) :
    (respond p tag code r s).port p = { s.port p with responses := (s.port p).responses ++ [⟨code, tag, r⟩] } := by
  simp [respond]

theorem respond_port_other {p q : Port} (tag code : BitVec 16) (r : Reply) (s : State) (h : q ≠ p) :
    (respond p tag code r s).port q = s.port q := by
  simp [respond, State.setPort_port_other _ _ h]

/-- Taking a command adds its one response to its port's queue and leaves every other queue as it was (R171). -/
theorem take_responses (p q : Port) (tag : BitVec 16) (c : PortCommand) (act : State → State × Reply) (s : State)
    (h : ActsFor p s (act s).1) :
    ((take p tag c act s).port q).responses =
      if q = p then (s.port q).responses ++ [⟨c.code, tag, (act s).2⟩] else (s.port q).responses := by
  unfold take
  rw [((kept_conclude s _).ports q).responses]
  by_cases hq : q = p
  · subst hq
    rw [if_pos rfl, respond_port_same]
    show (State.port (act s).1 q).responses ++ _ = _
    rw [h.responses q]
  · rw [if_neg hq, respond_port_other _ _ _ _ hq, h.responses q]

theorem take_commands (p q : Port) (tag : BitVec 16) (c : PortCommand) (act : State → State × Reply) (s : State)
    (h : ActsFor p s (act s).1) : ((take p tag c act s).port q).commands = (s.port q).commands := by
  unfold take
  rw [((kept_conclude s _).ports q).commands]
  by_cases hq : q = p
  · subst hq
    rw [respond_port_same]
    exact h.commands q
  · rw [respond_port_other _ _ _ _ hq, h.commands q]

theorem take_pending (p : Port) (tag : BitVec 16) (c : PortCommand) (act : State → State × Reply) (s : State)
    (h : ActsFor p s (act s).1) : (take p tag c act s).pending = s.pending := by
  unfold take
  rw [(kept_conclude s _).pending]
  exact h.pending

/-- What a command row answers: always a next state, the taking of the command or the arrival of its record (R169, R171). -/
theorem issue_eq (p : Port) (tag : BitVec 16) (c : PortCommand) (taken : State → State) (s : State) :
    issue p tag c taken s = .next (if s.takesNow p then taken s else enqueue p (recordOf tag c) s) := rfl

end Sys2Proof.Machine
end

