-- ==== Sys2Proof/Laws/Answered.lean ====
section
/-! SUPPORT. When a taken command leaves nothing behind but its own effect and its response: no count moves, the throttle does
not turn off and no other port's notice condition turns true (R160, R163, R174). -/

namespace Sys2Proof.Machine

/-- No source moves where no count does (R160). -/
theorem evaluateSources_same (a b : State) (h1 : b.acceptCount = a.acceptCount) (h2 : b.payloadCount = a.payloadCount)
    (h3 : b.storeCount = a.storeCount) (h4 : b.tableCount = a.tableCount) : evaluateSources a b = b := by
  simp [evaluateSources, evaluateSource, h1, h2, h3, h4]

/-- A step that moves no count and does not turn the throttle off only sends its notices. -/
theorem conclude_same (a b : State) (h1 : b.acceptCount = a.acceptCount) (h2 : b.payloadCount = a.payloadCount)
    (h3 : b.storeCount = a.storeCount) (h4 : b.tableCount = a.tableCount) (ht : a.throttle = true → b.throttle = true) :
    conclude a b = notices a b := by
  unfold conclude
  rw [evaluateSources_same a b h1 h2 h3 h4]
  by_cases h : a.throttle = true
  · simp [h, ht h]
  · simp [h]

/-- A port whose condition does not turn true is sent no notice (R174). -/
theorem notify_none (a : State) (p : Port) (b : State) (h : b.noticeCondition p = true → a.noticeCondition p = true) :
    notify a p b = b := by
  unfold notify
  split
  · rename_i hc
    rw [h hc.2] at hc
    cases hc.1
  · rfl

/-- The count of notices is no input of a notice condition. -/
theorem noticeCondition_sent (s : State) (p q : Port) (n : Nat) :
    (s.setPort p { s.port p with noticesSent := n }).noticeCondition q = s.noticeCondition q := by
  cases p <;> cases q <;> rfl

/-- What the notices of a step do where only port `p` can be sent one. -/
theorem notices_one (a b : State) (p : Port)
    (other : ∀ q, q ≠ p → b.noticeCondition q = true → a.noticeCondition q = true) :
    notices a b = notify a p b := by
  have keep : ∀ q, q ≠ p → notify a q (notify a p b) = notify a p b := by
    intro q hq
    apply notify_none
    unfold notify
    split
    · rw [noticeCondition_sent]
      exact other q hq
    · exact other q hq
  have none : ∀ q, q ≠ p → notify a q b = b := fun q hq => notify_none a q b (other q hq)
  cases p
  · simp only [notices, keep .p1 (by decide), keep .p2 (by decide)]
  · simp only [notices, none .p0 (by decide), keep .p2 (by decide)]
  · simp only [notices, none .p0 (by decide), none .p1 (by decide)]

/-- A taken command that moves no count, leaves the throttle on if it was, and turns no other port's notice condition true
leaves its effect and its answer. -/
theorem take_answered (p : Port) (tag : BitVec 16) (c : PortCommand) (act : State → State × Reply) (s : State)
    (h1 : (act s).1.acceptCount = s.acceptCount) (h2 : (act s).1.payloadCount = s.payloadCount)
    (h3 : (act s).1.storeCount = s.storeCount) (h4 : (act s).1.tableCount = s.tableCount)
    (ht : s.throttle = true → (respond p tag c.code (act s).2 (act s).1).throttle = true)
    (other : ∀ q, q ≠ p → (respond p tag c.code (act s).2 (act s).1).noticeCondition q = true →
      s.noticeCondition q = true) :
    take p tag c act s = answered s p tag c.code (act s).2 (act s).1 := by
  unfold take
  rw [conclude_same s (respond p tag c.code (act s).2 (act s).1) h1 h2 h3 h4 ht, notices_one _ _ p other]
  have hc : (respond p tag c.code (act s).2 (act s).1).noticeCondition p = true := by
    simp [State.noticeCondition, respond_port_same]
  unfold notify answered
  rw [hc]
  by_cases hb : s.noticeCondition p = true
  · simp [hb, respond]
  · simp only [Bool.not_eq_true] at hb
    simp [hb, respond]

end Sys2Proof.Machine
end

