-- ==== Sys2Proof/Laws/Inner.lean ====
section
/-! SUPPORT. What the work behind the lanes leaves alone: the assembler, the dispatcher, the store queue, the losses, the cutter
and the mapper reach no lane, no port, no flow-control source and no payload byte. With it, a step's evaluation of the sources
starts from the sources as they stood (R160), and the throttle changes at that evaluation alone. -/

namespace Sys2Proof.Machine

/-- Work behind the lanes led from `a` to `b`. -/
structure Inner (a b : State) : Prop where
  lanes : b.lanes = a.lanes
  ports : b.ports = a.ports
  sources : b.sources = a.sources
  parsePtr : b.parsePtr = a.parsePtr
  payloadArea : b.payloadArea = a.payloadArea
  now : b.now = a.now
  pending : b.pending = a.pending

theorem Inner.refl (a : State) : Inner a a := ⟨rfl, rfl, rfl, rfl, rfl, rfl, rfl⟩

theorem Inner.trans {a b c : State} (h : Inner a b) (k : Inner b c) : Inner a c :=
  ⟨k.lanes.trans h.lanes, k.ports.trans h.ports, k.sources.trans h.sources, k.parsePtr.trans h.parsePtr,
    k.payloadArea.trans h.payloadArea, k.now.trans h.now, k.pending.trans h.pending⟩

theorem Inner.foldl {α : Type} (f : State → α → State) (hf : ∀ s x, Inner s (f s x)) (l : List α) (s : State) :
    Inner s (l.foldl f s) := by
  induction l generalizing s with
  | nil => exact .refl s
  | cons x xs ih => exact (hf s x).trans (ih _)

/-- A change of none of those fields. -/
theorem Inner.ofFields {a b : State} (lanes : b.lanes = a.lanes := by rfl) (ports : b.ports = a.ports := by rfl)
    (sources : b.sources = a.sources := by rfl) (parsePtr : b.parsePtr = a.parsePtr := by rfl)
    (payloadArea : b.payloadArea = a.payloadArea := by rfl) (now : b.now = a.now := by rfl)
    (pending : b.pending = a.pending := by rfl) : Inner a b :=
  ⟨lanes, ports, sources, parsePtr, payloadArea, now, pending⟩

theorem Inner.lane {a b : State} (h : Inner a b) (l : LaneId) : b.lane l = a.lane l := by simp [State.lane, h.lanes]

theorem Inner.port {a b : State} (h : Inner a b) (p : Port) : b.port p = a.port p := by simp [State.port, h.ports]

theorem Inner.throttle {a b : State} (h : Inner a b) : b.throttle = a.throttle := by
  simp [State.throttle, State.holdOn, h.sources, h.port]

theorem inner_modProg (s : State) (i : SlotId) (f : Programme → Programme) : Inner s (s.modProg i f) := by
  unfold State.modProg
  split
  · exact .ofFields
  · exact .refl s

/-! ### The assembler -/

theorem inner_closeCurrent (i : SlotId) (pr : Programme) (st : Stream) (cur : Nat) (final : Bool) (e : Nat) (s : State) :
    Inner s (closeCurrent i pr st cur final e s) :=
  Inner.trans (b := s.setSegments _) .ofFields (inner_modProg _ _ _)

theorem inner_requestTable (i : SlotId) (st : Stream) (s : State) : Inner s (requestTable i st s) := by
  unfold requestTable
  split
  · exact .refl s
  · exact .ofFields

theorem inner_retire (i : SlotId) (rs : List Nat) (cur : Nat) (e : Entry) (s : State) : Inner s (retire i rs cur e s) :=
  .ofFields

theorem inner_assembleStream (i : SlotId) (st : Stream) (fuel : Nat) (s : State) : Inner s (assembleStream i st fuel s) := by
  induction fuel generalizing s with
  | zero => exact .refl s
  | succ fuel ih =>
    simp only [assembleStream]
    split
    · exact .refl s
    · split
      · exact .refl s
      · split
        · split
          · exact Inner.trans (b := s.removeEntry _) .ofFields (ih _)
          · exact .refl s
        · split
          · split
            · exact (inner_retire _ _ _ _ s).trans (ih _)
            · split
              · exact inner_requestTable _ _ s
              · exact .refl s
          · exact .refl s
        · split
          · split
            · exact inner_requestTable _ _ s
            · exact (inner_closeCurrent _ _ _ _ _ _ s).trans (inner_modProg _ _ _)
          · exact .refl s
        · exact .refl s

theorem inner_completeDrain (i : SlotId) (s : State) : Inner s (completeDrain i s) := by
  unfold completeDrain
  split
  · exact .refl s
  · split
    · exact .ofFields
    · exact .refl s

theorem inner_progressStream (i : SlotId) (st : Stream) (s : State) : Inner s (progressStream i st s) :=
  ((inner_assembleStream i st _ s).trans (inner_modProg _ _ _)).trans (inner_completeDrain i _)

theorem inner_tableGrantOne (i : SlotId) (pr : Programme) (st : Stream) (s : State) : Inner s (tableGrantOne i pr st s) := by
  unfold tableGrantOne
  split
  · exact Inner.trans (b := openAt i pr st 0 s) .ofFields (inner_modProg _ _ _)
  · rename_i cur ph _
    exact ((inner_closeCurrent _ _ _ _ _ _ s).trans
      (Inner.trans (b := openAt i pr st (cur + 1) _) .ofFields (inner_modProg _ _ _)))
  · exact .refl s

theorem inner_tableGrants (fuel : Nat) (s : State) : Inner s (tableGrants fuel s) := by
  induction fuel generalizing s with
  | zero => exact .refl s
  | succ fuel ih =>
    simp only [tableGrants]
    split
    · exact .refl s
    · rename_i i st rest _
      split
      · exact Inner.trans (b := { s with tableQueue := rest }) .ofFields (ih _)
      · rename_i pr _
        split
        · have h1 : Inner s (pruneRevisions i (tableGrantOne i pr st s)) :=
            (inner_tableGrantOne i pr st s).trans (inner_modProg _ _ _)
          split
          · exact h1.trans (ih _)
          · exact h1.trans ((Inner.trans (b := { pruneRevisions i (tableGrantOne i pr st s) with tableQueue := rest }) .ofFields
              (inner_progressStream i st _)).trans (ih _))
        · exact .refl s

theorem inner_examineTable (s : State) : Inner s (examineTable s) := inner_tableGrants _ s

theorem inner_assemble (i : SlotId) (st : Stream) (s : State) : Inner s (assemble i st s) := by
  unfold assemble
  dsimp only
  split
  · exact (inner_progressStream i st s).trans (inner_examineTable _)
  · exact inner_progressStream i st s

/-! ### The dispatcher, the store queue and losses -/

theorem inner_dispatchLoop (fuel : Nat) (s : State) : Inner s (dispatchLoop fuel s) := by
  induction fuel generalizing s with
  | zero => exact .refl s
  | succ fuel ih =>
    simp only [dispatchLoop]
    split
    · rename_i pipe e _ _
      split
      · exact Inner.trans (b := dispatchTo pipe _ e s) .ofFields (ih _)
      · exact .refl s
    · exact .refl s

theorem inner_dispatchAll (s : State) : Inner s (dispatchAll s) := inner_dispatchLoop 4 s

theorem inner_storeGrants (fuel : Nat) (s : State) : Inner s (storeGrants fuel s) := by
  induction fuel generalizing s with
  | zero => exact .refl s
  | succ fuel ih =>
    simp only [storeGrants]
    split
    · exact .refl s
    · rename_i pipe rest _
      split
      · rename_i d held _
        split
        · exact (Inner.trans (b := storageGrantOne pipe rest d held s) .ofFields (inner_assemble _ _ _)).trans (ih _)
        · exact .refl s
      · exact .refl s

theorem inner_examineStore (s : State) : Inner s (examineStore s) := inner_storeGrants _ s

theorem inner_afterFreeing (s : State) : Inner s (afterFreeing s) :=
  ((inner_examineStore s).trans (inner_examineTable _)).trans (inner_dispatchAll _)

theorem inner_passKey (e : Entry) (s : State) : Inner s (passKey e s) := by
  unfold passKey
  dsimp only
  split
  · exact .ofFields
  · exact inner_modProg _ _ _

theorem inner_loseEntry (c : ErrorClass) (n : ItemName) (s : State) : Inner s (loseEntry c n s) := by
  unfold loseEntry
  split
  · exact .refl s
  · rename_i e _
    dsimp only
    have h1 : Inner s ((s.modEntry n (fun x => { x with state := .lost, granules := [] })).modProg n.handle.slot
        (fun pr => (pr.countError c).reportIfEnabled (lossRecord c e))) :=
      Inner.trans (b := s.modEntry n _) .ofFields (inner_modProg _ _ _)
    split
    · exact (h1.trans (inner_passKey e _)).trans (inner_assemble _ _ _)
    · exact h1.trans (inner_assemble _ _ _)

/-! ### The cutter and the mapper -/

theorem inner_releaseStream (i : SlotId) (st : Stream) (s : State) : Inner s (releaseStream i st s) := by
  unfold releaseStream
  split
  · exact .refl s
  · rename_i pr _
    split
    · exact .refl s
    · rename_i r _
      dsimp only
      have h1 : Inner s ((s.setEntries (releaseEntries i st pr r s.entries).2).setProg i
          (pr.setStream st (releaseEntries i st pr r s.entries).1)) := .ofFields
      split
      · exact h1.trans (inner_assemble _ _ _)
      · exact h1

theorem inner_releasePass (i : SlotId) (s : State) : Inner s (releasePass i s) :=
  ((inner_releaseStream i .cam s).trans (inner_releaseStream i .slide _)).trans (inner_releaseStream i .audio _)

theorem inner_passes (i : SlotId) (s : State) : Inner s (passes i s) :=
  (inner_modProg s i _).trans (inner_releasePass i _)

theorem inner_forceHorizon (i : SlotId) (s : State) : Inner s (forceHorizon i s) := by
  unfold forceHorizon
  split
  · rename_i pr g _ _
    have raised : Inner s (passes i (s.setProg i (Programme.raiseHorizon (Programme.latch .forced
        { pr with cutter := { pr.cutter with forced := some g } })))) :=
      Inner.trans (b := s.setProg i _) .ofFields (inner_passes i _)
    split
    · split
      · exact raised
      · exact .refl s
    · rw [if_pos rfl]
      exact raised
  · exact .refl s

theorem inner_forceAll (s : State) : Inner s (forceAll s) := Inner.foldl _ (fun s i => inner_forceHorizon i s) _ s

theorem inner_compareHeld (i : SlotId) (s : State) : Inner s (compareHeld i s) := by
  unfold compareHeld
  split
  · split
    · exact inner_forceHorizon i s
    · exact .refl s
  · exact .refl s

theorem inner_raiseAndPass (i : SlotId) (s : State) : Inner s (raiseAndPass i s) := by
  unfold raiseAndPass
  split
  · exact .refl s
  · split
    · exact .refl s
    · exact Inner.trans (b := s.setProg i _) .ofFields (inner_passes i _)

theorem inner_slideStages (i : SlotId) (idx : Option (BitVec 16)) (x : Nat) (s : State) :
    Inner s (slideStages i idx x s) := by
  unfold slideStages
  split
  · exact .refl s
  · rename_i pr _
    dsimp only
    have h1 : Inner s (s.setProg i (pr.detect idx x).2) := .ofFields
    split
    · exact (h1.trans (inner_passes i _)).trans (inner_raiseAndPass i _)
    · exact h1.trans (inner_raiseAndPass i _)

theorem inner_cutterStep (n : ItemName) (idx : Option (BitVec 16)) (t dm x : Nat) (s : State) :
    Inner s (cutterStep n idx t dm x s) := by
  unfold cutterStep
  dsimp only
  have h1 : ∀ f, Inner s (s.modProg n.handle.slot f) := inner_modProg s n.handle.slot
  have h2 : ∀ u, Inner u (passes n.handle.slot (compareHeld n.handle.slot (holdEntry n u))) := fun u =>
    (Inner.trans (b := holdEntry n u) .ofFields (inner_compareHeld _ _)).trans (inner_passes _ _)
  split
  · exact ((h1 _).trans (inner_slideStages _ idx x _)).trans (h2 _)
  · exact (h1 _).trans (h2 _)

theorem inner_endSlide (i : SlotId) (s : State) : Inner s (endSlide i s) :=
  (inner_modProg s i _).trans (inner_raiseAndPass i _)

theorem inner_mapStep (n : ItemName) (s : State) : Inner s (mapStep n s) := by
  unfold mapStep
  dsimp only
  split
  · split
    · exact .refl s
    · refine Inner.trans ?_ (inner_modProg _ _ _)
      split
      · exact Inner.trans (b := (s.setProg _ _).modEntry n _) .ofFields (inner_cutterStep _ _ _ _ _ _)
      · exact .ofFields
      · exact .ofFields
  · exact .refl s

/-! ### What follows for a step's end -/

/-- A step of work behind the lanes with the throttle off ends with the sources evaluated and the notices sent (R163). -/
theorem conclude_off (a b : State) (h : a.throttle = false) : conclude a b = notices a (evaluateSources a b) := by
  simp [conclude, h]

end Sys2Proof.Machine
end

