-- ==== Sys2Proof/Laws/Work.lean ====
section
/-! SUPPORT. Everything that work inside the part can do to a programme record, said once: the primitive changes, and for
each shared operation that it leads from record to record by such changes alone. A property of records is then carried
through all of that work by one case per primitive change. -/

namespace Sys2Proof.Machine

/-- One change that work inside the part makes to a programme record. Index `true` admits the changes of a mapping step
(R63) as well; only there can a TIME_RANGE be reported (R7). -/
inductive Programme.Change : Bool → Programme → Programme → Prop
  | latch (m : Bool) (k : LatchKind) (pr : Programme) : Change m pr (Programme.latch k pr)
  | closed (m : Bool) (n : BitVec 32) (pr : Programme) :
      Change m pr (Programme.latch .segment
        { pr with stats := { pr.stats with segmentsClosed := pr.stats.segmentsClosed + n } })
  | stream (m : Bool) (pr : Programme) (st : Stream) (r r' : StreamRecord) (h : pr.stream st = some r)
      (ended : r.ended = true → r'.ended = true) (piece : r'.piece = r.piece) (uPrev : r'.uPrev = r.uPrev)
      (durPrev : r'.durPrev = r.durPrev) (anchor : r'.anchor = r.anchor) (position : r'.position = r.position) :
      Change m pr (pr.setStream st r')
  | complete (m : Bool) (pr : Programme) (h : pr.state = .draining) :
      Change m pr (Programme.latch .state { pr with state := .complete })
  | prune (m : Bool) (pr : Programme) (rs : List RevRecord) (h : rs.Sublist pr.revisions) :
      Change m pr { pr with revisions := rs }
  | countError (m : Bool) (c : ErrorClass) (pr : Programme) : Change m pr (pr.countError c)
  | report (m : Bool) (r : ErrorRecord) (pr : Programme) (h : m = false → r.code ≠ .timeRange) :
      Change m pr (pr.reportIfEnabled r)
  | decisionPass (m : Bool) (pr : Programme) : Change m pr pr.decisionPass
  | force (m : Bool) (pr : Programme) (g : Nat) (h : ∀ f, pr.cutter.forced = some f → f < g) :
      Change m pr (Programme.raiseHorizon (Programme.latch .forced
        { pr with cutter := { pr.cutter with forced := some g } }))
  | raise (m : Bool) (pr : Programme) : Change m pr pr.raiseHorizon
  | reach (m : Bool) (z : Nat) (pr : Programme) :
      Change m pr { pr with cutter := { pr.cutter with reach := Max.max pr.cutter.reach z } }
  | detect (m : Bool) (idx : Option (BitVec 16)) (x : Nat) (pr : Programme) : Change m pr (pr.detect idx x).2
  | candidate (m : Bool) (pr : Programme) :
      Change m pr { pr with cutter := { pr.cutter with candidate := none } }
  | openPiece (n : Nat) (pr : Programme) (h : pr.pieces.length < pieceRecords) : Change true pr (pr.openPiece n)
  | setOrigin (k : Nat) (o : Option Int) (pr : Programme) : Change true pr (pr.setOrigin k o)
  | keep (st : Stream) (r : StreamRecord) (u : MappedUnit) (d : Nat) (pr : Programme) (h : pr.stream st = some r) :
      Change true pr (pr.keep st r u d)
  | countLimit (l : Limit) (pr : Programme) : Change true pr (countLimit l pr)

/-- Any number of such changes, one after another. -/
inductive Programme.Runs (m : Bool) : Programme → Programme → Prop
  | refl (pr : Programme) : Runs m pr pr
  | tail {a b c : Programme} (h : Runs m a b) (k : Programme.Change m b c) : Runs m a c

theorem Programme.Change.runs {m : Bool} {a b : Programme} (h : Programme.Change m a b) : Programme.Runs m a b :=
  .tail (.refl a) h

theorem Programme.Runs.trans {m : Bool} {a b c : Programme} (h : Programme.Runs m a b) (k : Programme.Runs m b c) :
    Programme.Runs m a c := by
  induction k with
  | refl => exact h
  | tail _ k2 ih => exact .tail ih k2

/-- A reflexive and transitive relation that every primitive change satisfies holds across any run of them. -/
theorem Programme.Runs.lift {m : Bool} {R : Programme → Programme → Prop} (hr : ∀ a, R a a)
    (ht : ∀ a b c, R a b → R b c → R a c) (hc : ∀ a b, Programme.Change m a b → R a b) {a b : Programme}
    (h : Programme.Runs m a b) : R a b := by
  induction h with
  | refl => exact hr _
  | tail _ k ih => exact ht _ _ _ ih (hc _ _ k)

theorem Programme.Change.toMapping {m : Bool} {a b : Programme} (h : Programme.Change m a b) :
    Programme.Change true a b := by
  cases h <;> constructor <;> first | assumption | exact fun h => absurd h (by decide)

theorem Programme.Runs.toMapping {m : Bool} {a b : Programme} (h : Programme.Runs m a b) : Programme.Runs true a b := by
  induction h with
  | refl => exact .refl _
  | tail _ k ih => exact .tail ih k.toMapping

/-- What work inside the part does to the records of the table: a FREE slot stays FREE, and a record runs on. -/
structure Works (m : Bool) (a b : State) : Prop where
  free : ∀ i, a.prog i = none → b.prog i = none
  runs : ∀ i x, a.prog i = some x → ∃ y, b.prog i = some y ∧ Programme.Runs m x y

theorem Works.refl {m : Bool} (a : State) : Works m a a := ⟨fun _ h => h, fun _ x h => ⟨x, h, .refl x⟩⟩

theorem Works.trans {m : Bool} {a b c : State} (h : Works m a b) (k : Works m b c) : Works m a c :=
  ⟨fun i hi => k.free i (h.free i hi), fun i x hx =>
    have ⟨y, hy, r⟩ := h.runs i x hx
    have ⟨z, hz, r2⟩ := k.runs i y hy
    ⟨z, hz, r.trans r2⟩⟩

theorem Works.toMapping {m : Bool} {a b : State} (h : Works m a b) : Works true a b :=
  ⟨h.free, fun i x hx => have ⟨y, hy, r⟩ := h.runs i x hx; ⟨y, hy, r.toMapping⟩⟩

theorem Works.foldl {m : Bool} {α : Type} (f : State → α → State) (hf : ∀ s x, Works m s (f s x)) (l : List α) (s : State) :
    Works m s (l.foldl f s) := by
  induction l generalizing s with
  | nil => exact .refl s
  | cons x xs ih => exact (hf s x).trans (ih _)

/-- An update that does not reach the table. -/
theorem Works.ofSlots {m : Bool} {a b : State} (h : b.slots = a.slots) : Works m a b := by
  have hp : ∀ i, b.prog i = a.prog i := fun i => by simp [State.prog, h]
  exact ⟨fun i hi => by rw [hp]; exact hi, fun i x hx => ⟨x, by rw [hp]; exact hx, .refl x⟩⟩

theorem works_setProg {m : Bool} (s : State) (i : SlotId) (pr pr' : Programme) (hp : s.prog i = some pr)
    (h : Programme.Runs m pr pr') : Works m s (s.setProg i pr') := by
  refine ⟨fun j hj => ?_, fun j x hx => ?_⟩
  · by_cases hij : j = i
    · subst hij
      rw [hp] at hj
      cases hj
    · rw [State.setProg_prog_other _ _ hij]
      exact hj
  · by_cases hij : j = i
    · subst hij
      rw [hp] at hx
      cases hx
      exact ⟨pr', State.setProg_prog_same _ _ _, h⟩
    · exact ⟨x, by rw [State.setProg_prog_other _ _ hij]; exact hx, .refl x⟩

theorem works_modProg {m : Bool} (s : State) (i : SlotId) (f : Programme → Programme)
    (h : ∀ pr, Programme.Runs m pr (f pr)) : Works m s (s.modProg i f) := by
  unfold State.modProg
  split
  · rename_i pr hp
    exact works_setProg s i pr _ hp (h pr)
  · exact .refl s

/-- Changing the record of a stream where the mapper's fields stay. -/
theorem runs_modStream {m : Bool} (st : Stream) (f : StreamRecord → StreamRecord) (pr : Programme)
    (ended : ∀ r, r.ended = true → (f r).ended = true) (piece : ∀ r, (f r).piece = r.piece := by intro _; rfl)
    (uPrev : ∀ r, (f r).uPrev = r.uPrev := by intro _; rfl) (durPrev : ∀ r, (f r).durPrev = r.durPrev := by intro _; rfl)
    (anchor : ∀ r, (f r).anchor = r.anchor := by intro _; rfl)
    (position : ∀ r, (f r).position = r.position := by intro _; rfl) : Programme.Runs m pr (pr.modStream st f) := by
  unfold Programme.modStream
  split
  · rename_i r hr
    exact (Programme.Change.stream m pr st r (f r) hr (ended r) (piece r) (uPrev r) (durPrev r) (anchor r)
      (position r)).runs
  · exact .refl pr

/-- Work that begins after an update that does not reach the table. -/
theorem Works.after {m : Bool} {a b c : State} (k : Works m b c) (h : b.slots = a.slots) : Works m a c :=
  (Works.ofSlots h).trans k

/-- Work that is followed by an update that does not reach the table. -/
theorem Works.before {m : Bool} {a b c : State} (k : Works m a b) (h : c.slots = b.slots) : Works m a c :=
  k.trans (.ofSlots h)

/-! ### Ports, lanes and sources do not reach the table -/

theorem works_setLaneSlot {m : Bool} (s : State) (o : Option Port) : Works m s (s.setLaneSlot o) := by
  cases o <;> exact .ofSlots rfl

theorem works_notify {m : Bool} (before : State) (p : Port) (s : State) : Works m s (notify before p s) := by
  unfold notify
  split <;> exact .ofSlots rfl

theorem works_notices {m : Bool} (before s : State) : Works m s (notices before s) :=
  ((works_notify before .p0 s).trans (works_notify before .p1 _)).trans (works_notify before .p2 _)

theorem works_evaluateSources {m : Bool} (before s : State) : Works m s (evaluateSources before s) := .ofSlots rfl

theorem works_advanceLane {m : Bool} (s : State) (l : LaneId) (before after : LaneRecord) :
    Works m s (s.advanceLane l before after) := by
  unfold State.advanceLane
  dsimp only
  split
  · exact Works.after (works_setLaneSlot _ _) rfl
  · exact .ofSlots rfl

/-! ### The assembler -/

theorem works_closeCurrent {m : Bool} (i : SlotId) (pr : Programme) (st : Stream) (cur : Nat) (final : Bool) (e : Nat)
    (s : State) : Works m s (closeCurrent i pr st cur final e s) := by
  unfold closeCurrent
  dsimp only
  exact Works.after (works_modProg _ _ _ fun pr => (Programme.Change.closed m _ pr).runs) rfl

theorem works_setAssembly {m : Bool} (i : SlotId) (st : Stream) (a : AssemblyRecord) (s : State) :
    Works m s (setAssembly i st a s) :=
  works_modProg _ _ _ fun pr => runs_modStream st _ pr (fun _ h => h)

theorem works_requestTable {m : Bool} (i : SlotId) (st : Stream) (s : State) : Works m s (requestTable i st s) := by
  unfold requestTable
  split <;> exact .ofSlots rfl

theorem works_assembleStream {m : Bool} (i : SlotId) (st : Stream) (fuel : Nat) (s : State) :
    Works m s (assembleStream i st fuel s) := by
  induction fuel generalizing s with
  | zero => exact .refl s
  | succ fuel ih =>
    simp only [assembleStream]
    split
    · exact .refl s
    · split
      · exact .refl s
      · split
        · split
          · exact Works.after (ih _) rfl
          · exact .refl s
        · split
          · split
            · exact Works.after (ih _) rfl
            · split
              · exact works_requestTable _ _ s
              · exact .refl s
          · exact .refl s
        · split
          · split
            · exact works_requestTable _ _ s
            · exact (works_closeCurrent _ _ _ _ _ _ s).trans (works_setAssembly _ _ _ _)
          · exact .refl s
        · exact .refl s

theorem works_completeDrain {m : Bool} (i : SlotId) (s : State) : Works m s (completeDrain i s) := by
  unfold completeDrain
  split
  · exact .refl s
  · rename_i pr hp
    split
    · rename_i hc
      exact works_setProg s i pr _ hp (Programme.Change.complete m pr hc.1).runs
    · exact .refl s

/-- Pruning leaves records out and changes none (R37). -/
theorem pruneRecords_sublist (cb : Nat → Bool) (ca : Nat → Bool) (l : List RevRecord) :
    (pruneRecords cb ca l).Sublist l := by
  induction l with
  | nil => exact .slnil
  | cons a as ih =>
    cases as with
    | nil => exact .refl _
    | cons b rest =>
      simp only [pruneRecords]
      split
      · exact .cons _ ih
      · exact .cons_cons _ ih

theorem works_pruneRevisions {m : Bool} (i : SlotId) (s : State) : Works m s (pruneRevisions i s) :=
  works_modProg _ _ _ fun pr => (Programme.Change.prune m pr _ (pruneRecords_sublist _ _ _)).runs

theorem works_progressStream {m : Bool} (i : SlotId) (st : Stream) (s : State) : Works m s (progressStream i st s) :=
  ((works_assembleStream i st _ s).trans (works_pruneRevisions i _)).trans (works_completeDrain i _)

theorem works_tableGrantOne {m : Bool} (i : SlotId) (pr : Programme) (st : Stream) (s : State) :
    Works m s (tableGrantOne i pr st s) := by
  unfold tableGrantOne
  split
  · exact Works.after (works_setAssembly _ _ _ _) rfl
  · rename_i cur ph _
    exact (works_closeCurrent i pr st cur false (pr.cutter.cutRecord (cur + 1)).start s).trans
      (Works.after (works_setAssembly _ _ _ _) rfl)
  · exact .refl s

theorem works_tableGrants {m : Bool} (fuel : Nat) (s : State) : Works m s (tableGrants fuel s) := by
  induction fuel generalizing s with
  | zero => exact .refl s
  | succ fuel ih =>
    simp only [tableGrants]
    split
    · exact .refl s
    · rename_i i st rest _
      split
      · exact Works.after (ih _) rfl
      · rename_i pr _
        split
        · have h1 : Works m s (pruneRevisions i (tableGrantOne i pr st s)) :=
            (works_tableGrantOne i pr st s).trans (works_pruneRevisions i _)
          split
          · exact h1.trans (ih _)
          · exact h1.trans (Works.after ((works_progressStream i st _).trans (ih _)) rfl)
        · exact .refl s

theorem works_examineTable {m : Bool} (s : State) : Works m s (examineTable s) := works_tableGrants _ s

theorem works_assemble {m : Bool} (i : SlotId) (st : Stream) (s : State) : Works m s (assemble i st s) := by
  unfold assemble
  dsimp only
  split
  · exact (works_progressStream i st s).trans (works_examineTable _)
  · exact works_progressStream i st s

/-! ### The dispatcher, the store queue and losses -/

theorem works_dispatchLoop {m : Bool} (fuel : Nat) (s : State) : Works m s (dispatchLoop fuel s) := by
  induction fuel generalizing s with
  | zero => exact .refl s
  | succ fuel ih =>
    simp only [dispatchLoop]
    split
    · rename_i pipe e _ _
      split
      · rename_i pr _
        exact Works.after (ih _) rfl
      · exact .refl s
    · exact .refl s

theorem works_dispatchAll {m : Bool} (s : State) : Works m s (dispatchAll s) := works_dispatchLoop 4 s

theorem storageGrantOne_slots (pipe : PipeId) (rest : List PipeId) (d : ItemDescriptor) (held : List EncodedOutput) (s : State) :
    (storageGrantOne pipe rest d held s).slots = s.slots := rfl

theorem works_storeGrants {m : Bool} (fuel : Nat) (s : State) : Works m s (storeGrants fuel s) := by
  induction fuel generalizing s with
  | zero => exact .refl s
  | succ fuel ih =>
    simp only [storeGrants]
    split
    · exact .refl s
    · rename_i pipe rest _
      split
      · rename_i d held _
        split
        · exact (Works.after (works_assemble _ _ _) (storageGrantOne_slots pipe rest d held s)).trans (ih _)
        · exact .refl s
      · exact .refl s

theorem works_examineStore {m : Bool} (s : State) : Works m s (examineStore s) := works_storeGrants _ s

theorem works_afterFreeing {m : Bool} (s : State) : Works m s (afterFreeing s) :=
  ((works_examineStore s).trans (works_examineTable _)).trans (works_dispatchAll _)

theorem works_passKey {m : Bool} (e : Entry) (s : State) : Works m s (passKey e s) := by
  unfold passKey
  dsimp only
  split
  · exact .ofSlots rfl
  · exact works_modProg _ _ _ fun pr => runs_modStream _ _ pr (fun _ h => h)

theorem runs_error {m : Bool} (c : ErrorClass) (r : ErrorRecord) (pr : Programme) (h : r.code ≠ .timeRange) :
    Programme.Runs m pr ((pr.countError c).reportIfEnabled r) :=
  .tail (Programme.Change.countError m c pr).runs (.report m r _ fun _ => h)

/-- The loss of an entry, by one of the two classes that lose entries (R123). -/
theorem works_loseEntry {m : Bool} (c : ErrorClass) (n : ItemName) (s : State) (hc : c ≠ .timeRange) :
    Works m s (loseEntry c n s) := by
  unfold loseEntry
  split
  · exact .refl s
  · rename_i e _
    dsimp only
    have h1 : Works m s ((s.modEntry n (fun x => { x with state := .lost, granules := [] })).modProg n.handle.slot
        (fun pr => (pr.countError c).reportIfEnabled (lossRecord c e))) :=
      Works.after (works_modProg _ _ _ fun pr => runs_error c _ pr hc) rfl
    split
    · exact (h1.trans (works_passKey e _)).trans (works_assemble _ _ _)
    · exact h1.trans (works_assemble _ _ _)

/-! ### The cutter -/

/-- The stream record through one stream's release pass keeps the mapper's fields and the ended flag. -/
theorem releaseEntries_stream (i : SlotId) (st : Stream) (pr : Programme) (r : StreamRecord) (es : List Entry) :
    (releaseEntries i st pr r es).1.ended = r.ended ∧ (releaseEntries i st pr r es).1.piece = r.piece ∧
    (releaseEntries i st pr r es).1.uPrev = r.uPrev ∧ (releaseEntries i st pr r es).1.durPrev = r.durPrev ∧
    (releaseEntries i st pr r es).1.anchor = r.anchor ∧ (releaseEntries i st pr r es).1.position = r.position := by
  induction es generalizing r with
  | nil => exact ⟨rfl, rfl, rfl, rfl, rfl, rfl⟩
  | cons e es ih =>
    simp only [releaseEntries]
    split
    · split
      · exact ⟨rfl, rfl, rfl, rfl, rfl, rfl⟩
      · exact ih _
    · exact ih _

theorem works_releaseStream {m : Bool} (i : SlotId) (st : Stream) (s : State) : Works m s (releaseStream i st s) := by
  unfold releaseStream
  split
  · exact .refl s
  · rename_i pr hp
    split
    · exact .refl s
    · rename_i r hr
      dsimp only
      obtain ⟨h1, h2, h3, h4, h5, h6⟩ := releaseEntries_stream i st pr r s.entries
      have hw : Works m s ((s.setEntries (releaseEntries i st pr r s.entries).2).setProg i
          (pr.setStream st (releaseEntries i st pr r s.entries).1)) :=
        Works.after (works_setProg _ i pr _ hp
          (Programme.Change.stream m pr st r _ hr (fun h => by rw [h1]; exact h) h2 h3 h4 h5 h6).runs) rfl
      split
      · exact hw.trans (works_assemble _ _ _)
      · exact hw

theorem works_releasePass {m : Bool} (i : SlotId) (s : State) : Works m s (releasePass i s) :=
  ((works_releaseStream i .cam s).trans (works_releaseStream i .slide _)).trans (works_releaseStream i .audio _)

theorem works_passes {m : Bool} (i : SlotId) (s : State) : Works m s (passes i s) :=
  (works_modProg s i _ fun pr => (Programme.Change.decisionPass m pr).runs).trans (works_releasePass i _)

theorem works_forceHorizon {m : Bool} (i : SlotId) (s : State) : Works m s (forceHorizon i s) := by
  unfold forceHorizon
  split
  · rename_i pr g hp _
    have raised : (∀ f, pr.cutter.forced = some f → f < g) → Works m s (passes i (s.setProg i (Programme.raiseHorizon
        (Programme.latch .forced { pr with cutter := { pr.cutter with forced := some g } })))) := fun h =>
      (works_setProg s i pr _ hp (Programme.Change.force m pr g h).runs).trans (works_passes i _)
    split
    · rename_i f hf
      split
      · rename_i hlt
        refine raised fun f' hf' => ?_
        rw [hf] at hf'
        cases hf'
        simpa using hlt
      · exact .refl s
    · rename_i hf
      rw [if_pos rfl]
      refine raised fun f' hf' => ?_
      rw [hf] at hf'
      cases hf'
  · exact .refl s

theorem works_forceAll {m : Bool} (s : State) : Works m s (forceAll s) :=
  Works.foldl _ (fun s i => works_forceHorizon i s) _ s

theorem works_compareHeld {m : Bool} (i : SlotId) (s : State) : Works m s (compareHeld i s) := by
  unfold compareHeld
  split
  · split
    · exact works_forceHorizon i s
    · exact .refl s
  · exact .refl s

theorem works_raiseAndPass {m : Bool} (i : SlotId) (s : State) : Works m s (raiseAndPass i s) := by
  unfold raiseAndPass
  split
  · exact .refl s
  · rename_i pr hp
    split
    · exact .refl s
    · exact (works_setProg s i pr _ hp (Programme.Change.raise m pr).runs).trans (works_passes i _)

theorem works_slideStages {m : Bool} (i : SlotId) (idx : Option (BitVec 16)) (x : Nat) (s : State) :
    Works m s (slideStages i idx x s) := by
  unfold slideStages
  split
  · exact .refl s
  · rename_i pr hp
    dsimp only
    have h1 : Works m s (s.setProg i (pr.detect idx x).2) :=
      works_setProg s i pr _ hp (Programme.Change.detect m idx x pr).runs
    split
    · exact (h1.trans (works_passes i _)).trans (works_raiseAndPass i _)
    · exact h1.trans (works_raiseAndPass i _)

theorem works_holdEntry {m : Bool} (n : ItemName) (s : State) : Works m s (holdEntry n s) := .ofSlots rfl

theorem works_cutterStep {m : Bool} (n : ItemName) (idx : Option (BitVec 16)) (t dm x : Nat) (s : State) :
    Works m s (cutterStep n idx t dm x s) := by
  unfold cutterStep
  dsimp only
  have h1 : Works m s (s.modProg n.handle.slot (fun pr =>
      { pr with cutter := { pr.cutter with reach := Max.max pr.cutter.reach (t + dm) } })) :=
    works_modProg s _ _ fun pr => (Programme.Change.reach m (t + dm) pr).runs
  have h2 : ∀ u, Works m u (passes n.handle.slot (compareHeld n.handle.slot (holdEntry n u))) := fun u =>
    ((works_holdEntry n u).trans (works_compareHeld _ _)).trans (works_passes _ _)
  split
  · exact (h1.trans (works_slideStages _ idx x _)).trans (h2 _)
  · exact h1.trans (h2 _)

theorem works_endSlide {m : Bool} (i : SlotId) (s : State) : Works m s (endSlide i s) :=
  (works_modProg s i _ fun pr => (Programme.Change.candidate m pr).runs).trans (works_raiseAndPass i _)

/-! ### The mapper -/

theorem mapUnit_runs (pr : Programme) (r : StreamRecord) (e : Entry) : Programme.Runs true pr (pr.mapUnit r e).prog := by
  have hs : Programme.Runs true pr (pr.selectPiece e.piece).2.2 := by
    unfold Programme.selectPiece
    split
    · exact .refl pr
    · split
      · split
        · rename_i hl
          exact (Programme.Change.openPiece _ pr hl).runs
        · exact .refl pr
      · exact .refl pr
  unfold Programme.mapUnit
  dsimp only
  split
  · exact hs
  · split
    · exact hs
    · exact hs.tail (.setOrigin _ _ _)

theorem openPiece_streams (n : Nat) (pr : Programme) : (pr.openPiece n).streams = pr.streams := by
  unfold Programme.openPiece Programme.activatePiece
  dsimp only
  split <;> split <;> split <;> rfl

/-- Piece selection, unwrap and the limits leave the stream records as they are. -/
theorem mapUnit_streams (pr : Programme) (r : StreamRecord) (e : Entry) : (pr.mapUnit r e).prog.streams = pr.streams := by
  have hs : (pr.selectPiece e.piece).2.2.streams = pr.streams := by
    unfold Programme.selectPiece
    split
    · rfl
    · split
      · split
        · exact openPiece_streams _ _
        · rfl
      · rfl
  have ho : ∀ (k : Nat) (o : Option Int) (q : Programme), (q.setOrigin k o).streams = q.streams := by
    intro k o q
    cases o <;> rfl
  unfold Programme.mapUnit
  dsimp only
  split
  · exact hs
  · split
    · exact hs
    · exact (ho _ _ _).trans hs

theorem countErrors_runs {m : Bool} (cs : List ErrorClass) (pr : Programme) :
    Programme.Runs m pr (cs.foldl (fun pr c => pr.countError c) pr) := by
  induction cs generalizing pr with
  | nil => exact .refl pr
  | cons c cs ih => exact ((Programme.Change.countError m c pr).runs).trans (ih _)

theorem countErrors_streams (cs : List ErrorClass) (pr : Programme) :
    (cs.foldl (fun pr c => pr.countError c) pr).streams = pr.streams := by
  induction cs generalizing pr with
  | nil => rfl
  | cons c cs ih => exact ih _

theorem reportRaised_runs (e : Entry) (x : Mapping) (pr : Programme) :
    Programme.Runs true pr (reportRaised e x pr) := by
  unfold reportRaised
  generalize x.raised = cs
  induction cs generalizing pr with
  | nil => exact .refl pr
  | cons c cs ih => exact ((Programme.Change.report true _ pr fun h => absurd h (by decide)).runs).trans (ih _)

theorem works_mapStep (n : ItemName) (s : State) : Works true s (mapStep n s) := by
  unfold mapStep
  dsimp only
  split
  · rename_i e pr he hp
    split
    · exact .refl s
    · rename_i r hr
      have hc : Programme.Runs true pr ((pr.mapUnit r e).raised.foldl (fun pr c => pr.countError c) (pr.mapUnit r e).prog) :=
        (mapUnit_runs pr r e).trans (countErrors_runs _ _)
      have hst : ((pr.mapUnit r e).raised.foldl (fun pr c => pr.countError c) (pr.mapUnit r e).prog).stream n.stream =
          some r := by
        unfold Programme.stream
        rw [countErrors_streams, mapUnit_streams]
        exact hr
      refine Works.trans ?_ (works_modProg _ _ _ fun pr => reportRaised_runs e _ pr)
      split
      · exact (works_setProg s _ pr _ hp (hc.tail (.keep _ _ _ _ _ hst))).trans
          (Works.after (works_cutterStep _ _ _ _ _ _) rfl)
      · exact (works_setProg s _ pr _ hp (hc.tail (.countLimit _ _))).before rfl
      · exact (works_setProg s _ pr _ hp hc).before rfl
  · exact .refl s

/-! ### The lanes and the parser -/

theorem works_malformedUnit {m : Bool} (h : Handle) (st : Stream) (seq : Option (BitVec 24)) (s : State) :
    Works m s (malformedUnit h st seq s) := by
  unfold malformedUnit
  dsimp only
  refine Works.trans ?_ (works_modProg _ _ _ fun pr => runs_error _ _ pr (fun h => ErrorClass.noConfusion h))
  split <;> exact .ofSlots rfl

theorem works_dropLane {m : Bool} (i : SlotId) (st : Stream) (s : State) : Works m s (dropLane i st s) :=
  works_modProg _ _ _ fun pr => runs_modStream _ _ pr (fun _ h => h)

theorem works_removeLane {m : Bool} (l : LaneId) (s : State) : Works m s (removeLane l s) := by
  unfold removeLane
  dsimp only
  split <;> split
  all_goals first
    | exact Works.after (works_dropLane _ _ _) rfl
    | exact .ofSlots rfl

theorem works_removeLanesWhere {m : Bool} (p : LaneRecord → Bool) (s : State) : Works m s (removeLanesWhere p s) := by
  refine Works.foldl _ (fun s l => ?_) _ s
  split
  · exact works_removeLane l s
  · exact .refl s

theorem works_runLanes {m : Bool} (i : SlotId) (s : State) : Works m s (runLanes i s) := .ofSlots rfl

/-- What a lane waits with is read from its own programme's record (R51). -/
theorem waiting_stream {s : State} {l : LaneId} {h : Handle} {st : Stream} {r : StreamRecord} {u : UnitHeader}
    (hw : s.waiting l = some (h, st, r, u)) : ∃ pr, s.prog h.slot = some pr ∧ pr.stream st = some r := by
  unfold State.waiting at hw
  split at hw
  · rename_i heq hlp
    split at hw
    · cases hw
    · simp only [Option.map_eq_some_iff] at hw
      obtain ⟨r', hr', he⟩ := hw
      cases he
      simp only [State.laneProg, heq, Option.map_eq_some_iff] at hlp
      obtain ⟨pr, hpr, he2⟩ := hlp
      cases he2
      exact ⟨_, hpr, hr'⟩
  · cases hw

theorem works_parsePtr {m : Bool} (s : State) (l : LaneId) : Works m s { s with parsePtr := l } := .ofSlots rfl

theorem works_takeHeader {m : Bool} (l : LaneId) (h : Handle) (st : Stream) (r : StreamRecord) (u : UnitHeader) (s : State)
    (hw : s.waiting l = some (h, st, r, u)) : Works m s (takeHeader l h st r u s) := by
  obtain ⟨pr, hp, hr⟩ := waiting_stream hw
  unfold takeHeader
  dsimp only
  have h1 : ∀ t : State, t.prog h.slot = some pr → Works m t (t.modProg h.slot (fun pr => pr.setStream st (parsedStream u r))) := by
    intro t ht
    unfold State.modProg
    rw [ht]
    exact works_setProg t _ pr _ ht
      (Programme.Change.stream m pr st r (parsedStream u r) hr (fun h => h) rfl rfl rfl rfl rfl).runs
  have h2 : ∀ (t : State) (before after : LaneRecord), t.prog h.slot = some pr → Works m t
      { (t.modProg h.slot (fun pr => pr.setStream st (parsedStream u r))).advanceLane l before after with
        parsePtr := l + 1 } := fun t before after ht =>
    ((h1 t ht).trans (works_advanceLane _ _ _ _)).trans (works_parsePtr _ _)
  exact Works.after (h2 (s.setEntries (s.entries ++ [parsedEntry h st r u (allocate s.payloadUsed (granulesFor u.length))]))
    _ _ hp) rfl

theorem works_forceForSupply {m : Bool} (s : State) : Works m s (forceForSupply s) :=
  ((works_forceAll s).trans (works_dispatchAll _)).trans (works_evaluateSources _ _)

theorem works_parseNext {m : Bool} {s s1 : State} (hn : parseNext s = some s1) : Works m s s1 := by
  obtain ⟨l, h, st, r, u, hc, rfl⟩ := parseNext_cases hn
  exact (works_takeHeader l h st r u s (arbiterChoice_supply hc).2).trans (works_evaluateSources s _)

theorem works_serveLane {m : Bool} (s : State) : Works m s (serveLane s) := by
  unfold serveLane
  split
  · exact .refl s
  · rename_i hn
    split
    · exact (works_parseNext hn).trans (works_forceForSupply _)
    · exact works_parseNext hn

theorem works_serveLanes {m : Bool} (fuel : Nat) (s : State) : Works m s (serveLanes fuel s) := by
  induction fuel generalizing s with
  | zero => exact .refl s
  | succ fuel ih =>
    simp only [serveLanes]
    split
    · exact .refl s
    · rename_i hn
      split
      · exact (works_parseNext hn).trans (works_forceForSupply _)
      · exact (works_parseNext hn).trans (ih _)

theorem works_malformedAt {m : Bool} (l : LaneId) (s : State) : Works m s (malformedAt l s) := by
  unfold malformedAt
  split
  · split
    · exact (works_advanceLane s l _ _).trans (works_malformedUnit _ _ _ _)
    · exact .refl s
  · exact .refl s

theorem works_turnOff {m : Bool} (s : State) : Works m s (turnOff s) :=
  (Works.foldl _ (fun s l => works_malformedAt l s) _ s).trans (works_serveLanes _ _)

/-- What closes every step runs no record back. -/
theorem works_conclude {m : Bool} (before s : State) : Works m s (conclude before s) := by
  unfold conclude
  dsimp only
  split
  · exact ((works_evaluateSources before s).trans (works_turnOff _)).trans (works_notices _ _)
  · exact (works_evaluateSources before s).trans (works_notices _ _)

theorem works_copyPayload {m : Bool} (l : LaneId) (n : Nat) (s : State) : Works m s (copyPayload l n s) := by
  unfold copyPayload
  dsimp only
  split
  · split
    · exact .refl s
    · exact Works.after (works_advanceLane _ _ _ _) rfl
  · exact .refl s

theorem works_cutShort {m : Bool} (ln : LaneRecord) (s : State) : Works m s (cutShort ln s) := by
  unfold cutShort
  split
  · exact .refl s
  · split
    · exact works_malformedUnit _ _ _ _
    · split
      · exact .refl s
      · exact works_malformedUnit _ _ _ _
    · exact .refl s

theorem works_actOnFlush {m : Bool} (l : LaneId) (s : State) : Works m s (actOnFlush l s) :=
  (works_advanceLane s l _ _).trans (works_cutShort _ _)

theorem works_endStream {m : Bool} (l : LaneId) (h : Handle) (st : Stream) (s : State) : Works m s (endStream l h st s) := by
  unfold endStream
  dsimp only
  have h1 : Works m s ((s.setLane l (s.lane l).toFree).modProg h.slot
      (fun pr => pr.modStream st (fun r => { r with lane := none, ended := true }))) :=
    Works.after (works_modProg _ _ _ fun pr => runs_modStream _ _ pr (fun _ _ => rfl)) rfl
  split
  · exact h1.trans (works_endSlide _ _)
  · exact h1

end Sys2Proof.Machine
end

