-- ==== Sys2Proof/Laws/Onward.lean ====
section
/-! SUPPORT. No work inside the part takes a programme back: every primitive change of a record goes onward, and so does every
run of them; and what such work makes of the programme state. -/

namespace Sys2Proof.Machine

theorem Programme.Onward.refl (a : Programme) : Programme.Onward a a :=
  ⟨rfl, rfl, fun _ => rfl, fun st r r' h h' he => by rw [h] at h'; cases h'; exact he, Nat.le_refl _, List.prefix_refl _,
    Nat.le_refl _, fun g h => ⟨g, h, Nat.le_refl _⟩, fun _ h => h, fun ch h => ⟨ch, h, rfl, fun _ => rfl⟩⟩

theorem Programme.Onward.trans {a b c : Programme} (h : Programme.Onward a b) (k : Programme.Onward b c) :
    Programme.Onward a c := by
  refine ⟨k.frame.trans h.frame, k.renditions.trans h.renditions, fun st => (k.streamSet st).trans (h.streamSet st), ?_,
    Nat.le_trans h.revision k.revision, h.cuts.trans k.cuts, Nat.le_trans h.reach k.reach, ?_,
    fun t ht => k.horizon t (h.horizon t ht), ?_⟩
  · intro st r r' hr hr' he
    cases hb : b.stream st with
    | none =>
      have := h.streamSet st
      rw [hb, hr] at this
      cases this
    | some rb => exact k.ended st rb r' hb hr' (h.ended st r rb hr hb he)
  · intro g hg
    obtain ⟨g', hg', hle⟩ := h.forced g hg
    obtain ⟨g'', hg'', hle'⟩ := k.forced g' hg'
    exact ⟨g'', hg'', Nat.le_trans hle hle'⟩
  · intro ch hch
    obtain ⟨ch', hm, ht, hd⟩ := h.chapters ch hch
    obtain ⟨ch'', hm', ht', hd'⟩ := k.chapters ch' hm
    refine ⟨ch'', hm', ht'.trans ht, fun hp => ?_⟩
    have e := hd hp
    rw [← e] at hp
    exact (hd' hp).trans e

/-- A change that leaves streams, revision and cutter as they are goes onward. -/
theorem Programme.Onward.ofSame {a b : Programme} (frame : b.frame = a.frame := by rfl)
    (renditions : b.renditions = a.renditions := by rfl) (streams : b.streams = a.streams := by rfl)
    (revision : b.revision = a.revision := by rfl) (cutter : b.cutter = a.cutter := by rfl) : Programme.Onward a b := by
  have h := Programme.Onward.refl a
  have hs : ∀ st, b.stream st = a.stream st := fun st => by rw [Programme.stream, streams]; rfl
  exact ⟨frame, renditions, fun st => by rw [hs], fun st r r' hr hr' => h.ended st r r' hr (by rw [← hs]; exact hr'),
    Nat.le_of_eq revision.symm, by rw [cutter], by rw [cutter],
    by rw [cutter]; exact h.forced, by rw [cutter]; exact h.horizon, by rw [cutter]; exact h.chapters⟩

/-- A change of the cutter alone goes onward where its own figures do. -/
theorem Programme.Onward.ofCutter (a : Programme) (c : Cutter)
    (cuts : (a.cutter.cuts.map CutRecord.start) <+: (c.cuts.map CutRecord.start) := by exact List.prefix_refl _)
    (reach : a.cutter.reach ≤ c.reach := by exact Nat.le_refl _)
    (forced : ∀ g, a.cutter.forced = some g → ∃ g', c.forced = some g' ∧ g ≤ g' := by exact fun g h => ⟨g, h, Nat.le_refl _⟩)
    (horizon : ∀ t, a.cutter.horizon.reaches t = true → c.horizon.reaches t = true := by exact fun _ h => h)
    (chapters : ∀ ch ∈ a.cutter.chapters, ∃ ch' ∈ c.chapters, ch'.time = ch.time ∧
      (ch.disp ≠ .pending → ch'.disp = ch.disp) := by exact fun ch h => ⟨ch, h, rfl, fun _ => rfl⟩) :
    Programme.Onward a { a with cutter := c } :=
  ⟨rfl, rfl, fun _ => rfl, (Programme.Onward.refl a).ended, Nat.le_refl _, cuts, reach, forced, horizon, chapters⟩

theorem onward_latch (k : LatchKind) (pr : Programme) : Programme.Onward pr (Programme.latch k pr) := .ofSame

theorem onward_setStream (pr : Programme) (st : Stream) (r r' : StreamRecord) (h : pr.stream st = some r)
    (he : r.ended = true → r'.ended = true) : Programme.Onward pr (pr.setStream st r') := by
  have hs : ∀ su, (pr.setStream st r').stream su = if su = st then some r' else pr.stream su := by
    intro su
    by_cases hsu : su = st
    · subst hsu
      simp [Programme.setStream, Programme.stream]
    · rw [if_neg hsu]
      exact PerStream.get_set_other _ _ hsu
  refine ⟨rfl, rfl, fun su => ?_, fun su q q' hq hq' hqe => ?_, Nat.le_refl _, List.prefix_refl _, Nat.le_refl _,
    fun g h => ⟨g, h, Nat.le_refl _⟩, fun _ h => h, fun ch h => ⟨ch, h, rfl, fun _ => rfl⟩⟩
  · rw [hs]
    by_cases hsu : su = st
    · subst hsu
      rw [if_pos rfl, h]
      rfl
    · rw [if_neg hsu]
  · rw [hs] at hq'
    by_cases hsu : su = st
    · subst hsu
      rw [if_pos rfl] at hq'
      cases hq'
      rw [h] at hq
      cases hq
      exact he hqe
    · rw [if_neg hsu, hq] at hq'
      cases hq'
      exact hqe

theorem onward_halt (pr : Programme) : Programme.Onward pr pr.halt := by
  unfold Programme.halt
  split
  · exact .ofSame
  · exact .refl pr

theorem onward_reportIfEnabled (r : ErrorRecord) (pr : Programme) : Programme.Onward pr (pr.reportIfEnabled r) := by
  unfold Programme.reportIfEnabled
  split
  · split
    · exact Programme.Onward.trans (b := pr.report r) .ofSame (onward_halt _)
    · exact .ofSame
  · exact .refl pr

/-! ### The cutter -/

theorem horizon_max_left (a b : Horizon) (t : Int) (h : a.reaches t = true) : (a.max b).reaches t = true := by
  cases a <;> cases b <;> simp_all [Horizon.max, Horizon.reaches]

theorem onward_raise (pr : Programme) : Programme.Onward pr pr.raiseHorizon :=
  .ofCutter pr _ (horizon := fun t h => horizon_max_left _ _ t (horizon_max_left _ _ t h))

theorem mem_insertChapter (ch x : Chapter) (l : List Chapter) (h : x ∈ l) : x ∈ insertChapter ch l := by
  induction l with
  | nil => cases h
  | cons y ys ih =>
    simp only [insertChapter]
    split
    · exact List.mem_cons_of_mem _ h
    · rcases List.mem_cons.mp h with rfl | h
      · exact List.mem_cons_self
      · exact List.mem_cons_of_mem _ (ih h)

theorem onward_addChapter (ch : Chapter) (pr : Programme) : Programme.Onward pr (pr.addChapter ch) := by
  have h1 : ∀ x, Programme.Onward pr { pr with
      cutter := { pr.cutter with chapters := insertChapter ch pr.cutter.chapters }, stats := x } := fun x =>
    Programme.Onward.trans (b := { pr with cutter := { pr.cutter with chapters := insertChapter ch pr.cutter.chapters } })
      (.ofCutter pr _ (chapters := fun y hy => ⟨y, mem_insertChapter ch y _ hy, rfl, fun _ => rfl⟩)) .ofSame
  unfold Programme.addChapter
  dsimp only
  split
  · exact ((h1 _).trans (onward_latch _ _)).trans (onward_latch _ _)
  · exact (h1 _).trans (onward_latch _ _)

theorem markLast_starts (l : List CutRecord) : (markLast l).map CutRecord.start = l.map CutRecord.start := by
  induction l with
  | nil => rfl
  | cons r rs ih =>
    cases rs with
    | nil => rfl
    | cons q qs => simpa [markLast] using ih

theorem onward_recordAuto (t : Nat) (idx : BitVec 16) (pr : Programme) : Programme.Onward pr (pr.recordAuto t idx) := by
  unfold Programme.recordAuto
  dsimp only
  split
  · refine Programme.Onward.trans (Programme.Onward.ofCutter pr _ (chapters := fun ch hch => ?_)) (onward_latch _ _)
    refine ⟨_, List.mem_map_of_mem hch, ?_, fun _ => ?_⟩ <;> split <;> rfl
  · split
    · split
      · refine (onward_addChapter _ pr).trans (.ofCutter _ _ (cuts := ?_))
        rw [markLast_starts]
      · exact onward_addChapter _ pr
    · exact onward_latch _ _

theorem onward_confirm (x : Nat) (pr : Programme) : Programme.Onward pr (pr.confirm x).2 := by
  unfold Programme.confirm
  split
  · exact .refl pr
  · split
    · exact (onward_recordAuto _ _ pr).trans (.ofCutter _ _)
    · exact .refl pr

theorem onward_detect (idx : Option (BitVec 16)) (x : Nat) (pr : Programme) : Programme.Onward pr (pr.detect idx x).2 := by
  unfold Programme.detect
  split
  · exact onward_confirm x pr
  · split
    · exact .ofCutter pr _
    · split
      · split
        · exact onward_confirm x pr
        · exact .ofCutter pr _
      · exact .ofCutter pr _

theorem disposeAt_time (cs : CutCase) (p k : Nat) (first : Option Nat) (ch : Chapter) :
    (disposeAt cs p k first ch).time = ch.time ∧ (ch.disp ≠ .pending → (disposeAt cs p k first ch).disp = ch.disp) := by
  constructor
  · unfold disposeAt
    dsimp only
    (repeat' split) <;> rfl
  · intro h
    unfold disposeAt
    dsimp only
    split
    · rename_i hp
      exact absurd hp h
    · split <;> rfl
    · rfl

theorem onward_disposeEarly (pr : Programme) : Programme.Onward pr pr.disposeEarly := by
  unfold Programme.disposeEarly
  dsimp only
  split
  · refine .ofCutter pr _ (chapters := fun ch hch => ⟨_, List.mem_map_of_mem hch, ?_, fun hd => ?_⟩)
    · split <;> rfl
    · rw [if_neg (fun h => hd h.1)]
  · exact .refl pr

theorem onward_activateCut (k : Nat) (pr : Programme) : Programme.Onward pr (pr.activateCut k) := by
  unfold Programme.activateCut
  split
  · exact .refl pr
  · exact .ofSame

theorem onward_dwellEffect (pr : Programme) : Programme.Onward pr pr.dwellEffect := by
  unfold Programme.dwellEffect
  split
  · exact (onward_confirm _ pr).trans (onward_raise _)
  · exact onward_raise _

theorem onward_decideCut (cs : CutCase) (pr : Programme) : Programme.Onward pr (pr.decideCut cs) := by
  have h1 : ∀ c : Cutter, c.chapters = pr.cutter.chapters.map (disposeAt cs pr.cutter.lastCut pr.cutter.counter
      pr.cutter.firstEarly) → c.cuts = pr.cutter.cuts ++ [CutRecord.mk cs.time cs.atChapter] →
      c.reach = pr.cutter.reach → c.forced = pr.cutter.forced → c.horizon = pr.cutter.horizon →
      Programme.Onward pr { pr with cutter := c } := by
    intro c hch hcu hr hf hh
    refine .ofCutter pr c (cuts := by rw [hcu, List.map_append]; exact List.prefix_append _ _)
      (reach := Nat.le_of_eq hr.symm) (forced := fun g hg => ⟨g, by rw [hf]; exact hg, Nat.le_refl _⟩)
      (horizon := fun t ht => by rw [hh]; exact ht) (chapters := fun ch hm => ?_)
    rw [hch]
    exact ⟨_, List.mem_map_of_mem hm, (disposeAt_time _ _ _ _ ch).1, (disposeAt_time _ _ _ _ ch).2⟩
  unfold Programme.decideCut
  dsimp only
  split
  · refine Programme.Onward.trans (Programme.Onward.trans ?_ (onward_activateCut _ _)) (onward_dwellEffect _)
    exact h1 _ rfl rfl rfl rfl rfl
  · refine Programme.Onward.trans ?_ (onward_activateCut _ _)
    exact h1 _ rfl rfl rfl rfl rfl

theorem onward_decisionLoop (fuel : Nat) (pr : Programme) : Programme.Onward pr (decisionLoop fuel pr) := by
  induction fuel generalizing pr with
  | zero => exact .refl pr
  | succ fuel ih =>
    simp only [decisionLoop]
    split
    · exact onward_disposeEarly pr
    · split
      · exact ((onward_disposeEarly pr).trans (onward_decideCut _ _)).trans (ih _)
      · exact onward_disposeEarly pr

theorem onward_decisionPass (pr : Programme) : Programme.Onward pr pr.decisionPass := onward_decisionLoop _ pr

/-! ### The mapper -/

theorem onward_openPiece (n : Nat) (pr : Programme) : Programme.Onward pr (pr.openPiece n) := by
  unfold Programme.openPiece Programme.activatePiece
  dsimp only
  split <;> split <;> split <;> exact .ofSame

theorem onward_setOrigin (k : Nat) (o : Option Int) (pr : Programme) : Programme.Onward pr (pr.setOrigin k o) := by
  cases o <;> exact .ofSame

theorem onward_keep (st : Stream) (r : StreamRecord) (u : MappedUnit) (d : Nat) (pr : Programme) (h : pr.stream st = some r) :
    Programme.Onward pr (pr.keep st r u d) :=
  (onward_setStream pr st r (keptStream r u d) h fun h => h).trans .ofSame

/-! ### Every change, and every run -/

theorem Programme.Change.onward {m : Bool} {a b : Programme} (h : Programme.Change m a b) : Programme.Onward a b := by
  cases h
  case latch k => exact onward_latch k a
  case closed n => exact .ofSame
  case stream st r r' he _ _ _ _ _ h => exact onward_setStream a st r r' h he
  case complete h => exact .ofSame
  case prune h => exact .ofSame
  case countError c => exact .ofSame
  case report r _ => exact onward_reportIfEnabled r a
  case decisionPass => exact onward_decisionPass a
  case force g h =>
    refine Programme.Onward.trans (Programme.Onward.ofCutter a { a.cutter with forced := some g } (forced := fun f hf =>
      ⟨g, rfl, Nat.le_of_lt (h f hf)⟩)) ?_
    exact (onward_latch .forced _).trans (onward_raise _)
  case raise => exact onward_raise a
  case reach z => exact .ofCutter a _ (reach := Nat.le_max_left _ _)
  case detect idx x => exact onward_detect idx x a
  case candidate => exact .ofCutter a _
  case openPiece n _ => exact onward_openPiece n a
  case setOrigin k o => exact onward_setOrigin k o a
  case keep st r u d h => exact onward_keep st r u d a h
  case countLimit l => cases l <;> exact .ofSame

theorem Programme.Runs.onward {m : Bool} {a b : Programme} (h : Programme.Runs m a b) : Programme.Onward a b :=
  h.lift .refl (fun _ _ _ => .trans) fun _ _ => Programme.Change.onward

/-! ### The programme state -/

theorem halt_state (pr : Programme) : pr.halt.state = pr.state ∨ (pr.state = .ingesting ∧ pr.halt.state = .halted) := by
  unfold Programme.halt
  split
  · rename_i h
    exact .inr ⟨h, rfl⟩
  · exact .inl rfl

theorem decisionLoop_state (fuel : Nat) (pr : Programme) : (decisionLoop fuel pr).state = pr.state := by
  have hd : ∀ pr : Programme, pr.disposeEarly.state = pr.state := fun pr => by
    unfold Programme.disposeEarly
    dsimp only
    split <;> rfl
  have hc : ∀ (cs : CutCase) (pr : Programme), (pr.decideCut cs).state = pr.state := fun cs pr => by
    have ha : ∀ (k : Nat) (q : Programme), (q.activateCut k).state = q.state := fun k q => by
      unfold Programme.activateCut
      split <;> rfl
    have hw : ∀ q : Programme, q.dwellEffect.state = q.state := fun q => by
      unfold Programme.dwellEffect
      split
      · unfold Programme.confirm Programme.recordAuto Programme.addChapter
        dsimp only
        (repeat' split) <;> rfl
      · rfl
    unfold Programme.decideCut
    dsimp only
    split
    · rw [hw, ha]
    · rw [ha]
  induction fuel generalizing pr with
  | zero => rfl
  | succ fuel ih =>
    simp only [decisionLoop]
    split
    · exact hd pr
    · split
      · rw [ih, hc, hd]
      · exact hd pr

theorem detect_state (idx : Option (BitVec 16)) (x : Nat) (pr : Programme) : (pr.detect idx x).2.state = pr.state := by
  unfold Programme.detect Programme.confirm Programme.recordAuto Programme.addChapter
  dsimp only
  (repeat' split) <;> rfl

/-- What one change makes of the programme state: only a drain completes (R10), and only a mapping step halts (R7). -/
theorem Programme.Change.state {m : Bool} {a b : Programme} (h : Programme.Change m a b) :
    b.state = a.state ∨ (a.state = .draining ∧ b.state = .complete) ∨
      (m = true ∧ a.state = .ingesting ∧ b.state = .halted) := by
  cases h
  case complete h => exact .inr (.inl ⟨h, rfl⟩)
  case report r h =>
    unfold Programme.reportIfEnabled
    split
    · split
      · rename_i hr
        cases m with
        | false => exact absurd hr (h rfl)
        | true =>
          rcases halt_state (a.report r) with h1 | h1
          · exact .inl h1
          · exact .inr (.inr ⟨rfl, h1.1, h1.2⟩)
      · exact .inl rfl
    · exact .inl rfl
  case decisionPass => exact .inl (decisionLoop_state _ a)
  case detect idx x => exact .inl (detect_state idx x a)
  case openPiece n _ =>
    left
    unfold Programme.openPiece Programme.activatePiece
    dsimp only
    split <;> split <;> split <;> rfl
  case setOrigin k o => cases o <;> exact .inl rfl
  case countLimit l => cases l <;> exact .inl rfl
  all_goals exact .inl rfl

/-- Work outside the mapping step leaves the programme state, but for the completion of a drain. -/
theorem Programme.Runs.state {a b : Programme} (h : Programme.Runs false a b) :
    b.state = a.state ∨ (a.state = .draining ∧ b.state = .complete) := by
  induction h with
  | refl => exact .inl rfl
  | tail _ k ih =>
    rcases k.state with h1 | ⟨h1, h2⟩ | ⟨h1, -⟩
    · rcases ih with h3 | ⟨h3, h4⟩
      · exact .inl (h1.trans h3)
      · exact .inr ⟨h3, h1.trans h4⟩
    · rcases ih with h3 | ⟨h3, h4⟩
      · exact .inr ⟨h3 ▸ h1, h2⟩
      · rw [h4] at h1
        cases h1
    · cases h1

end Sys2Proof.Machine
end

