-- ==== Sys2Proof/Laws/PerInstr.lean ====
section
/-! SUPPORT. Statements made for every command as syntax: one lemma for each constructor. -/

namespace Sys2Proof.Laws

/-- A row that stands for a port command is well formed exactly when the command is, and the record of a well-formed one has
a length that the submit word takes: 16 to 4088 bytes (R169, R180). -/
def CommandRecord.Statement (i : Instr) : Prop :=
  ∀ p tag c, i.command = some (p, tag, c) →
    c.wf = i.wf ∧ (i.wf = true → 16 ≤ (encodeRecord tag c).length ∧ (encodeRecord tag c).length ≤ 4088)

namespace CommandRecord

theorem encodeHandle_length (h : Option RawHandle) : (encodeHandle h).length = 3 := by cases h <;> rfl

/-- Sixteen header bytes, then the operands (R180). -/
theorem encodeRecord_length (tag : BitVec 16) (c : PortCommand) :
    (encodeRecord tag c).length = 16 + (encodeOperands c).length := by
  simp only [encodeRecord, bytes16, List.length_append, encodeHandle_length, List.length_cons, List.length_nil]
  omega

theorem renditions_length (rl : List RawRendition) : (rl.flatMap encodeRendition).length = 4 * rl.length := by
  induction rl with
  | nil => rfl
  | cons r rs ih =>
    rw [List.flatMap_cons, List.length_append, ih, List.length_cons]
    show 4 + 4 * rs.length = _
    omega

theorem fields_length (fs : List RawField) : (fs.flatMap encodeField).length = 8 * fs.length := by
  induction fs with
  | nil => rfl
  | cons f fs ih =>
    rw [List.flatMap_cons, List.length_append, ih, List.length_cons]
    show 8 + 8 * fs.length = _
    omega

/-- No well-formed command has more than 2044 operand bytes. -/
theorem encodeOperands_length (c : PortCommand) (h : c.wf = true) : (encodeOperands c).length ≤ 2044 := by
  cases c
  case openProgramme f ss rl =>
    have hl : rl.length < 256 := by simpa [PortCommand.wf, countFits] using h
    simp only [encodeOperands, bytes16, List.length_append, List.length_cons, List.length_nil, renditions_length]
    omega
  case stageSettings hd r fs =>
    have hl : fs.length < 256 := by simpa [PortCommand.wf, countFits] using h
    simp only [encodeOperands, List.length_cons, fields_length]
    omega
  all_goals simp [encodeOperands, bytes16, bytes32]

theorem ofCommand {i : Instr} {p : Port} {tag : BitVec 16} {c : PortCommand} (hc : i.command = some (p, tag, c))
    (hw : c.wf = i.wf) : Statement i := by
  intro p' tag' c' h'
  rw [hc] at h'
  cases h'
  refine ⟨hw, fun h => ?_⟩
  have := encodeOperands_length c (hw.trans h)
  rw [encodeRecord_length]
  omega

theorem ofNone {i : Instr} (hc : i.command = none) : Statement i := fun p tag c h => by
  rw [hc] at h
  cases h

theorem openProgramme (p : Port) (tag : BitVec 16) (frame : BitVec 16) (streamSet : Byte) (renditions : List RawRendition) :
    Statement (.openProgramme p tag frame streamSet renditions) := ofCommand rfl rfl
theorem startIngest (p : Port) (tag : BitVec 16) (h : RawHandle) :
    Statement (.startIngest p tag h) := ofCommand rfl rfl
theorem resumeIngest (p : Port) (tag : BitVec 16) (h : RawHandle) :
    Statement (.resumeIngest p tag h) := ofCommand rfl rfl
theorem closeIngest (p : Port) (tag : BitVec 16) (h : RawHandle) :
    Statement (.closeIngest p tag h) := ofCommand rfl rfl
theorem retireProgramme (p : Port) (tag : BitVec 16) (h : RawHandle) :
    Statement (.retireProgramme p tag h) := ofCommand rfl rfl
theorem abortProgramme (p : Port) (tag : BitVec 16) (h : RawHandle) :
    Statement (.abortProgramme p tag h) := ofCommand rfl rfl
theorem watchProgramme (p : Port) (tag : BitVec 16) (h : RawHandle) :
    Statement (.watchProgramme p tag h) := ofCommand rfl rfl
theorem leaveProgramme (p : Port) (tag : BitVec 16) (h : RawHandle) :
    Statement (.leaveProgramme p tag h) := ofCommand rfl rfl
theorem stageSettings (p : Port) (tag : BitVec 16) (h : RawHandle) (renew : Byte) (fields : List RawField) :
    Statement (.stageSettings p tag h renew fields) := ofCommand rfl rfl
theorem readStaging (p : Port) (tag : BitVec 16) :
    Statement (.readStaging p tag) := ofCommand rfl rfl
theorem commitSettings (p : Port) (tag : BitVec 16) (h : RawHandle) (revision : BitVec 32) :
    Statement (.commitSettings p tag h revision) := ofCommand rfl rfl
theorem attachLane (p : Port) (tag : BitVec 16) (h : RawHandle) (stream : Byte) :
    Statement (.attachLane p tag h stream) := ofCommand rfl rfl
theorem detachLane (p : Port) (tag : BitVec 16) (lane : Byte) :
    Statement (.detachLane p tag lane) := ofCommand rfl rfl
theorem postChunk (p : Port) (tag : BitVec 16) (lane : Byte) (count : BitVec 16) :
    Statement (.postChunk p tag lane count) := ofCommand rfl rfl
theorem laneStatus (p : Port) (tag : BitVec 16) (lane : Byte) :
    Statement (.laneStatus p tag lane) := ofCommand rfl rfl
theorem insertChapter (p : Port) (tag : BitVec 16) (h : RawHandle) (time : BitVec 32) :
    Statement (.insertChapter p tag h time) := ofCommand rfl rfl
theorem readChapters (p : Port) (tag : BitVec 16) (h : RawHandle) (start : BitVec 16) :
    Statement (.readChapters p tag h start) := ofCommand rfl rfl
theorem listSegments (p : Port) (tag : BitVec 16) (h : RawHandle) (rendition : Byte) (fromIndex : BitVec 32) :
    Statement (.listSegments p tag h rendition fromIndex) := ofCommand rfl rfl
theorem fetchSegment (p : Port) (tag : BitVec 16) (h : RawHandle) (rendition : Byte) (index offset length : BitVec 32) :
    Statement (.fetchSegment p tag h rendition index offset length) := ofCommand rfl rfl
theorem releaseSegment (p : Port) (tag : BitVec 16) (h : RawHandle) (rendition : Byte) (index : BitVec 32) :
    Statement (.releaseSegment p tag h rendition index) := ofCommand rfl rfl
theorem programmeStatus (p : Port) (tag : BitVec 16) (h : RawHandle) :
    Statement (.programmeStatus p tag h) := ofCommand rfl rfl
theorem readError (p : Port) (tag : BitVec 16) (h : RawHandle) :
    Statement (.readError p tag h) := ofCommand rfl rfl
theorem clearError (p : Port) (tag : BitVec 16) (h : RawHandle) :
    Statement (.clearError p tag h) := ofCommand rfl rfl
theorem nextAttention (p : Port) (tag : BitVec 16) (start : Byte) (kinds : Byte) :
    Statement (.nextAttention p tag start kinds) := ofCommand rfl rfl
theorem clearAttention (p : Port) (tag : BitVec 16) (h : Option RawHandle) (kinds : Byte) (laneSlot : Byte) :
    Statement (.clearAttention p tag h kinds laneSlot) := ofCommand rfl rfl
theorem setAttentionMask (p : Port) (tag : BitVec 16) (kinds : Byte) :
    Statement (.setAttentionMask p tag kinds) := ofCommand rfl rfl
theorem setHold (p : Port) (tag : BitVec 16) :
    Statement (.setHold p tag) := ofCommand rfl rfl
theorem clearHold (p : Port) (tag : BitVec 16) :
    Statement (.clearHold p tag) := ofCommand rfl rfl
theorem deviceStatus (p : Port) (tag : BitVec 16) :
    Statement (.deviceStatus p tag) := ofCommand rfl rfl
theorem resetPort (p : Port) (tag : BitVec 16) :
    Statement (.resetPort p tag) := ofCommand rfl rfl
theorem submitWord (p : Port) (value : BitVec 32) : Statement (.submitWord p value) := ofNone rfl
theorem takeWord (p : Port) (value : BitVec 32) : Statement (.takeWord p value) := ofNone rfl
theorem fillWindowWrite (p : Port) (lane : LaneId) (offset : Nat) (bytes : List Byte) : Statement (.fillWindowWrite p lane offset bytes) := ofNone rfl
theorem bulkWindowWrite (p : Port) (offset : Nat) (bytes : List Byte) : Statement (.bulkWindowWrite p offset bytes) := ofNone rfl
theorem linkReset (p : Port) : Statement (.linkReset p) := ofNone rfl
theorem deviceReset : Statement (.deviceReset) := ofNone rfl
theorem headerParse : Statement (.headerParse) := ofNone rfl
theorem malformedHeader (lane : LaneId) : Statement (.malformedHeader lane) := ofNone rfl
theorem unitComplete (lane : LaneId) : Statement (.unitComplete lane) := ofNone rfl
theorem slotFree (lane : LaneId) : Statement (.slotFree lane) := ofNone rfl
theorem flushBoundary (lane : LaneId) : Statement (.flushBoundary lane) := ofNone rfl
theorem endOfStream (lane : LaneId) : Statement (.endOfStream lane) := ofNone rfl
theorem pipeCompletion (pipe : PipeId) (item : Encoding) (outputs : List EncodedOutput) :
    Statement (.pipeCompletion pipe item outputs) := ofNone rfl
theorem watchdogExpiry (pipe : PipeId) : Statement (.watchdogExpiry pipe) := ofNone rfl
theorem storageGrant : Statement (.storageGrant) := ofNone rfl
theorem tableGrant : Statement (.tableGrant) := ofNone rfl

end CommandRecord

end Sys2Proof.Laws
end

