-- ==== Sys2Proof/Tests/Slice0.lean ====
section
/-! SUPPORT. Our own tests: ill-formed terms that the checks refuse, records and headers written out byte by byte from
sections 11.2 and 11.4, the worked cases of chapters 4, 5, 6 and 9, one-step tests of the commands, and for each obligation
with hypotheses a state that meets them. -/

namespace Sys2Proof.Tests

open Sys2Proof Sys2Proof.Machine

-- One test at a time: each test's own thread would ask for a stack of its own.
set_option Elab.async false

/-! ### Well-formedness refuses -/

theorem test_wf_refuses_256_renditions :
    (Instr.openProgramme .p0 0 3600 1 (List.replicate 256 ⟨1, 64⟩)).wf = false := by decide +kernel

theorem test_wf_refuses_256_fields :
    (Instr.stageSettings .p0 0 ⟨0, 1⟩ 0 (List.replicate 256 ⟨0x10, 0, 50⟩)).wf = false := by decide +kernel

theorem test_wf_refuses_record_of_256 :
    (PortCommand.openProgramme 3600 1 (List.replicate 256 ⟨1, 64⟩)).wf = false ∧
    (PortCommand.stageSettings ⟨0, 1⟩ 0 (List.replicate 256 ⟨0x10, 0, 50⟩)).wf = false := by decide +kernel

theorem test_wf_refuses_fill_beyond_window : (Instr.fillWindowWrite .p0 0 32767 [1, 2]).wf = false := by decide

theorem test_wf_accepts_fill_to_the_end : (Instr.fillWindowWrite .p0 0 32766 [1, 2]).wf = true := by decide

theorem test_wf_refuses_bulk_beyond_window : (Instr.bulkWindowWrite .p0 393215 [1, 2]).wf = false := by decide

theorem test_wf_refuses_bulk_on_submit_word : (Instr.bulkWindowWrite .p0 4087 [1, 2]).wf = false := by decide

theorem test_wf_refuses_bulk_on_take_word : (Instr.bulkWindowWrite .p0 8187 [1, 2]).wf = false := by decide

theorem test_wf_refuses_bulk_on_fill_window : (Instr.bulkWindowWrite .p0 65535 [1, 2]).wf = false := by decide

theorem test_wf_refuses_empty_report : (Instr.pipeCompletion 0 ⟨⟨⟨0, 1⟩, .cam, 0⟩, 0⟩ []).wf = false := by decide

theorem test_wf_refuses_four_outputs :
    (Instr.pipeCompletion 0 ⟨⟨⟨0, 1⟩, .cam, 0⟩, 0⟩ [⟨0, []⟩, ⟨0, []⟩, ⟨0, []⟩, ⟨0, []⟩]).wf = false := by decide

theorem test_wf_refuses_report_byte_beyond_count :
    (Instr.pipeCompletion 0 ⟨⟨⟨0, 1⟩, .cam, 0⟩, 0⟩ [⟨4, [(4, 9)]⟩]).wf = false := by decide

theorem test_wf_refuses_report_out_of_order :
    (Instr.pipeCompletion 0 ⟨⟨⟨0, 1⟩, .cam, 0⟩, 0⟩ [⟨4, [(2, 9), (1, 9)]⟩]).wf = false := by decide

theorem test_wf_refuses_report_of_zero_byte :
    (Instr.pipeCompletion 0 ⟨⟨⟨0, 1⟩, .cam, 0⟩, 0⟩ [⟨4, [(2, 0)]⟩]).wf = false := by decide

/-! ### Records of section 11.2, byte by byte -/

theorem test_record_open :
    decodeRecord 28 [28, 0, 0x01, 0, 0x34, 0x12, 0, 0, 0, 0, 0, 0, 0, 0, 0, 0, 0x10, 0x0E, 0x05, 2, 1, 0, 0xC4, 0x09, 3, 0, 96, 0] =
      some (0x1234, .openProgramme 3600 5 [⟨1, 2500⟩, ⟨3, 96⟩]) := by decide

theorem test_record_watch :
    decodeRecord 16 [16, 0, 0x10, 0, 7, 0, 1, 5, 9, 0, 0, 0, 0, 0, 0, 0] = some (7, .watchProgramme ⟨5, 9⟩) := by decide

theorem test_record_stage :
    decodeRecord 28 [28, 0, 0x20, 0, 7, 0, 1, 5, 9, 0, 0, 0, 0, 0, 0, 0, 1, 1, 0, 0, 0x20, 0, 3, 0, 0x88, 0xFF, 0xFF, 0xFF] =
      some (7, .stageSettings ⟨5, 9⟩ 1 [⟨0x20, 3, 0xFFFFFF88⟩]) := by decide

theorem test_record_post :
    decodeRecord 20 [20, 0, 0x32, 0, 0xCD, 0xAB, 0, 0, 0, 0, 0, 0, 0, 0, 0, 0, 3, 0, 0x00, 0x80] =
      some (0xABCD, .postChunk 3 0x8000) := by decide

theorem test_record_insert :
    decodeRecord 20 [20, 0, 0x40, 0, 1, 0, 1, 5, 9, 0, 0, 0, 0, 0, 0, 0, 0x10, 0x20, 0x30, 0x40] =
      some (1, .insertChapter ⟨5, 9⟩ 0x40302010) := by decide

theorem test_record_fetch :
    decodeRecord 32 [32, 0, 0x51, 0, 1, 0, 1, 5, 9, 0, 0, 0, 0, 0, 0, 0, 2, 0, 0, 0, 7, 0, 0, 0, 0, 1, 0, 0, 0, 0, 1, 0] =
      some (1, .fetchSegment ⟨5, 9⟩ 2 7 0x100 0x10000) := by decide

theorem test_record_programme_status :
    decodeRecord 16 [16, 0, 0x60, 0, 7, 0, 1, 31, 0, 0, 0, 0, 0, 0, 0, 0] = some (7, .programmeStatus ⟨31, 0⟩) := by decide

theorem test_record_clear_attention_without_handle :
    decodeRecord 20 [20, 0, 0x71, 0, 1, 2, 0, 0, 0, 0, 0, 0, 0, 0, 0, 0, 5, 1, 0, 0] =
      some (0x0201, .clearAttention none 5 1) := by decide

theorem test_record_device_status :
    decodeRecord 16 [16, 0, 0x90, 0, 7, 0, 0, 0, 0, 0, 0, 0, 0, 0, 0, 0] = some (7, .deviceStatus) := by decide

theorem test_record_refuses_nonzero_zero_byte :
    decodeRecord 16 [16, 0, 0x90, 0, 7, 0, 0, 0, 0, 0, 1, 0, 0, 0, 0, 0] = none := by decide

theorem test_record_refuses_wrong_length :
    decodeRecord 16 [17, 0, 0x90, 0, 7, 0, 0, 0, 0, 0, 0, 0, 0, 0, 0, 0] = none := by decide

theorem test_record_refuses_missing_handle :
    decodeRecord 16 [16, 0, 0x60, 0, 7, 0, 0, 0, 0, 0, 0, 0, 0, 0, 0, 0] = none := by decide

theorem test_record_refuses_needless_handle :
    decodeRecord 16 [16, 0, 0x90, 0, 7, 0, 1, 0, 0, 0, 0, 0, 0, 0, 0, 0] = none := by decide

theorem test_record_refuses_unknown_code :
    decodeRecord 16 [16, 0, 0x07, 0, 7, 0, 1, 0, 0, 0, 0, 0, 0, 0, 0, 0] = none := by decide

theorem test_short_record_keeps_code : recordCodeTag [16, 0, 0x90, 0x01, 7] = (0x0190, 0) := by decide

/-! ### The unit header of section 11.4 -/

/-- Marker 0xB6E1, CAM, timestamp and key flags, timestamp bit 32 set, piece 3, length 600, timestamp low word
0xFFFF0000, duration 3600. -/
def headerBytesOf (st len : Byte) : List Byte :=
  [0xE1, 0xB6, st, 0x03, 0x13, len, 0x02, 0, 0, 0, 0xFF, 0xFF, 0x10, 0x0E, 0, 0]

theorem test_unit_header :
    readUnitHeader (headerBytesOf 1 0x58) =
      some ⟨0xB6E1, 1, some 8589869056, true, none, 3, 600, 3600⟩ := by decide

theorem test_unit_header_of_another_stream_is_malformed :
    (readUnitHeader (headerBytesOf 2 0x58)).map (fun u => u.malformed .cam) = some true := by decide

theorem test_unit_header_well_formed :
    (readUnitHeader (headerBytesOf 1 0x58)).map (fun u => u.malformed .cam) = some false := by decide

/-! ### The mapper (R71 and section 4.10) -/

theorem test_rounding_nearest :
    [6551040, -216000, 2500000, -500000, -3700000].map (roundMillion .nearest) = [7, 0, 3, -1, -4] := by decide

theorem test_rounding_chop :
    [6551040, -216000, 2500000, -500000, -3700000].map (roundMillion .chop) = [6, 0, 2, 0, -3] := by decide

def piece0 (ppm : Int) (mode : Rounding) (offset : Nat) (o : Int) : PieceRecord :=
  ⟨0, offset, some o, 0, ⟨⟨ppm, 0, 0⟩, 50, 0, mode⟩⟩

/-- A CAM stream record of piece 0 with the given previous unit. -/
def camAt (u anchor : Int) (dur : Nat) : StreamRecord :=
  { StreamRecord.atOpen true with piece := some 0, uPrev := some u, durPrev := some dur, anchor := anchor }

/-- Section 4.10.1. -/
theorem test_unwrap_across_wrap :
    unwrap 3600 0 (piece0 120 .nearest 0 8589900000) (camAt 8589930000 0 3600) (some 20000) =
      .at 8589954592 0 false none := by decide

theorem test_rate_correction :
    programmeTime (piece0 120 .nearest 0 8589900000) .cam 8589954592 = 54599 ∧
    programmeTime (piece0 120 .chop 0 8589900000) .cam 8589954592 = 54598 ∧
    mappedDuration (piece0 120 .nearest 0 0) .cam 3600 = 3600 := by decide

/-- Section 4.10.2. -/
theorem test_halfway_rounding :
    programmeTime (piece0 (-40) .nearest 1242000 0) .cam 12500 = 1254499 ∧
    programmeTime (piece0 (-40) .chop 1242000 0) .cam 12500 = 1254500 := by decide

/-- Section 4.10.3, units A to D. -/
theorem test_jumps :
    unwrap 3600 0 (piece0 0 .nearest 0 1460000) (camAt 2000000 0 3600) (some 2500000) = .at 2003600 (-496400) true none ∧
    unwrap 3600 0 (piece0 0 .nearest 0 1460000) (camAt 2003600 (-496400) 3600) (some 2503600) =
      .at 2007200 (-496400) false none ∧
    unwrap 3600 0 (piece0 0 .nearest 0 1460000) (camAt 2007200 (-496400) 3600) (some 1000000) =
      .at 2010800 1010800 true none ∧
    unwrap 3600 0 (piece0 0 .nearest 0 1460000) (camAt 2010800 1010800 3600) (some 1003600) =
      .at 2014400 1010800 false none := by decide

/-- A unit without a timestamp that is the first of its stream in its piece (R70). -/
theorem test_timestamp_missing :
    unwrap 3600 0 (piece0 0 .nearest 0 0) (StreamRecord.atOpen true) none = .missing := by decide

/-! ### A programme -/

/-- CAM, SLIDE and AUDIO; rendition 0 of CAM at 2500 kbit/s and rendition 1 of AUDIO at 96. -/
def prog0 : Programme := Programme.atOpen .p0 3600 7 [⟨1, 2500⟩, ⟨3, 96⟩]

def Hd : Handle := ⟨5, 9⟩
def Rh : RawHandle := ⟨5, 9⟩

/-- A machine with one programme, in slot 5 with generation 9. -/
def withProg (pr : Programme) : State := { State.reset with slots := State.reset.slots.set 5 ⟨9, some pr⟩ }

def sOpen : State := withProg prog0

/-- The state of an outcome. -/
def out (o : Host.Outcome State Fault Refusal) : State :=
  match o with
  | .next t => t
  | .fault _ => State.reset
  | .refused _ => State.reset

/-- The last response of a port. -/
def lastReply (p : Port) (s : State) : Option Reply := (s.port p).responses.getLast?.map Response.reply

/-- Section 4.10.4: the AUDIO unit that opens piece 1, and the late limit against the new offset. -/
def prog410 : Programme :=
  { prog0 with state := .ingesting, pieces := [⟨0, 0, some 0, 1234567, ⟨PerStream.const 0, 50, 0, .nearest⟩⟩]
               pendingPiece := some [(.gap, 2)] }

theorem test_piece_opens :
    (prog410.openPiece 1).pieces.map (fun x => (x.label, x.offset, x.runningEnd)) =
      [(0, 0, 1234567), (1, 1242000, 1242000)] ∧
    (prog410.openPiece 1).latches.p0 = LatchKind.settings.bit := by decide

theorem test_late_limit :
    (prog410.openPiece 1).limitOf 0 1236000 = .kept ∧ (prog410.openPiece 1).limitOf 0 1243000 = .late ∧
    (prog410.openPiece 1).limitOf 1 (-1) = .early ∧ (prog410.openPiece 1).limitOf 1 4294967295 = .kept ∧
    (prog410.openPiece 1).limitOf 1 4294967296 = .timeRange := by decide

/-- Section 4.10.5: header piece 3 after label 1 opens piece 2 with label 3 and sets LIMIT; 2 is then piece 2 as well. -/
theorem test_skipped_piece :
    ((prog410.openPiece 1).selectPiece 3).1 = 2 ∧
    ((prog410.openPiece 1).selectPiece 3).2.2.latches.p0 &&& LatchKind.limit.bit = LatchKind.limit.bit ∧
    (((prog410.openPiece 1).openPiece 3).selectPiece 2).1 = 2 ∧
    (((prog410.openPiece 1).openPiece 3).selectPiece 1).1 = 1 := by decide

/-! ### Settings (section 2.1, R26) -/

theorem test_clamp_W_then_D :
    mergeAll 150 [] [(.snapWindow, 40)] = [(.snapWindow, 37)] ∧
    mergeAll 150 [(.snapWindow, 37)] [(.segLength, 100)] = [(.segLength, 100), (.snapWindow, 25)] ∧
    clampedFields [(.snapWindow, 37)] [(.segLength, 100), (.snapWindow, 25)] [(.segLength, 100)] = [.snapWindow] := by
  decide

/-! ### The cutter (sections 5.9 and 5.10) -/

/-- The programme of section 5.9: segment 6 begins at 1 080 000, and the slide position is `x`. -/
def prog59 (policy : Policy) (x : Nat) : Programme :=
  { prog0 with
    state := .ingesting
    active := { prog0.active with policy := policy }
    streams := prog0.streams.set .slide (some { StreamRecord.atOpen false with position := some x })
    cutter := { prog0.cutter with
      cuts := [⟨0, false⟩, ⟨180000, false⟩, ⟨360000, false⟩, ⟨540000, false⟩, ⟨720000, false⟩, ⟨900000, false⟩, ⟨1080000, false⟩]
      candidate := some ⟨14, 1206000⟩, horizon := .at 1202400, reach := 1479600 } }

theorem test_deferred_chapter :
    let pr := ((prog59 .defer 1476000).detect (some 14) 1476000).2.raiseHorizon.decisionPass
    pr.cutter.chapters = [⟨1206000, .auto, some 14, .deferred, some 1260000, some 7⟩] ∧
    pr.cutter.lastCut = 1260000 ∧ pr.cutter.counter = 7 ∧ pr.cutter.deferred = true ∧
    pr.cutter.previous = some 1080000 ∧ pr.cutter.confirmed = some 14 ∧
    pr.releaseIndex 1230000 = some 6 ∧ pr.releaseIndex 1300000 = some 7 := by decide +kernel

theorem test_dropped_chapter :
    let pr := ({ prog59 .drop 1530000 with cutter := { (prog59 .drop 1530000).cutter with
      chapters := [⟨1206000, .auto, some 14, .pending, none, none⟩], candidate := none, reach := 1533600 } } :
        Programme).raiseHorizon.decisionPass
    pr.cutter.horizon = .at 1260000 ∧ pr.cutter.chapters = [⟨1206000, .auto, some 14, .inside, none, some 6⟩] ∧
    pr.cutter.counter = 6 := by decide +kernel

/-- Section 5.10: a chapter beyond the window; the nominal cut, and then the deferred one. -/
def prog510 (reach : Nat) : Programme :=
  { prog0 with
    state := .ingesting
    streams := prog0.streams.set .slide (some { StreamRecord.atOpen false with position := some 3060000 })
    cutter := { prog0.cutter with
      cuts := [⟨0, false⟩, ⟨540000, false⟩, ⟨1080000, false⟩, ⟨1620000, false⟩, ⟨2160000, false⟩]
      chapters := [⟨2800800, .auto, some 2, .pending, none, none⟩], horizon := .at 2790000, reach := reach } }

theorem test_nominal_then_deferred :
    (prog510 2880000).decisionPass.cutter.lastCut = 2700000 ∧
    (prog510 2880001).decisionPass.cutter.lastCut = 2880000 ∧
    (prog510 2880001).decisionPass.cutter.chapters = [⟨2800800, .auto, some 2, .deferred, some 2880000, some 6⟩] := by
  decide +kernel

/-! ### States for the steps -/

/-- The programme in INGESTING, with segment 0 of both renditions open. -/
def prog1 : Programme :=
  { prog0 with
    state := .ingesting
    revisions := [⟨1, 0, [2500, 96]⟩]
    streams := ⟨some { StreamRecord.atOpen true with lane := some 0, assembly := some ⟨some 0, .assembling⟩ },
      some (StreamRecord.atOpen false),
      some { StreamRecord.atOpen true with assembly := some ⟨some 0, .assembling⟩ }⟩ }

/-- Lane 0, of port 0 for CAM, with `n` bytes posted in slot 0 from the cells `m`. -/
def camLane (n : Nat) (m : Mem) : LaneRecord :=
  { LaneRecord.freeWith m [] with
    state := .running, owner := some .p0, target := some (Hd, .cam), slot0 := ⟨some n, m⟩, fill := some true, order := [false] }

/-- An INGESTING programme with that lane. -/
def sLane (n : Nat) (m : Mem) : State :=
  ({ withProg prog1 with segments := [newSegment Hd prog1 0 0, newSegment Hd prog1 0 1] }).setLane 0 (camLane n m)

/-- The cells of bytes from offset 0. -/
def cells (l : List Byte) : Mem := Mem.writeBytes [] 0 l

/-- A CAM header with the given timestamp bytes and length bytes: flags timestamp and key, piece 0, duration 3600. -/
def camHeader (p1 t3 len : Byte) : List Byte := [0xE1, 0xB6, 1, 0x03, p1, len, 0, 0, 0, 0, 0, t3, 0x10, 0x0E, 0, 0]

/-- The FILLING entry of a CAM unit of `n` payload bytes with the given timestamp. -/
def filling (n : Nat) (ts : Option Nat) : Entry :=
  { name := ⟨Hd, .cam, 0⟩, piece := 0, timestamp := ts, duration := 3600, slideIndex := none, length := n, granules := [0]
    timing := none, key := true, state := .filling, segment := none, segStart := false, forceKey := false, revision := none
    output := none }

/-- Lane 0 in the payload of that unit, with `count` bytes posted and `rem` still to copy. -/
def sPayload (count rem : Nat) (ts : Option Nat) : State :=
  ((sLane count []).setLane 0 { camLane count [] with pos := .inPayload 0 rem }).setEntries [filling rem ts]

/-- The programme reports TIME_RANGE, and its piece 0 has an origin at 0 and an offset of 4 294 967 295. -/
def progLate : Programme :=
  { prog1 with
    active := { prog1.active with repTimeRange := true }
    pieces := [⟨0, 4294967295, some 0, 4294967295, prog1.active.pieceValues⟩] }

def sLate : State := (sPayload 8 4 (some 1)).setProg 5 progLate

/-! ### The queue and the machine -/

theorem witness_StepTakesFrontCommand : State.reset.pending = [] := rfl

theorem witness_StepKeepsWellKept :
    ({ sOpen with pending := [.setHold .p1 7] } : State).WellKept ∧
    ({ sOpen with pending := [.setHold .p1 7] } : State).QueuesBounded ∧
    ∃ t, step { sOpen with pending := [.setHold .p1 7] } = .next t := by
  refine ⟨⟨⟨?_, ?_, ?_, ?_, rfl, rfl⟩, ?_, ⟨?_, ?_, ?_⟩, ?_, ⟨?_, ?_⟩⟩, ?_, _, rfl⟩
  · decide +kernel
  · decide +kernel
  · intro p; cases p <;> rfl
  · intro p; cases p <;> rfl
  · unfold State.CapacityKept; decide +kernel
  · decide +kernel
  · decide +kernel
  · decide +kernel
  · intro i pr h
    have key : ∀ i, i ≠ 5 → State.prog { sOpen with pending := [.setHold .p1 7] } i = none := by decide +kernel
    by_cases hi : i = 5
    · subst hi
      cases h
      exact ⟨.inl rfl, by decide, by decide, by decide, by decide, by decide, by decide, by intro r hr; cases hr⟩
    · rw [key i hi] at h; cases h
  · decide +kernel
  · decide +kernel
  · intro p; cases p <;> decide +kernel

/-- ProgrammesGoOnward and the first clause of StateChangesHaveTheirCause. -/
theorem witness_start :
    exec (.startIngest .p0 1 Rh) sOpen = .next (out (exec (.startIngest .p0 1 Rh) sOpen)) ∧
    (sOpen.prog 5).map Programme.state = some .opened ∧
    ((out (exec (.startIngest .p0 1 Rh) sOpen)).prog 5).map Programme.state = some .ingesting := by
  refine ⟨rfl, ?_, ?_⟩ <;> decide +kernel

/-- The second clause: a unit beyond T_MAX halts the programme. -/
theorem witness_halt :
    exec (.unitComplete 0) sLate = .next (out (exec (.unitComplete 0) sLate)) ∧
    (sLate.prog 5).map Programme.state = some .ingesting ∧
    ((out (exec (.unitComplete 0) sLate)).prog 5).map Programme.state = some .halted := by
  refine ⟨rfl, ?_, ?_⟩ <;> decide +kernel

/-- The third clause. -/
theorem witness_resume :
    exec (.resumeIngest .p0 1 Rh) (withProg { prog1 with state := .halted }) =
      .next (out (exec (.resumeIngest .p0 1 Rh) (withProg { prog1 with state := .halted }))) ∧
    ((out (exec (.resumeIngest .p0 1 Rh) (withProg { prog1 with state := .halted }))).prog 5).map Programme.state =
      some .ingesting := by
  refine ⟨rfl, ?_⟩; decide +kernel

/-- The fourth clause. -/
theorem witness_close :
    exec (.closeIngest .p0 1 Rh) (sLane 8 []) = .next (out (exec (.closeIngest .p0 1 Rh) (sLane 8 []))) ∧
    ((out (exec (.closeIngest .p0 1 Rh) (sLane 8 []))).prog 5).map Programme.state = some .complete := by
  refine ⟨rfl, ?_⟩; decide +kernel

/-- StepKeepsMarksCutsAndStore: a state with kept settings and a step of it, and one with a segment that holds granules. -/
theorem witness_StepKeepsMarksCutsAndStore :
    State.reset.SourcesFit ∧ State.reset.SettingsKept ∧
    ({ State.reset with pending := [.setHold .p1 7] } : State).SettingsKept ∧
    ∃ t, step { State.reset with pending := [.setHold .p1 7] } = .next t := by
  have f : State.reset.SourcesFit :=
    ⟨by intro h; revert h; decide, fun _ => rfl, by intro h; revert h; decide, fun _ => rfl, by intro h; revert h; decide,
      fun _ => rfl, by intro h; revert h; decide, fun _ => rfl⟩
  have k : ∀ s : State, s.slots = State.reset.slots → s.ports = State.reset.ports → s.SettingsKept := by
    intro s hs hp
    refine ⟨?_, ?_⟩
    · intro i pr h
      have free : ∀ i : SlotId, State.reset.prog i = none := by decide +kernel
      have h' : State.reset.prog i = some pr := by rw [← h]; unfold State.prog; rw [hs]
      rw [free i] at h'; cases h'
    · intro p r h
      have h' : (State.reset.port p).staging = some r := by rw [← h]; unfold State.port; rw [hp]
      cases p <;> cases h'
  exact ⟨f, k _ rfl rfl, k _ rfl rfl, _, rfl⟩

/-! ### Records and queues -/

theorem witness_RecordRoundTrip :
    (PortCommand.stageSettings ⟨31, 255⟩ 1 (List.replicate 255 ⟨0x35, 0xFFFF, 0xFFFFFFFF⟩)).wf = true := by decide +kernel

/-- Port 0 of the open machine, changed. -/
def sPort (f : PortState → PortState) : State := sOpen.setPort .p0 (f (sOpen.port .p0))

/-- A waiting Device Status record. -/
def waitingRecord : CommandRecord := ⟨16, encodeRecord 7 .deviceStatus⟩

def someResponse : Response := ⟨0x90, 7, ⟨.malformed, .empty⟩⟩

theorem witness_SubmitWordTaken :
    ((sPort (fun pt => { pt with commands := List.replicate 15 waitingRecord })).port .p0).commands ≠ [] ∧
    ((sPort (fun pt => { pt with commands := List.replicate 15 waitingRecord })).port .p0).commands.length < 16 ∧
    (Instr.deviceStatus .p0 7).command = some (.p0, 7, .deviceStatus) ∧ PortCommand.deviceStatus.wf = true ∧
    (sPort (fun pt => { pt with area := cells (encodeRecord 7 .deviceStatus) })).takesNow .p0 = true ∧
    (encodeRecord 7 .deviceStatus).length = 16 ∧
    Mem.readBytes ((sPort (fun pt => { pt with area := cells (encodeRecord 7 .deviceStatus) })).port .p0).area 0 16 =
      encodeRecord 7 .deviceStatus := by decide +kernel

/-- SubmitWordTaken's other clauses: a full response queue over no waiting command, and staged records of 15 and 4089 bytes, of
a length unlike the header's, and of no command. -/
theorem witness_SubmitWordTaken_refused :
    ((sPort (fun pt => { pt with responses := List.replicate 16 someResponse })).port .p0).commands = [] ∧
    16 ≤ ((sPort (fun pt => { pt with responses := List.replicate 16 someResponse })).port .p0).responses.length ∧
    sOpen.takesNow .p0 = true ∧ (15 : BitVec 32).toNat < 16 ∧ 4088 < (4089 : BitVec 32).toNat ∧
    (word16 (Mem.read (cells (encodeRecord 7 .deviceStatus)) 0) (Mem.read (cells (encodeRecord 7 .deviceStatus)) 1)).toNat ≠ 17 ∧
    decodeRecord 16 (Mem.readBytes (cells [16, 0, 0x07, 0, 7, 0, 1]) 0 16) = none := by decide +kernel

/-- A staged record is taken in the step of its submit word. -/
theorem test_submit_takes :
    (lastReply .p0 (out (exec (.submitWord .p0 16)
      (sPort (fun pt => { pt with area := cells (encodeRecord 7 (.programmeStatus Rh)) }))))).map Reply.code = some .ok := by
  decide +kernel

/-- A record of a wrong length is refused MALFORMED, with the code and tag read from it. -/
theorem test_submit_malformed :
    ((out (exec (.submitWord .p0 17)
      (sPort (fun pt => { pt with area := cells (encodeRecord 7 .deviceStatus) })))).port .p0).responses =
      [⟨0x90, 7, ⟨.malformed, .empty⟩⟩] := by decide +kernel

theorem witness_OverflowIndication :
    ((sPort (fun pt => { pt with commands := List.replicate 16 waitingRecord })).port .p0).commands.length = 16 ∧
    sOpen.takesNow .p0 = true ∧ ((sPort (fun pt => { pt with overflow := true })).port .p0).overflow = true ∧
    exec (.deviceStatus .p0 7) (sPort (fun pt => { pt with overflow := true })) =
      .next (out (exec (.deviceStatus .p0 7) (sPort (fun pt => { pt with overflow := true })))) ∧
    ((out (exec (.deviceStatus .p0 7) (sPort (fun pt => { pt with overflow := true })))).port .p0).overflow = false := by
  refine ⟨?_, ?_, ?_, rfl, ?_⟩ <;> decide +kernel

theorem witness_CommandWaitsItsTurn :
    (sPort (fun pt => { pt with commands := List.replicate 15 waitingRecord })).takesNow .p0 = false ∧
    (sPort (fun pt => { pt with responses := List.replicate 16 someResponse })).takesNow .p0 = false ∧
    (sPort (fun pt => { pt with responses := List.replicate 15 someResponse })).takesNow .p0 = true := by decide +kernel

theorem witness_TakeWordTaken :
    (sOpen.port .p0).responses = [] ∧
    ((sPort (fun pt => { pt with responses := [someResponse] })).port .p0).responses = someResponse :: [] ∧
    ((sPort (fun pt => { pt with responses := [someResponse] })).port .p0).commands = [] ∧
    ((sPort (fun pt => { pt with responses := List.replicate 16 someResponse, commands := [waitingRecord] })).port .p0).responses =
      someResponse :: List.replicate 15 someResponse ∧ (List.replicate 15 someResponse).length < 16 := by decide +kernel

/-- TakeWordTaken's last clauses: sixteen responses with several waiting commands, the first of them well formed or not. -/
theorem witness_TakeWordTaken_several :
    ((sPort (fun pt => { pt with
      responses := List.replicate 16 someResponse, commands := [waitingRecord, waitingRecord] })).port .p0).commands =
      ⟨(encodeRecord 7 .deviceStatus).length, encodeRecord 7 .deviceStatus⟩ :: [waitingRecord] ∧
    (List.replicate 15 someResponse).length = 15 ∧ PortCommand.deviceStatus.wf = true ∧
    PortCommand.deviceStatus ≠ .resetPort ∧
    ((sPort (fun pt => { pt with
      responses := List.replicate 16 someResponse, commands := [⟨17, encodeRecord 7 .deviceStatus⟩, waitingRecord] })).port
      .p0).commands = ⟨17, encodeRecord 7 .deviceStatus⟩ :: [waitingRecord] ∧
    decodeRecord 17 (encodeRecord 7 .deviceStatus) = none := by decide +kernel

/-- Two waiting commands and fifteen responses: both are taken, and the queue is full again. -/
theorem test_take_word_takes_several :
    let t := out (exec (.takeWord .p0 0) (sPort (fun pt => { pt with
      responses := List.replicate 15 someResponse, commands := [waitingRecord, waitingRecord] })))
    (t.port .p0).commands = [] ∧ (t.port .p0).responses.length = 16 := by decide +kernel

/-- With a full response queue the waiting command is taken as the take word frees a place. -/
theorem test_take_word_takes :
    (lastReply .p0 (out (exec (.takeWord .p0 0)
      (sPort (fun pt => { pt with responses := List.replicate 16 someResponse, commands := [waitingRecord] }))))).map
        Reply.code = some .ok := by decide +kernel

theorem witness_BulkWriteReachesStagingOnly : Mem.wf (sOpen.port .p0).area = true := by decide +kernel

/-- The last byte of the staging area is written and the byte after it is not. -/
theorem test_bulk_write_edge :
    ((out (exec (.bulkWindowWrite .p0 4087 [1, 2]) sOpen)).port .p0).area = [(4087, 1)] := by decide +kernel

/-! ### Lifecycle -/

/-- Every slot but the last is taken, or every slot. -/
def sFull (last : Option Programme) : State :=
  { State.reset with slots := (Vector.replicate 32 ⟨255, some prog0⟩).set 31 ⟨255, last⟩ }

theorem witness_OpenTaken :
    (sFull none).takesNow .p0 = true ∧ openForm 3600 7 [⟨1, 2500⟩, ⟨3, 96⟩] = true ∧ (sFull none).prog 31 = none ∧
    (∀ j : SlotId, j.val < 31 → (sFull none).prog j ≠ none) ∧ openForm 3601 7 [⟨1, 2500⟩] = false ∧
    (sFull (some prog0)).takesNow .p0 = true ∧ (∀ i : SlotId, (sFull (some prog0)).prog i ≠ none) := by decide +kernel

/-- Slot 31 at generation 255 is filled with generation 0; 63 and 20 001 kbit/s are clamped. -/
theorem test_open_wraps_and_clamps :
    lastReply .p0 (out (exec (.openProgramme .p0 1 1500 5 [⟨1, 63⟩, ⟨3, 64⟩, ⟨1, 20001⟩]) (sFull none))) =
      some ⟨.clamped, .opened ⟨31, 0⟩ [0, 2]⟩ := by decide +kernel

/-- The form of an Open at its bounds: five renditions, the least frame and the greatest stream set. -/
theorem witness_OpenTaken_form :
    openForm 1500 7 [⟨1, 0⟩, ⟨1, 64⟩, ⟨1, 20000⟩, ⟨2, 65535⟩, ⟨3, 96⟩] = true ∧ openForm 3600 8 [⟨1, 64⟩] = false ∧
    openForm 3600 1 [⟨2, 64⟩, ⟨1, 64⟩] = false ∧ openForm 3600 1 [⟨4, 64⟩, ⟨1, 64⟩] = false ∧ openForm 3600 6 [⟨2, 64⟩] = false ∧
    openForm 3600 1 [] = false := by decide

theorem witness_GenerationRule :
    exec (.openProgramme .p0 1 3600 7 [⟨1, 2500⟩]) (sFull none) =
      .next (out (exec (.openProgramme .p0 1 3600 7 [⟨1, 2500⟩]) (sFull none))) ∧
    exec (.openProgramme .p0 1 3600 7 [⟨1, 2500⟩]) State.reset =
      .next (out (exec (.openProgramme .p0 1 3600 7 [⟨1, 2500⟩]) State.reset)) ∧
    exec (.abortProgramme .p0 1 Rh) sOpen = .next (out (exec (.abortProgramme .p0 1 Rh) sOpen)) ∧
    openForm 3600 7 [⟨1, 2500⟩] = true := ⟨rfl, rfl, rfl, by decide⟩

/-- The hypotheses that the lifecycle statements share, in any state of the programme. -/
theorem witness_named (pr : Programme) : Names (withProg pr) Rh 5 pr ∧ (withProg pr).takesNow .p0 = true :=
  ⟨⟨rfl, rfl, rfl⟩, rfl⟩

/-- StartTaken. -/
theorem witness_StartTaken :
    prog0.watch.get .p0 = true ∧ prog0.state = .opened ∧ sOpen.throttle = false ∧ sOpen.tableQueue = [] ∧
    sOpen.entries = [] ∧ sOpen.segments.length + prog0.renditions.length ≤ 2048 ∧ prog0.cutter.cuts = [⟨0, false⟩] ∧
    (∀ st ∈ prog0.renditions, prog0.stream st = some (StreamRecord.atOpen true) ∧
      (StreamRecord.atOpen true).assembly = some ⟨none, .waitingOpen⟩) := by decide +kernel

theorem test_start_opens_segments :
    (out (exec (.startIngest .p0 1 Rh) sOpen)).segments.map (fun g => (g.rendition, g.index, g.revision)) =
      [(0, 0, some 1), (1, 0, some 1)] := by decide +kernel

/-- LanesRun of StartTaken and ResumeIngestRule: lane 0 is ATTACHED with a full slot; the other lanes are not. -/
def sAttached (pr : Programme) : State := (withProg pr).setLane 0 { camLane 8 [] with state := .attached }

theorem witness_LanesRun :
    ((sAttached prog0).lane 0).state = .attached ∧ ((sAttached prog0).lane 0).order ≠ [] ∧
    ((sAttached prog0).lane 0).target = some (Hd, .cam) ∧ Hd.slot = 5 ∧ (sAttached prog0).throttle = false ∧
    ((sAttached prog0).lane 1).state ≠ .attached := by decide +kernel

/-- A lane with a full slot runs from Start Ingest on, and again from Resume Ingest on. -/
theorem test_start_runs_lane :
    ((out (exec (.startIngest .p0 1 Rh) (sAttached prog0))).lane 0).state = .running ∧
    ((out (exec (.resumeIngest .p0 1 Rh) (sAttached { prog1 with state := .halted }))).lane 0).state = .running := by
  decide +kernel

/-- The refusals of StartTaken and CloseTaken: an INGESTING programme and an OPEN one. -/
theorem witness_StartTaken_refused :
    (sLane 8 []).takesNow .p0 = true ∧ Names (sLane 8 []) Rh 5 prog1 ∧ prog1.watch.get .p0 = true ∧ prog1.state ≠ .opened :=
  ⟨rfl, ⟨rfl, rfl, rfl⟩, rfl, by decide⟩

theorem witness_CloseTaken_refused :
    sOpen.takesNow .p0 = true ∧ Names sOpen Rh 5 prog0 ∧ prog0.watch.get .p0 = true ∧ prog0.state = .opened :=
  ⟨rfl, ⟨rfl, rfl, rfl⟩, rfl, rfl⟩

/-- ResumeIngestRule, both clauses. -/
theorem witness_ResumeIngestRule :
    ({ prog1 with state := .halted } : Programme).state = .halted ∧ prog0.state ≠ .halted ∧
    ({ prog1 with state := .halted } : Programme).watch.get .p0 = true := by decide

/-- CloseTaken: the programme of `sLane`. -/
theorem witness_CloseTaken :
    Names (sLane 8 []) Rh 5 prog1 ∧ (sLane 8 []).takesNow .p0 = true ∧ prog1.watch.get .p0 = true ∧
    prog1.state = .ingesting := ⟨⟨rfl, rfl, rfl⟩, rfl, rfl, rfl⟩

/-- The close of a programme without a unit closes the empty final segments, of length 0 and SHORT. -/
theorem test_close_closes_final_segment :
    (out (exec (.closeIngest .p0 1 Rh) (sLane 8 []))).segments.map (fun g => (g.flags.empty, g.flags.short, g.status)) =
      [(true, true, .closed 0 ⟨true, false, false⟩ false), (true, true, .closed 0 ⟨true, false, false⟩ false)] := by
  decide +kernel

def progDone : Programme := { prog1 with state := .complete, streams := prog1.streams.map (fun r => r.map (fun x =>
  { x with lane := none, ended := true, assembly := x.assembly.map (fun _ => ⟨some 0, .finished⟩) })) }

/-- CloseTaken's second clause: every stream with renditions assembles segment 0, the final one, and no entry is left. -/
theorem witness_CloseTaken_drained :
    (sLane 8 []).throttle = false ∧ (sLane 8 []).entries = [] ∧ prog1.endStreams.endProgramme.cutter.counter = 0 ∧
    (∀ st r, prog1.stream st = some r → (prog1.renditionsOf st = [] ∧ r.assembly = none) ∨
      (prog1.renditionsOf st ≠ [] ∧ r.assembly = some ⟨some 0, .assembling⟩)) ∧
    (∀ g ∈ (sLane 8 []).segments, g.isAt 5 g.rendition 0 = true ∧ g.status = .opened) := by
  refine ⟨by decide +kernel, rfl, by decide +kernel, ?_, by decide +kernel⟩
  intro st r h
  cases st <;> cases h
  · exact .inr ⟨by decide, rfl⟩
  · exact .inl ⟨by decide, rfl⟩
  · exact .inr ⟨by decide, rfl⟩

/-- A COMPLETE programme with segment 0 of rendition 0, of 600 bytes in granules 4 and 2, and that set pending. -/
def doneSeg (pend : PortSet) (unclaimed : Bool) : Segment :=
  { newSegment Hd progDone 0 0 with parts := [⟨600, [4, 2]⟩], joined := 1, status := .closed 3600 pend unclaimed }

def sDone (pend : PortSet) (unclaimed : Bool) : State :=
  { withProg progDone with segments := [doneSeg pend unclaimed], outputStore := [(1024, 0x33), (1111, 0x44), (2048, 0x11), (2559, 0x22)] }

/-- StepKeepsMarksCutsAndStore's last clause: a segment that holds two granules, and a command of that state. -/
theorem witness_StepKeepsMarksCutsAndStore_store :
    (sDone ⟨true, false, false⟩ false).OutputExclusive ∧ ((sDone ⟨true, false, false⟩ false).entries.map Entry.name).Nodup ∧
    exec (.releaseSegment .p0 1 Rh 0 0) (sDone ⟨true, false, false⟩ false) =
      .next (out (exec (.releaseSegment .p0 1 Rh 0 0) (sDone ⟨true, false, false⟩ false))) := by
  refine ⟨⟨by decide +kernel, by decide +kernel, by decide +kernel, ?_, ?_⟩, by decide +kernel, rfl⟩
  · intro g hg
    have k : g = doneSeg ⟨true, false, false⟩ false := List.mem_singleton.mp hg
    subst k
    exact ⟨progDone, .cam, _, 0, .finished, rfl, rfl, rfl, rfl, by decide⟩
  · intro g hg e pend u h
    have k : g = doneSeg ⟨true, false, false⟩ false := List.mem_singleton.mp hg
    subst k
    cases h
    rfl

theorem witness_RetireTaken :
    progDone.state = .complete ∧ progDone.watch.get .p0 = true ∧ (withProg progDone).segments = [] ∧ prog1.state ≠ .complete ∧
    (doneSeg ⟨true, false, false⟩ false).inSlot 5 = true ∧
    (sDone ⟨true, false, false⟩ false).segments = [doneSeg ⟨true, false, false⟩ false] := by decide +kernel

/-- AbortTaken, on the INGESTING programme; nothing of it is left. -/
theorem test_abort :
    (out (exec (.abortProgramme .p0 1 Rh) (sPayload 8 4 (some 1)))).segments = [] ∧
    (out (exec (.abortProgramme .p0 1 Rh) (sPayload 8 4 (some 1)))).entries = [] ∧
    ((out (exec (.abortProgramme .p0 1 Rh) (sPayload 8 4 (some 1)))).lane 0).state = .free ∧
    (out (exec (.abortProgramme .p0 1 Rh) (sPayload 8 4 (some 1)))).prog 5 = none := by decide +kernel

theorem witness_AbortTaken : Names (sPayload 8 4 (some 1)) Rh 5 prog1 ∧ (sPayload 8 4 (some 1)).takesNow .p0 = true :=
  ⟨⟨rfl, rfl, rfl⟩, rfl⟩

/-- HandleChecks: slot 32, a FREE slot, another generation, and a port that does not watch. -/
theorem witness_HandleChecks :
    sOpen.takesNow .p1 = true ∧ 32 ≤ (⟨32, 9⟩ : RawHandle).slot.toNat ∧ sOpen.prog 31 = none ∧
    sOpen.gen 5 ≠ (⟨5, 8⟩ : RawHandle).gen ∧ Names sOpen Rh 5 prog0 ∧ prog0.watch.get .p1 = false :=
  ⟨by decide +kernel, by decide, by decide +kernel, by decide +kernel, ⟨rfl, rfl, rfl⟩, rfl⟩

/-- The forms of HandleChecks at their bounds, and operands just beyond them. -/
theorem witness_HandleChecks_forms :
    (parseFields (List.replicate 22 ⟨0x10, 0, 50⟩)).isSome = true ∧ (1 : Byte) ≠ 0 ∧ Stream.code .audio = 3 ∧
    (127 : BitVec 16).toNat ≤ 127 ∧ (0x7F : Byte).getLsbD 7 = false ∧ (4 : Byte).toNat ≤ 4 ∧ (65536 : BitVec 32).toNat ≤ 65536 ∧
    parseFields [⟨0x15, 5, 64⟩] = none ∧ (∀ st : Stream, (4 : Byte) ≠ st.code) ∧ ¬(128 : BitVec 16).toNat ≤ 127 ∧
    (0x80 : Byte).getLsbD 7 = true ∧ ¬(5 : Byte).toNat ≤ 4 ∧ ¬(65537 : BitVec 32).toNat ≤ 65536 := by
  refine ⟨by decide, by decide, rfl, by decide, by decide, by decide, by decide, by decide, ?_, by decide, by decide, by decide,
    by decide⟩
  intro st; cases st <;> decide

/-! ### Watching and delivery -/

/-- WatchTaken: a port that joins and one that is a member. -/
theorem witness_WatchTaken : sOpen.takesNow .p1 = true ∧ prog0.watch.get .p1 = false ∧ prog0.watch.get .p0 = true := by
  decide +kernel

/-- LeaveTaken: the port leaves, and its unreleased segment is freed. -/
theorem test_leave_frees :
    lastReply .p0 (out (exec (.leaveProgramme .p0 1 Rh) (sDone ⟨true, false, false⟩ false))) = some ⟨.ok, .left 1 1⟩ ∧
    (out (exec (.leaveProgramme .p0 1 Rh) (sDone ⟨true, false, false⟩ false))).segments = [] ∧
    lastReply .p0 (out (exec (.leaveProgramme .p0 1 Rh) (sDone ⟨true, true, false⟩ false))) = some ⟨.ok, .left 1 0⟩ := by
  decide +kernel

theorem witness_LeaveTaken :
    Names (sDone ⟨true, false, false⟩ false) Rh 5 progDone ∧ (sDone ⟨true, false, false⟩ false).takesNow .p0 = true ∧
    progDone.watch.get .p0 = true := ⟨⟨rfl, rfl, rfl⟩, rfl, rfl⟩

/-- ListTaken, FetchTaken and ReleaseTaken: segment 0 of rendition 0 is present; a rendition byte of 4 has none. -/
theorem witness_delivery (pend : PortSet) (u : Bool) :
    Names (sDone pend u) Rh 5 progDone ∧ (sDone pend u).takesNow .p0 = true ∧ (0 : Byte).toNat ≤ 4 ∧
    progDone.renditions[(0 : Byte).toNat]? = some .cam ∧ (sDone pend u).assembly 5 .cam = some ⟨some 0, .finished⟩ ∧
    classify 5 (0 : Byte).toNat ⟨some 0, .finished⟩ (0 : BitVec 32).toNat (sDone pend u) = .present (doneSeg pend u) ∧
    (doneSeg pend u).status = .closed 3600 pend u ∧ (0x10000 : BitVec 32).toNat ≤ 65536 :=
  ⟨⟨rfl, rfl, rfl⟩, rfl, by decide, rfl, rfl, rfl, rfl, by decide⟩

/-- FetchTaken's refusals: a rendition that the programme has not, an index beyond the current one, the current one of a stream
that assembles, and one that the table no longer holds. -/
theorem witness_FetchTaken_refused :
    prog0.renditions[(4 : Byte).toNat]? = none ∧ prog1.renditions[(0 : Byte).toNat]? = some .cam ∧
    (sLane 8 []).assembly 5 .cam = some ⟨some 0, .assembling⟩ ∧ 0 < (1 : BitVec 32).toNat ∧ (0 : BitVec 32).toNat = 0 ∧
    (withProg progDone).assembly 5 .cam = some ⟨some 0, .finished⟩ ∧
    (∀ g ∈ (withProg progDone).segments, g.isAt 5 0 0 = false) := by
  refine ⟨rfl, rfl, rfl, by decide, rfl, rfl, ?_⟩
  intro g hg; cases hg

/-- ListTaken's view: a CLOSED segment has one. -/
theorem witness_ListTaken_view : ((doneSeg ⟨true, false, false⟩ false).view).isSome = true ∧
    (newSegment Hd progDone 0 0).view = none := by decide +kernel

/-- The pending sets of ReleaseTaken's four cases: other ports left, not pending, the last port, and UNCLAIMED. -/
theorem witness_ReleaseTaken :
    (PerPort.get (⟨true, true, false⟩ : PortSet) .p0 = true ∧ Port.p1 ≠ .p0 ∧ PerPort.get (⟨true, true, false⟩ : PortSet) .p1 = true) ∧
    PerPort.get (⟨false, true, false⟩ : PortSet) .p0 = false ∧
    (PerPort.get (⟨true, false, false⟩ : PortSet) .p0 = true ∧ PerPort.get (⟨true, false, false⟩ : PortSet) .p1 = false ∧
      PerPort.get (⟨true, false, false⟩ : PortSet) .p2 = false) := by decide

/-- A fetch across the granules 4 and 2 of a segment: byte 511 stands in the first and byte 599 in the second. -/
theorem test_fetch_bytes :
    let t := out (exec (.fetchSegment .p0 1 Rh 0 0 511 65536) (sDone ⟨true, false, false⟩ false))
    lastReply .p0 t = some ⟨.ok, .fetched 89 600 true⟩ ∧ (t.port .p0).window = [(0, 0x22), (1, 0x33), (88, 0x44)] := by
  decide +kernel

theorem test_release :
    lastReply .p0 (out (exec (.releaseSegment .p0 1 Rh 0 0) (sDone ⟨true, true, false⟩ false))) =
      some ⟨.ok, .released true (some ⟨false, true, false⟩) false⟩ ∧
    lastReply .p1 (out (exec (.releaseSegment .p1 1 Rh 0 0) (sDone ⟨true, false, false⟩ false))) =
      some ⟨.ok, .released false (some ⟨true, false, false⟩) false⟩ ∧
    lastReply .p1 (out (exec (.releaseSegment .p1 1 Rh 0 0) (sDone ⟨false, false, false⟩ true))) =
      some ⟨.ok, .released false none true⟩ ∧
    lastReply .p0 (out (exec (.releaseSegment .p0 1 Rh 0 1) (sDone ⟨true, false, false⟩ false))) =
      some ⟨.notFound, .empty⟩ := by decide +kernel

/-! ### Settings -/

/-- Port 0 holds a staging record for the programme. -/
def sStaged (pr : Programme) (base : Nat) (fs : FieldSet) : State :=
  (withProg pr).setPort .p0 { PortState.reset with staging := some ⟨Hd, base, fs⟩ }

theorem witness_StageTaken :
    parseFields [⟨0x10, 0, 50⟩, ⟨0x11, 0, 40⟩] = some [(.segLength, 50), (.snapWindow, 40)] ∧
    (∀ x ∈ [(Field.segLength, (50 : Int)), (.snapWindow, 40)], prog0.hasField x.1 = true) ∧
    prog0.watch.get .p0 = true ∧ (sOpen.port .p0).staging = none ∧
    ((sStaged prog0 1 [(.gap, 3)]).port .p0).staging = some ⟨⟨5, (sStaged prog0 1 [(.gap, 3)]).gen 5⟩, 1, [(.gap, 3)]⟩ := by
  decide +kernel

/-- A port that stages W = 40 with D = 50 in the same record holds floor(50 / 4) = 12. -/
theorem test_stage_clamps :
    ((out (exec (.stageSettings .p0 1 Rh 0 [⟨0x10, 0, 50⟩, ⟨0x11, 0, 40⟩]) sOpen)).port .p0).staging =
      some ⟨Hd, 1, [(.segLength, 50), (.snapWindow, 12)]⟩ ∧
    (lastReply .p0 (out (exec (.stageSettings .p0 1 Rh 0 [⟨0x14, 0, 2⟩]) sOpen))) = some ⟨.malformed, .empty⟩ := by
  decide +kernel

/-- StageTaken's other clauses: a record for another generation of the slot, and a rendition that the programme has not. -/
theorem witness_StageTaken_other :
    (⟨5, 8⟩ : Handle) ≠ ⟨5, sOpen.gen 5⟩ ∧ parseFields [⟨0x15, 2, 64⟩] = some [(.bitrate 2, 64)] ∧
    prog0.hasField (.bitrate 2) = false ∧ FieldSet.get [(.segLength, (50 : Int)), (.snapWindow, 12)] .snapWindow = some 12 ∧
    givenValue [(.segLength, 50), (.snapWindow, 40)] .snapWindow = some 40 := by decide +kernel

/-- Values at, below and above the bounds of W and M, and a D that clamps both, over a record that is not empty. -/
theorem witness_StagedValuesInRange_merge :
    (let fs : FieldSet := [(.snapWindow, 37), (.minLength, 150)]
     FieldSet.get (mergeField 150 fs (.snapWindow, 37)) .snapWindow = some 37 ∧
     FieldSet.get (mergeField 150 fs (.snapWindow, 38)) .snapWindow = some 37 ∧
     FieldSet.get (mergeField 150 fs (.minLength, 24)) .minLength = some 25 ∧
     mergeField 150 fs (.segLength, 49) = [(.segLength, 50), (.snapWindow, 12), (.minLength, 50)]) ∧ Field.coded .policy = true := by
  decide

theorem witness_StagedValuesInRange :
    FieldSet.get (mergeAll 50 [] [(.minLength, 1000)]) .minLength = some 50 ∧
    FieldSet.get (mergeAll 600 [] [(.snapWindow, 1000)]) .snapWindow = some 150 := by decide

theorem witness_CommitTaken :
    ((sStaged prog1 1 [(.dwell, 30)]).port .p0).staging = some ⟨⟨5, (sStaged prog1 1 [(.dwell, 30)]).gen 5⟩, 1, [(.dwell, 30)]⟩ ∧
    prog1.watch.get .p0 = true ∧ prog1.state ≠ .complete ∧ prog1.revision ≠ 4294967295 ∧ (1 : BitVec 32).toNat = prog1.revision ∧
    prog1.pendingCut = none ∧ FieldSet.get [(.dwell, (30 : Int))] .heldLimit = none ∧ (2 : BitVec 32).toNat ≠ prog1.revision ∧
    FieldSet.ofGroup [(.dwell, (30 : Int))] .cutBound ≠ [] ∧ Names (sStaged prog1 1 [(.dwell, 30)]) Rh 5 prog1 ∧
    ({ prog1 with pendingCut := some ⟨1, [(.dwell, 40)]⟩ } : Programme).pendingCut ≠ none :=
  ⟨by decide +kernel, rfl, by decide, by decide, rfl, rfl, by decide, by decide, by decide, ⟨rfl, rfl, rfl⟩, by decide⟩

/-- A HELD entry of the CAM stream at position `n`. -/
def heldEntry (n : Nat) : Entry :=
  { filling 4 none with
    name := ⟨Hd, .cam, BitVec.ofNat 24 (n + 1)⟩, granules := [], state := .held, timing := some ⟨n, 1, n⟩ }

/-- A programme with `n` HELD entries, and a staged held limit of 16. -/
def sHeld (n : Nat) : State := (sStaged prog1 1 [(.heldLimit, 16)]).setEntries ((List.range n).map heldEntry)

/-- The held limit of CommitTaken: above the HELD count, equal to it, and below it. -/
theorem witness_CommitTaken_heldLimit :
    FieldSet.get [(.heldLimit, (16 : Int))] .heldLimit = some 16 ∧ (sHeld 15).heldCount 5 < (16 : Int).toNat ∧
    chooseEntry (sHeld 15) = none ∧ (16 : Int).toNat ≤ (sHeld 16).heldCount 5 ∧ (sHeld 16).greatestHeld 5 = some 15 ∧
    (16 : Int).toNat < (sHeld 17).heldCount 5 ∧ (sHeld 17).greatestHeld 5 = some 16 ∧ prog1.pendingCut = none ∧
    (sHeld 16).takesNow .p0 = true ∧ FieldSet.ofGroup [(.heldLimit, (16 : Int))] .cutBound = [] := by decide +kernel

/-- With seventeen HELD entries the limit becomes 17, is named as clamped, and the horizon is forced to the last of them. -/
theorem test_commit_forces :
    ((out (exec (.commitSettings .p0 1 Rh 1) (sHeld 17))).prog 5).map
      (fun pr => (pr.active.heldLimit, pr.cutter.forced)) = some (17, some 16) := by decide +kernel

/-- CommitTaken's refusals: COMPLETE, the last revision, no staging record, and one for another generation. -/
theorem witness_CommitTaken_refused :
    progDone.state = .complete ∧ ({ prog1 with revision := 4294967295 } : Programme).revision = 4294967295 ∧
    (sOpen.port .p0).staging = none ∧ (⟨5, 8⟩ : Handle) ≠ ⟨5, sOpen.gen 5⟩ := by decide +kernel

/-- A cut-bound value stays pending outside OPEN, with M brought to the D that it gives, and is active at once in OPEN. -/
theorem test_commit :
    ((out (exec (.commitSettings .p0 1 Rh 1) (sStaged { prog1 with active := { prog1.active with minLength := 150 } } 1
      [(.segLength, 100)]))).prog 5).map (fun pr => (pr.revision, pr.active.segLength, pr.pendingCut)) =
      some (2, 150, some ⟨2, [(.segLength, 100), (.minLength, 100)]⟩) ∧
    ((out (exec (.commitSettings .p0 1 Rh 1) (sStaged prog0 1 [(.segLength, 60)]))).prog 5).map
      (fun pr => (pr.active.segLength, pr.active.snapWindow, pr.cutRevision)) = some (60, 15, 2) := by decide +kernel

theorem witness_CommitByGroup : FieldSet.ofGroup [(.segLength, (50 : Int))] .cutBound ≠ [] := by decide

/-- CommitByGroup's other clauses: an ordered record of the three groups, and ordered pending sets. -/
theorem witness_CommitByGroup_sets :
    FieldSet.Ordered [(.segLength, 50), (.snapWindow, 150), (.gap, 3), (.report .timeRange, 1), (.heldLimit, 16)] ∧
    FieldSet.get [(.segLength, (50 : Int))] (.report .timeRange) = none ∧ prog1.active.has (.report .timeRange) 0 ∧
    FieldSet.Ordered [(.segLength, 50), (.bitrate 1, 64)] ∧ FieldSet.Ordered [(.rate .cam, -500), (.rounding, 1)] ∧
    (0 : Fin 5).val < prog1.active.bitrates.length ∧
    ({ prog1 with pendingCut := some ⟨2, [(.dwell, 40)]⟩ } : Programme).pendingCut = some ⟨2, [(.dwell, 40)]⟩ ∧
    prog410.pendingPiece = some [(.gap, 2)] ∧ FieldSet.Ordered [(.gap, 2)] := by
  unfold FieldSet.Ordered Settings.has
  decide +kernel

/-- CommitByGroup in OPEN, and the set that a commit leaves pending: W and M within a D of 50, a held limit below the HELD count,
and fields that no record stages. -/
theorem test_commit_values :
    (let a := (prog0.commitOpen [(.segLength, 50), (.heldLimit, 16)] 17).active
     (a.segLength, a.snapWindow, a.minLength, a.heldLimit, a.dwell) = (50, 12, 50, 17, 75)) ∧
    (let a := (prog0.commitOpen [(.snapWindow, 20), (.minLength, 30)] 0).active
     (a.segLength, a.snapWindow, a.minLength, a.heldLimit) = (150, 20, 30, 64)) ∧
    (prog1.commit [(.segLength, 100), (.minLength, 60)] 0).pendingCut = some ⟨2, [(.segLength, 100), (.minLength, 60)]⟩ ∧
    (prog1.commit [(.segLength, 50), (.dwell, 30)] 0).pendingCut =
      some ⟨2, [(.segLength, 50), (.snapWindow, 12), (.dwell, 30)]⟩ := by decide +kernel

/-! ### Lanes -/

/-- AttachTaken: lane 7 alone is FREE, or none is; a stream without a lane, one with a lane and one that has ended. -/
def sLanes (last : LaneRecord) : State :=
  { sOpen with lanes := (Vector.replicate 8 (camLane 8 [])).set 7 last }

theorem witness_AttachTaken :
    (sLanes (LaneRecord.freeWith [] [])).takesNow .p0 = true ∧ ((sLanes (LaneRecord.freeWith [] [])).lane 7).state = .free ∧
    (∀ k : LaneId, k.val < 7 → ((sLanes (LaneRecord.freeWith [] [])).lane k).state ≠ .free) ∧
    (∀ l : LaneId, ((sLanes (camLane 8 [])).lane l).state ≠ .free) ∧ prog0.stream .cam = some (StreamRecord.atOpen true) ∧
    (StreamRecord.atOpen true).lane = none ∧ (StreamRecord.atOpen true).ended = false ∧
    (prog1.stream .cam).bind StreamRecord.lane = some 0 ∧ prog0.watch.get .p0 = true ∧ Stream.code .cam = 1 := by decide +kernel

theorem witness_AttachTaken_live : prog0.state.live ∧ prog1.state.live ∧ Names (sLanes (camLane 8 [])) Rh 5 prog0 :=
  ⟨.inl rfl, .inr (.inl rfl), ⟨rfl, rfl, rfl⟩⟩

/-- AttachTaken's refusals: a programme that takes no lane, a stream outside the set, and a stream that has ended. -/
theorem witness_AttachTaken_refused :
    ¬progDone.state.live ∧ (Programme.atOpen .p0 3600 1 [⟨1, 2500⟩]).stream .slide = none ∧
    (progDone.stream .cam).map StreamRecord.ended = some true := by
  refine ⟨?_, by decide, by decide⟩
  rintro (h | h | h) <;> cases h

/-- DetachTaken's other clauses: a partly copied unit with the throttle off, a FREE lane, and a port that does not watch. -/
theorem witness_DetachTaken_other :
    ((sPayload 8 4 (some 1)).lane 0).pos = .inPayload 0 4 ∧ (sPayload 8 4 (some 1)).throttle = false ∧
    ((sLane 8 []).lane 0).pos = .atHeader ∧
    (sLane 8 []).lane 7 = LaneRecord.freeWith ((sLane 8 []).lane 7).slot0.bytes ((sLane 8 []).lane 7).slot1.bytes ∧
    prog1.watch.get .p1 = false ∧ (7 : Byte).toNat = (7 : LaneId).val := by decide +kernel

theorem witness_DetachTaken :
    (sLane 8 []).takesNow .p0 = true ∧ ((sLane 8 []).lane 0).target = some (Hd, .cam) ∧ (sLane 8 []).prog 5 = some prog1 ∧
    prog1.watch.get .p0 = true ∧ (prog1.stream .cam).isSome = true := by decide +kernel

/-- A detach in the middle of a unit removes its entry. -/
theorem test_detach :
    (out (exec (.detachLane .p0 1 0) (sPayload 8 4 (some 1)))).entries = [] ∧
    (((out (exec (.detachLane .p0 1 0) (sPayload 8 4 (some 1)))).prog 5).bind (fun pr => pr.stream .cam)).bind
      StreamRecord.lane = none := by decide +kernel

/-- PostTaken: a lane whose fill slot is 1; then one without a fill slot, one that has ended, lane 8 and count 32 769. -/
theorem witness_PostTaken :
    (sLane 8 []).takesNow .p0 = true ∧ ((sLane 8 []).lane 0).owner = some .p0 ∧ ((sLane 8 []).lane 0).endPosted = false ∧
    ((sLane 8 []).lane 0).fill = some true ∧ (32768 : BitVec 16).toNat ≤ 32768 ∧ 8 ≤ (8 : Byte).toNat ∧
    32768 < (32769 : BitVec 16).toNat ∧ ((sLane 8 []).lane 7).owner ≠ some .p0 ∧
    (((sLane 8 []).setLane 0 { camLane 8 [] with endPosted := true }).lane 0).endPosted = true ∧
    (((sLane 8 []).setLane 0 { camLane 8 [] with fill := none }).lane 0).fill = none := by decide +kernel

/-- PostTaken on an ATTACHED lane, of an INGESTING programme and of one in OPEN. -/
theorem witness_PostTaken_attached :
    (((sLane 8 []).setLane 0 { camLane 8 [] with state := .attached }).lane 0).state = .attached ∧
    ((sLane 8 []).lane 0).target = some (Hd, .cam) ∧ (sLane 8 []).prog 5 = some prog1 ∧ prog1.state = .ingesting ∧
    (sLanes (camLane 8 [])).prog 5 = some prog0 ∧ prog0.state = .opened ∧ (1 : BitVec 16) ≠ 0 := by decide +kernel

theorem test_post :
    lastReply .p0 (out (exec (.postChunk .p0 1 0 32768) (sLane 8 []))) = some ⟨.ok, .posted 0⟩ ∧
    ((out (exec (.postChunk .p0 1 0 32768) (sLane 8 []))).lane 0).order = [false, true] ∧
    ((out (exec (.postChunk .p0 1 0 0) (sLane 8 []))).lane 0).state = .ending := by decide +kernel

theorem witness_FillWindowRule :
    ((sLane 8 []).lane 0).owner = some .p0 ∧ ((sLane 8 []).lane 0).fill = some true ∧
    Mem.wf (((sLane 8 []).lane 0).slot true).bytes = true ∧ 32766 + [(1 : Byte), 2].length ≤ 32768 ∧
    ((sLane 8 []).lane 0).owner ≠ some .p1 ∧ ((sLane 8 []).lane 7).fill = none ∧ 65536 ≤ 65536 ∧ 327679 < 327680 := by
  decide +kernel

/-- A Post Chunk of lane 0 waits in port 0's queue behind another command: the other slot of the lane is full, or free. -/
def sPosted (ln : LaneRecord) : State :=
  ((sLane 8 []).setLane 0 ln).setPort .p0 { (sLane 8 []).port .p0 with
    commands := [waitingRecord, ⟨20, encodeRecord 7 (.postChunk 0 32768)⟩] }

def emptyLane : LaneRecord :=
  { LaneRecord.freeWith [] [] with state := .attached, owner := some .p0, target := some (Hd, .cam), fill := some false }

theorem witness_FillWindowRule_waiting :
    ((sPosted emptyLane).port .p0).commands = [waitingRecord] ++ ⟨20, encodeRecord 7 (.postChunk 0 32768)⟩ :: [] ∧
    decodeRecord 20 (encodeRecord 7 (.postChunk 0 32768)) = some (7, .postChunk 0 32768) ∧
    decodeRecord waitingRecord.submitted waitingRecord.bytes = some (7, .deviceStatus) ∧
    ((sPosted emptyLane).lane 0).owner = some .p0 ∧ ((sPosted emptyLane).lane 0).fill = some false ∧
    ((sPosted emptyLane).lane 0).endPosted = false ∧ (((sPosted emptyLane).lane 0).slot true).count = none ∧
    (((sPosted (camLane 8 [])).lane 0).slot (!true)).count ≠ none ∧ Mem.wf (((sPosted emptyLane).lane 0).slot true).bytes = true := by
  decide +kernel

/-- A write behind the waiting Post Chunk goes to the next fill slot, or is discarded where there is none (R43). -/
theorem test_fill_window_behind_post :
    (let t := out (exec (.fillWindowWrite .p0 0 3 [9]) (sPosted emptyLane))
     ((t.lane 0).slot0.bytes, (t.lane 0).slot1.bytes) = ([], [(3, 9)])) ∧
    exec (.fillWindowWrite .p0 0 3 [9]) (sPosted (camLane 8 [])) = .next (sPosted (camLane 8 [])) := by
  refine ⟨by decide +kernel, rfl⟩

/-- LaneStatusTaken: a lane of the port, one that is not, and lane 8; a lane with fewer than 16 bytes lacks data. -/
theorem witness_LaneStatusTaken :
    (sLane 8 []).takesNow .p0 = true ∧ 8 ≤ (8 : Byte).toNat ∧ ((sLane 8 []).lane 7).owner ≠ some .p0 ∧
    ((sLane 8 []).lane 0).owner = some .p0 := by decide +kernel

/-- The wait reasons of LaneStatusTaken: a lane at a header that is present, of an INGESTING programme. -/
theorem witness_LaneStatusTaken_wait :
    ((sLane 32768 (cells (camHeader 0 0 4))).lane 0).target = some (Hd, .cam) ∧
    (sLane 32768 (cells (camHeader 0 0 4))).prog 5 = some prog1 ∧
    (readUnitHeader (((sLane 32768 (cells (camHeader 0 0 4))).lane 0).peek 16)).isSome = true ∧
    16 ≤ ((sLane 32768 (cells (camHeader 0 0 4))).lane 0).available := by decide +kernel

theorem test_lane_waits_for_data :
    waitReason 0 ((sLane 8 []).setLane 0 { LaneRecord.freeWith [] [] with
      state := .attached, owner := some .p0, target := some (Hd, .cam), fill := some false }) = .noData ∧
    waitReason 0 ((sLane 32768 (cells (camHeader 0 0 4))).setPort .p2 { PortState.reset with hold := true }) = .throttle ∧
    waitReason 0 ((sLane 32768 (cells (camHeader 0 0 4))).setProg 5 { prog1 with state := .halted }) = .programmeState := by
  decide +kernel

/-! ### Chapters -/

/-- H stands at 360 000 and the list holds chapters up to `n`, from 720 000 on. -/
def progChapters (n : Nat) : Programme :=
  { prog0 with cutter := { prog0.cutter with
      horizon := .at 360000, chapters := (List.range n).map (fun j => ⟨720000 + 3600 * j, .manual, none, .pending, none, none⟩) } }

/-- InsertTaken: 363 600 can be taken with 127 chapters; 363 599 is at H; 720 000 has a chapter; with 128 it is full. -/
theorem witness_InsertTaken :
    (progChapters 127).cutter.horizon.reaches ((363600 : BitVec 32).toNat / 3600 * 3600 : Nat) = false ∧
    (progChapters 127).cutter.lastCut < (363600 : BitVec 32).toNat / 3600 * 3600 ∧
    (∀ ch ∈ (progChapters 127).cutter.chapters, ch.time ≠ (363600 : BitVec 32).toNat / 3600 * 3600) ∧
    (progChapters 127).cutter.chapters.length < 128 ∧
    (progChapters 127).cutter.horizon.reaches ((363599 : BitVec 32).toNat / 3600 * 3600 : Nat) = true ∧
    (∃ ch ∈ (progChapters 127).cutter.chapters, ch.time = (720001 : BitVec 32).toNat / 3600 * 3600) ∧
    (progChapters 127).cutter.horizon.reaches ((720001 : BitVec 32).toNat / 3600 * 3600 : Nat) = false ∧
    128 ≤ (progChapters 128).cutter.chapters.length ∧ (progChapters 128).watch.get .p0 = true ∧ (progChapters 128).frame = 3600 ∧
    (∀ ch ∈ (progChapters 128).cutter.chapters, ch.time ≠ (363600 : BitVec 32).toNat / 3600 * 3600) := by decide +kernel

/-- InsertTaken's other hypotheses: a programme that takes no chapter, and the throttle off. -/
theorem witness_InsertTaken_other :
    ¬progDone.state.live ∧ (progChapters 127).state.live ∧ (withProg (progChapters 127)).throttle = false := by
  refine ⟨?_, .inl rfl, by decide +kernel⟩
  rintro (h | h | h) <;> cases h

theorem test_insert :
    lastReply .p0 (out (exec (.insertChapter .p0 1 Rh 367199) (withProg (progChapters 2)))) =
      some ⟨.ok, .inserted 363600 0 .pending none⟩ ∧
    lastReply .p0 (out (exec (.insertChapter .p0 1 Rh 363599) (withProg (progChapters 2)))) = some ⟨.tooLate, .empty⟩ := by
  decide +kernel

theorem witness_ReadChaptersRule :
    127 < (128 : BitVec 16).toNat ∧ (127 : BitVec 16).toNat ≤ 127 ∧ (progChapters 128).watch.get .p1 = false ∧
    (progChapters 128).watch.get .p0 = true ∧ Names (withProg (progChapters 128)) Rh 5 (progChapters 128) :=
  ⟨by decide, by decide, rfl, rfl, ⟨rfl, rfl, rfl⟩⟩

/-- NextCutWithinBounds: a chapter at the upper bound (D + W)·F, and the nominal cut. -/
theorem witness_NextCutWithinBounds :
    prog0.active.minLength ≤ prog0.active.segLength ∧
    ({ prog0 with cutter := { prog0.cutter with
        horizon := .posInf, chapters := [⟨630000, .manual, none, .pending, none, none⟩] } } : Programme).nextCut =
      some (.inRange 630000) ∧
    ({ prog0 with cutter := { prog0.cutter with horizon := .posInf } } : Programme).nextCut = some (.nominal 540000) := by decide

/-- The settings of a programme with no pending set are kept where its active settings are as Open gave them. -/
theorem settingsKept_of {pr : Programme} (f : pr.frame = 3600) (a : pr.active = prog0.active) (c : pr.pendingCut = none)
    (p : pr.pendingPiece = none) (z : (pr.cutter.cuts.head?).map CutRecord.start = some 0)
    (r : pr.cutter.cuts.Pairwise (fun x y => x.start < y.start))
    (h : pr.cutter.chapters.Pairwise (fun x y => x.time < y.time)) : pr.SettingsKept where
  frame := by rw [f]; decide
  active := by
    rw [a]
    exact ⟨by decide, by decide, by decide, by decide, by decide, by intro st; cases st <;> decide, by decide, by decide,
      by decide, by decide⟩
  cutSet := by intro x hx; rw [c] at hx; cases hx
  pieceSet := by intro x hx; rw [p] at hx; cases hx
  openSet := fun _ => c
  cutStart := z
  cutsRise := r
  chaptersRise := h

/-- NextCutWithinBounds's pass: the cut at 2 880 000 does not pass the gate of a reach of 2 880 000. -/
theorem witness_NextCutWithinBounds_pass :
    (prog510 2880000).SettingsKept ∧ (prog510 2880000).decisionPass.nextCut = some (.early 2880000) ∧
    (prog510 2880000).dwellChange = false :=
  ⟨settingsKept_of rfl rfl rfl rfl rfl (by decide) (by decide), by decide +kernel, rfl⟩

/-- The cases of NextCutWithinBounds: a chapter below M, under either policy, at p + M·F, and beyond (D + W)·F, with a forced
horizon at the nominal cut and one tick below it. -/
theorem witness_NextCutWithinBounds_cases :
    (let ch (t : Nat) : Chapter := ⟨t, .manual, none, .pending, none, none⟩
     let pr (pol : Policy) (t : Nat) (g : Option Nat) : Programme := { prog0 with
       active := { prog0.active with policy := pol }
       cutter := { prog0.cutter with chapters := [ch t], forced := g } }
     (pr .defer 179999 none).nextCut = some (.early 180000) ∧ (pr .drop 179999 none).nextCut = none ∧
     (pr .defer 180000 none).cutter.inRangeChapter 180000 630000 = some (ch 180000) ∧
     (pr .defer 180000 none).nextCut = none ∧ (pr .defer 180000 (some 540000)).nextCut = some (.nominal 540000) ∧
     (pr .defer 630001 none).cutter.inRangeChapter 180000 630000 = none ∧ (pr .defer 630001 (some 539999)).nextCut = none) := by
  decide +kernel

/-- The chapter in range is the earliest PENDING one: two in range, behind a CUT at the last decided cut and below one beyond. -/
theorem witness_NextCutWithinBounds_inRange :
    (let chs : List Chapter := [⟨180000, .manual, none, .merged, some 0, some 0⟩, ⟨183600, .manual, none, .pending, none, none⟩,
       ⟨630000, .manual, none, .pending, none, none⟩, ⟨633600, .manual, none, .pending, none, none⟩]
     chs.Pairwise (fun a b => a.time < b.time) ∧
     ({ prog0.cutter with chapters := chs } : Cutter).inRangeChapter 180000 630000 =
       some ⟨183600, .manual, none, .pending, none, none⟩) := by decide +kernel

/-- The detector's clauses: a candidate confirmed at its dwell to the tick, one tick short of it, and another index; and a time
that has a chapter, a list of 127, and a full one. -/
theorem witness_NextCutWithinBounds_detector :
    ((prog59 .defer 0).detect none 1476000).1 = true ∧ ((prog59 .defer 0).detect (some 14) 1475999).1 = false ∧
    ((prog59 .defer 0).detect (some 15) 1476000).1 = false ∧ (prog59 .defer 0).cutter.candidate = some ⟨14, 1206000⟩ ∧
    (∃ ch ∈ (progChapters 127).cutter.chapters, ch.time = 720000) ∧ (progChapters 127).cutter.chapters.length = 127 ∧
    (∀ ch ∈ (progChapters 128).cutter.chapters, ch.time ≠ 0) ∧ 128 ≤ (progChapters 128).cutter.chapters.length := by
  decide +kernel

/-- The rise of H in each row of R96: no SLIDE stream, no position, a position, an ended stream, and a forced horizon beyond. -/
theorem test_raise_horizon :
    let slide (r : StreamRecord) (g : Option Nat) : Horizon :=
      ({ prog59 .defer 0 with
          streams := prog0.streams.set .slide (some r), cutter := { (prog59 .defer 0).cutter with forced := g } } :
        Programme).raiseHorizon.cutter.horizon
    let r := StreamRecord.atOpen false
    (Programme.atOpen .p0 3600 1 [⟨1, 2500⟩]).raiseHorizon.cutter.horizon = .posInf ∧ slide r none = .at 1202400 ∧
    slide { r with position := some 1476000 } none = .at 1206000 ∧ slide { r with position := some 1472399 } none = .at 1202400 ∧
    slide { r with ended := true } none = .posInf ∧ slide { r with position := some 1476000 } (some 1209600) = .at 1209600 := by
  decide +kernel

/-- A cut that activates a dwell of 25 frames: the candidate at 1 206 000 is confirmed at a slide position of 1 296 000, and not
one tick below it, where H rises with the new dwell alone (R89, R96). -/
theorem witness_NextCutWithinBounds_dwell :
    let pr (x : Nat) : Programme := { prog59 .defer x with pendingCut := some ⟨2, [(.dwell, 25)]⟩ }
    (pr 1296000).dwellChange = true ∧ FieldSet.Ordered [(.dwell, 25)] ∧
    (let c := ((pr 1296000).decideCut (.nominal 1260000)).cutter
     c.confirmed = some 14 ∧ c.candidate = none ∧ c.chapters.map Chapter.time = [1206000] ∧ c.horizon = .at 1206000) ∧
    (let c := ((pr 1295999).decideCut (.nominal 1260000)).cutter
     c.candidate = some ⟨14, 1206000⟩ ∧ c.chapters = [] ∧ c.horizon = .at 1205999) := by
  unfold FieldSet.Ordered
  decide +kernel

/-- The last clause: a confirmation that a list of 127 records, and one that a full list does not, unless it has the time. -/
theorem witness_NextCutWithinBounds_recorded :
    let full : Programme := { progChapters 128 with cutter := { (progChapters 128).cutter with candidate := some ⟨14, 0⟩ } }
    ((prog59 .defer 0).detect none 1476000).1 = true ∧ (prog59 .defer 0).cutter.chapters.length < 128 ∧
    (full.detect none 9999999).1 = true ∧ full.cutter.records 0 = false ∧ full.cutter.records 720000 = true := by decide +kernel

/-- A confirmation at the last decided cut is a CUT there, one below it after a deferred cut is MERGED, and one at or below the
forced horizon is LATE (R91). -/
theorem test_auto_dispositions :
    let c := (prog59 .defer 0).cutter
    c.autoDisposition 1080000 = (.cut, some 1080000, some 6) ∧
    ({ c with deferred := true, previous := some 900000 } : Cutter).autoDisposition 900001 = (.merged, some 1080000, some 6) ∧
    ({ c with deferred := true, previous := some 900000 } : Cutter).autoDisposition 900000 = (.late, none, some 5) ∧
    ({ c with forced := some 1080000 } : Cutter).autoDisposition 1080000 = (.late, none, none) ∧
    c.autoDisposition 1080001 = (.pending, none, none) := by decide +kernel

theorem witness_ReleaseIntoItsSegment :
    (prog59 .defer 0).cutter.cuts.Pairwise (fun a b => a.start < b.start) ∧
    ((prog59 .defer 0).cutter.cuts.head?).map CutRecord.start = some 0 ∧ (prog59 .defer 0).releaseIndex 1079999 = some 5 ∧
    (prog59 .defer 0).releaseIndex 1080000 = some 6 := by decide +kernel

/-- A release of ReleaseIntoItsSegment: a HELD entry, and the entry behind one that cannot be released. -/
theorem witness_ReleaseIntoItsSegment_pass :
    (heldEntry 15).inStream 5 .cam = true ∧ (heldEntry 15).state = .held ∧
    (heldEntry 15).timing.bind (fun x => prog1.releaseIndex x.x) = some 0 ∧
    (heldEntry 540000).timing.bind (fun x => prog1.releaseIndex x.x) = none ∧
    [heldEntry 540000, heldEntry 15][1]? = some (heldEntry 15) := by decide +kernel

/-- A revision list of three records: the revision in force at their bounds, and none below the first. -/
theorem witness_InForce :
    (let pr : Programme := { prog1 with revisions := [⟨3, 2, [2500, 96]⟩, ⟨4, 5, [2000, 64]⟩, ⟨7, 6, [1000, 64]⟩] }
     [1, 2, 4, 5, 6, 9].map pr.revisionFor = [none, some 3, some 3, some 4, some 7, some 7] ∧
     pr.bitratesOf (some 4) = [2000, 64]) := by decide +kernel

/-! ### Status and attention -/

/-- The programme with the SEGMENT and STATE latches of port 0 set. -/
def progDue : Programme := { prog1 with latches := ⟨0b0001001, 0, 0⟩ }

theorem witness_QueriesTaken :
    (withProg progDue).takesNow .p0 = true ∧ (31 : Byte).toNat ≤ 31 ∧ (0x7F : Byte).getLsbD 7 = false ∧
    ((withProg progDue).port .p0).staging = none ∧
    ((sStaged prog0 1 []).port .p0).staging = some ⟨Hd, 1, []⟩ ∧ Names (withProg progDue) Rh 5 progDue ∧
    progDue.watch.get .p0 = true := ⟨by decide +kernel, by decide, by decide, rfl, rfl, ⟨rfl, rfl, rfl⟩, rfl⟩

/-- QueriesTaken's other hypotheses: a waiting pipe and a waiting stream, and operands beyond their bounds. -/
theorem witness_QueriesTaken_waiting :
    31 < (32 : Byte).toNat ∧ (0x80 : Byte).getLsbD 7 = true ∧
    ({ (withProg progDue).setPipe 0 (.storing ⟨0, ⟨Hd, .cam, 0⟩, [], 4, none, false, false, false, [0], [2500]⟩ [⟨513, []⟩]) with
        storeQueue := [0], tableQueue := [(5, .cam)] } : State).storeQueue = 0 :: [] ∧
    ({ withProg progDue with tableQueue := [(5, .cam)] } : State).tableQueue = (5, .cam) :: [] ∧
    (withProg progDue).prog 5 = some progDue := by decide +kernel

theorem test_next_attention :
    lastReply .p0 (out (exec (.nextAttention .p0 1 0 0x7F) (withProg progDue))) =
      some ⟨.ok, .attention (some (Hd, 0b0001001, .ingesting))⟩ ∧
    lastReply .p0 (out (exec (.nextAttention .p0 1 6 0x7F) (withProg progDue))) = some ⟨.ok, .attention none⟩ := by
  decide +kernel

theorem witness_AttentionTaken :
    (withProg progDue).takesNow .p0 = true ∧ (0x08 : Byte).getLsbD 7 = false ∧ ((1 : Byte) = 0 ∨ (1 : Byte) = 1) ∧
    Names (withProg progDue) Rh 5 progDue ∧ progDue.watch.get .p0 = true :=
  ⟨by decide +kernel, by decide, .inr rfl, ⟨rfl, rfl, rfl⟩, rfl⟩

theorem witness_AttentionTaken_malformed :
    (withProg progDue).takesNow .p0 = true ∧ (0x80 : Byte).getLsbD 7 = true ∧ (2 : Byte) ≠ 0 ∧ (2 : Byte) ≠ 1 := by decide +kernel

/-- AttentionTaken's notices: an event that turns port 0's condition from false to true, and a Reset Port that is taken. -/
theorem witness_AttentionTaken_notices :
    (let s := sLane 32768 (cells (headerBytesOf 2 0x58))
     exec (.malformedHeader 0) s = .next (out (exec (.malformedHeader 0) s)) ∧ s.noticeCondition .p0 = false ∧
       (out (exec (.malformedHeader 0) s)).noticeCondition .p0 = true ∧
       ((out (exec (.malformedHeader 0) s)).port .p0).noticesSent = 1 ∧
       ((out (exec (.malformedHeader 0) s)).port .p1).noticesSent = 0) ∧
    (withProg progDue).noticeCondition .p0 = true ∧
    exec (.resetPort .p0 1) (withProg progDue) = .next (out (exec (.resetPort .p0 1) (withProg progDue))) ∧
    ((sLane 8 []).lane 0).owner = some .p0 ∧ ((sLane 8 []).lane 0).slot1.count = none := by
  refine ⟨⟨rfl, ?_, ?_, ?_, ?_⟩, ?_, rfl, ?_, ?_⟩ <;> decide +kernel

theorem test_clear_attention :
    lastReply .p0 (out (exec (.clearAttention .p0 1 (some Rh) 0x08 1) (withProg progDue))) =
      some ⟨.ok, .latches (some 0b0000001) false⟩ := by decide +kernel

/-! ### Flow control and resets -/

theorem witness_HoldTaken :
    sOpen.takesNow .p0 = true ∧
    (let s := { sOpen with sources := ⟨true, false, false, false⟩ }
     (s.setPort .p0 { s.port .p0 with hold := false }).throttle = true) := by decide +kernel

/-- HoldTaken's last clause: the one hold that keeps the throttle on. -/
theorem witness_HoldTaken_turnOff :
    let s := (sLane 32768 (cells (camHeader 0 0 4))).setPort .p0 { PortState.reset with hold := true }
    s.takesNow .p0 = true ∧ s.throttle = true ∧ (s.setPort .p0 { s.port .p0 with hold := false }).throttle = false := by
  decide +kernel

/-- Clear Hold turns the throttle off, and the lane that waits is parsed in the same step. -/
theorem test_clear_hold_serves :
    let s := (sLane 32768 (cells (camHeader 0 0 4))).setPort .p0 { PortState.reset with hold := true }
    (out (exec .headerParse s)).entries = [] ∧
    (out (exec (.clearHold .p0 1) s)).entries.map (fun e => (e.length, e.timestamp, e.key)) = [(4, some 0, true)] := by
  decide +kernel

theorem witness_PortResetRule : (sLane 8 []).takesNow .p0 = true := by decide +kernel

/-- PortResetRule's second clause: a segment that waits for port 0 alone, with nothing else waiting. -/
theorem witness_PortResetRule_segments :
    (sDone ⟨true, false, false⟩ false).takesNow .p0 = true ∧ (sDone ⟨true, false, false⟩ false).storeQueue = [] ∧
    (sDone ⟨true, false, false⟩ false).tableQueue = [] ∧ (sDone ⟨true, false, false⟩ false).throttle = false ∧
    (doneSeg ⟨true, false, false⟩ false).owedByAlone .p0 = true ∧ (doneSeg ⟨true, true, false⟩ false).owedByAlone .p0 = false ∧
    (doneSeg ⟨true, true, false⟩ false).owes .p0 = true := by decide +kernel

/-- PortResetRule's entries: a partly copied unit of port 0's lane, with the throttle off, and nothing is counted. -/
theorem witness_PortResetRule_unit :
    let s := sPayload 8 4 (some 1)
    s.takesNow .p0 = true ∧ s.throttle = false ∧ s.storeQueue = [] ∧ s.tableQueue = [] ∧ (s.lane 0).owner = some .p0 ∧
    (s.lane 0).target = some (Hd, .cam) ∧ (s.lane 0).pos = .inPayload 0 4 ∧ s.entries.map Entry.name = [⟨Hd, .cam, 0⟩] ∧
    (out (exec (.linkReset .p0) s)).entries = [] ∧
    ((out (exec (.linkReset .p0) s)).prog 5).map (fun pr => (pr.error, pr.stats)) = some (none, prog1.stats) := by decide +kernel

theorem test_port_reset :
    ((out (exec (.resetPort .p0 1) (sLane 8 []))).port .p0).responses = [⟨0x91, 1, ⟨.ok, .empty⟩⟩] ∧
    ((out (exec (.linkReset .p0) (sLane 8 []))).port .p0).responses = [] ∧
    ((out (exec (.linkReset .p0) (sLane 8 []))).lane 0).state = .free := by decide +kernel

/-- ThrottleFollowsSources: a source turns on at its high mark, stays on above its low mark and turns off at it. -/
theorem test_source_marks :
    evaluateSource acceptHigh acceptLow false 447 448 = true ∧ evaluateSource acceptHigh acceptLow true 386 385 = true ∧
    evaluateSource acceptHigh acceptLow true 385 384 = false ∧ evaluateSource acceptHigh acceptLow false 446 447 = false := by
  decide

theorem witness_ThrottleFollowsSources :
    ({ State.reset with sources := ⟨false, false, false, true⟩ } : State).throttle = true ∧
    State.reset.acceptCount ≠ (State.reset.setEntries [filling 4 none]).acceptCount ∧
    State.reset.payloadCount ≠ (State.reset.setEntries [filling 4 none]).payloadCount ∧
    State.reset.storeCount ≠ (sDone ⟨true, false, false⟩ false).storeCount ∧
    State.reset.tableCount ≠ (sDone ⟨true, false, false⟩ false).tableCount := by decide +kernel

/-- The last three clauses of ThrottleFollowsSources: a step with the throttle off, and one under a hold that stays; a header
parse that brings ACCEPT to 448 with HELD entries present; and a HELD count that equals the held limit. -/
theorem witness_ThrottleFollowsSources_steps :
    exec (.leaveProgramme .p0 1 Rh) (sDone ⟨true, false, false⟩ false) =
      .next (out (exec (.leaveProgramme .p0 1 Rh) (sDone ⟨true, false, false⟩ false))) ∧
    (sDone ⟨true, false, false⟩ false).throttle = false ∧
    (let s := (sDone ⟨true, false, false⟩ false).setPort .p1 { PortState.reset with hold := true }
     (s.port .p1).hold = true ∧ ((out (exec (.leaveProgramme .p0 1 Rh) s)).port .p1).hold = true) := by
  refine ⟨rfl, ?_, ?_⟩ <;> decide +kernel

def sAlmost (n : Nat) : State :=
  (sLane 32768 (cells (camHeader 0 0 4))).setEntries ((List.range n).map heldEntry)

theorem witness_ThrottleFollowsSources_forcing :
    (arbiterChoice (sAlmost 447)).map (fun x => (x.1, x.2.1, x.2.2.1, x.2.2.2.1.nextSeq)) = some (0, Hd, .cam, 0) ∧
    ((sAlmost 447).entries.map Entry.name).Nodup ∧ (sAlmost 447).entry ⟨Hd, .cam, 0⟩ = none ∧
    448 ≤ (sAlmost 447).acceptCount + 1 ∧ (sAlmost 447).greatestHeld 5 = some 446 ∧
    (sAlmost 64).heldCount 5 = prog1.active.heldLimit ∧ (sAlmost 64).greatestHeld 5 = some 63 ∧
    (sAlmost 63).heldCount 5 ≠ prog1.active.heldLimit := by
  refine ⟨by decide +kernel, ?_, by decide +kernel, by decide +kernel, by decide +kernel, by decide +kernel,
    by decide +kernel, by decide +kernel⟩
  have names : (sAlmost 447).entries.map Entry.name =
      (List.range 447).map (fun n => (⟨Hd, .cam, BitVec.ofNat 24 (n + 1)⟩ : ItemName)) := by
    show ((List.range 447).map heldEntry).map Entry.name = _
    rw [List.map_map]; rfl
  rw [names]
  refine List.pairwise_map.mpr (List.Pairwise.imp_of_mem ?_ List.nodup_range)
  intro a b ha hb hab h
  have k : (BitVec.ofNat 24 (a + 1)).toNat = (BitVec.ofNat 24 (b + 1)).toNat := congrArg (fun x => x.seq.toNat) h
  simp only [BitVec.toNat_ofNat, List.mem_range] at k ha hb
  omega

/-- Two lanes wait, of CAM and of AUDIO, and the Accept Queue holds 447 entries: the first header parse turns ACCEPT on. -/
def sTurn : State :=
  ((sAlmost 0).setEntries (List.replicate 447 { heldEntry 0 with granules := [] })).setLane 1
    { camLane 32768 (cells (camHeader 0 0 4 |>.set 2 3)) with target := some (Hd, .audio) }

/-- The arbiter's service of a turn-off stops there, whatever the forcing leaves, and the AUDIO lane goes on waiting (R163). -/
theorem test_turn_off_stops_after_forcing :
    ∃ s1, serveLanes 8 sTurn = forceForSupply s1 ∧ (s1.lane 0).pos = .inPayload 0 4 ∧ (s1.lane 1).pos = .atHeader ∧
      (sTurn.waiting 1).isSome = true := by
  have h : (parseNext sTurn).any (fun x => turnedOn sTurn x && decide ((x.lane 0).pos = .inPayload 0 4) &&
      decide ((x.lane 1).pos = .atHeader)) = true := by decide +kernel
  cases hn : parseNext sTurn with
  | none => rw [hn] at h; cases h
  | some s1 =>
    rw [hn] at h
    simp only [Option.any_some, Bool.and_eq_true, decide_eq_true_eq] at h
    exact ⟨s1, serveLanes_stops 7 hn h.1.1, h.1.2, h.2, by decide +kernel⟩

/-! ### The parser -/

/-- A lane that waits at a header of a unit of 4 bytes, and one at a header of another stream. -/
def sHeader (st : Byte) : State := sLane 32768 (cells ([0xE1, 0xB6, st, 0x03, 0x10, 4, 0, 0, 0, 0, 0, 0x80, 0x10, 0x0E, 0, 0] ++ [7, 8]))

theorem witness_HeaderParseTaken :
    (arbiterChoice (sHeader 1)).map (fun x => (x.1, x.2.1, x.2.2.1)) = some (0, Hd, .cam) ∧
    (sHeader 1).entry ⟨Hd, .cam, 0⟩ = none ∧ arbiterChoice sOpen = none := by decide +kernel

/-- HeaderParseTaken's choice, and the meaning of waiting, on the lane of `sHeader`. -/
theorem witness_HeaderParseTaken_choice :
    ((sHeader 1).waiting 0).isSome = true ∧ ((sHeader 1).waiting 1).isSome = false ∧ (sHeader 1).parsePtr = 0 ∧
    ((sHeader 1).setPort .p0 { PortState.reset with hold := true }).waiting 0 = none := by decide +kernel

theorem test_header_parse :
    let t := out (exec .headerParse (sHeader 1))
    t.entries.map (fun e => (e.name, e.timestamp, e.duration, e.granules)) =
      [(⟨Hd, .cam, 0⟩, some 6442450944, 3600, [0])] ∧
    (t.lane 0).pos = .inPayload 0 4 ∧ (t.lane 0).readPos = 16 ∧ t.parsePtr = 1 := by decide +kernel

theorem witness_MalformedHeaderTaken :
    ((sHeader 2).examined 0).map (fun u => u.malformed .cam) = some true ∧
    ((sHeader 2).lane 0).target = some (Hd, .cam) ∧ (sHeader 2).prog 5 = some prog1 := by decide +kernel

theorem witness_UnitCompleteTaken :
    (sPayload 8 8 (some 1)).completable 0 = some (⟨Hd, .cam, 0⟩, 8) ∧ (sPayload 8 8 (some 1)).throttle = false ∧
    (sPayload 8 8 (some 1)).prog 5 = some prog1 ∧ (prog1.stream .cam).isSome = true := by decide +kernel

/-- UnitCompleteTaken's second clause: a unit that is kept, whose entry brings the HELD count to the limit of 16 or not. -/
def progLimit : Programme := { prog1 with active := { prog1.active with heldLimit := 16 } }

def sKeep (n : Nat) : State :=
  ((sPayload 8 8 (some 1)).setProg 5 progLimit).setEntries (filling 8 (some 1) :: (List.range n).map heldEntry)

theorem witness_UnitCompleteTaken_kept :
    (sKeep 15).completable 0 = some (⟨Hd, .cam, 0⟩, 8) ∧ (sKeep 15).throttle = false ∧
    (sKeep 15).entry ⟨Hd, .cam, 0⟩ = some (filling 8 (some 1)) ∧ (sKeep 15).prog 5 = some progLimit ∧
    (progLimit.stream .cam).isSome = true ∧
    (∀ r, progLimit.stream .cam = some r → (progLimit.mapUnit r (filling 8 (some 1))).unit = some ⟨0, 1, 0, 0, 3600⟩ ∧
      (progLimit.mapUnit r (filling 8 (some 1))).limit = .kept ∧
      (progLimit.mapUnit r (filling 8 (some 1))).prog.active.heldLimit = 16) ∧
    (filling 8 (some 1)).state = .filling ∧ ((sKeep 15).entries.map Entry.name).Nodup ∧ (sKeep 15).heldCount 5 + 1 = 16 ∧
    (sKeep 14).heldCount 5 + 1 ≠ 16 := by
  refine ⟨by decide +kernel, by decide +kernel, by decide +kernel, by decide +kernel, by decide +kernel, ?_, rfl, by decide +kernel,
    by decide +kernel, by decide +kernel⟩
  intro r hr; cases hr; decide +kernel

theorem test_held_limit_forces :
    ((out (exec (.unitComplete 0) (sKeep 15))).prog 5).map (fun pr => pr.cutter.forced) = some (some 14) ∧
    ((out (exec (.unitComplete 0) (sKeep 14))).prog 5).map (fun pr => pr.cutter.forced) = some none := by decide +kernel

/-- The first unit sets the origin of its piece and is mapped to 0; it is released, dispatched and counted. -/
theorem test_unit_complete :
    let t := out (exec (.unitComplete 0) (sPayload 8 8 (some 90000)))
    t.entries.map (fun e => (e.state, e.timing, e.segment, e.segStart)) = [(.inPipe, some ⟨0, 3600, 0⟩, some 0, true)] ∧
    (t.prog 5).map (fun pr => pr.stats.mapped.cam) = some 1 := by decide +kernel

/-- PayloadCopied: two bytes of a unit of 513 that crosses from granule 9 to granule 3. -/
def sCopy : State :=
  ((sLane 8 (cells [0xAA, 0xBB])).setLane 0 { camLane 8 (cells [0xAA, 0xBB]) with pos := .inPayload 0 2 }).setEntries
    [{ filling 513 none with granules := [9, 3] }]

theorem witness_PayloadCopied :
    (sCopy.lane 0).unitName = some ⟨Hd, .cam, 0⟩ ∧ (sCopy.lane 0).pos = .inPayload 0 2 ∧
    sCopy.entry ⟨Hd, .cam, 0⟩ = some { filling 513 none with granules := [9, 3] } ∧ Mem.wf sCopy.payloadArea = true ∧
    [9, 3].Nodup ∧ 513 ≤ 512 * [9, 3].length := by decide +kernel

theorem test_payload_copied : (copyPayload 0 2 sCopy).payloadArea = [(1536, 0xBB), (5119, 0xAA)] := by decide +kernel

/-- LimitsInOrder: a unit without a timestamp that is the first of its stream, and one below 0. -/
theorem witness_LimitsInOrder :
    (sPayload 8 8 none).entry ⟨Hd, .cam, 0⟩ = some (filling 8 none) ∧ (sPayload 8 8 none).prog 5 = some prog1 ∧
    (prog1.stream .cam).isSome = true ∧
    (prog1.mapUnit (StreamRecord.atOpen true) (filling 8 none)).unit = none ∧
    (({ prog1 with pieces := [piece0 0 .nearest 0 5] } : Programme).mapUnit (StreamRecord.atOpen true)
      (filling 8 (some 4))).limit = .early := by decide +kernel

/-- LimitsInOrder's last clause: units that are kept, early, without a timestamp and beyond T_MAX, of kept settings. -/
theorem witness_LimitsInOrder_step :
    (sPayload 8 8 none).completable 0 = some (⟨Hd, .cam, 0⟩, 8) ∧ (sPayload 8 8 none).throttle = false ∧ prog1.SettingsKept ∧
    (sLate.entry ⟨Hd, .cam, 0⟩).isSome = true ∧ sLate.prog 5 = some progLate ∧ progLate.SettingsKept ∧
    (∀ r, progLate.stream .cam = some r → ∀ e, sLate.entry ⟨Hd, .cam, 0⟩ = some e →
      (progLate.mapUnit r e).raised = [.timeRange] ∧ (progLate.mapUnit r e).limit = .timeRange) := by
  refine ⟨by decide +kernel, by decide +kernel, settingsKept_of rfl rfl rfl rfl rfl (by decide) (by decide), by decide +kernel,
    by decide +kernel, ?_, ?_⟩
  · have h := settingsKept_of (pr := prog1) rfl rfl rfl rfl rfl (by decide) (by decide)
    exact ⟨h.frame, ⟨h.active.segLength, h.active.snapWindow, h.active.minLength, h.active.dwell, h.active.bitrates,
      h.active.rates, h.active.jump, h.active.gap, h.active.itemLimit, h.active.heldLimit⟩, h.cutSet, h.pieceSet, h.openSet,
      h.cutStart, h.cutsRise, h.chaptersRise⟩
  · intro r hr e he
    cases hr
    have k : sLate.entry ⟨Hd, .cam, 0⟩ = some (filling 4 (some 1)) := by decide +kernel
    rw [k] at he
    cases he
    decide +kernel

/-- The record of a reported TIME_RANGE, with its time. -/
theorem test_time_range_record :
    ((out (exec (.unitComplete 0) sLate)).prog 5).map (fun pr => (pr.error, pr.stats.timeRange, pr.stats.early)) =
      some (some ⟨.timeRange, some .cam, some 0, some 0, some 4294967296⟩, 1, 0) := by decide +kernel

/-- SlotFreeTaken: a discarding lane with a slot of 32 768 bytes. -/
def sDiscard (count : Nat) : State :=
  (sLane count []).setLane 0 { camLane count [] with discarding := true, state := .resync, readPos := 16 }

theorem witness_SlotFreeTaken :
    (sDiscard 32768).parserWorks 0 = true ∧ ((sDiscard 32768).lane 0).order = false :: [] ∧
    (((sDiscard 32768).lane 0).slot false).count = some 32768 ∧ ((sDiscard 32768).lane 0).readPos ≤ 32768 ∧
    ((sDiscard 32768).lane 0).discarding = true ∧ (sDiscard 32768).throttle = false := by decide +kernel

/-- SlotFreeTaken's other clauses: payload that goes on beyond the slot by one byte, and a slot read to its flush boundary. -/
theorem witness_SlotFreeTaken_payload :
    let s := sPayload 32768 32769 (some 1)
    s.parserWorks 0 = true ∧ (s.lane 0).order = false :: [] ∧ ((s.lane 0).slot false).count = some 32768 ∧
    (s.lane 0).readPos = 0 ∧ (s.lane 0).discarding = false ∧ (s.lane 0).unitName = some ⟨Hd, .cam, 0⟩ ∧
    (s.lane 0).pos = .inPayload 0 32769 ∧ (s.entry ⟨Hd, .cam, 0⟩).isSome = true := by decide +kernel

theorem witness_SlotFreeTaken_flush :
    let s := (sLane 8 []).setLane 0 { camLane 8 [] with readPos := 8 }
    s.parserWorks 0 = true ∧ (s.lane 0).order = false :: [] ∧ ((s.lane 0).slot false).count = some 8 ∧
    (s.lane 0).pos = .atHeader ∧ (s.lane 0).readPos = 8 := by decide +kernel

/-- FlushBoundaryTaken: in RESYNC, and in the middle of a unit. -/
theorem witness_FlushBoundaryTaken :
    (sDiscard 100).parserWorks 0 = true ∧ ((sDiscard 100).lane 0).boundary = .flush ∧
    ((sDiscard 100).lane 0).reachesBoundary = true ∧ (sDiscard 100).throttle = false ∧
    ((sPayload 8 9 (some 1)).lane 0).boundary = .flush ∧ ((sPayload 8 9 (some 1)).lane 0).reachesBoundary = true ∧
    ((sPayload 8 9 (some 1)).lane 0).discarding = false ∧ ((sPayload 8 9 (some 1)).lane 0).pos = .inPayload 0 9 := by
  decide +kernel

/-- FlushBoundaryTaken's other cases: eight bytes of a header before the boundary, and none. -/
theorem witness_FlushBoundaryTaken_header :
    ((sLane 8 []).lane 0).boundary = .flush ∧ ((sLane 8 []).lane 0).reachesBoundary = true ∧
    ((sLane 8 []).lane 0).discarding = false ∧ ((sLane 8 []).lane 0).pos = .atHeader ∧ ((sLane 8 []).lane 0).available = 8 ∧
    (let s := (sLane 8 []).setLane 0 { camLane 8 [] with readPos := 8 }
     (s.lane 0).boundary = .flush ∧ (s.lane 0).reachesBoundary = true ∧ (s.lane 0).available = 0 ∧
       s.parserWorks 0 = true ∧ s.throttle = false ∧ (s.lane 0).target = some (Hd, .cam)) := by decide +kernel

theorem test_flush_cuts_short :
    let t := out (exec (.flushBoundary 0) (sPayload 8 9 (some 1)))
    t.entries = [] ∧ (t.lane 0).state = .attached ∧ (t.lane 0).consumed = 8 ∧
    (t.prog 5).map (fun pr => pr.stats.malformedUnit) = some 1 := by decide +kernel

/-- EndOfStreamTaken: a lane whose first full slot was posted with a count of 0. -/
def sEnding : State := (sLane 0 []).setLane 0 { camLane 0 [] with state := .ending, endPosted := true }

theorem witness_EndOfStreamTaken :
    sEnding.parserWorks 0 = true ∧ (sEnding.lane 0).boundary = .eos ∧ (sEnding.lane 0).reachesBoundary = true ∧
    (sEnding.lane 0).target = some (Hd, .cam) ∧ sEnding.prog 5 = some prog1 ∧ (prog1.stream .cam).isSome = true := by
  decide +kernel

/-- EndOfStreamTaken's cases: a unit cut short, eight bytes of a header in the slot before the end, and a SLIDE stream. -/
theorem witness_EndOfStreamTaken_cases :
    (let s := sEnding.setLane 0 { camLane 0 [] with state := .ending, endPosted := true, pos := .inPayload 0 4 }
     s.parserWorks 0 = true ∧ (s.lane 0).boundary = .eos ∧ (s.lane 0).reachesBoundary = true ∧ (s.lane 0).discarding = false ∧
       (s.lane 0).pos = .inPayload 0 4 ∧ s.throttle = false) ∧
    (let s := sEnding.setLane 0 { camLane 32768 [] with
       state := .ending, endPosted := true, slot1 := ⟨some 0, []⟩, order := [false, true], readPos := 32760 }
     s.parserWorks 0 = true ∧ (s.lane 0).boundary = .eos ∧ (s.lane 0).reachesBoundary = true ∧ (s.lane 0).available = 8) ∧
    (let s := sEnding.setLane 0 { camLane 0 [] with state := .ending, endPosted := true, target := some (Hd, .slide) }
     s.parserWorks 0 = true ∧ (s.lane 0).boundary = .eos ∧ (s.lane 0).reachesBoundary = true ∧
       (prog1.stream .slide).isSome = true ∧ s.prog 5 = some prog1) := by decide +kernel

/-- While a lane discards, an end of stream behind a slot of 32 768 bytes waits until that slot has freed (R56). -/
theorem test_end_waits_for_its_slot :
    let s := sEnding.setLane 0 { camLane 32768 [] with
      state := .ending, endPosted := true, discarding := true, slot1 := ⟨some 0, []⟩, order := [false, true] }
    exec (.endOfStream 0) s = .next s ∧ ((out (exec (.slotFree 0) s)).lane 0).order = [true] ∧
    ((out (exec (.endOfStream 0) (out (exec (.slotFree 0) s)))).lane 0).state = .free := by
  refine ⟨?_, ?_, ?_⟩
  · rfl
  · decide +kernel
  · decide +kernel

/-! ### The mapper's bounds -/

/-- RoundingRule's last clause and MapperArithmetic, at the ends of their ranges. -/
theorem witness_MapperArithmetic :
    (piece0 500 .nearest 0 0).origin = some 0 ∧ mappedDuration (piece0 500 .nearest 0 0) .cam 65535 = 65568 ∧
    mappedDuration (piece0 (-500) .chop 0 0) .cam 1 = 1 ∧ unwrapStep 4294967296 0 = -4294967296 ∧
    unwrapStep 4294967295 0 = 4294967295 := by decide

/-- MapperArithmetic's stages: labels in and out of the list, a list of fifteen and one of sixteen, and first and later units. -/
def progPieces (n : Nat) : Programme :=
  { prog1 with pieces := (List.range n).map (fun j => ⟨2 * j, 3600 * j, none, 3600 * j + 1, prog1.active.pieceValues⟩) }

theorem witness_MapperArithmetic_stages :
    ((progPieces 15).pieces[7]?).map PieceRecord.label = some 14 ∧
    (∀ y ∈ (progPieces 15).pieces, y.label ≠ 29) ∧ ((progPieces 15).pieces.getLast?).map PieceRecord.label = some 28 ∧
    (progPieces 15).pieces.length = 15 ∧ 16 ≤ (progPieces 16).pieces.length ∧
    ((progPieces 16).pieces.getLast?).map PieceRecord.label = some 30 ∧ (∀ y ∈ (progPieces 16).pieces, y.label ≠ 31) ∧
    (∀ y ∈ (progPieces 16).pieces, y.label ≠ 29) ∧ 0 < (progPieces 15).frame ∧
    (StreamRecord.atOpen true).uPrev = none ∧ (camAt 180000 0 3600).uPrev = some 180000 ∧ (camAt 180000 0 3600).piece = some 0 ∧
    (unwrapStep 360000 180000).natAbs = (piece0 0 .nearest 0 0).values.jump * 3600 ∧
    (piece0 0 .nearest 0 0).values.jump * 3600 < (unwrapStep 360001 180000).natAbs ∧
    ((prog1.selectPiece 0).2.2.pieces[(prog1.selectPiece 0).1]?).isSome = true := by decide +kernel

/-- A step of exactly J·F is accepted and one tick more is a DISCONTINUITY (R69). -/
theorem test_jump_threshold :
    unwrap 3600 0 (piece0 0 .nearest 0 0) (camAt 180000 0 3600) (some 360000) = .at 360000 0 false none ∧
    unwrap 3600 0 (piece0 0 .nearest 0 0) (camAt 180000 0 3600) (some 360001) = .at 183600 (-176401) true none := by decide

/-! ### The pipes (section 6.7) -/

/-- A READY entry. -/
def ready (h : Handle) (st : Stream) (seq : BitVec 24) (segStart : Bool) : Entry :=
  { filling 4 none with
    name := ⟨h, st, seq⟩, state := .ready, timing := some ⟨1620000, 3600, 1620000⟩, segment := some 0, segStart := segStart
    revision := some 1 }

/-- The entries of section 6.7 with programme 4/7 in slot 4 and 9/2 in slot 9. -/
def s67 : State :=
  { State.reset with
    slots := (State.reset.slots.set 4 ⟨7, some prog1⟩).set 9 ⟨2, some prog1⟩
    entries := [ready ⟨4, 7⟩ .cam 300 false, ready ⟨4, 7⟩ .cam 301 true, ready ⟨4, 7⟩ .cam 302 false, ready ⟨4, 7⟩ .cam 303 false,
      ready ⟨4, 7⟩ .audio 410 true, ready ⟨9, 2⟩ .cam 50 true]
    dispatchPtr := ⟨5, 0, 0⟩ }

theorem test_dispatch_order :
    (dispatchAll s67).pipes.toList.map Pipe.view =
      [⟨1, some ⟨⟨4, 7⟩, .audio, 410⟩⟩, ⟨1, some ⟨⟨9, 2⟩, .cam, 50⟩⟩, ⟨1, some ⟨⟨4, 7⟩, .cam, 300⟩⟩, ⟨1, some ⟨⟨4, 7⟩, .cam, 301⟩⟩] ∧
    (dispatchAll s67).dispatchPtr = ⟨5, 0, 5⟩ := by decide +kernel

theorem witness_DispatchChoice : chooseEntry s67 = some (ready ⟨4, 7⟩ .audio 410 true) := by decide +kernel

/-- DispatchChoice's later clauses: the first pipe is IDLE, and, after the dispatches, none is. -/
theorem witness_DispatchChoice_pipes :
    s67.pipe 0 = .idle ∧ s67.prog 4 = some prog1 ∧ s67.isCandidate (ready ⟨4, 7⟩ .audio 410 true) = true ∧
    idlePipe (dispatchAll s67) = none ∧ chooseEntry sOpen = none ∧
    (∃ d dl, (dispatchAll s67).pipe 3 = .encoding d dl) ∧ (dispatchAll s67).throttle = false := by
  refine ⟨by decide +kernel, by decide +kernel, by decide +kernel, by decide +kernel, by decide +kernel, ?_, by decide +kernel⟩
  exact ⟨_, _, rfl⟩

/-- The watchdog of E3 expires on CAM 301: the key passes to 303, because 302 is in a pipe by then (section 6.7.2). -/
theorem test_watchdog :
    let s := (dispatchAll s67).setEntries ((dispatchAll s67).entries.map
      (fun e => if e.name.seq = 302 then { e with state := .inPipe } else e))
    let t := out (exec (.watchdogExpiry 3) s)
    (t.entry ⟨⟨4, 7⟩, .cam, 301⟩).map Entry.state = some .lost ∧
    (t.entry ⟨⟨4, 7⟩, .cam, 303⟩).map (fun e => (e.state, e.forceKey)) = some (.inPipe, true) ∧ t.now = 250 := by decide +kernel

/-- E0 encodes the one CAM unit of the programme, which has one rendition. -/
def desc : ItemDescriptor := descriptorOf 0 prog1 { filling 4 none with segment := some 0, revision := some 1 }

def sEncoding : State :=
  ((sLane 8 []).setEntries [{ filling 4 none with
    state := .inPipe, segment := some 0, revision := some 1, timing := some ⟨0, 3600, 0⟩ }]).setPipe 0 (.encoding desc 250)

/-- CompletionWaitsToStore: another pipe waits, and the count is the greatest that is no ITEM_OVERSIZE. -/
theorem witness_CompletionWaitsToStore :
    sEncoding.pipe 0 = .encoding desc 250 ∧ [(⟨1048576, []⟩ : EncodedOutput)].length = desc.renditions.length ∧
    (∀ o ∈ [(⟨1048576, []⟩ : EncodedOutput)], o.count ≤ 1048576) ∧ ({ sEncoding with storeQueue := [1] } : State).storeQueue ≠ [] ∧
    sEncoding.pipe 1 = .idle := by decide +kernel

/-- CompletionWaitsToStore: an empty queue, and room for two granules. -/
theorem witness_CompletionWaitsToStore_empty :
    sEncoding.storeQueue = [] ∧ sEncoding.storeCount + outputNeed [⟨513, []⟩] ≤ 1048576 ∧ sEncoding.throttle = false ∧
    [(⟨513, []⟩ : EncodedOutput)].length = desc.renditions.length := by decide +kernel

theorem witness_LossesTaken :
    sEncoding.pipe 0 = .encoding desc 250 ∧ (sEncoding.entry desc.item).isSome = true ∧ sEncoding.prog 5 = some prog1 ∧
    sEncoding.throttle = false ∧ (∃ o ∈ [(⟨1048577, []⟩ : EncodedOutput)], 1048576 < o.count) ∧
    [(⟨1048577, []⟩ : EncodedOutput)].length = desc.renditions.length := by decide +kernel

/-- LossesTaken's second clause: E3 of section 6.7 with a READY heir, and E0's item at the head of its stream. -/
theorem witness_LossesTaken_key :
    (let s := dispatchAll s67
     (∃ d dl, s.pipe 3 = .encoding d dl ∧ d.item = ⟨⟨4, 7⟩, .cam, 301⟩) ∧
       (s.entry ⟨⟨4, 7⟩, .cam, 301⟩).map (fun e => (e.state, e.segStart, e.segment)) = some (.inPipe, true, some 0) ∧
       s.prog 4 = some prog1 ∧ (prog1.stream .cam).isSome = true ∧ s.throttle = false ∧ (s.entries.map Entry.name).Nodup ∧
       (s.keyHeir 4 .cam (some 0)).map Entry.name = some ⟨⟨4, 7⟩, .cam, 302⟩) ∧
    (sEncoding.head 5 .cam).map Entry.name = some desc.item ∧ (sEncoding.head 5 .cam).bind Entry.segment = some 0 ∧
    (sEncoding.head 5 .cam).map Entry.state = some .inPipe ∧ (sEncoding.keyHeir 5 .cam (some 0)) = none ∧
    (prog1.stream .cam).bind StreamRecord.assembly = some ⟨some 0, .assembling⟩ ∧ (sEncoding.entries.map Entry.name).Nodup ∧
    (∃ g ∈ sEncoding.segments, g.isAt 5 0 0 = true ∧ g.status = .opened) := by
  refine ⟨⟨⟨_, _, rfl, rfl⟩, ?_, ?_, ?_, ?_, ?_, ?_⟩, ?_, ?_, ?_, ?_, ?_, ?_, ?_⟩ <;> decide +kernel

/-- A lost head retires at once, and its segment shows the gap. -/
theorem test_loss_leaves_gap :
    let t := out (exec (.watchdogExpiry 0) sEncoding)
    t.entries = [] ∧ t.segments.map (fun g => (g.rendition, g.joined, g.flags.gap, g.flags.keyLate)) =
      [(0, 1, true, false), (1, 0, false, false)] := by decide +kernel

/-- The completion of an earlier dispatch of an item of the same name changes nothing (R122). -/
theorem test_stale_completion :
    let s := sEncoding.setPipe 0 (.encoding { desc with run := 7 } 250)
    exec (.pipeCompletion 0 ⟨⟨Hd, .cam, 0⟩, 0⟩ [⟨513, []⟩]) s = .next s ∧
    (out (exec (.pipeCompletion 0 ⟨⟨Hd, .cam, 0⟩, 7⟩ [⟨513, []⟩]) s)).pipe 0 = .idle := ⟨rfl, by decide +kernel⟩

/-- A completion into an empty store queue is granted in its step: the entry retires with its bytes into the segment. -/
theorem test_completion_is_granted :
    let t := out (exec (.pipeCompletion 0 ⟨⟨Hd, .cam, 0⟩, 0⟩ [⟨513, [(0, 5), (512, 6)]⟩]) sEncoding)
    t.entries = [] ∧ t.segments.map (fun g => (g.rendition, g.parts)) = [(0, [⟨513, [0, 1]⟩]), (1, [])] ∧
    t.outputStore = [(0, 5), (512, 6)] ∧ t.pipe 0 = .idle := by decide +kernel

/-- E0 waits in the store queue with outputs of 513 bytes. -/
def sStoring : State :=
  { sEncoding.setPipe 0 (.storing desc [⟨513, []⟩]) with storeQueue := [0] }

theorem witness_StorageGrantTaken :
    sStoring.storeQueue = 0 :: [] ∧ sStoring.pipe 0 = .storing desc [⟨513, []⟩] ∧
    sStoring.storeCount + outputNeed [⟨513, []⟩] ≤ 1048576 ∧ sStoring.throttle = false ∧ sStoring.WaitQueuesExact ∧
    outputNeed [⟨513, []⟩] = 2 := by
  refine ⟨rfl, rfl, by decide +kernel, by decide +kernel, ⟨by decide +kernel, by decide +kernel, by decide +kernel⟩, by decide⟩

/-- StorageGrantTaken's third clause and GrantPlacesOutputs's second, on the same state. -/
theorem witness_StorageGrantTaken_retire :
    sStoring.storeQueue = [0] ∧ Mem.wf sStoring.outputStore = true ∧ sStoring.prog desc.item.handle.slot = some prog1 ∧
    [(⟨513, []⟩ : EncodedOutput)].length = (prog1.renditionsOf desc.item.stream).length ∧
    (sStoring.entries.map Entry.name).Nodup ∧ (sStoring.head 5 .cam).map Entry.name = some desc.item ∧
    sStoring.assembly 5 .cam = some ⟨some 0, .assembling⟩ ∧ (sStoring.head 5 .cam).bind Entry.segment = some 0 ∧
    (prog1.renditionsOf .cam)[0]? = some 0 ∧ (∃ g ∈ sStoring.segments, g.isAt 5 0 0 = true ∧ g.status = .opened) := by
  decide +kernel

/-- `n` outputs of the greatest size, of 2048 granules each. -/
def fullParts (n : Nat) : List Extent := (List.range n).map (fun k => ⟨1048576, List.range' (2048 * k) 2048⟩)

theorem fullParts_granules (n : Nat) : ((fullParts n).map (fun x => x.granules.length)).sum = n * 2048 := by
  simp [fullParts, Function.comp_def, List.map_const']

/-- The 513th item of a stream waits to store; the 512 before it have left one granule of the Output Store free, none with an
output above 1 048 576 bytes, and STORE is on. -/
def sScarce : State :=
  { (sStoring.setEntries (sStoring.entries.map (fun e => { e with name := ⟨Hd, .cam, 512⟩ }))).setPipe 0
      (.storing { desc with item := ⟨Hd, .cam, 512⟩ } [⟨513, []⟩]) with
    sources := { sStoring.sources with store := true }
    segments := [{ newSegment Hd prog1 0 0 with
      parts := fullParts 511 ++ [⟨1048064, List.range' 1046528 2047⟩], joined := 512 }, newSegment Hd prog1 0 1] }

theorem storeCount_scarce : sScarce.storeCount = 1048575 := by
  have e : sScarce.entries.flatMap Entry.outputGranules = [] := rfl
  simp only [State.storeCount, State.outputUsed, e, List.nil_append]
  simp [sScarce, newSegment, Segment.granuleList, fullParts_granules]

/-- One granule of the store is free. -/
theorem witness_StorageGrantTaken_short :
    sScarce.storeQueue = 0 :: [] ∧ sScarce.pipe 0 = .storing { desc with item := ⟨Hd, .cam, 512⟩ } [⟨513, []⟩] ∧
    1048576 < sScarce.storeCount + outputNeed [⟨513, []⟩] := by
  refine ⟨rfl, rfl, ?_⟩
  rw [storeCount_scarce]
  decide

/-- The same item, still encoding. -/
def sScarceEncoding : State :=
  { sScarce.setPipe 0 (.encoding { desc with item := ⟨Hd, .cam, 512⟩ } 250) with storeQueue := [] }

theorem storeCount_scarceEncoding : sScarceEncoding.storeCount = sScarce.storeCount := by
  simp only [sScarceEncoding, State.storeCount, State.outputUsed, State.setPipe]

/-- CompletionWaitsToStore: an empty queue, and no room. -/
theorem witness_CompletionWaitsToStore_short :
    sScarceEncoding.pipe 0 = .encoding { desc with item := ⟨Hd, .cam, 512⟩ } 250 ∧ sScarceEncoding.storeQueue = [] ∧
    1048576 < sScarceEncoding.storeCount + outputNeed [⟨513, []⟩] ∧ chooseEntry sScarceEncoding = none := by
  refine ⟨rfl, rfl, ?_, by decide +kernel⟩
  rw [storeCount_scarceEncoding, storeCount_scarce]
  decide

theorem witness_GrantPlacesOutputs :
    Mem.wf [(0, 1), (600, 2)] = true ∧
    (splitExtents (allocate [0, 2] (outputNeed [⟨513, []⟩])) [⟨513, []⟩])[0]? = some ⟨513, [1, 3]⟩ := by decide +kernel

/-- TableGrantTaken: SEGMENT 0 of CAM waits; the table has room for one entry, or none. -/
def sTable (n : Nat) : State :=
  { withProg { prog0 with state := .ingesting, revisions := [⟨1, 0, [2500, 96]⟩] } with
    tableQueue := [(5, .cam)], segments := List.replicate n { newSegment ⟨6, 1⟩ prog0 7 3 with status := .opened } }

theorem witness_TableGrantTaken :
    (sTable 2047).tableQueue = (5, .cam) :: [] ∧ (sTable 2047).assembly 5 .cam = some ⟨none, .waitingOpen⟩ ∧
    (sTable 2047).segments.length + (prog0.renditionsOf .cam).length ≤ 2048 ∧
    2048 < (sTable 2048).segments.length + (prog0.renditionsOf .cam).length := by decide +kernel

theorem test_table_grant :
    (out (exec .tableGrant (sTable 0))).assembly 5 .cam = some ⟨some 0, .assembling⟩ ∧
    (out (exec .tableGrant (sTable 0))).tableQueue = [] := by decide +kernel

/-- TableGrantTaken's third clause: the request stands once; and a stream whose head is two segments on (R135). -/
def sAdvance : State :=
  ({ withProg { prog1 with cutter := { prog1.cutter with cuts := [⟨0, false⟩, ⟨540000, true⟩, ⟨1080000, false⟩] } } with
      segments := [newSegment Hd prog1 0 0, newSegment Hd prog1 0 1], tableQueue := [(5, .cam)] }).setEntries
    [{ filling 4 none with state := .lost, granules := [], segment := some 2 }]

theorem witness_TableGrantTaken_segments :
    (sTable 2047).tableQueue.Nodup ∧ (sTable 2047).throttle = false ∧ (sTable 2047).prog 5 ≠ none ∧
    sAdvance.tableQueue = (5, .cam) :: [] ∧ sAdvance.throttle = false ∧
    sAdvance.assembly 5 .cam = some ⟨some 0, .assembling⟩ ∧
    (∃ g ∈ sAdvance.segments, g.isAt 5 0 0 = true ∧ g.status = .opened) := by decide +kernel

/-- Two advances: segment 0 closes at the first cut, segment 1 closes EMPTY with CHAPTER_START, and segment 2 takes the loss. -/
theorem test_table_grant_advances :
    let t := out (exec .tableGrant sAdvance)
    t.entries = [] ∧ t.tableQueue = [] ∧
    t.segments.map (fun g => (g.rendition, g.index, g.start, g.status)) =
      [(0, 0, 0, .closed 540000 ⟨true, false, false⟩ false), (1, 0, 0, .opened),
        (0, 1, 540000, .closed 1080000 ⟨true, false, false⟩ false), (0, 2, 1080000, .opened)] ∧
    t.segments.map (fun g => (g.flags.chapterStart, g.flags.empty, g.flags.gap)) =
      [(false, true, false), (false, false, false), (true, true, false), (false, false, true)] := by decide +kernel

/-! ### The windows a server reads (chapter 11) -/

/-- The eight bytes of a response without data, and the queue count in the take word. -/
theorem test_response_area :
    (List.range 8).map (fun i => ((sPort (fun pt => { pt with responses := [someResponse, someResponse] })).port .p0).bulkRead
      (4096 + i)) = [8, 0, 0x90, 0, 7, 0, 17, 2] ∧
    ((sPort (fun pt => { pt with responses := [someResponse, someResponse] })).port .p0).bulkRead 8188 = 2 := by decide +kernel

/-- The bounds of the regions: staging area, submit word, response area, take word and fetch window. -/
theorem test_bulk_regions :
    let pt : PortState := { PortState.reset with area := [(4087, 1)], window := [(0, 2), (65535, 3)], responses := [someResponse] }
    [4087, 4088, 4095, 4096, 4104, 8187, 8188, 8189, 8192, 327679, 327680, 393215, 393216].map pt.bulkRead =
      [1, 0, 0, 8, 0, 0, 1, 0, 0, 0, 2, 3, 0] := by decide +kernel

/-- The 40 bytes of a segment record. -/
theorem test_segment_record :
    (SegmentView.bytes ⟨0x0102, 540000, 1080000, 600, 2, some 1, ⟨true, false, false, false, true⟩, none, ⟨true, false, true⟩, false⟩) =
      [0x02, 0x01, 0, 0, 0x58, 0x02, 0, 0, 0x60, 0x3D, 0x08, 0, 0, 0, 0, 0, 0xC0, 0x7A, 0x10, 0, 0, 0, 0, 0, 2, 0, 0, 0, 1, 0, 0, 0,
        0x11, 0x05, 0xFF, 0xFF, 0, 0, 0, 0] := by decide

/-- R179: a chapter horizon of −∞ is −2^63 and of +∞ is 2^63 − 1, in eight little-endian bytes. -/
theorem test_horizon_codes : Horizon.negInf.bytes = [0, 0, 0, 0, 0, 0, 0, 0x80] ∧
    Horizon.posInf.bytes = [0xFF, 0xFF, 0xFF, 0xFF, 0xFF, 0xFF, 0xFF, 0x7F] := by decide +kernel

/-- R179: numbers in little-endian two's complement, and an absent port set as FFh. -/
theorem test_field_bytes : littleEndian 2 (-2) = [0xFE, 0xFF] ∧ littleEndian 4 540000 = [0x60, 0x3D, 0x08, 0x00] ∧
    (RespData.released true none true).fields.map (fieldBytes 7) = [[1], [0xFF], [1]] := by decide +kernel

/-- A programme of CAM alone has one rate correction (section 2.1). -/
theorem test_rates_of_set : ((prog1.active.fields ⟨true, false, false⟩).drop (6 + prog1.active.bitrates.length)).take 4 =
    [.number 1, .coded [1], .number 0, .number 50] := by decide +kernel

end Sys2Proof.Tests
end

section
/-! PROOFS. The lecture programmes of section 1.3: how a slot's generation moves (R3), and Resume Ingest (R8). Before them, what
taking a command does to the generations, when a taken command leaves nothing but its effect and its answer, and what the
running of lanes does to each lane. -/

namespace Sys2Proof.Machine

/-! ### The checks of R2 -/

/-- The checks of R2 refuse without a change, or hand a programme that stands in its slot to the command's rule. -/
theorem withWatched_cases (form : Bool) (p : Port) (h : RawHandle) (s : State) (k : SlotId → Programme → State × Reply) :
    (∃ c, withWatched form p h s k = refuse c s) ∨
      ∃ i pr, s.prog i = some pr ∧ withWatched form p h s k = k i pr := by
  unfold withWatched withHandle
  split
  · split
    · split
      · rename_i pr hp
        split
        · dsimp only
          split
          · exact .inr ⟨_, pr, hp, rfl⟩
          · exact .inl ⟨_, rfl⟩
        · exact .inl ⟨_, rfl⟩
      · exact .inl ⟨_, rfl⟩
    · exact .inl ⟨_, rfl⟩
  · exact .inl ⟨_, rfl⟩

/-! ### Generations (R3) -/

@[simp] theorem enqueue_gen (p : Port) (r : CommandRecord) (s : State) (i : SlotId) : (enqueue p r s).gen i = s.gen i := by
  unfold enqueue
  dsimp only
  split <;> rfl

/-- What closes a step reaches no generation: after a taken command they stand as the command's own rule left them. -/
theorem take_gen (p : Port) (tag : BitVec 16) (c : PortCommand) (act : State → State × Reply) (s : State) (i : SlotId) :
    (take p tag c act s).gen i = (act s).1.gen i := by
  unfold take
  rw [(kept_conclude s _).gens i]
  rfl

/-- A command whose rule keeps the generations keeps them whether it is taken or waits. -/
theorem issue_take_gen {p : Port} {tag : BitVec 16} {c : PortCommand} {act : State → State × Reply} {s t : State}
    (hact : ∀ i, (act s).1.gen i = s.gen i) (ht : issue p tag c (take p tag c act) s = .next t) (i : SlotId) :
    t.gen i = s.gen i := by
  rw [issue_eq] at ht
  cases ht
  split
  · rw [take_gen, hact]
  · exact enqueue_gen ..

/-- Behind the checks of R2 the generations are kept where the command's rule keeps them. -/
theorem withWatched_gen {form : Bool} {p : Port} {h : RawHandle} {s : State} {k : SlotId → Programme → State × Reply}
    {j : SlotId} (hk : ∀ i pr, (k i pr).1.gen j = s.gen j) : (withWatched form p h s k).1.gen j = s.gen j := by
  obtain ⟨c, hc⟩ | ⟨i, pr, -, hc⟩ := withWatched_cases form p h s k
  · rw [hc, refuse]
  · rw [hc, hk]

theorem doRetireProgramme_gen (p : Port) (h : RawHandle) (s : State) (j : SlotId) :
    (doRetireProgramme p h s).1.gen j = s.gen j := by
  unfold doRetireProgramme
  refine withWatched_gen fun i pr => ?_
  split
  · rw [okay_fst, State.freeSlot_gen]
  · rw [refuse]

theorem doAbortProgramme_gen (p : Port) (h : RawHandle) (s : State) (j : SlotId) :
    (doAbortProgramme p h s).1.gen j = s.gen j := by
  unfold doAbortProgramme
  refine withWatched_gen fun i _ => ?_
  rw [okay_fst, (kept_abortProgramme i s).gens j]

theorem reset_gen (i : SlotId) : State.reset.gen i = 0 := by simp [State.gen, State.reset]

theorem reset_prog (i : SlotId) : State.reset.prog i = none := by simp [State.prog, State.reset]

/-! ### Open Programme (R3, R4) -/

/-- The slot that an Open fills is the lowest FREE one (R4). -/
theorem freeSlotNumber_eq_some_iff (s : State) (i : SlotId) :
    freeSlotNumber s = some i ↔ s.prog i = none ∧ ∀ j, j.val < i.val → s.prog j ≠ none := by
  unfold freeSlotNumber allSlots
  rw [← Fin.find?_eq_find?_finRange, Fin.find?_eq_some_iff]
  simp only [Option.isNone_iff_eq_none, Option.isNone_eq_false_iff, Option.isSome_iff_ne_none, Fin.lt_def]

/-- Writing a slot whole gives it the generation written and leaves every other. -/
theorem fillSlot_gen (s : State) (i j : SlotId) (g : Byte) (pr : Option Programme) :
    State.gen { s with slots := s.slots.set i ⟨g, pr⟩ } j = if j = i then g else s.gen j := by
  by_cases h : j = i
  · subst h
    simp [State.gen]
  · have hv : (i : Nat) ≠ j := fun e => h (Fin.ext e.symm)
    simp [State.gen, hv, h]

/-- An Open of good form fills the lowest FREE slot, at its next generation, and answers the handle. -/
theorem doOpenProgramme_fills (p : Port) {f : BitVec 16} {ss : Byte} {rl : List RawRendition} {s : State} {i : SlotId}
    (hform : openForm f ss rl = true) (hfree : s.prog i = none) (hlow : ∀ j, j.val < i.val → s.prog j ≠ none) :
    doOpenProgramme p f ss rl s =
      ({ s with slots := s.slots.set i ⟨s.gen i + 1, some (Programme.atOpen p f ss rl)⟩ },
        ⟨if clampedFrom 0 rl = [] then .ok else .clamped, .opened ⟨i, s.gen i + 1⟩ (clampedFrom 0 rl)⟩) := by
  have hslot : freeSlotNumber s = some i := (freeSlotNumber_eq_some_iff s i).2 ⟨hfree, hlow⟩
  unfold doOpenProgramme
  rw [if_pos hform, hslot]

theorem exec_openProgramme_taken {p : Port} {s : State} (hnow : s.takesNow p = true) (tag f : BitVec 16) (ss : Byte)
    (rl : List RawRendition) : exec (.openProgramme p tag f ss rl) s =
      .next (take p tag (.openProgramme f ss rl) (doOpenProgramme p f ss rl) s) := by
  show issue p tag _ _ s = _
  rw [issue_eq, if_pos hnow]

/-- The generations after an accepted Open, and its response. -/
theorem exec_openProgramme_gen {p : Port} {tag f : BitVec 16} {ss : Byte} {rl : List RawRendition} {s t : State} {i : SlotId}
    (hnow : s.takesNow p = true) (hform : openForm f ss rl = true) (hfree : s.prog i = none)
    (hlow : ∀ j, j.val < i.val → s.prog j ≠ none) (ht : exec (.openProgramme p tag f ss rl) s = .next t) :
    (∀ j, t.gen j = if j = i then s.gen i + 1 else s.gen j) ∧
      ∃ code clamped, (t.port p).responses =
        (s.port p).responses ++ [⟨0x01, tag, ⟨code, .opened ⟨i, s.gen i + 1⟩ clamped⟩⟩] := by
  have hdo := doOpenProgramme_fills p hform hfree hlow
  rw [exec_openProgramme_taken hnow] at ht
  cases ht
  constructor
  · intro j
    rw [take_gen, hdo, fillSlot_gen]
  · rw [take_responses p p tag _ _ s (acts_openProgramme p f ss rl s), if_pos rfl, hdo]
    exact ⟨_, _, rfl⟩

/-- Settles O14: the step's end reaches no generation, so only Open's own rule moves one, and that of the filled slot alone. -/
theorem generationRule : Obligations.GenerationRule := by
  refine ⟨?opened, ?freed, reset_gen, ?first⟩
  case opened =>
    intro s t p tag f ss rl i hnow hform hfree hlow ht
    obtain ⟨hgen, code, clamped, hresp⟩ := exec_openProgramme_gen hnow hform hfree hlow ht
    have hi : t.gen i = s.gen i + 1 := by rw [hgen, if_pos rfl]
    refine ⟨?_, fun j hj => by rw [hgen, if_neg hj], code, clamped, by rw [hresp, hi]⟩
    rw [hi, BitVec.toNat_add]
    rfl
  case freed =>
    rintro s t p tag h (ht | ht)
    · exact issue_take_gen (doRetireProgramme_gen p h s) ht
    · exact issue_take_gen (doAbortProgramme_gen p h s) ht
  case first =>
    intro t p tag f ss rl hform ht
    have hport : State.reset.port p = PortState.reset := by cases p <;> rfl
    have hnow : State.reset.takesNow p = true := by rw [State.takesNow, hport]; rfl
    obtain ⟨-, code, clamped, hresp⟩ :=
      exec_openProgramme_gen hnow hform (reset_prog 0) (fun j hj => absurd hj (Nat.not_lt_zero _)) ht
    refine ⟨code, clamped, ?_⟩
    rw [hresp, hport, reset_gen]
    rfl

/-! ### Notice conditions and changes that nothing else sees -/

/-- Attention is due to a port where some programme holds a latch of it that the port does not mask (R17). -/
theorem attentionDue_iff (s : State) (p : Port) : s.attentionDue p = true ↔
    ∃ i x, (s.prog i).map Programme.latches = some x ∧ unmasked (x.get p) (s.port p).mask ≠ 0 := by
  unfold State.attentionDue State.prog
  rw [List.any_eq_true]
  constructor
  · rintro ⟨sl, hm, hd⟩
    obtain ⟨n, hn, rfl⟩ := List.getElem_of_mem hm
    split at hd
    · rename_i pr hp
      exact ⟨⟨n, by simpa using hn⟩, pr.latches, by simpa using ⟨pr, hp, rfl⟩, of_decide_eq_true hd⟩
    · cases hd
  · rintro ⟨i, x, hx, hd⟩
    obtain ⟨pr, hp, rfl⟩ := Option.map_eq_some_iff.mp hx
    refine ⟨s.slots[i], by simp, ?_⟩
    rw [hp]
    exact decide_eq_true hd

/-- A new record with the latches of the old one leaves the attention due to each port as it was. -/
theorem attentionDue_setProg {s : State} {i : SlotId} {pr pr' : Programme} (hp : s.prog i = some pr)
    (hl : pr'.latches = pr.latches) (p : Port) : (s.setProg i pr').attentionDue p = s.attentionDue p := by
  have hread : ∀ j, ((s.setProg i pr').prog j).map Programme.latches = (s.prog j).map Programme.latches := by
    intro j
    by_cases hj : j = i
    · subst hj
      rw [State.setProg_prog_same, hp, Option.map_some, Option.map_some, hl]
    · rw [State.setProg_prog_other _ _ hj]
  rw [Bool.eq_iff_iff, attentionDue_iff, attentionDue_iff, State.setProg_port]
  simp only [hread]

/-- A change from `a` to `b` that no flow-control source and no notice condition sees: counts, sources, ports and the
attention due to each port stand as they were (R160, R162, R174). -/
structure Unseen (a b : State) : Prop where
  accept : b.acceptCount = a.acceptCount
  payload : b.payloadCount = a.payloadCount
  store : b.storeCount = a.storeCount
  table : b.tableCount = a.tableCount
  sources : b.sources = a.sources
  ports : b.ports = a.ports
  attention : ∀ q, b.attentionDue q = a.attentionDue q

theorem Unseen.refl (a : State) : Unseen a a := ⟨rfl, rfl, rfl, rfl, rfl, rfl, fun _ => rfl⟩

theorem Unseen.trans {a b c : State} (h : Unseen a b) (k : Unseen b c) : Unseen a c :=
  ⟨k.accept.trans h.accept, k.payload.trans h.payload, k.store.trans h.store, k.table.trans h.table,
    k.sources.trans h.sources, k.ports.trans h.ports, fun q => (k.attention q).trans (h.attention q)⟩

theorem unseen_setProg {s : State} {i : SlotId} {pr pr' : Programme} (hp : s.prog i = some pr)
    (hl : pr'.latches = pr.latches) : Unseen s (s.setProg i pr') :=
  ⟨rfl, rfl, rfl, rfl, rfl, rfl, attentionDue_setProg hp hl⟩

/-- A response leaves the throttle, which reads the sources and the hold flags alone (R162). -/
theorem respond_throttle (p : Port) (tag code : BitVec 16) (r : Reply) (s : State) :
    (respond p tag code r s).throttle = s.throttle := by
  cases p <;> rfl

/-- A response is seen by the notice condition of its own port alone (R174). -/
theorem respond_noticeCondition_other {p q : Port} (tag code : BitVec 16) (r : Reply) (s : State) (h : q ≠ p) :
    (respond p tag code r s).noticeCondition q = s.noticeCondition q := by
  unfold State.noticeCondition State.attentionDue
  rw [respond_port_other _ _ _ _ h]
  rfl

theorem Unseen.throttle {a b : State} (h : Unseen a b) : b.throttle = a.throttle := by
  unfold State.throttle State.holdOn State.port
  rw [h.sources, h.ports]

theorem Unseen.noticeCondition {a b : State} (h : Unseen a b) (q : Port) : b.noticeCondition q = a.noticeCondition q := by
  unfold State.noticeCondition State.port
  rw [h.ports, h.attention]

/-- A taken command whose change nothing else sees leaves that change and its answer. -/
theorem take_unseen (p : Port) (tag : BitVec 16) (c : PortCommand) {act : State → State × Reply} {s b : State} {r : Reply}
    (hact : act s = (b, r)) (h : Unseen s b) : take p tag c act s = answered s p tag c.code r b := by
  have hans := take_answered p tag c act s
  rw [hact] at hans
  refine hans h.accept h.payload h.store h.table (fun ht => ?_) (fun q hq hc => ?_)
  · rw [respond_throttle, h.throttle, ht]
  · rwa [respond_noticeCondition_other _ _ _ _ hq, h.noticeCondition] at hc

/-! ### The running of lanes (R47) -/

theorem LaneRecord.serves_iff (ln : LaneRecord) (i : SlotId) :
    ln.serves i = true ↔ ∃ h st, ln.target = some (h, st) ∧ h.slot = i := by
  unfold LaneRecord.serves
  split
  · rename_i h st ht
    rw [decide_eq_true_iff]
    constructor
    · exact fun hi => ⟨h, st, ht, hi⟩
    · rintro ⟨h', st', ht', hi⟩
      rw [ht] at ht'
      cases ht'
      exact hi
  · rename_i ht
    constructor
    · intro hf
      cases hf
    · rintro ⟨h', st', ht', -⟩
      rw [ht] at ht'
      cases ht'

theorem runLanes_lane (i : SlotId) (s : State) (l : LaneId) : (runLanes i s).lane l =
    if (s.lane l).serves i = true ∧ (s.lane l).state = .attached ∧ (s.lane l).order ≠ [] then
      { s.lane l with state := .running } else s.lane l :=
  Vector.getElem_map _ _

/-- Where nothing before or after `runLanes` moves a lane, the lanes run as R47 says. -/
theorem lanesRun_of_runLanes {a b c : State} {i : SlotId} (before : b.lanes = a.lanes)
    (after : c.lanes = (runLanes i b).lanes) : LanesRun a c i := by
  intro l
  dsimp only
  have hl : c.lane l = if (a.lane l).serves i = true ∧ (a.lane l).state = .attached ∧ (a.lane l).order ≠ [] then
      { a.lane l with state := .running } else a.lane l := by
    have hb : b.lane l = a.lane l := by rw [State.lane, before]; rfl
    have hc : c.lane l = (runLanes i b).lane l := by rw [State.lane, after]; rfl
    rw [hc, runLanes_lane, hb]
  rw [hl, ← LaneRecord.serves_iff]
  constructor
  · rintro ⟨hstate, horder, hserves⟩
    exact if_pos ⟨hserves, hstate, horder⟩
  · intro hn
    exact if_neg fun ⟨hserves, hstate, horder⟩ => hn ⟨hstate, horder, hserves⟩

/-- Running lanes moves lane states alone, which no source and no notice condition reads. -/
theorem unseen_runLanes (i : SlotId) (s : State) : Unseen s (runLanes i s) :=
  ⟨rfl, rfl, rfl, rfl, rfl, rfl, fun _ => rfl⟩

/-! ### Resume Ingest (R8) -/

theorem exec_resumeIngest_taken {p : Port} {s : State} (hnow : s.takesNow p = true) (tag : BitVec 16) (h : RawHandle) :
    exec (.resumeIngest p tag h) s = .next (take p tag (.resumeIngest h) (doResumeIngest p h) s) := by
  show issue p tag _ _ s = _
  rw [issue_eq, if_pos hnow]

theorem doResumeIngest_halted {s : State} {p : Port} {h : RawHandle} {i : SlotId} {pr : Programme} (hn : Names s h i pr)
    (hw : pr.watch.get p = true) (hs : pr.state = .halted) :
    doResumeIngest p h s = okay .empty (runLanes i (s.setProg i { pr with state := .ingesting })) := by
  unfold doResumeIngest
  rw [withWatched_of_names hn hw, if_pos hs]

theorem doResumeIngest_badState {s : State} {p : Port} {h : RawHandle} {i : SlotId} {pr : Programme} (hn : Names s h i pr)
    (hw : pr.watch.get p = true) (hs : pr.state ≠ .halted) : doResumeIngest p h s = refuse .badState s := by
  unfold doResumeIngest
  rw [withWatched_of_names hn hw, if_neg hs]

/-- Settles O16: the resumed record keeps its latches and the lanes' states count for no source and no notice, so the step
leaves the command's own change and its answer. -/
theorem resumeIngestRule : Obligations.ResumeIngestRule := by
  intro s p tag h i pr hnow hn hw
  rw [exec_resumeIngest_taken hnow]
  constructor
  · intro hs
    have hunseen : Unseen s (runLanes i (s.setProg i { pr with state := .ingesting })) :=
      (unseen_setProg (pr' := { pr with state := .ingesting }) hn.prog rfl).trans (unseen_runLanes i _)
    refine ⟨?_, lanesRun_of_runLanes (s.setProg_lanes i { pr with state := .ingesting }) rfl⟩
    rw [take_unseen p tag _ (doResumeIngest_halted hn hw hs) hunseen]
    rfl
  · intro hs
    rw [take_unseen p tag _ (doResumeIngest_badState hn hw hs) (.refl s)]
    rfl

end Sys2Proof.Machine
end

section
/-! PROOFS. What SLOT_FREE frees (R45, R46, R53 to R55; O49). The three ways in which the first slot of a lane's post order
frees leave the same lane but for the parser's own fields, and the step around them ends with the notices alone. -/

namespace Sys2Proof.Machine

/-! ### The lane whose first slot has freed (R45) -/

/-- A slot that frees takes its count from the lane and may give it the fill slot; nothing else moves. -/
theorem LaneRecord.freeSlotNo_eq (ln : LaneRecord) (b : SlotNo) :
    ∃ f, ln.freeSlotNo b = { ln.setSlot b { ln.slot b with count := none } with fill := f } := by
  unfold LaneRecord.freeSlotNo LaneRecord.chooseFill
  split
  · exact ⟨_, rfl⟩
  · exact ⟨_, rfl⟩

@[simp] theorem LaneRecord.setSlot_slot_same (ln : LaneRecord) (b : SlotNo) (c : ChunkSlot) : (ln.setSlot b c).slot b = c := by
  cases b <;> rfl

@[simp] theorem LaneRecord.setSlot_owner (ln : LaneRecord) (b : SlotNo) (c : ChunkSlot) : (ln.setSlot b c).owner = ln.owner := by
  cases b <;> rfl

/-- A full slot that becomes free is one free slot more. -/
theorem LaneRecord.freeSlots_setSlot {ln : LaneRecord} {b : SlotNo} {c : Nat} (hfull : (ln.slot b).count = some c)
    (bytes : Mem) : (ln.setSlot b ⟨none, bytes⟩).freeSlots = ln.freeSlots + 1 := by
  cases b
  · have h0 : ln.slot0.count = some c := hfull
    simp [LaneRecord.freeSlots, LaneRecord.setSlot, h0, Nat.add_comm]
  · have h1 : ln.slot1.count = some c := hfull
    simp [LaneRecord.freeSlots, LaneRecord.setSlot, h1]

/-- Only the lane state is settled (R47). -/
theorem LaneRecord.settleState_eq (ln : LaneRecord) : ∃ x, ln.settleState = { ln with state := x } := by
  unfold LaneRecord.settleState
  split
  · exact ⟨_, rfl⟩
  · exact ⟨_, rfl⟩

/-- The lane `after` is the lane `ln` with the first slot `b` of its post order freed, `n` bytes of it consumed, and `rest`
left of the order (R45). -/
structure LaneRecord.FirstFreed (ln : LaneRecord) (b : SlotNo) (rest : List SlotNo) (n : Nat) (after : LaneRecord) : Prop where
  order : after.order = rest
  count : (after.slot b).count = none
  readPos : after.readPos = 0
  consumed : after.consumed = ln.consumed + BitVec.ofNat 48 n
  owner : after.owner = ln.owner
  gained : ln.freeSlots < after.freeSlots

theorem LaneRecord.firstFreed_settleState {ln : LaneRecord} {b : SlotNo} {c : Nat} (hfull : (ln.slot b).count = some c)
    (rest : List SlotNo) (n : Nat) :
    ln.FirstFreed b rest n
      { ln.freeSlotNo b with order := rest, readPos := 0, consumed := ln.consumed + BitVec.ofNat 48 n }.settleState := by
  obtain ⟨f, hf⟩ := ln.freeSlotNo_eq b
  rw [hf]
  obtain ⟨x, hx⟩ := LaneRecord.settleState_eq { ln.setSlot b { ln.slot b with count := none } with
    fill := f, order := rest, readPos := 0, consumed := ln.consumed + BitVec.ofNat 48 n }
  rw [hx]
  refine ⟨rfl, ?count, rfl, rfl, ln.setSlot_owner b _, ?gained⟩
  case count =>
    show ((ln.setSlot b { ln.slot b with count := none }).slot b).count = none
    rw [LaneRecord.setSlot_slot_same]
  case gained =>
    show ln.freeSlots < (ln.setSlot b { ln.slot b with count := none }).freeSlots
    rw [LaneRecord.freeSlots_setSlot hfull]
    exact Nat.lt_succ_self _

/-- The parser's own fields and the lane state are no part of what has freed. -/
theorem LaneRecord.FirstFreed.setParser {ln after : LaneRecord} {b : SlotNo} {rest : List SlotNo} {n : Nat}
    (h : ln.FirstFreed b rest n after) (p : ParserPos) (d : Bool) (x : LaneState) :
    ln.FirstFreed b rest n { after with pos := p, discarding := d, state := x } :=
  ⟨h.order, h.count, h.readPos, h.consumed, h.owner, h.gained⟩

theorem LaneRecord.countOf_of_full {ln : LaneRecord} {b : SlotNo} {c : Nat} (hfull : (ln.slot b).count = some c) :
    ln.countOf b = c := by
  rw [LaneRecord.countOf, hfull, Option.getD_some]

/-- Consuming nothing from a slot's start leaves every slot as it is. -/
theorem consumeFrom_zero (ln : LaneRecord) (bs : List SlotNo) : consumeFrom ln bs 0 0 = (ln, bs, 0) := by
  cases bs with
  | nil => rfl
  | cons b bs =>
    simp only [consumeFrom]
    by_cases h : ln.countOf b = 0
    · simp [h, slotBytes]
    · simp [Nat.pos_of_ne_zero h]

/-- The first case of R45: a slot of 32 768 bytes frees when its last byte is consumed. -/
theorem LaneRecord.consume_firstFreed {ln : LaneRecord} {b : SlotNo} {rest : List SlotNo} (hord : ln.order = b :: rest)
    (hfull : (ln.slot b).count = some slotBytes) :
    ln.FirstFreed b rest (slotBytes - ln.readPos) (ln.consume (slotBytes - ln.readPos)) := by
  have hstop : consumeFrom ln ln.order ln.readPos (slotBytes - ln.readPos) = (ln.freeSlotNo b, rest, 0) := by
    simp [hord, consumeFrom, LaneRecord.countOf_of_full hfull, consumeFrom_zero]
  unfold LaneRecord.consume
  rw [hstop]
  exact LaneRecord.firstFreed_settleState hfull rest _

/-- The bytes before the boundary that the first slot ends in. -/
theorem LaneRecord.available_of_first {ln : LaneRecord} {b : SlotNo} {rest : List SlotNo} {c : Nat}
    (hord : ln.order = b :: rest) (hfull : (ln.slot b).count = some c) (hc : c ≠ slotBytes) :
    ln.available = c - ln.readPos := by
  simp [LaneRecord.available, hord, LaneRecord.availableFrom, LaneRecord.countOf_of_full hfull, hc]

theorem LaneRecord.boundary_of_first {ln : LaneRecord} {b : SlotNo} {rest : List SlotNo} {c : Nat}
    (hord : ln.order = b :: rest) (hfull : (ln.slot b).count = some c) (h0 : c ≠ 0) (hc : c ≠ slotBytes) :
    ln.boundary = .flush := by
  simp [LaneRecord.boundary, hord, LaneRecord.boundaryIn, LaneRecord.countOf_of_full hfull, h0, hc]

theorem LaneRecord.boundaryFirst_of_first {ln : LaneRecord} {b : SlotNo} {rest : List SlotNo} {c : Nat}
    (hord : ln.order = b :: rest) (hfull : (ln.slot b).count = some c) (hc : c ≠ slotBytes) : ln.boundaryFirst = true := by
  simp [LaneRecord.boundaryFirst, hord, LaneRecord.countOf_of_full hfull, hc]

/-- The second case of R45: a slot that ends in a boundary frees when the boundary is acted on. -/
theorem LaneRecord.passBoundary_firstFreed {ln : LaneRecord} {b : SlotNo} {rest : List SlotNo} {c : Nat}
    (hord : ln.order = b :: rest) (hfull : (ln.slot b).count = some c) (hc : c ≠ slotBytes) :
    ln.FirstFreed b rest (c - ln.readPos) ln.passBoundary := by
  have hdrop : dropThrough ln ln.order = (ln.freeSlotNo b, rest) := by
    simp [hord, dropThrough, LaneRecord.countOf_of_full hfull, hc]
  unfold LaneRecord.passBoundary
  rw [hdrop, LaneRecord.available_of_first hord hfull hc]
  exact LaneRecord.firstFreed_settleState hfull rest _

/-- Acting on a boundary ends RESYNC (R55). -/
theorem LaneRecord.afterBoundary_state_ne_resync (ln : LaneRecord) : ln.afterBoundary.state ≠ .resync := by
  unfold LaneRecord.afterBoundary
  dsimp only
  split
  · split
    · exact LaneState.noConfusion
    · exact LaneState.noConfusion
  · assumption

/-! ### The step around a lane that gains a free slot (R46) -/

theorem setLaneSlot_eq (s : State) (o : Option Port) : ∃ ps, s.setLaneSlot o = { s with ports := ps } ∧
    (∀ q, (ps.get q).hold = (s.port q).hold) ∧ ∀ q, o = some q → (ps.get q).laneSlot = true := by
  refine ⟨(s.setLaneSlot o).ports, ?fields, fun q => ((kept_setLaneSlot s o).ports q).hold, ?latch⟩
  case fields => cases o <;> rfl
  case latch =>
    rintro q rfl
    exact congrArg PortState.laneSlot (s.setPort_port_same q _)

/-- A notice moves its port's count of notices alone. -/
theorem notify_eq (before : State) (p : Port) (s : State) : ∃ ps, notify before p s = { s with ports := ps } ∧
    ∀ q, (ps.get q).laneSlot = (s.port q).laneSlot := by
  unfold notify
  split
  · refine ⟨s.ports.set p { s.port p with noticesSent := (s.port p).noticesSent + 1 }, rfl, fun q => ?_⟩
    by_cases hq : q = p
    · subst hq
      rw [PerPort.get_set_same]
    · rw [PerPort.get_set_other _ _ hq]
      rfl
  · exact ⟨s.ports, rfl, fun _ => rfl⟩

theorem notices_eq (before s : State) : ∃ ps, notices before s = { s with ports := ps } ∧
    ∀ q, (ps.get q).laneSlot = (s.port q).laneSlot := by
  obtain ⟨ps0, h0, latch0⟩ := notify_eq before .p0 s
  obtain ⟨ps1, h1, latch1⟩ := notify_eq before .p1 { s with ports := ps0 }
  obtain ⟨ps2, h2, latch2⟩ := notify_eq before .p2 { s with ports := ps1 }
  refine ⟨ps2, ?_, fun q => (latch2 q).trans ((latch1 q).trans (latch0 q))⟩
  rw [notices, h0, h1, h2]

/-- A step that writes lanes, payload bytes and port records without their hold flags moves no count and no source, so it
only sends its notices (R160, R163, R174). -/
theorem conclude_of_holds (s : State) (lns : Vector LaneRecord 8) (m : Mem) (ps : PerPort PortState)
    (hhold : ∀ q, (ps.get q).hold = (s.port q).hold) :
    conclude s { s with lanes := lns, payloadArea := m, ports := ps } =
      notices s { s with lanes := lns, payloadArea := m, ports := ps } := by
  refine conclude_same _ _ rfl rfl rfl rfl fun ht => ?_
  have hsame : State.throttle { s with lanes := lns, payloadArea := m, ports := ps } = s.throttle := by
    simp only [State.throttle, State.holdOn, State.port] at hhold ⊢
    simp only [hhold]
  rw [hsame, ht]

/-- From `s` to `t`, lane `l` became `after` and the Payload Area `area`, and the owner's LANE_SLOT latch was set: no entry
and no programme moved. -/
structure LaneGained (s t : State) (l : LaneId) (after : LaneRecord) (area : Mem) : Prop where
  lane : t.lane l = after
  payloadArea : t.payloadArea = area
  laneSlot : ∀ q, (s.lane l).owner = some q → (t.port q).laneSlot = true
  entries : t.entries = s.entries
  progs : ∀ i, t.prog i = s.prog i

/-- The step that frees the first slot of a lane, with or without payload bytes written. -/
theorem conclude_laneGained {s : State} {l : LaneId} {b : SlotNo} {rest : List SlotNo} {n : Nat} {after : LaneRecord}
    (hfreed : (s.lane l).FirstFreed b rest n after) (m : Mem) :
    LaneGained s (conclude s (State.advanceLane { s with payloadArea := m } l (s.lane l) after)) l after m := by
  obtain ⟨ps, hset, hhold, hlatch⟩ := setLaneSlot_eq (State.setLane { s with payloadArea := m } l after) after.owner
  have hadv : State.advanceLane { s with payloadArea := m } l (s.lane l) after =
      { s with lanes := s.lanes.set l after, payloadArea := m, ports := ps } :=
    (if_pos hfreed.gained).trans hset
  rw [hadv, conclude_of_holds s _ m ps hhold]
  obtain ⟨qs, hsent, hkeep⟩ := notices_eq s { s with lanes := s.lanes.set l after, payloadArea := m, ports := ps }
  rw [hsent]
  refine ⟨s.setLane_lane_same l after, rfl, fun q hq => ?_, rfl, fun _ => rfl⟩
  exact (hkeep q).trans (hlatch q (hfreed.owner.trans hq))

/-! ### SLOT_FREE (R45) -/

theorem exec_slotFree (l : LaneId) (s : State) : exec (.slotFree l) s = execSlotFree l s := rfl

theorem exec_flushBoundary (l : LaneId) (s : State) : exec (.flushBoundary l) s = execFlushBoundary l s := rfl

/-- A discarding parser passes a slot of 32 768 bytes. -/
theorem exec_slotFree_discarding {s : State} {l : LaneId} {b : SlotNo} {rest : List SlotNo} (hworks : s.parserWorks l = true)
    (hord : (s.lane l).order = b :: rest) (hfull : ((s.lane l).slot b).count = some slotBytes)
    (hdisc : (s.lane l).discarding = true) :
    exec (.slotFree l) s = .next (conclude s
      (s.advanceLane l (s.lane l) ((s.lane l).consume (slotBytes - (s.lane l).readPos)))) := by
  rw [exec_slotFree]
  simp [execSlotFree, hord, hworks, LaneRecord.countOf_of_full hfull, hdisc]

/-- A unit goes on beyond a slot of 32 768 bytes. -/
theorem exec_slotFree_payload {s : State} {l : LaneId} {b : SlotNo} {rest : List SlotNo} {q : BitVec 24} {rem : Nat}
    (hworks : s.parserWorks l = true) (hord : (s.lane l).order = b :: rest)
    (hfull : ((s.lane l).slot b).count = some slotBytes) (hdisc : (s.lane l).discarding = false)
    (hpos : (s.lane l).pos = .inPayload q rem) (hbeyond : slotBytes - (s.lane l).readPos < rem) :
    exec (.slotFree l) s = .next (conclude s (copyPayload l (slotBytes - (s.lane l).readPos) s)) := by
  rw [exec_slotFree]
  simp [execSlotFree, hord, hworks, LaneRecord.countOf_of_full hfull, hdisc, hpos, hbeyond]

/-- A parser that discards, or stands at a header with nothing left, acts on the boundary of the first slot. -/
theorem exec_slotFree_boundary {s : State} {l : LaneId} {b : SlotNo} {rest : List SlotNo} {c : Nat}
    (hworks : s.parserWorks l = true) (hord : (s.lane l).order = b :: rest)
    (hfull : ((s.lane l).slot b).count = some c) (h0 : c ≠ 0) (hc : c ≠ slotBytes)
    (hat : (s.lane l).discarding = true ∨ ((s.lane l).pos = .atHeader ∧ c ≤ (s.lane l).readPos)) :
    exec (.slotFree l) s = .next (conclude s (actOnFlush l s)) := by
  have hleft : (s.lane l).discarding = true ∨ ((s.lane l).pos = .atHeader ∧ c - (s.lane l).readPos = 0) :=
    hat.imp_right (And.imp_right Nat.sub_eq_zero_of_le)
  rw [exec_slotFree]
  simp only [execSlotFree, hord, hworks, LaneRecord.countOf_of_full hfull, h0, hc, if_false, Bool.true_eq_false]
  exact if_pos hleft

/-- FLUSH_BOUNDARY takes place there as well (log 32). -/
theorem exec_flushBoundary_first {s : State} {l : LaneId} {b : SlotNo} {rest : List SlotNo} {c : Nat}
    (hworks : s.parserWorks l = true) (hord : (s.lane l).order = b :: rest)
    (hfull : ((s.lane l).slot b).count = some c) (h0 : c ≠ 0) (hc : c ≠ slotBytes)
    (hat : (s.lane l).discarding = true ∨ ((s.lane l).pos = .atHeader ∧ c ≤ (s.lane l).readPos)) :
    exec (.flushBoundary l) s = .next (conclude s (actOnFlush l s)) := by
  have hreach : (s.lane l).reachesBoundary = true := by
    unfold LaneRecord.reachesBoundary
    split
    · exact LaneRecord.boundaryFirst_of_first hord hfull hc
    · rename_i hdisc
      obtain ⟨hpos, hread⟩ := hat.resolve_left hdisc
      rw [hpos, LaneRecord.available_of_first hord hfull hc, Nat.sub_eq_zero_of_le hread]
      rfl
  rw [exec_flushBoundary]
  exact if_pos ⟨hworks, LaneRecord.boundary_of_first hord hfull h0 hc, hreach⟩

/-- Copying less than the rest of the payload writes granules of the unit's entry, and the unit goes on (R53). -/
theorem copyPayload_of_lt {s : State} {l : LaneId} {name : ItemName} {q : BitVec 24} {rem n : Nat} {e : Entry}
    (hname : (s.lane l).unitName = some name) (hpos : (s.lane l).pos = .inPayload q rem) (he : s.entry name = some e)
    (hlt : n < rem) :
    copyPayload l n s = State.advanceLane
      { s with payloadArea := writeGranules s.payloadArea e.granules (e.length - rem) ((s.lane l).peek n) } l (s.lane l)
      { (s.lane l).consume n with pos := .inPayload q (rem - n) } := by
  simp only [copyPayload, hname, hpos, he, if_neg (Nat.not_le_of_lt hlt)]

@[simp] theorem advanceLane_payloadArea (s : State) (l : LaneId) (before after : LaneRecord) :
    (s.advanceLane l before after).payloadArea = s.payloadArea := by
  unfold State.advanceLane
  dsimp only
  split
  · cases after.owner <;> rfl
  · rfl

/-- The step whose copying frees the first slot, in the middle of a unit. -/
theorem conclude_copyPayload_laneGained {s : State} {l : LaneId} {b : SlotNo} {rest : List SlotNo} {name : ItemName}
    {q : BitVec 24} {rem n : Nat} (hname : (s.lane l).unitName = some name) (hpos : (s.lane l).pos = .inPayload q rem)
    (hentry : (s.entry name).isSome = true) (hlt : n < rem)
    (hfreed : (s.lane l).FirstFreed b rest n ((s.lane l).consume n)) :
    LaneGained s (conclude s (copyPayload l n s)) l { (s.lane l).consume n with pos := .inPayload q (rem - n) }
      (copyPayload l n s).payloadArea := by
  obtain ⟨e, he⟩ := Option.isSome_iff_exists.mp hentry
  rw [copyPayload_of_lt hname hpos he hlt, advanceLane_payloadArea]
  exact conclude_laneGained (hfreed.setParser _ _ _) _

/-- No unit and no header is cut short while the parser discards, or between units (R54, R55). -/
theorem cutShort_none {ln : LaneRecord} (s : State)
    (h : ln.discarding = true ∨ (ln.pos = .atHeader ∧ ln.available = 0)) : cutShort ln s = s := by
  unfold cutShort
  split
  · rfl
  · rename_i hdisc
    obtain ⟨hpos, havail⟩ := h.resolve_left hdisc
    rw [hpos]
    split
    · rename_i hin
      cases hin
    · rw [if_pos havail]
    · rfl

/-- Settles O49: each clause frees the first slot of the order, by consuming its last bytes, by copying them, or with its
boundary, in a step that moves that lane and its owner's latch. -/
theorem slotFreeTaken : Obligations.SlotFreeTaken := by
  refine ⟨?discarding, ?payload, ?boundary⟩
  case discarding =>
    intro s l b rest hworks hord hfull _ hdisc
    have hfreed := LaneRecord.consume_firstFreed hord hfull
    have hstep := conclude_laneGained hfreed s.payloadArea
    refine ⟨_, exec_slotFree_discarding hworks hord hfull hdisc, ?_⟩
    rw [hstep.lane]
    exact ⟨hfreed.order, hfreed.count, hfreed.readPos, hfreed.consumed, hstep.laneSlot, hstep.entries, hstep.progs⟩
  case payload =>
    intro s l b rest n q rem hworks hord hfull _ hdisc hname hpos hlt hentry
    have hbeyond : slotBytes - (s.lane l).readPos < rem := hlt
    have hfreed := LaneRecord.consume_firstFreed hord hfull
    have hstep := conclude_copyPayload_laneGained hname hpos hentry hbeyond hfreed
    refine ⟨_, exec_slotFree_payload hworks hord hfull hdisc hpos hbeyond, ?_⟩
    rw [hstep.lane]
    exact ⟨hfreed.order, hfreed.count, hfreed.readPos, rfl, hfreed.consumed, hstep.payloadArea, hstep.laneSlot, hstep.entries,
      hstep.progs⟩
  case boundary =>
    intro s l b rest c hworks hord hfull hpos hlt hat
    have h0 : c ≠ 0 := Nat.ne_of_gt hpos
    have hc : c ≠ slotBytes := Nat.ne_of_lt hlt
    have hfreed : (s.lane l).FirstFreed b rest (c - (s.lane l).readPos) (s.lane l).afterBoundary :=
      (LaneRecord.passBoundary_firstFreed hord hfull hc).setParser _ _ _
    have hstep := conclude_laneGained hfreed s.payloadArea
    have hnone : (s.lane l).discarding = true ∨ ((s.lane l).pos = .atHeader ∧ (s.lane l).available = 0) := by
      rw [LaneRecord.available_of_first hord hfull hc]
      exact hat.imp_right (And.imp_right Nat.sub_eq_zero_of_le)
    have hact : actOnFlush l s = s.advanceLane l (s.lane l) (s.lane l).afterBoundary := cutShort_none _ hnone
    have hexec := exec_slotFree_boundary hworks hord hfull h0 hc hat
    refine ⟨hexec.trans (exec_flushBoundary_first hworks hord hfull h0 hc hat).symm, _, hexec, ?_⟩
    rw [hact, hstep.lane]
    exact ⟨hfreed.order, hfreed.count, hfreed.readPos, rfl, rfl, (s.lane l).afterBoundary_state_ne_resync, hfreed.consumed,
      hstep.laneSlot, hstep.entries, hstep.payloadArea, hstep.progs⟩

end Sys2Proof.Machine
end

section
/-! PROOFS. The rounding of a quotient by 1 000 000 (R71; O52). Both modes round a negated quantity to the negated result, so
the error and the magnitude of a rounding are those of the rounding of |a|, a question about natural numbers. -/

namespace Sys2Proof.Machine

/-! ### The modes on a natural number and on a negation -/

theorem roundMillion_nearest_natCast (n : Nat) : roundMillion .nearest n = ((2 * n + 1000000) / 2000000 : Nat) := by
  rcases Nat.eq_zero_or_pos n with rfl | hpos
  · rfl
  · simp [roundMillion, Int.sign_natCast_of_ne_zero hpos.ne']

theorem roundMillion_chop_natCast (n : Nat) : roundMillion .chop n = (n / 1000000 : Nat) := rfl

@[simp] theorem roundMillion_neg (mode : Rounding) (a : Int) : roundMillion mode (-a) = -roundMillion mode a := by
  cases mode with
  | chop => exact Int.neg_tdiv a 1000000
  | nearest => simp [roundMillion]

/-! ### A rounding has the error and the magnitude of the rounding of |a| -/

theorem natAbs_roundMillion (mode : Rounding) (a : Int) :
    (roundMillion mode a).natAbs = (roundMillion mode a.natAbs).natAbs := by
  obtain ⟨n, rfl | rfl⟩ := Int.eq_nat_or_neg a <;> simp

theorem natAbs_sub_roundMillion (mode : Rounding) (a : Int) :
    (a - roundMillion mode a * 1000000).natAbs = ((a.natAbs : Int) - roundMillion mode a.natAbs * 1000000).natAbs := by
  obtain ⟨n, rfl | rfl⟩ := Int.eq_nat_or_neg a
  · rw [Int.natAbs_natCast]
  · rw [roundMillion_neg, Int.natAbs_neg, Int.natAbs_natCast]
    omega

/-! ### NEAREST -/

theorem roundMillion_nearest_error_le_half (a : Int) : 2 * (a - roundMillion .nearest a * 1000000).natAbs ≤ 1000000 := by
  rw [natAbs_sub_roundMillion, roundMillion_nearest_natCast]
  omega

/-- A half goes away from zero. -/
theorem roundMillion_nearest_half {a : Int} (half : 2 * (a - roundMillion .nearest a * 1000000).natAbs = 1000000) :
    a.natAbs < (roundMillion .nearest a).natAbs * 1000000 := by
  rw [natAbs_sub_roundMillion, roundMillion_nearest_natCast] at half
  rw [natAbs_roundMillion, roundMillion_nearest_natCast]
  omega

/-! ### CHOP -/

theorem roundMillion_chop_error_lt (a : Int) : (a - roundMillion .chop a * 1000000).natAbs < 1000000 := by
  rw [natAbs_sub_roundMillion, roundMillion_chop_natCast]
  omega

/-- CHOP goes toward zero. -/
theorem roundMillion_chop_natAbs_le (a : Int) : (roundMillion .chop a).natAbs * 1000000 ≤ a.natAbs := by
  rw [natAbs_roundMillion, roundMillion_chop_natCast]
  exact Nat.div_mul_le_self a.natAbs 1000000

theorem roundMillion_chop_sign (a : Int) : roundMillion .chop a = 0 ∨ (0 < roundMillion .chop a ↔ 0 < a) := by
  obtain ⟨n, rfl | rfl⟩ := Int.eq_nat_or_neg a
  · rw [roundMillion_chop_natCast]
    omega
  · rw [roundMillion_neg, roundMillion_chop_natCast]
    omega

/-! ### The mode of a unit's piece -/

/-- In a piece that has its origin, the correction is rounded in the piece's own mode (R71, R72). -/
theorem programmeTime_of_origin {piece : PieceRecord} {o : Int} (horigin : piece.origin = some o) (st : Stream) (u : Int) :
    programmeTime piece st u = piece.offset + (u - o) +
      roundMillion piece.values.rounding ((u - o) * piece.values.rates.get st) := by
  rw [programmeTime, horigin, Option.getD_some]

/-- Settles O52: the error and the magnitude of each mode, and the sum around a piece's correction. -/
theorem roundingRule : Obligations.RoundingRule := by
  refine ⟨fun a => ⟨?nearest, ?chop⟩, fun piece st u o horigin => programmeTime_of_origin horigin st u⟩
  case nearest => exact ⟨_, rfl, roundMillion_nearest_error_le_half a, roundMillion_nearest_half⟩
  case chop => exact ⟨_, rfl, roundMillion_chop_error_lt a, roundMillion_chop_natAbs_le a, roundMillion_chop_sign a⟩

end Sys2Proof.Machine
end

section
/-! PROOFS. Read Chapters (R95; O36). The checks of R2 decide its outcome, no outcome changes the state, and the entries of its
answer are a window of the chapter list numbered from 0. -/

namespace Sys2Proof.Machine

/-! ### The refusals of R2 -/

/-- A command of bad form is MALFORMED whatever its handle names. -/
theorem withWatched_malformed (p : Port) (h : RawHandle) (s : State) (k : SlotId → Programme → State × Reply) :
    withWatched false p h s k = refuse .malformed s := by
  unfold withWatched withHandle
  split <;> rfl

theorem withWatched_notWatching {s : State} {p : Port} {h : RawHandle} {i : SlotId} {pr : Programme} (hn : Names s h i pr)
    (hw : pr.watch.get p = false) (k : SlotId → Programme → State × Reply) :
    withWatched true p h s k = refuse .notWatching s := by
  unfold withWatched
  rw [withHandle_of_names hn, hw, if_neg Bool.false_ne_true]

/-! ### The entries -/

/-- The model's numbering is the library's. -/
theorem numberFrom_eq_map_zipIdx (xs : List Chapter) (n : Nat) : numberFrom n xs = (xs.zipIdx n).map Prod.swap := by
  induction xs generalizing n with
  | nil => rfl
  | cons x xs ih => rw [numberFrom, ih, List.zipIdx_cons, List.map_cons, Prod.swap_prod_mk]

@[simp] theorem numberFrom_length (n : Nat) (xs : List Chapter) : (numberFrom n xs).length = xs.length := by
  rw [numberFrom_eq_map_zipIdx, List.length_map, List.length_zipIdx]

theorem numberFrom_getElem? (n j : Nat) (xs : List Chapter) :
    (numberFrom n xs)[j]? = xs[j]?.map fun ch => (n + j, ch) := by
  rw [numberFrom_eq_map_zipIdx, List.getElem?_map, List.getElem?_zipIdx, Option.map_map]
  rfl

/-- At most sixteen entries, none from a start at or beyond the count. -/
theorem chaptersView_entries_length (pr : Programme) (start : Nat) :
    (chaptersView pr start).entries.length = min 16 (pr.cutter.chapters.length - start) := by
  rw [chaptersView, List.length_take, List.length_drop, numberFrom_length]

/-- Each entry is the chapter at its own chapter index, the indices counted on from the start. -/
theorem of_chaptersView_entries {pr : Programme} {start n : Nat} {e : Nat × Chapter}
    (he : (chaptersView pr start).entries[n]? = some e) :
    e.1 = start + n ∧ pr.cutter.chapters[e.1]? = some e.2 := by
  rw [chaptersView, List.getElem?_take, Option.ite_none_right_eq_some, List.getElem?_drop, numberFrom_getElem?,
    Nat.zero_add] at he
  obtain ⟨ch, hch, rfl⟩ := Option.map_eq_some_iff.mp he.2
  exact ⟨rfl, hch⟩

/-! ### The command -/

theorem doReadChapters_malformed (p : Port) (h : RawHandle) {start : BitVec 16} (hform : 127 < start.toNat) (s : State) :
    doReadChapters p h start s = refuse .malformed s := by
  rw [doReadChapters, decide_eq_false hform.not_ge, withWatched_malformed]

theorem doReadChapters_notWatching {s : State} {p : Port} {h : RawHandle} {start : BitVec 16} {i : SlotId} {pr : Programme}
    (hform : start.toNat ≤ 127) (hn : Names s h i pr) (hw : pr.watch.get p = false) :
    doReadChapters p h start s = refuse .notWatching s := by
  rw [doReadChapters, decide_eq_true hform, withWatched_notWatching hn hw]

theorem doReadChapters_okay {s : State} {p : Port} {h : RawHandle} {start : BitVec 16} {i : SlotId} {pr : Programme}
    (hform : start.toNat ≤ 127) (hn : Names s h i pr) (hw : pr.watch.get p = true) :
    doReadChapters p h start s = okay (.chapters (chaptersView pr start.toNat)) s := by
  rw [doReadChapters, decide_eq_true hform, withWatched_of_names hn hw]

/-- A Read Chapters that is taken and changes nothing leaves its answer alone. -/
theorem exec_readChapters_answered {p : Port} {h : RawHandle} {start : BitVec 16} {s : State} {r : Reply}
    (hnow : s.takesNow p = true) (hdo : doReadChapters p h start s = (s, r)) (tag : BitVec 16) :
    exec (.readChapters p tag h start) s = .next (answered s p tag 0x41 r s) := by
  show issue p tag _ _ s = _
  rw [issue_eq, if_pos hnow, take_unseen p tag _ hdo (.refl s)]
  rfl

/-- Settles O36: each of the three outcomes keeps the state, and the answer is the view of the programme's own lists. -/
theorem readChaptersRule : Obligations.ReadChaptersRule := by
  intro s p tag h start i pr hnow hn
  refine ⟨fun hform => ?malformed, fun hform hw => ?notWatching, fun hform hw => ?okay⟩
  case malformed => exact exec_readChapters_answered hnow (doReadChapters_malformed p h hform s) tag
  case notWatching => exact exec_readChapters_answered hnow (doReadChapters_notWatching hform hn hw) tag
  case okay =>
    exact ⟨chaptersView pr start.toNat, exec_readChapters_answered hnow (doReadChapters_okay hform hn hw) tag,
      rfl, rfl, rfl, rfl, rfl, rfl, chaptersView_entries_length pr start.toNat, fun _ _ => of_chaptersView_entries⟩

end Sys2Proof.Machine
end

section
/-! PROOFS. The overflow indication (R170; O9). A full command queue discards what arrives and sets it; Device Status reports
it and clears it. That nothing else but a reset clears it is one relation, `OverflowStays`, carried through each command's rule
and each event: the work inside the part leaves the ports' records, and a command writes its own port's other fields. -/

namespace Sys2Proof.Machine

/-! ### An indication that stays -/

/-- From `a` to `b` the overflow indication of port `q` is not cleared. -/
def OverflowStays (q : Port) (a b : State) : Prop := (a.port q).overflow = true → (b.port q).overflow = true

theorem OverflowStays.refl (q : Port) (a : State) : OverflowStays q a a := id

theorem OverflowStays.trans {q : Port} {a b c : State} (h : OverflowStays q a b) (k : OverflowStays q b c) :
    OverflowStays q a c :=
  fun ha => k (h ha)

/-- Ports with the same records show the same indication. -/
theorem PortState.SameRecords.overflowStays {q : Port} {a b : State} (h : PortState.SameRecords (a.port q) (b.port q)) :
    OverflowStays q a b :=
  fun ha => h.overflow.trans ha

/-- Work inside the part leaves every port's indication. -/
theorem Kept.overflowStays {a b : State} (h : Kept a b) (q : Port) : OverflowStays q a b := (h.ports q).overflowStays

theorem overflowStays_setPort {p q : Port} {s : State} {pt : PortState}
    (h : q = p → (s.port p).overflow = true → pt.overflow = true) : OverflowStays q s (s.setPort p pt) := by
  intro hs
  by_cases hq : q = p
  · subst hq
    rw [State.setPort_port_same]
    exact h rfl hs
  · rwa [State.setPort_port_other _ _ hq]

/-- A programme record holds no indication. -/
theorem overflowStays_setProg (q : Port) (s : State) (i : SlotId) (pr : Programme) : OverflowStays q s (s.setProg i pr) := id

theorem overflowStays_setLane (q : Port) (s : State) (l : LaneId) (ln : LaneRecord) : OverflowStays q s (s.setLane l ln) := id

/-- Where a step from `s` ends in a next state, the indication of port `q` stays to it. -/
def KeepsOverflow (q : Port) (s : State) (o : Host.Outcome State Fault Refusal) : Prop :=
  ∀ t, o = .next t → OverflowStays q s t

theorem OverflowStays.next {q : Port} {s b : State} (h : OverflowStays q s b) : KeepsOverflow q s (.next b) := by
  rintro t ht
  cases ht
  exact h

theorem KeepsOverflow.same (q : Port) (s : State) : KeepsOverflow q s (.next s) := (OverflowStays.refl q s).next

/-! ### The checks before a command's rule -/

section Checks

variable {q : Port} {s : State}

theorem overflowStays_withHandle {form : Bool} {h : RawHandle} {k : SlotId → Programme → State × Reply}
    (hk : ∀ i pr, OverflowStays q s (k i pr).1) : OverflowStays q s (withHandle form h s k).1 := by
  unfold withHandle
  split
  · split
    · split
      · split
        · exact hk _ _
        · exact .refl q s
      · exact .refl q s
    · exact .refl q s
  · exact .refl q s

theorem overflowStays_withWatched {form : Bool} {p : Port} {h : RawHandle} {k : SlotId → Programme → State × Reply}
    (hk : ∀ i pr, OverflowStays q s (k i pr).1) : OverflowStays q s (withWatched form p h s k).1 := by
  refine overflowStays_withHandle fun i pr => ?_
  split
  · exact hk i pr
  · exact .refl q s

theorem overflowStays_withLane {b : Byte} {k : LaneId → State × Reply} (hk : ∀ l, OverflowStays q s (k l).1) :
    OverflowStays q s (withLane b s k).1 := by
  unfold withLane
  split
  · exact hk _
  · exact .refl q s

theorem overflowStays_withRendition {form : Bool} {h : RawHandle} {rend : Byte}
    {k : SlotId → Programme → AssemblyRecord → State × Reply} (hk : ∀ i pr a, OverflowStays q s (k i pr a).1) :
    OverflowStays q s (withRendition form h rend s k).1 := by
  refine overflowStays_withHandle fun i pr => ?_
  split
  · exact .refl q s
  · split
    · exact hk _ _ _
    · exact .refl q s

theorem overflowStays_withSegment {form : Bool} {h : RawHandle} {rend : Byte} {idx : BitVec 32}
    {k : SlotId → Segment → State × Reply} (hk : ∀ i g, OverflowStays q s (k i g).1) :
    OverflowStays q s (withSegment form h rend idx s k).1 := by
  refine overflowStays_withRendition fun i pr a => ?_
  split
  · exact .refl q s
  · exact .refl q s
  · exact .refl q s
  · exact hk _ _

end Checks

/-! ### The commands' rules

Every rule but those of Device Status and Reset Port leaves the indication of every port, its own included. -/

section Rules

variable (p q : Port) (s : State)

theorem overflowStays_openProgramme (f : BitVec 16) (ss : Byte) (rl : List RawRendition) :
    OverflowStays q s (doOpenProgramme p f ss rl s).1 := by
  unfold doOpenProgramme
  split
  · split
    · exact .refl q s
    · exact .refl q s
  · exact .refl q s

theorem overflowStays_startIngest (h : RawHandle) : OverflowStays q s (doStartIngest p h s).1 := by
  refine overflowStays_withWatched fun i pr => ?_
  split
  · exact (overflowStays_setProg q s i _).trans (((Kept.foldl _ (fun s st => kept_requestFirst i pr st s) _ _).trans
      (kept_runLanes i _)).overflowStays q)
  · exact .refl q s

theorem overflowStays_resumeIngest (h : RawHandle) : OverflowStays q s (doResumeIngest p h s).1 := by
  refine overflowStays_withWatched fun i pr => ?_
  split
  · exact (overflowStays_setProg q s i _).trans ((kept_runLanes i _).overflowStays q)
  · exact .refl q s

theorem overflowStays_closeIngest (h : RawHandle) : OverflowStays q s (doCloseIngest p h s).1 := by
  unfold doCloseIngest
  refine overflowStays_withWatched fun i pr => ?_
  split
  · rw [okay_fst]
    exact (kept_closeIngest i s).overflowStays q
  · exact .refl q s

theorem overflowStays_retireProgramme (h : RawHandle) : OverflowStays q s (doRetireProgramme p h s).1 := by
  refine overflowStays_withWatched fun i pr => ?_
  split
  · exact (kept_freeSlot s i).overflowStays q
  · exact .refl q s

theorem overflowStays_abortProgramme (h : RawHandle) : OverflowStays q s (doAbortProgramme p h s).1 := by
  unfold doAbortProgramme
  refine overflowStays_withWatched fun i _ => ?_
  rw [okay_fst]
  exact (kept_abortProgramme i s).overflowStays q

theorem overflowStays_watchProgramme (h : RawHandle) : OverflowStays q s (doWatchProgramme p h s).1 :=
  overflowStays_withHandle fun i pr => overflowStays_setProg q s i (pr.join p)

theorem overflowStays_leaveProgramme (h : RawHandle) : OverflowStays q s (doLeaveProgramme p h s).1 :=
  overflowStays_withWatched fun i pr =>
    (overflowStays_setProg q s i (pr.depart p)).trans ((kept_leavePending p _ _).overflowStays q)

theorem overflowStays_stageSettings (h : RawHandle) (renew : Byte) (fs : List RawField) :
    OverflowStays q s (doStageSettings p h renew fs s).1 := by
  unfold doStageSettings
  split
  · exact .refl q s
  · refine overflowStays_withWatched fun i pr => ?_
    split
    · exact overflowStays_setPort fun _ => id
    · exact .refl q s

theorem overflowStays_readStaging : OverflowStays q s (doReadStaging p s).1 := by
  unfold doReadStaging
  split
  · exact .refl q s
  · exact .refl q s

theorem overflowStays_commitSettings (h : RawHandle) (rev : BitVec 32) :
    OverflowStays q s (doCommitSettings p h rev s).1 := by
  refine overflowStays_withWatched fun i pr => ?_
  split
  · exact .refl q s
  · split
    · exact .refl q s
    · split
      · exact .refl q s
      · split
        · exact .refl q s
        · split
          · exact .refl q s
          · have hcommit (x : Programme) :
                OverflowStays q s ((s.setProg i x).setPort p { s.port p with staging := none }) :=
              (overflowStays_setProg q s i x).trans (overflowStays_setPort fun _ => id)
            exact (hcommit _).trans ((kept_forceAtCommit i _ _).overflowStays q)

theorem overflowStays_attachLane (h : RawHandle) (code : Byte) : OverflowStays q s (doAttachLane p h code s).1 := by
  unfold doAttachLane
  split
  · exact .refl q s
  · refine overflowStays_withWatched fun i pr => ?_
    split
    · split
      · exact .refl q s
      · split
        · exact .refl q s
        · split
          · exact .refl q s
          · exact ((overflowStays_setLane q s _ _).trans (overflowStays_setProg q _ i _)).trans
              ((kept_setLaneSlot _ (some p)).overflowStays q)
    · exact .refl q s

theorem overflowStays_detachLane (b : Byte) : OverflowStays q s (doDetachLane p b s).1 := by
  refine overflowStays_withLane fun l => ?_
  split
  · exact .refl q s
  · split
    · exact .refl q s
    · split
      · exact (kept_removeLane l s).overflowStays q
      · exact .refl q s

theorem overflowStays_postChunk (b : Byte) (n : BitVec 16) : OverflowStays q s (doPostChunk p b n s).1 := by
  refine overflowStays_withLane fun l => ?_
  dsimp only
  split
  · exact .refl q s
  · split
    · exact .refl q s
    · split
      · exact .refl q s
      · split
        · exact .refl q s
        · exact overflowStays_setLane q s l _

theorem overflowStays_laneStatus (b : Byte) : OverflowStays q s (doLaneStatus p b s).1 := by
  refine overflowStays_withLane fun l => ?_
  split
  · exact .refl q s
  · exact .refl q s

theorem overflowStays_insertChapter (h : RawHandle) (t : BitVec 32) : OverflowStays q s (doInsertChapter p h t s).1 := by
  refine overflowStays_withWatched fun i pr => ?_
  dsimp only
  split
  · exact .refl q s
  · split
    · exact .refl q s
    · split
      · exact .refl q s
      · split
        · exact .refl q s
        · exact (overflowStays_setProg q s i _).trans (((kept_passes i _).trans (kept_dispatchAll _)).overflowStays q)

theorem overflowStays_readChapters (h : RawHandle) (start : BitVec 16) : OverflowStays q s (doReadChapters p h start s).1 :=
  overflowStays_withWatched fun _ _ => .refl q s

theorem overflowStays_listSegments (h : RawHandle) (rend : Byte) (idx : BitVec 32) :
    OverflowStays q s (doListSegments h rend idx s).1 :=
  overflowStays_withRendition fun _ _ _ => .refl q s

theorem overflowStays_fetchSegment (h : RawHandle) (rend : Byte) (idx offset length : BitVec 32) :
    OverflowStays q s (doFetchSegment p h rend idx offset length s).1 :=
  overflowStays_withSegment fun _ _ => overflowStays_setPort fun _ => id

theorem overflowStays_releaseSegment (h : RawHandle) (rend : Byte) (idx : BitVec 32) :
    OverflowStays q s (doReleaseSegment p h rend idx s).1 := by
  refine overflowStays_withSegment fun _ g => ?_
  have hdrop : OverflowStays q s (afterFreeing (s.dropSegment g)) := (kept_afterFreeing (s.dropSegment g)).overflowStays q
  split
  · exact .refl q s
  · split
    · exact hdrop
    · split
      · split
        · exact hdrop
        · exact .refl q s
      · exact .refl q s

theorem overflowStays_programmeStatus (h : RawHandle) : OverflowStays q s (doProgrammeStatus p h s).1 :=
  overflowStays_withHandle fun _ _ => .refl q s

theorem overflowStays_readError (h : RawHandle) : OverflowStays q s (doReadError p h s).1 :=
  overflowStays_withWatched fun _ _ => .refl q s

theorem overflowStays_clearError (h : RawHandle) : OverflowStays q s (doClearError p h s).1 :=
  overflowStays_withWatched fun i _ => overflowStays_setProg q s i _

theorem overflowStays_nextAttention (start kinds : Byte) : OverflowStays q s (doNextAttention p start kinds s).1 := by
  unfold doNextAttention
  split
  · exact .refl q s
  · exact .refl q s

theorem overflowStays_clearLaneSlot (flag : Byte) : OverflowStays q s (clearLaneSlot p flag s) := by
  unfold clearLaneSlot
  split
  · exact overflowStays_setPort fun _ => id
  · exact .refl q s

theorem overflowStays_clearAttention (h : Option RawHandle) (kinds flag : Byte) :
    OverflowStays q s (doClearAttention p h kinds flag s).1 := by
  cases h with
  | none =>
    unfold doClearAttention
    dsimp only
    split
    · exact overflowStays_clearLaneSlot p q s flag
    · exact .refl q s
  | some h =>
    exact overflowStays_withWatched fun i _ =>
      (overflowStays_setProg q s i _).trans (overflowStays_clearLaneSlot p q _ flag)

theorem overflowStays_setAttentionMask (kinds : Byte) : OverflowStays q s (doSetAttentionMask p kinds s).1 := by
  unfold doSetAttentionMask
  split
  · exact overflowStays_setPort fun _ => id
  · exact .refl q s

theorem overflowStays_setHold : OverflowStays q s (doSetHold p s).1 := overflowStays_setPort fun _ => id

theorem overflowStays_clearHold : OverflowStays q s (doClearHold p s).1 := overflowStays_setPort fun _ => id

/-- Device Status clears the indication of its own port alone (R170). -/
theorem overflowStays_deviceStatus (h : q ≠ p) : OverflowStays q s (doDeviceStatus p s).1 :=
  ((acts_deviceStatus p s).others q h).overflowStays

end Rules

/-! ### Port reset (R177) -/

/-- A port reset clears the indication of its own port alone. -/
theorem overflowStays_portReset {p q : Port} (h : q ≠ p) (s : State) : OverflowStays q s (portReset p s) := by
  have hlanes := (kept_removeLanesWhere (fun ln => decide (ln.owner = some p)) s).overflowStays q
  have hport (t : State) : OverflowStays q t (t.setPort p (t.port p).portReset) :=
    overflowStays_setPort fun hq => absurd hq h
  have hdepart (t : State) : OverflowStays q t (departAll p t) := id
  exact ((hlanes.trans (hport _)).trans (hdepart _)).trans ((kept_leavePending p _ _).overflowStays q)

theorem overflowStays_respond (p q : Port) (tag code : BitVec 16) (r : Reply) (s : State) :
    OverflowStays q s (respond p tag code r s) :=
  overflowStays_setPort fun _ => id

/-- What closes a step reaches no indication. -/
theorem OverflowStays.conclude {q : Port} {s b : State} (h : OverflowStays q s b) : OverflowStays q s (conclude s b) :=
  h.trans ((kept_conclude s b).overflowStays q)

theorem overflowStays_takeResetPort {p q : Port} (h : q ≠ p) (tag : BitVec 16) (s : State) :
    OverflowStays q s (takeResetPort p tag s) :=
  ((overflowStays_portReset h s).conclude.trans (overflowStays_respond p q tag _ _ _)).trans
    ((kept_notices _ _).overflowStays q)

/-! ### Taking commands (R169 to R172) -/

theorem overflowStays_take {q : Port} {s : State} {act : State → State × Reply} (h : OverflowStays q s (act s).1)
    (p : Port) (tag : BitVec 16) (c : PortCommand) : OverflowStays q s (take p tag c act s) :=
  (h.trans (overflowStays_respond p q tag c.code (act s).2 (act s).1)).conclude

/-- Taking a command clears no indication but that of its own port, and that only as Device Status or Reset Port. -/
theorem overflowStays_takeCommand {p q : Port} {c : PortCommand} (hown : q = p → c ≠ .deviceStatus ∧ c ≠ .resetPort)
    (tag : BitVec 16) (s : State) : OverflowStays q s (takeCommand p tag c s) := by
  cases c with
  | openProgramme f ss rl => exact overflowStays_take (overflowStays_openProgramme p q s f ss rl) p tag _
  | startIngest h => exact overflowStays_take (overflowStays_startIngest p q s h) p tag _
  | resumeIngest h => exact overflowStays_take (overflowStays_resumeIngest p q s h) p tag _
  | closeIngest h => exact overflowStays_take (overflowStays_closeIngest p q s h) p tag _
  | retireProgramme h => exact overflowStays_take (overflowStays_retireProgramme p q s h) p tag _
  | abortProgramme h => exact overflowStays_take (overflowStays_abortProgramme p q s h) p tag _
  | watchProgramme h => exact overflowStays_take (overflowStays_watchProgramme p q s h) p tag _
  | leaveProgramme h => exact overflowStays_take (overflowStays_leaveProgramme p q s h) p tag _
  | stageSettings h r fs => exact overflowStays_take (overflowStays_stageSettings p q s h r fs) p tag _
  | readStaging => exact overflowStays_take (overflowStays_readStaging p q s) p tag _
  | commitSettings h r => exact overflowStays_take (overflowStays_commitSettings p q s h r) p tag _
  | attachLane h st => exact overflowStays_take (overflowStays_attachLane p q s h st) p tag _
  | detachLane l => exact overflowStays_take (overflowStays_detachLane p q s l) p tag _
  | postChunk l n => exact overflowStays_take (overflowStays_postChunk p q s l n) p tag _
  | laneStatus l => exact overflowStays_take (overflowStays_laneStatus p q s l) p tag _
  | insertChapter h t => exact overflowStays_take (overflowStays_insertChapter p q s h t) p tag _
  | readChapters h i => exact overflowStays_take (overflowStays_readChapters p q s h i) p tag _
  | listSegments h r i => exact overflowStays_take (overflowStays_listSegments q s h r i) p tag _
  | fetchSegment h r i o n => exact overflowStays_take (overflowStays_fetchSegment p q s h r i o n) p tag _
  | releaseSegment h r i => exact overflowStays_take (overflowStays_releaseSegment p q s h r i) p tag _
  | programmeStatus h => exact overflowStays_take (overflowStays_programmeStatus p q s h) p tag _
  | readError h => exact overflowStays_take (overflowStays_readError p q s h) p tag _
  | clearError h => exact overflowStays_take (overflowStays_clearError p q s h) p tag _
  | nextAttention i k => exact overflowStays_take (overflowStays_nextAttention p q s i k) p tag _
  | clearAttention h k l => exact overflowStays_take (overflowStays_clearAttention p q s h k l) p tag _
  | setAttentionMask k => exact overflowStays_take (overflowStays_setAttentionMask p q s k) p tag _
  | setHold => exact overflowStays_take (overflowStays_setHold p q s) p tag _
  | clearHold => exact overflowStays_take (overflowStays_clearHold p q s) p tag _
  | deviceStatus => exact overflowStays_take (overflowStays_deviceStatus p q s fun hq => (hown hq).1 rfl) p tag _
  | resetPort => exact overflowStays_takeResetPort (fun hq => (hown hq).2 rfl) tag s

theorem overflowStays_takeRecord {p q : Port} (h : q ≠ p) (r : CommandRecord) (s : State) :
    OverflowStays q s (takeRecord p r s) := by
  unfold takeRecord
  split
  · exact overflowStays_takeCommand (fun hq => absurd hq h) _ s
  · exact (overflowStays_respond p q _ _ _ s).conclude

theorem overflowStays_takeQueued {p q : Port} (h : q ≠ p) (fuel : Nat) (s : State) :
    OverflowStays q s (takeQueued p fuel s) := by
  induction fuel generalizing s with
  | zero => exact .refl q s
  | succ fuel ih =>
    unfold takeQueued
    split
    · exact .refl q s
    · split
      · exact ((overflowStays_setPort fun hq => absurd hq h).trans (overflowStays_takeRecord h _ _)).trans (ih _)
      · exact .refl q s

/-! ### The arrival of a command (R169, R170) -/

/-- A record that finds sixteen waiting is discarded and sets the indication (R170). -/
theorem enqueue_full {p : Port} {s : State} (hfull : (s.port p).commands.length = 16) (r : CommandRecord) :
    enqueue p r s = s.setPort p { s.port p with overflow := true } := by
  unfold enqueue
  exact if_neg (by rw [hfull]; decide)

theorem overflowStays_enqueue (p q : Port) (r : CommandRecord) (s : State) : OverflowStays q s (enqueue p r s) := by
  unfold enqueue
  dsimp only
  split
  · exact overflowStays_setPort fun _ => id
  · exact overflowStays_setPort fun _ _ => rfl

/-- A command row is the arrival of its command: what `takeCommand` makes of it, or its record in the queue. -/
theorem exec_command {c : Instr} {p : Port} {tag : BitVec 16} {k : PortCommand} (hc : c.command = some (p, tag, k))
    (s : State) : exec c s = issue p tag k (takeCommand p tag k) s := by
  cases c <;> cases hc <;> rfl

theorem keepsOverflow_command {c : Instr} {p q : Port} {tag : BitVec 16} {k : PortCommand}
    (hc : c.command = some (p, tag, k)) (h : q = p → k ≠ .deviceStatus ∧ k ≠ .resetPort) (s : State) :
    KeepsOverflow q s (exec c s) := by
  rw [exec_command hc, issue_eq]
  split
  · exact (overflowStays_takeCommand h tag s).next
  · exact (overflowStays_enqueue p q _ s).next

/-! ### The rows that are no port command -/

section Rows

variable {q : Port} (s : State)

theorem keepsOverflow_submitWord {p : Port} (h : q ≠ p) (v : BitVec 32) : KeepsOverflow q s (execSubmitWord p v s) := by
  refine OverflowStays.next ?_
  have harrive := overflowStays_enqueue p q (stagedRecord (s.port p) v.toNat) s
  split
  · exact harrive.trans (overflowStays_takeQueued h _ _)
  · exact harrive

theorem keepsOverflow_takeWord {p : Port} (h : q ≠ p) (v : BitVec 32) : KeepsOverflow q s (execTakeWord p v s) := by
  unfold execTakeWord
  split
  · exact .same q s
  · exact ((overflowStays_setPort fun hq => absurd hq h).trans (overflowStays_takeQueued h _ _)).next

theorem keepsOverflow_fillWindowWrite (p : Port) (l : LaneId) (offset : Nat) (bytes : List Byte) :
    KeepsOverflow q s (execFillWindowWrite p l offset bytes s) := by
  unfold execFillWindowWrite
  dsimp only
  split
  · split
    · exact (overflowStays_setLane q s l _).next
    · exact .same q s
  · exact .same q s

theorem keepsOverflow_bulkWindowWrite (p : Port) (offset : Nat) (bytes : List Byte) :
    KeepsOverflow q s (execBulkWindowWrite p offset bytes s) :=
  OverflowStays.next (b := s.setPort p _) (overflowStays_setPort fun _ hs => hs)

theorem keepsOverflow_linkReset {p : Port} (h : q ≠ p) : KeepsOverflow q s (execLinkReset p s) :=
  (overflowStays_portReset h s).conclude.next

theorem keepsOverflow_headerParse : KeepsOverflow q s (execHeaderParse s) :=
  (((kept_serveLane s).trans (kept_notices s _)).overflowStays q).next

theorem keepsOverflow_malformedHeader (l : LaneId) : KeepsOverflow q s (execMalformedHeader l s) :=
  ((kept_malformedAt l s).overflowStays q).conclude.next

theorem keepsOverflow_unitComplete (l : LaneId) : KeepsOverflow q s (execUnitComplete l s) := by
  unfold execUnitComplete
  split
  · have hwork (n : ItemName) (rem : Nat) : Kept s (dispatchAll (mapStep n (copyPayload l rem s))) :=
      ((kept_copyPayload l rem s).trans (kept_mapStep n _)).trans (kept_dispatchAll _)
    exact ((hwork _ _).overflowStays q).conclude.next
  · exact .same q s

theorem keepsOverflow_slotFree (l : LaneId) : KeepsOverflow q s (execSlotFree l s) := by
  unfold execSlotFree
  dsimp only
  split
  · exact .same q s
  · split
    · exact .same q s
    · split
      · split
        · exact ((kept_advanceLane s l _ _ fun hc => hc.consume _).overflowStays q).conclude.next
        · split
          · split
            · exact ((kept_copyPayload l _ s).overflowStays q).conclude.next
            · exact .same q s
          · exact .same q s
      · split
        · exact .same q s
        · split
          · exact ((kept_actOnFlush l s).overflowStays q).conclude.next
          · exact .same q s

theorem keepsOverflow_flushBoundary (l : LaneId) : KeepsOverflow q s (execFlushBoundary l s) := by
  unfold execFlushBoundary
  split
  · exact ((kept_actOnFlush l s).overflowStays q).conclude.next
  · exact .same q s

theorem keepsOverflow_endOfStream (l : LaneId) : KeepsOverflow q s (execEndOfStream l s) := by
  unfold execEndOfStream
  split
  · split
    · exact ((((kept_cutShort _ s).trans (kept_endStream l _ _ _)).trans
        (kept_dispatchAll _)).overflowStays q).conclude.next
    · exact .same q s
  · exact .same q s

theorem overflowStays_completeItem (e : PipeId) (d : ItemDescriptor) (outputs : List EncodedOutput) :
    OverflowStays q s (completeItem e d outputs s) := by
  have hpipe (x : Pipe) (w : List PipeId) : OverflowStays q s { s.setPipe e x with storeQueue := w } := id
  unfold completeItem
  dsimp only
  split
  · exact (hpipe .idle s.storeQueue).trans (((kept_loseEntry _ _ _).trans (kept_dispatchAll _)).overflowStays q)
  · split
    · exact (hpipe _ _).trans (((kept_examineStore _).trans (kept_dispatchAll _)).overflowStays q)
    · exact hpipe _ _

theorem keepsOverflow_pipeCompletion (e : PipeId) (item : Encoding) (outputs : List EncodedOutput) :
    KeepsOverflow q s (execPipeCompletion e item outputs s) := by
  unfold execPipeCompletion
  split
  · split
    · exact (overflowStays_completeItem s e _ outputs).conclude.next
    · exact .same q s
  · exact .same q s
  · exact .same q s

theorem keepsOverflow_watchdogExpiry (e : PipeId) : KeepsOverflow q s (execWatchdogExpiry e s) := by
  have hpipe (n : Nat) : OverflowStays q s { s.setPipe e .idle with now := n } := id
  unfold execWatchdogExpiry
  split
  · exact ((hpipe _).trans (((kept_loseEntry _ _ _).trans (kept_dispatchAll _)).overflowStays q)).conclude.next
  · exact .same q s
  · exact .same q s

theorem keepsOverflow_storageGrant : KeepsOverflow q s (execStorageGrant s) := by
  unfold execStorageGrant
  split
  · exact (((kept_examineStore s).trans (kept_dispatchAll _)).overflowStays q).conclude.next
  · exact .same q s

theorem keepsOverflow_tableGrant : KeepsOverflow q s (execTableGrant s) := by
  unfold execTableGrant
  split
  · exact ((kept_examineTable s).overflowStays q).conclude.next
  · exact .same q s

end Rows

/-! ### Every row -/

/-- The rows that can clear the indication of port `p`: its Device Status, the resets of R177 and R178, and the words that may
take one of its queued commands. -/
inductive ClearsOverflow (p : Port) : Instr → Prop
  | deviceStatus (tag : BitVec 16) : ClearsOverflow p (.deviceStatus p tag)
  | resetPort (tag : BitVec 16) : ClearsOverflow p (.resetPort p tag)
  | linkReset : ClearsOverflow p (.linkReset p)
  | deviceReset : ClearsOverflow p .deviceReset
  | submitWord (v : BitVec 32) : ClearsOverflow p (.submitWord p v)
  | takeWord (v : BitVec 32) : ClearsOverflow p (.takeWord p v)

theorem clearsOverflow_of_command {c : Instr} {p : Port} {tag : BitVec 16} {k : PortCommand}
    (hc : c.command = some (p, tag, k)) (hk : k = .deviceStatus ∨ k = .resetPort) : ClearsOverflow p c := by
  rcases hk with rfl | rfl
  · cases c <;> cases hc
    exact .deviceStatus tag
  · cases c <;> cases hc
    exact .resetPort tag

/-- Every other row leaves it set. -/
theorem keepsOverflow_exec {c : Instr} {p : Port} (hc : ¬ ClearsOverflow p c) (s : State) :
    KeepsOverflow p s (exec c s) := by
  cases hcmd : c.command with
  | some x =>
    obtain ⟨q, tag, k⟩ := x
    refine keepsOverflow_command hcmd (fun hq => ?_) s
    subst hq
    exact not_or.mp fun hk => hc (clearsOverflow_of_command hcmd hk)
  | none =>
    cases c
    case submitWord q v => exact keepsOverflow_submitWord s (fun (hq : p = q) => hc (hq ▸ .submitWord v)) v
    case takeWord q v => exact keepsOverflow_takeWord s (fun (hq : p = q) => hc (hq ▸ .takeWord v)) v
    case linkReset q => exact keepsOverflow_linkReset s fun (hq : p = q) => hc (hq ▸ .linkReset)
    case deviceReset => exact absurd .deviceReset hc
    case fillWindowWrite q l offset bytes => exact keepsOverflow_fillWindowWrite s q l offset bytes
    case bulkWindowWrite q offset bytes => exact keepsOverflow_bulkWindowWrite s q offset bytes
    case headerParse => exact keepsOverflow_headerParse s
    case malformedHeader l => exact keepsOverflow_malformedHeader s l
    case unitComplete l => exact keepsOverflow_unitComplete s l
    case slotFree l => exact keepsOverflow_slotFree s l
    case flushBoundary l => exact keepsOverflow_flushBoundary s l
    case endOfStream l => exact keepsOverflow_endOfStream s l
    case pipeCompletion e item outputs => exact keepsOverflow_pipeCompletion s e item outputs
    case watchdogExpiry e => exact keepsOverflow_watchdogExpiry s e
    case storageGrant => exact keepsOverflow_storageGrant s
    case tableGrant => exact keepsOverflow_tableGrant s
    all_goals cases hcmd

/-! ### The indication set and reported (R170, R175) -/

theorem exec_submitWord_full {s : State} {p : Port} (hfull : (s.port p).commands.length = 16) (v : BitVec 32) :
    exec (.submitWord p v) s = .next (s.setPort p { s.port p with overflow := true }) := by
  have hwaits : (s.port p).commands.isEmpty = false := by
    rw [List.isEmpty_eq_false_iff, ← List.length_pos_iff, hfull]
    decide
  show execSubmitWord p v s = _
  unfold execSubmitWord
  rw [hwaits, enqueue_full hfull]
  rfl

theorem deviceView_overflow (s : State) (p : Port) : ((deviceView s).ports.get p).overflow = (s.port p).overflow := by
  cases p <;> rfl

theorem setOverflow_throttle (s : State) (p : Port) (b : Bool) :
    (s.setPort p { s.port p with overflow := b }).throttle = s.throttle := by
  cases p <;> rfl

theorem setOverflow_noticeCondition (s : State) (p q : Port) (b : Bool) :
    (s.setPort p { s.port p with overflow := b }).noticeCondition q = s.noticeCondition q := by
  cases p <;> cases q <;> rfl

/-- A taken Device Status answers the device as it stood, with the indication that it clears, and changes nothing else: no
source and no notice condition reads the indication. -/
theorem exec_deviceStatus_taken {s : State} {p : Port} (hnow : s.takesNow p = true) (tag : BitVec 16) :
    exec (.deviceStatus p tag) s = .next (answered s p tag 0x90 ⟨.ok, .device (deviceView s)⟩
      (s.setPort p { s.port p with overflow := false })) := by
  rw [exec_command rfl, issue_eq, if_pos hnow]
  refine congrArg Host.Outcome.next (take_answered p tag .deviceStatus (doDeviceStatus p) s rfl rfl rfl rfl
    (fun hthr => ?throttle) fun q hq hnotice => ?notices)
  case throttle => rwa [respond_throttle, doDeviceStatus, okay_fst, setOverflow_throttle]
  case notices =>
    rwa [respond_noticeCondition_other _ _ _ _ hq, doDeviceStatus, okay_fst, setOverflow_noticeCondition] at hnotice

/-- Settles O9: a row that is none of those that can clear the indication leaves it set. -/
theorem overflowIndication : Obligations.OverflowIndication := by
  refine ⟨fun _ _ v hfull => exec_submitWord_full hfull v, fun _ _ tag hnow => exec_deviceStatus_taken hnow tag,
    deviceView_overflow, fun c s t p hset ht hclear => ?_⟩
  have hclears : ClearsOverflow p c := by
    by_contra hc
    have hstays : (t.port p).overflow = true := keepsOverflow_exec hc s t ht hset
    rw [hclear] at hstays
    cases hstays
  cases hclears with
  | deviceStatus tag => exact .inl ⟨tag, rfl⟩
  | resetPort tag => exact .inr (.inl ⟨tag, rfl⟩)
  | linkReset => exact .inr (.inr (.inl rfl))
  | deviceReset => exact .inr (.inr (.inr (.inl rfl)))
  | submitWord v => exact .inr (.inr (.inr (.inr (.inl ⟨v, rfl⟩))))
  | takeWord v => exact .inr (.inr (.inr (.inr (.inr ⟨v, rfl⟩))))

end Sys2Proof.Machine
end
